-- ==== Sys2Proof/Word.lean ====
section
/-! DEFINITION. The word types of the link and of the records (spec/11, R197), and the fixed-length table
that the record stores of the bridge are held in. -/

namespace Sys2Proof

/-- One 16-bit link word (R197). -/
abbrev LinkWord := BitVec 16

/-- One 32-bit record word (R197, R203). -/
abbrev Word := BitVec 32

/-- A store of exactly `n` records, kept in index order. -/
structure Table (α : Type) (n : Nat) where
  toList : List α
  size_eq : toList.length = n
  deriving DecidableEq, Repr

/-- The record at an index. -/
def Table.get {α : Type} {n : Nat} (t : Table α n) (i : Fin n) : α :=
  t.toList.get (i.cast t.size_eq.symm)

/-- The table with one record replaced. -/
def Table.set {α : Type} {n : Nat} (t : Table α n) (i : Fin n) (a : α) : Table α n :=
  ⟨t.toList.set i.val a, by simp [t.size_eq]⟩

/-- The table with one record changed by a function. -/
def Table.modify {α : Type} {n : Nat} (t : Table α n) (i : Fin n) (f : α → α) : Table α n :=
  t.set i (f (t.get i))

/-- The table with every record changed by the same function. -/
def Table.map {α : Type} {n : Nat} (t : Table α n) (f : α → α) : Table α n :=
  ⟨t.toList.map f, by simp [t.size_eq]⟩

/-- The table that holds the same record at every index. -/
def Table.replicate {α : Type} (n : Nat) (a : α) : Table α n :=
  ⟨List.replicate n a, by simp⟩

/-- The table that holds `f i` at index `i`. -/
def Table.ofFn {α : Type} {n : Nat} (f : Fin n → α) : Table α n :=
  ⟨List.ofFn f, by simp⟩

end Sys2Proof
end

