-- ==== Sys2Proof/Syntax.lean ====
section
/-! DEFINITION. The commands of the bridge: one constructor of `Instr` per row of spec/opcode_table.json. -/

namespace Sys2Proof

/-- The two link ports: C faces the coordinator, D faces the drives (spec/00, Table 9-1). -/
inductive Port
  | c
  | d
  deriving DecidableEq, Repr

/-- The five kinds of line symbol (R25). -/
inductive Symbol
  | word (w : LinkWord)
  | startMark
  | endMark
  | abortMark
  | idle
  deriving DecidableEq, Repr

/-- The pieces of work that one cycle close brings, with the expiry of the cycle timer that may fall at the same
instant. R149 and R167 let each be taken before or after the others, but for the order inside the runner block's own
operation (R137) and for an expiry after the restart, which does not occur (R43). -/
inductive CloseAct
  /-- The cycle timer restarts (R43). -/
  | restart
  /-- The cycle period is stored (R45). -/
  | period
  /-- The frame's cycle number is stored (R46). -/
  | number
  /-- The rewriter commits (R19). -/
  | commit
  /-- A report fail is handed over when Port D is STUCK (R36). -/
  | stuckReport
  /-- The runner block's operation, with the requests it takes (R137). -/
  | runners
  /-- Every other request of the frame is executed (R166, R167). -/
  | request
  /-- An expiry of the cycle timer that falls at the same instant, taken before the restart (R43, R92, R149). -/
  | expiry
  deriving DecidableEq, Repr

/-- The commands: one constructor per row of spec/opcode_table.json. The fields of a request are those that R168
says its kind reads, with the tag. -/
inductive Instr
  /-- HARDWARE_RESET (R181): `straps` is what NA0 to NA5 read while it lasts. -/
  | hardwareReset (straps : BitVec 6)
  /-- RESET_END (R182): `straps` is what NA0 to NA5 read at that moment. -/
  | resetEnd (straps : BitVec 6)
  /-- SWITCH_IN (R184). -/
  | switchIn
  /-- PASSIVE_SYMBOL (R26): a symbol at a port while the relay joins the ports. -/
  | passiveSymbol (p : Port) (sym : Symbol)
  /-- KEY_INPUT_CHANGE (R187): the KEY input now reads `on`. -/
  | keyInputChange (on : Bool)
  /-- KEY_CHANGE (R187): the raw key level has held for 20 ms. -/
  | keyChange
  /-- WBRK_INPUT_CHANGE (R93): the WBRK contact is now closed, or open. -/
  | wbrkInputChange (closed : Bool)
  /-- BREAK_ONSET (R94): the raw WBRK level has held asserted for 0.5 ms. -/
  | breakOnset
  /-- BREAK_END (R93): the raw WBRK level has held released for 0.5 ms. -/
  | breakEnd
  /-- START_MARK (R27). -/
  | startMark (p : Port)
  /-- DATA_WORD (R28). -/
  | dataWord (p : Port) (w : LinkWord)
  /-- ABORT_MARK (R33). -/
  | abortMark (p : Port)
  /-- IDLE_SYMBOL (R27). -/
  | idleSymbol (p : Port)
  /-- TRANSMIT_SYMBOL (R31): the transmitter of port `p` sends one symbol. -/
  | transmitSymbol (p : Port)
  /-- CYCLE_CLOSE (R30): the end mark that closes the cycle frame, with the order in which its work is taken. -/
  | cycleClose (order : List CloseAct)
  /-- CYCLE_FAIL (R20): an end mark that fails the cycle frame. -/
  | cycleFail
  /-- REPORT_CLOSE (R52): the end mark that closes the report frame. -/
  | reportClose
  /-- REPORT_FAIL (R53): an end mark that fails the report frame. -/
  | reportFail
  /-- LINE_STUCK (R35): no line transition at port `p` for 1 ms. -/
  | lineStuck (p : Port)
  /-- LINE_RECOVERY (R35): the first line transition at a STUCK receiver. -/
  | lineRecovery (p : Port)
  /-- CYCLE_TIMEOUT (R43): the cycle timer's remaining time has run out. -/
  | cycleTimeout
  /-- RAMP_COMPLETE (R118). -/
  | rampComplete (r : Fin 4)
  /-- DWELL_EXPIRY (R120). -/
  | dwellExpiry (r : Fin 4)
  /-- WAIT_TIMEOUT (R122). -/
  | waitTimeout (r : Fin 4)
  /-- READ (R170). -/
  | read (tag region : BitVec 8) (record offset : BitVec 16) (count : BitVec 8)
  /-- RING_STREAM_READ (R158); the word offset is not used. -/
  | ringStreamRead (tag : BitVec 8) (count : BitVec 8)
  /-- WRITE (R171) to a region with no write behaviour of its own. -/
  | write (tag region : BitVec 8) (record offset : BitVec 16) (data : List Word)
  /-- SECTION_WRITE (R3). -/
  | sectionWrite (tag : BitVec 8) (record offset : BitVec 16) (data : List Word)
  /-- SET_WRITE (R66). -/
  | setWrite (tag : BitVec 8) (record offset : BitVec 16) (data : List Word)
  /-- PROGRAM_WRITE (R113). -/
  | programWrite (tag : BitVec 8) (record offset : BitVec 16) (data : List Word)
  /-- EVENTS_WRITE (R175). -/
  | eventsWrite (tag : BitVec 8) (record offset : BitVec 16) (data : List Word)
  /-- BRIDGE_WRITE (R44). -/
  | bridgeWrite (tag : BitVec 8) (record offset : BitVec 16) (data : List Word)
  /-- ENGAGE (R189). -/
  | engage (tag : BitVec 8)
  /-- DISENGAGE (R190). -/
  | disengage (tag : BitVec 8)
  /-- START (R136): the record index is the runner, the word offset the step index. -/
  | start (tag : BitVec 8) (runner step : BitVec 16) (sections : List Word)
  /-- STOP (R146). -/
  | stop (tag : BitVec 8) (runner : BitVec 16)
  /-- CLOSE (R148). -/
  | close (tag : BitVec 8) (runner : BitVec 16)
  /-- RELEASE (R103). -/
  | release (tag : BitVec 8) (sect : BitVec 16)
  /-- TRIP (R98). -/
  | trip (tag : BitVec 8) (sect : BitVec 16)
  /-- SIGNAL (R142). -/
  | signal (tag : BitVec 8) (mark : BitVec 16) (data : List Word)
  /-- CLEAR (R177). -/
  | clear (tag : BitVec 8) (items : List Word)
  /-- PROTECT (R176). -/
  | protect (tag : BitVec 8) (group : BitVec 16) (data : List Word)
  /-- BADREQUEST (R169): a request of an unknown kind. -/
  | badRequest (tag kind : BitVec 8)
  /-- END_MARK (R34): an end mark at an inline receiver; where it closes a cycle frame the order is as in
  `cycleClose`. -/
  | endMark (p : Port) (order : List CloseAct)
  deriving DecidableEq, Repr

end Sys2Proof
end

