-- ==== Sys2Proof/Decode.lean ====
section
/-! DEFINITION. The command that a word of the opcode table spells. No row of spec/opcode_table.json gives bits (its
rows are events of the bridge), so no word spells a command (log 24). -/

namespace Sys2Proof

/-- The command that the bits `w` of a row spell: none, since no row gives bits. -/
def decodeTableWord (_nbits _w : Nat) : Option Instr := none

end Sys2Proof
end

