-- ==== Sys2Proof/Machine/Arith.lean ====
section
/-! DEFINITION. The arithmetic of spec/00 section 5.2: exact integers, one rounding, one truncation, one clamp, and
the storing of a result at its stated width. -/

namespace Sys2Proof.Machine

/-- "Rounded" (spec/00 section 5.2): the nearest integer to `a / b`, ties away from zero. -/
def roundDiv (a : Int) (b : Nat) : Int :=
  if 0 ≤ a then (2 * a + b) / (2 * b) else -((2 * (-a) + b) / (2 * b))

/-- "Truncated" (spec/00 section 5.2): `a / b` rounded toward zero. -/
def truncDiv (a : Int) (b : Nat) : Int := Int.tdiv a b

/-- "Clamped to [lo, hi]" (spec/00 section 5.2). -/
def clampInt (lo hi x : Int) : Int := if x < lo then lo else if hi < x then hi else x

/-- A signed value stored in 32 bits (R17, R75, R203). -/
def s32 (x : Int) : Word := BitVec.ofInt 32 x

/-- A count that increases by one and saturates at the largest value of its width (R54, R57, R79, R157). -/
def satInc {w : Nat} (c : BitVec w) : BitVec w := if c = BitVec.allOnes w then c else c + 1

/-- The magnitude of an integer. -/
def mag (x : Int) : Int := if 0 ≤ x then x else -x

/-- The index of a table of `n` records, when it is one. -/
def index? (n k : Nat) : Option (Fin n) := if h : k < n then some ⟨k, h⟩ else none

end Sys2Proof.Machine
end

