-- ==== Sys2Proof/Config.lean ====
section
/-! DEFINITION. What the manual leaves open, as constants without a body, and the unit of the model's clock. -/

namespace Sys2Proof

/-- DESIGN CHOICE (log 8). The choices the manual leaves open inside one command, numbered in the order in which
they arise. Nothing constrains them: `State.clock.choices` counts how many have been taken. -/
opaque Config.choice : Nat → Nat

/-- DESIGN CHOICE (log 2). The clock counts half microseconds: the coarsest unit in which the rounding that R45
asks for can act. -/
def Config.ticksPerMicrosecond : Nat := 2

end Sys2Proof
end

