-- ==== Sys2Proof/Machine/State.lean ====
section
/-! DEFINITION. The state of the bridge, block by block as spec/00 Table 2-1 names the owners, the state after a
hardware reset, and the two (unused) ways a step could stop. -/

namespace Sys2Proof.Machine

/-! ### Mode control (spec/10) -/

/-- The bridge mode (R181). -/
inductive Mode
  | relayed
  | standby
  | engaged
  deriving DecidableEq, Repr

/-- The bypass relay (R181). -/
inductive Relay
  | closed
  | opened
  deriving DecidableEq, Repr

/-- An input filter (R93, R187): the raw level of the pin, the filtered state, and the instant from which the
filter's interval counts. -/
structure InputFilter where
  raw : Bool
  filtered : Bool
  changedAt : Nat
  deriving DecidableEq, Repr

/-- The state of mode control (Table 10-1). -/
structure ModeControl where
  mode : Mode
  relay : Relay
  /-- The hardware reset is asserted (R181). -/
  resetHeld : Bool
  strap : BitVec 6
  key : InputFilter
  deriving DecidableEq, Repr

/-! ### Fields of entries -/

/-- The three fields of a reference entry after its node address (Table 11-2). -/
structure RefFields where
  speed : Word
  command : LinkWord
  torque : LinkWord
  deriving DecidableEq, Repr

/-! ### Section table (spec/01) -/

/-- The section modes (R7). -/
inductive SectionMode
  | pass
  | active
  deriving DecidableEq, Repr

/-- The override functions (R14). -/
inductive OverrideFn
  | replace
  | and
  | or
  | xor
  deriving DecidableEq, Repr

/-- The cutoff actions (R13). -/
inductive Cutoff
  | hold
  | strip
  | stop
  | ignore
  deriving DecidableEq, Repr

/-- The setting fields of a section record (Table 1-1, Table 11-7). -/
structure SectionSettings where
  valid : Bool
  node : BitVec 6
  mode : SectionMode
  draw : Word
  trimLimit : Word
  slewLimit : Word
  overrideValue : LinkWord
  overrideMask : LinkWord
  overrideFn : OverrideFn
  vMin : Word
  vMax : Word
  torqueCap : LinkWord
  stopValue : LinkWord
  stopMask : LinkWord
  cutoff : Cutoff
  breakResponse : Bool
  devLimit : Word
  devPersist : BitVec 8
  fbLimit : BitVec 8
  faultValue : LinkWord
  faultCare : LinkWord
  deriving DecidableEq, Repr

/-- Table 1-2. -/
def SectionSettings.afterReset : SectionSettings :=
  { valid := false, node := 0, mode := .pass, draw := 0, trimLimit := 0, slewLimit := 1,
    overrideValue := 0, overrideMask := 0, overrideFn := .replace,
    vMin := BitVec.ofInt 32 (-3000000), vMax := BitVec.ofInt 32 3000000,
    torqueCap := 4000, stopValue := 0, stopMask := 0, cutoff := .hold, breakResponse := false,
    devLimit := 0, devPersist := 1, fbLimit := 3, faultValue := 0, faultCare := 0 }

/-! ### Reference rewriter (spec/01) -/

/-- One section's part of the snapshot (R8). -/
structure SnapEntry where
  valid : Bool
  node : BitVec 6
  mode : SectionMode
  tripped : Bool
  draw : Word
  trimLimit : Word
  slewLimit : Word
  vMin : Word
  vMax : Word
  torqueCap : LinkWord
  overrideValue : LinkWord
  overrideMask : LinkWord
  overrideFn : OverrideFn
  stopValue : LinkWord
  stopMask : LinkWord
  cutoff : Cutoff
  share : Word
  inject : Word
  trimPrev : Word
  lastOut : Option RefFields
  deriving DecidableEq, Repr

/-- What the frame in flight will commit for one section (R19): the computed trim of a rewritten entry, the
fields sent, and the inbound fields. -/
structure Commit where
  trim : Option Word
  sent : RefFields
  inbound : RefFields
  deriving DecidableEq, Repr

/-- The rewriter's status words of one section (R4, R6) and its mark "trim set since start" (R9). -/
structure RewriteStatus where
  trim : Word
  lastIn : RefFields
  lastOut : Option RefFields
  mark : Bool
  deriving DecidableEq, Repr

/-- The values of a new section (R4), with the mark clear. -/
def RewriteStatus.fresh : RewriteStatus :=
  { trim := 0, lastIn := ⟨0, 0, 0⟩, lastOut := none, mark := false }

/-- The state of the reference rewriter. -/
structure Rewriter where
  snap : Table SnapEntry 32
  sec : Table RewriteStatus 32
  treated : Table (Option Commit) 32
  deriving DecidableEq, Repr

/-! ### Feedback banks (spec/03) -/

/-- A present feedback record (Table 3-1); an absent one is `none`. -/
structure Feedback where
  status : LinkWord
  speed : Word
  torque : LinkWord
  cycle : BitVec 16
  deriving DecidableEq, Repr

/-- The missing count (R54) and the deviation persistence count (R57) of one section. -/
structure FeedbackCounts where
  missing : BitVec 8
  deviation : BitVec 8
  deriving DecidableEq, Repr

/-- The two banks by their role (R47; log 10) and the counts. -/
structure Banks where
  fill : Table (Option Feedback) 32
  held : Table (Option Feedback) 32
  cnt : Table FeedbackCounts 32
  deriving DecidableEq, Repr

/-! ### Share unit (spec/04) -/

/-- The setting fields of a set record (Table 4-1, Table 11-8). -/
structure SetSettings where
  valid : Bool
  memberCount : BitVec 3
  members : Table (Fin 32) 6
  bias : Table (BitVec 16) 6
  gain : BitVec 16
  deadband : BitVec 16
  imbThreshold : BitVec 16
  imbPersist : BitVec 8
  shareLimit : Word
  deriving DecidableEq, Repr

/-- Table 4-2, the setting fields. -/
def SetSettings.afterReset : SetSettings :=
  { valid := false, memberCount := 0, members := Table.replicate 6 0, bias := Table.replicate 6 0,
    gain := 0, deadband := 0, imbThreshold := 2000, imbPersist := 255, shareLimit := 0 }

/-- The set states (R69). -/
inductive SetState
  | inactive
  | sharing
  | degraded
  | halted
  deriving DecidableEq, Repr

/-- The read-only fields of a set record (Table 4-1). -/
structure SetStatus where
  state : SetState
  contributing : Nat
  lastRef : Word
  lastErr : Table (Option Word) 6
  settled : Bool
  deriving DecidableEq, Repr

/-- Table 4-2, the read-only fields. -/
def SetStatus.afterReset : SetStatus :=
  { state := .inactive, contributing := 0, lastRef := 0, lastErr := Table.replicate 6 none, settled := false }

/-- The load-share trim L (R75) and the imbalance persistence count (R79) of one section. -/
structure ShareStatus where
  trim : Word
  imbalance : BitVec 8
  deriving DecidableEq, Repr

/-- The state of the share unit. -/
structure ShareUnit where
  sets : Table SetSettings 8
  stat : Table SetStatus 8
  sec : Table ShareStatus 32
  deriving DecidableEq, Repr

/-! ### Trip unit (spec/05) -/

/-- The trip causes (spec/05, Table 5-1). -/
inductive TripCause
  | brk
  | link
  | drive
  | deviation
  | feedback
  | imbalance
  | manual
  | program
  | peer
  deriving DecidableEq, Repr

/-- A present trip record (R89). The later causes are a set: bit n for the cause of code n (Table 11-12). -/
structure TripRecord where
  cause : TripCause
  cycle : BitVec 16
  speed : Option Word
  later : BitVec 16
  deriving DecidableEq, Repr

/-- The trip latch (R88) and trip record (R89) of one section index. -/
structure TripStatus where
  latch : Bool
  record : Option TripRecord
  deriving DecidableEq, Repr

/-- The state of the trip unit. -/
structure TripUnit where
  sec : Table TripStatus 32
  wbrk : InputFilter
  /-- The trip line (R102); the TRIP contact is closed while it is asserted. -/
  line : Bool
  deriving DecidableEq, Repr

/-! ### Program memory (spec/06) -/

/-- One step record: four words, stored as written (R113, Table 11-9). -/
structure StepRecord where
  w0 : Word
  w1 : Word
  w2 : Word
  w3 : Word
  deriving DecidableEq, Repr

/-! ### Runner block (spec/07) -/

/-- The runner states (R134). -/
inductive RunnerState
  | idle
  | running
  | waiting
  | done
  | faulted
  deriving DecidableEq, Repr

/-- The outcomes of a DONE runner (Table 7-1). -/
inductive RunnerOutcome
  | ended
  | stopped
  | disengaged
  deriving DecidableEq, Repr

/-- The fault causes of a FAULTED runner (Table 7-1). -/
inductive RunnerFault
  | badStep
  | budget
  | nesting
  | timeout
  | tripped
  deriving DecidableEq, Repr

/-- A loaded loop counter (R126). -/
structure LoopCounter where
  owner : Nat
  remaining : BitVec 16
  deriving DecidableEq, Repr

/-- A runner context (Table 7-1). -/
structure Runner where
  state : RunnerState
  outcome : Option RunnerOutcome
  fault : Option RunnerFault
  faultStep : Nat
  endCode : BitVec 8
  step : Nat
  slots : List (Fin 32)
  injection : Word
  loop : Option LoopCounter
  wait : BitVec 16
  rampOrigin : Word
  rampProgress : BitVec 16
  recording : Bool
  decimation : BitVec 8
  phase : BitVec 8
  deriving DecidableEq, Repr

/-- R133. -/
def Runner.afterReset : Runner :=
  { state := .idle, outcome := none, fault := none, faultStep := 0, endCode := 0, step := 0, slots := [],
    injection := 0, loop := none, wait := 0, rampOrigin := 0, rampProgress := 0,
    recording := false, decimation := 1, phase := 0 }

/-- The runner contexts and the eight sync marks (R141), mark n in bit n. -/
structure RunnerBlock where
  ctx : Table Runner 4
  marks : BitVec 8
  deriving DecidableEq, Repr

/-! ### Capture ring (spec/08) -/

/-- A stored ring word with its first-word indication (R151). -/
structure RingWord where
  word : Word
  first : Bool
  deriving DecidableEq, Repr

/-- The capture ring (R151): the unread words, oldest first (log 17), the two positions and the drop count. -/
structure Ring where
  words : List RingWord
  readPos : BitVec 13
  writePos : BitVec 13
  drops : BitVec 16
  deriving DecidableEq, Repr

/-! ### Service unit (spec/09) -/

/-- The answer codes (Table 9-2). -/
inductive AnswerCode
  | ok
  | clamped
  | busy
  | protectedGroup
  | engaged
  | mode
  | badValue
  | badRequest
  | noEntry
  | duplicate
  | conflict
  | tripped
  | notTripped
  | cause
  | gap
  | keyOff
  | link
  | idle
  deriving DecidableEq, Repr

/-- An answer (R165). The first-header position is sent with an answer to READ only. -/
structure Answer where
  tag : BitVec 8
  kind : BitVec 8
  code : AnswerCode
  data : List Word
  firstHeader : Option Nat
  deriving DecidableEq, Repr

/-- The protection flags (R165). -/
structure Protection where
  tuning : Bool
  limits : Bool
  sets : Bool
  program : Bool
  deriving DecidableEq, Repr

/-- The state of the service unit. -/
structure ServiceUnit where
  slot : Option Answer
  prot : Protection
  deriving DecidableEq, Repr

/-! ### Event unit (spec/10) -/

/-- The event unit (R192): flags and masks with event n in bit n, and a class per event. -/
structure EventUnit where
  flags : BitVec 16
  masks : BitVec 16
  classes : Table (BitVec 4) 16
  deriving DecidableEq, Repr

/-- The default classes of Table 10-2. -/
def EventUnit.defaultClasses : Table (BitVec 4) 16 :=
  ⟨[0, 0, 0, 1, 1, 2, 2, 2, 3, 1, 2, 2, 2, 1, 2, 3], rfl⟩

/-! ### Link interface (spec/02) -/

/-- The receiver states (R26). -/
inductive RxState
  | between
  | inFrame
  | stuck
  deriving DecidableEq, Repr

/-- What the bridge appends to the report frame in flight (R39). -/
inductive Append
  | nothing
  | entry
  | entryAndAnswer
  deriving DecidableEq, Repr

/-- A receiver with the parse of the frame in flight (R26 to R29). -/
structure Receiver where
  rx : RxState
  /-- The frame has failed and the rest of it is being discarded (R34). -/
  failed : Bool
  /-- Words of the frame taken so far. -/
  pos : Nat
  count : LinkWord
  cycle : LinkWord
  /-- Service target (Port C) or answer source (Port D). -/
  target : LinkWord
  blockKind : BitVec 8
  blockLen : Nat
  crcIn : BitVec 16
  crcOut : BitVec 16
  /-- The check word has arrived, and whether it agreed (R29). -/
  checkGood : Option Bool
  /-- The words of the entry in arrival, oldest first. -/
  entry : List LinkWord
  /-- Node addresses already met in the frame (R12, R49). -/
  seen : List LinkWord
  /-- Port C: the section whose entry is held (R11). -/
  hold : Option (Fin 32)
  /-- Port C: the held entry leaves with its inbound contents (R10). -/
  holdPass : Bool
  /-- Port D: what is appended (R39). -/
  append : Append
  /-- Instant of the last line transition (R35). -/
  lastEdge : Nat
  deriving DecidableEq, Repr

/-- A receiver held in reset (R26). -/
def Receiver.afterReset : Receiver :=
  { rx := .inFrame, failed := false, pos := 0, count := 0, cycle := 0, target := 0, blockKind := 0, blockLen := 0,
    crcIn := 0xFFFF, crcOut := 0xFFFF, checkGood := none, entry := [], seen := [], hold := none, holdPass := false,
    append := .nothing, lastEdge := 0 }

/-- A transmitter: its forwarding queue (R31), the abort marks that wait for room in it (R31, log 13), and the
symbol last put on the port's outgoing pair. -/
structure Transmitter where
  queue : List Symbol
  abortsOwed : Nat
  line : Symbol
  deriving DecidableEq, Repr

/-- The stuck-port record (R35). -/
inductive StuckRecord
  | none
  | portC
  | portD
  | both
  deriving DecidableEq, Repr

/-- The cycle timer (R43): EXPIRED, or RUNNING with the instant at which its remaining time is used up. -/
inductive CycleTimer
  | expired
  | running (deadline : Nat)
  deriving DecidableEq, Repr

/-- The state of the link interface. -/
structure Link where
  rxC : Receiver
  rxD : Receiver
  /-- Transmitter of Port C (the upstream queue). -/
  txC : Transmitter
  /-- Transmitter of Port D (the downstream queue). -/
  txD : Transmitter
  reqBuf : List LinkWord
  stuck : StuckRecord
  timer : CycleTimer
  timeout : Word
  period : BitVec 16
  lastClose : Option Nat
  lastCycle : BitVec 16
  deriving DecidableEq, Repr

/-! ### The whole state -/

/-- The model's clock (log 2) and the count of open choices taken (log 8). -/
structure Clock where
  now : Nat
  choices : Nat
  deriving DecidableEq, Repr

/-- The state of the bridge: one field per owner of Table 2-1, the clock, and the queue of commands that wait. -/
structure State where
  control : ModeControl
  table : Table SectionSettings 32
  rewriter : Rewriter
  link : Link
  banks : Banks
  share : ShareUnit
  trips : TripUnit
  program : Table StepRecord 512
  runners : RunnerBlock
  ring : Ring
  service : ServiceUnit
  events : EventUnit
  clock : Clock
  pending : List Instr
  deriving DecidableEq, Repr

/-- No command of the bridge stops with a fault: every command answers a next state. -/
inductive Fault
  deriving DecidableEq, Repr

/-- How a command could be turned away. -/
inductive Refusal
  /-- The host's name for a command that has no meaning yet. No arm of `exec` raises it; it would be safe. -/
  | notModelled (mnemonic : String)
  deriving DecidableEq, Repr

/-! ### After a hardware reset -/

/-- A snapshot of a reset record (R8; log 22). -/
def SnapEntry.afterReset : SnapEntry :=
  { valid := false, node := 0, mode := .pass, tripped := false, draw := 0, trimLimit := 0, slewLimit := 1,
    vMin := BitVec.ofInt 32 (-3000000), vMax := BitVec.ofInt 32 3000000, torqueCap := 4000,
    overrideValue := 0, overrideMask := 0, overrideFn := .replace, stopValue := 0, stopMask := 0, cutoff := .hold,
    share := 0, inject := 0, trimPrev := 0, lastOut := none }

/-- Every block at its reset values (R181) with the reset still asserted. `straps` is what NA0 to NA5 read, `key`
and `wbrk` the raw levels of those pins (they are not reset), `pending` the queue (the model's own). -/
def State.inReset (straps : BitVec 6) (key wbrk : Bool) (pending : List Instr) : State :=
  { control := { mode := .relayed, relay := .closed, resetHeld := true, strap := straps,
                 key := { raw := key, filtered := false, changedAt := 0 } }
    table := Table.replicate 32 SectionSettings.afterReset
    rewriter := { snap := Table.replicate 32 SnapEntry.afterReset
                  sec := Table.replicate 32 RewriteStatus.fresh
                  treated := Table.replicate 32 none }
    link := { rxC := Receiver.afterReset, rxD := Receiver.afterReset
              txC := { queue := [], abortsOwed := 0, line := .idle }
              txD := { queue := [], abortsOwed := 0, line := .idle }
              reqBuf := [], stuck := .none, timer := .expired, timeout := 20, period := 0
              lastClose := none, lastCycle := 0 }
    banks := { fill := Table.replicate 32 none, held := Table.replicate 32 none
               cnt := Table.replicate 32 { missing := 0, deviation := 0 } }
    share := { sets := Table.replicate 8 SetSettings.afterReset
               stat := Table.replicate 8 SetStatus.afterReset
               sec := Table.replicate 32 { trim := 0, imbalance := 0 } }
    trips := { sec := Table.replicate 32 { latch := false, record := none }
               wbrk := { raw := wbrk, filtered := false, changedAt := 0 }
               line := false }
    program := Table.replicate 512 { w0 := 0, w1 := 0, w2 := 0, w3 := 0 }
    runners := { ctx := Table.replicate 4 Runner.afterReset, marks := 0 }
    ring := { words := [], readPos := 0, writePos := 0, drops := 0 }
    service := { slot := none, prot := { tuning := false, limits := false, sets := false, program := false } }
    events := { flags := 0, masks := 0, classes := EventUnit.defaultClasses }
    clock := { now := 0, choices := 0 }
    pending := pending }

/-- The machine as a hardware reset leaves it, the reset still asserted (log 1: straps 0, contacts open). -/
def State.reset : State := State.inReset 0 false false []

end Sys2Proof.Machine
end

