-- ==== Sys2Proof/Machine/Operands.lean ====
section
/-! DEFINITION. The fields of words: the codes and layouts of spec/11 (Tables 11-1 to 11-13), the check word (R197),
and the service and answer blocks (R200, R201). -/

namespace Sys2Proof.Machine

/-! ### Bits and fields -/

/-- The field of `len` bits from bit `lo` of a record word. -/
def field (w : Word) (lo len : Nat) : BitVec len := w.extractLsb' lo len

/-- A value placed in a record word from bit `lo`. -/
def place {len : Nat} (x : BitVec len) (lo : Nat) : Word := (x.setWidth 32) <<< lo

/-- One flag placed at bit `n` of a record word. -/
def flagAt (b : Bool) (n : Nat) : Word := if b then (1 : Word) <<< n else 0

/-- A count or index as a record word. -/
def natWord (n : Nat) : Word := BitVec.ofNat 32 n

/-- Two 16-bit halves as one record word, high half first (R197). -/
def halves (hi lo : LinkWord) : Word := hi ++ lo

/-- The high half of a record word. -/
def hiHalf (w : Word) : LinkWord := w.extractLsb' 16 16

/-- The low half of a record word. -/
def loHalf (w : Word) : LinkWord := w.extractLsb' 0 16

/-- The high byte of a link word. -/
def hiByte (w : LinkWord) : BitVec 8 := w.extractLsb' 8 8

/-- The low byte of a link word. -/
def loByte (w : LinkWord) : BitVec 8 := w.extractLsb' 0 8

/-- Words of a run laid over a record: word `off + k` becomes `data k` (R171). -/
def overlay (ws : List Word) (off : Nat) (data : List Word) : List Word :=
  ws.mapIdx fun k w => if off ≤ k ∧ k < off + data.length then data.getD (k - off) w else w

/-- The words of a run of a record: `len` words from `off`, as many as lie within it (R170). -/
def run (ws : List Word) (off len : Nat) : List Word := (ws.drop off).take len

/-! ### Codes (Tables 11-5 to 11-12) -/

/-- Table 11-7, word 1. -/
def SectionMode.code : SectionMode → BitVec 1
  | .pass => 0
  | .active => 1

/-- Table 11-7, word 1. -/
def SectionMode.ofCode (b : BitVec 1) : SectionMode := if b = 1 then .active else .pass

/-- Table 11-7, word 1. -/
def OverrideFn.code : OverrideFn → BitVec 2
  | .replace => 0
  | .and => 1
  | .or => 2
  | .xor => 3

/-- Table 11-7, word 1: every code of the two bits is a function. -/
def OverrideFn.ofCode (b : BitVec 2) : OverrideFn :=
  if b = 0 then .replace else if b = 1 then .and else if b = 2 then .or else .xor

/-- Table 11-7, word 8. -/
def Cutoff.code : Cutoff → BitVec 2
  | .hold => 0
  | .strip => 1
  | .stop => 2
  | .ignore => 3

/-- Table 11-7, word 8: every code of the two bits is an action. -/
def Cutoff.ofCode (b : BitVec 2) : Cutoff :=
  if b = 0 then .hold else if b = 1 then .strip else if b = 2 then .stop else .ignore

/-- Table 11-8, word 9. -/
def SetState.code : SetState → BitVec 2
  | .inactive => 0
  | .sharing => 1
  | .degraded => 2
  | .halted => 3

/-- Table 11-11, trip causes. -/
def TripCause.code : TripCause → Nat
  | .brk => 1
  | .link => 2
  | .drive => 3
  | .deviation => 4
  | .feedback => 5
  | .imbalance => 6
  | .manual => 7
  | .program => 8
  | .peer => 9

/-- Every trip cause. -/
def TripCause.all : List TripCause :=
  [.brk, .link, .drive, .deviation, .feedback, .imbalance, .manual, .program, .peer]

/-- Table 11-6, word 4. -/
def RunnerState.code : RunnerState → Nat
  | .idle => 0
  | .running => 1
  | .waiting => 2
  | .done => 3
  | .faulted => 4

/-- Table 11-11, outcomes. -/
def RunnerOutcome.code : RunnerOutcome → Nat
  | .ended => 1
  | .stopped => 2
  | .disengaged => 3

/-- Table 11-11, fault causes. -/
def RunnerFault.code : RunnerFault → Nat
  | .badStep => 8
  | .budget => 9
  | .nesting => 10
  | .timeout => 11
  | .tripped => 12

/-- Table 11-13, BRIDGE word 0, and Table 11-6, word 1. -/
def Mode.code : Mode → BitVec 2
  | .relayed => 0
  | .standby => 1
  | .engaged => 2

/-- Table 11-13, EVENTS word 4. -/
def StuckRecord.code : StuckRecord → BitVec 2
  | .none => 0
  | .portC => 1
  | .portD => 2
  | .both => 3

/-- Table 11-5, answer codes. -/
def AnswerCode.code : AnswerCode → BitVec 8
  | .ok => 0x00
  | .clamped => 0x01
  | .busy => 0x02
  | .protectedGroup => 0x03
  | .engaged => 0x04
  | .mode => 0x05
  | .badValue => 0x06
  | .badRequest => 0x07
  | .noEntry => 0x08
  | .duplicate => 0x09
  | .conflict => 0x0A
  | .tripped => 0x0B
  | .notTripped => 0x0C
  | .cause => 0x0D
  | .gap => 0x0E
  | .keyOff => 0x0F
  | .link => 0x10
  | .idle => 0x11

/-- Table 11-5: 01h to 0Ch are the request kinds of R168. -/
def knownKind (kind : BitVec 8) : Bool := decide (1 ≤ kind.toNat) && decide (kind.toNat ≤ 12)

/-- Table 11-5 and Table 9-1: the number of records of a region, for the nine region codes. -/
def regionRecords (region : BitVec 8) : Option Nat :=
  if region = 1 then some 32
  else if region = 2 then some 8
  else if region = 3 then some 512
  else if region = 4 then some 4
  else if region = 5 then some 32
  else if region = 6 then some 2
  else if region = 7 then some 2
  else if region = 8 then some 1
  else if region = 9 then some 1
  else none

/-! ### The section record (Table 11-7), setting words 0 to 12 -/

/-- The thirteen setting words of a section record. -/
def SectionSettings.words (r : SectionSettings) : List Word :=
  [ flagAt r.valid 31 ||| place r.node 0,
    place r.mode.code 0 ||| place r.overrideFn.code 8,
    r.draw,
    r.trimLimit,
    r.slewLimit,
    halves r.overrideMask r.overrideValue,
    r.vMin,
    r.vMax,
    place r.torqueCap 0 ||| place r.cutoff.code 16 ||| flagAt r.breakResponse 24,
    halves r.stopMask r.stopValue,
    r.devLimit,
    place r.devPersist 0 ||| place r.fbLimit 8,
    halves r.faultCare r.faultValue ]

/-- The setting fields that thirteen words hold (R203: bits no field occupies are discarded). -/
def SectionSettings.ofWords (ws : List Word) : SectionSettings :=
  let w := fun k => ws.getD k 0
  { valid := (w 0).getLsbD 31
    node := field (w 0) 0 6
    mode := SectionMode.ofCode (field (w 1) 0 1)
    overrideFn := OverrideFn.ofCode (field (w 1) 8 2)
    draw := w 2
    trimLimit := w 3
    slewLimit := w 4
    overrideMask := hiHalf (w 5)
    overrideValue := loHalf (w 5)
    vMin := w 6
    vMax := w 7
    torqueCap := field (w 8) 0 16
    cutoff := Cutoff.ofCode (field (w 8) 16 2)
    breakResponse := (w 8).getLsbD 24
    stopMask := hiHalf (w 9)
    stopValue := loHalf (w 9)
    devLimit := w 10
    devPersist := field (w 11) 0 8
    fbLimit := field (w 11) 8 8
    faultCare := hiHalf (w 12)
    faultValue := loHalf (w 12) }

/-- A signed word clamped to a range. -/
def clampS (lo hi : Int) (w : Word) : Word := s32 (clampInt lo hi w.toInt)

/-- An unsigned field clamped to a range. -/
def clampU {n : Nat} (lo hi : Nat) (w : BitVec n) : BitVec n :=
  BitVec.ofNat n (if w.toNat < lo then lo else if hi < w.toNat then hi else w.toNat)

/-- R5, R174: each numeric live field brought to its range in Table 1-1. -/
def SectionSettings.clamp (r : SectionSettings) : SectionSettings :=
  { r with
    draw := clampS (-50000) 50000 r.draw
    trimLimit := clampU 0 300000 r.trimLimit
    slewLimit := clampU 1 100000 r.slewLimit
    vMin := clampS (-3000000) 3000000 r.vMin
    vMax := clampS (-3000000) 3000000 r.vMax
    torqueCap := clampU 0 4000 r.torqueCap
    devLimit := clampU 0 300000 r.devLimit
    devPersist := clampU 1 255 r.devPersist
    fbLimit := clampU 1 255 r.fbLimit }

/-! ### The set record (Table 11-8), setting words 0 to 8 -/

/-- The nine setting words of a set record. -/
def SetSettings.words (r : SetSettings) : List Word :=
  let m := fun (p : Fin 6) (lo : Nat) => place (BitVec.ofNat 8 (r.members.get p).val) lo
  [ flagAt r.valid 31 ||| place r.memberCount 0,
    m 0 0 ||| m 1 8 ||| m 2 16 ||| m 3 24,
    m 4 0 ||| m 5 8,
    halves (r.bias.get 0) (r.bias.get 1),
    halves (r.bias.get 2) (r.bias.get 3),
    halves (r.bias.get 4) (r.bias.get 5),
    place r.gain 0 ||| place r.deadband 16,
    place r.imbThreshold 0 ||| place r.imbPersist 16,
    r.shareLimit ]

/-- The six member position fields, 8 bits each, of nine setting words. -/
def setMemberFields (ws : List Word) : List (BitVec 8) :=
  let w := fun k => ws.getD k 0
  [field (w 1) 0 8, field (w 1) 8 8, field (w 1) 16 8, field (w 1) 24 8, field (w 2) 0 8, field (w 2) 8 8]

/-- A member position field as the section index it names (R66 check 2 keeps it below 32). -/
def memberOfField (b : BitVec 8) : Fin 32 := ⟨b.toNat % 32, Nat.mod_lt _ (by decide)⟩

/-- The setting fields that nine words hold. -/
def SetSettings.ofWords (ws : List Word) : SetSettings :=
  let w := fun k => ws.getD k 0
  { valid := (w 0).getLsbD 31
    memberCount := field (w 0) 0 3
    members := ⟨(setMemberFields ws).map memberOfField, rfl⟩
    bias := ⟨[hiHalf (w 3), loHalf (w 3), hiHalf (w 4), loHalf (w 4), hiHalf (w 5), loHalf (w 5)], rfl⟩
    gain := loHalf (w 6)
    deadband := hiHalf (w 6)
    imbThreshold := loHalf (w 7)
    imbPersist := field (w 7) 16 8
    shareLimit := w 8 }

/-- R67: each live field brought to its range in Table 4-1, in every member position. -/
def SetSettings.clamp (r : SetSettings) : SetSettings :=
  { r with
    bias := r.bias.map fun b => BitVec.ofInt 16 (clampInt (-500) 500 b.toInt)
    gain := clampU 0 4095 r.gain
    deadband := clampU 0 500 r.deadband
    imbThreshold := clampU 1 2000 r.imbThreshold
    imbPersist := clampU 1 255 r.imbPersist
    shareLimit := clampU 0 100000 r.shareLimit }

/-- R65: the member list of a set, in list order, each with its position. -/
def SetSettings.positions (r : SetSettings) : List (Fin 6 × Fin 32) :=
  ((List.finRange 6).take r.memberCount.toNat).map fun p => (p, r.members.get p)

/-- R65: the section indexes of the member list, the lead first. -/
def SetSettings.memberList (r : SetSettings) : List (Fin 32) := r.positions.map (·.2)

/-! ### The check word (R197) -/

/-- The register before the first covered word. -/
def crcInit : BitVec 16 := 0xFFFF

/-- One bit of the line through the generator 1021h. -/
def crcBit (crc : BitVec 16) (b : Bool) : BitVec 16 :=
  if crc.msb != b then (crc <<< 1) ^^^ 0x1021 else crc <<< 1

/-- Bits `n - 1` down to 0 of a word through the generator. -/
def crcBits (crc : BitVec 16) (w : LinkWord) : Nat → BitVec 16
  | 0 => crc
  | n + 1 => crcBits (crcBit crc (w.getLsbD n)) w n

/-- One covered word, bit 15 first. -/
def crcWord (crc : BitVec 16) (w : LinkWord) : BitVec 16 := crcBits crc w 16

/-- The check word of a run of covered words. -/
def crcWords (crc : BitVec 16) (ws : List LinkWord) : BitVec 16 := ws.foldl crcWord crc

/-! ### Frames (Tables 11-1, 11-2) -/

/-- The frame kind each port expects (R28, R198). -/
def frameKind : Port → LinkWord
  | .c => 0x00C3
  | .d => 0x00A6

/-- The four link words of an entry's fields after the node address (Table 11-2). -/
def RefFields.words (f : RefFields) : List LinkWord := [f.command, hiHalf f.speed, loHalf f.speed, f.torque]

/-- The fields of an entry from its five link words. -/
def RefFields.ofEntry (ws : List LinkWord) : RefFields :=
  { command := ws.getD 1 0, speed := halves (ws.getD 2 0) (ws.getD 3 0), torque := ws.getD 4 0 }

/-! ### Service and answer blocks (Tables 11-3, 11-4) -/

/-- A request as a service block carries it (Table 11-3). -/
structure Request where
  tag : BitVec 8
  kind : BitVec 8
  region : BitVec 8
  record : BitVec 16
  offset : BitVec 16
  data : List Word
  deriving DecidableEq, Repr

/-- A record word as two link words, high word first (R197). -/
def linkPair (w : Word) : List LinkWord := [hiHalf w, loHalf w]

/-- Link words paired into record words, high word first. -/
def recordWordsOf : List LinkWord → List Word
  | hi :: lo :: rest => halves hi lo :: recordWordsOf rest
  | _ => []

/-- The link words of a service block (Table 11-3). -/
def Request.block (q : Request) : List LinkWord :=
  [q.tag ++ q.kind, q.region ++ BitVec.ofNat 8 q.data.length, q.record, q.offset] ++ q.data.flatMap linkPair

/-- The request that a service block's link words carry (Table 11-3). -/
def Request.ofBlock (ws : List LinkWord) : Request :=
  { tag := hiByte (ws.getD 0 0)
    kind := loByte (ws.getD 0 0)
    region := hiByte (ws.getD 1 0)
    record := ws.getD 2 0
    offset := ws.getD 3 0
    data := recordWordsOf (ws.drop 4) }

/-- The link words of an answer block (Table 11-4). -/
def Answer.block (a : Answer) : List LinkWord :=
  [a.tag ++ a.kind, a.code.code ++ BitVec.ofNat 8 a.data.length] ++
    (if a.kind = 1 then [match a.firstHeader with | some k => BitVec.ofNat 16 k | none => 0xFFFF] else []) ++
    a.data.flatMap linkPair

/-- R201: the length of a service block of a given count. -/
def serviceBlockLen (count : Nat) : Nat := 4 + 2 * count

/-- R201: the length of an answer block of a given count and request kind. -/
def answerBlockLen (count : Nat) (kind : BitVec 8) : Nat := 2 + 2 * count + (if kind = 1 then 1 else 0)

/-! ### Capture ring record headers (R204) -/

/-- The two header words of a ring record. -/
def ringHeader (kind : BitVec 4) (r : Fin 4) (a b : BitVec 16) (cycle : BitVec 16) : List Word :=
  [place kind 28 ||| place (BitVec.ofNat 2 r.val) 24 ||| place a 0, halves b cycle]

end Sys2Proof.Machine
end

