-- ==== Sys2Proof/Machine/Flags.lean ====
section
/-! DEFINITION. The event flags (R192), the attention level (R194) and the setters of the state's blocks through
which every named operation of the model goes. -/

namespace Sys2Proof.Machine

/-! ### One setter per block -/

/-- The state with another mode control block. -/
def State.setControl (s : State) (x : ModeControl) : State := { s with control := x }
/-- The state with another section table. -/
def State.setTable (s : State) (x : Table SectionSettings 32) : State := { s with table := x }
/-- The state with another rewriter block. -/
def State.setRewriter (s : State) (x : Rewriter) : State := { s with rewriter := x }
/-- The state with another link interface block. -/
def State.setLink (s : State) (x : Link) : State := { s with link := x }
/-- The state with other feedback banks. -/
def State.setBanks (s : State) (x : Banks) : State := { s with banks := x }
/-- The state with another share unit block. -/
def State.setShare (s : State) (x : ShareUnit) : State := { s with share := x }
/-- The state with another trip unit block. -/
def State.setTrips (s : State) (x : TripUnit) : State := { s with trips := x }
/-- The state with another program memory. -/
def State.setProgram (s : State) (x : Table StepRecord 512) : State := { s with program := x }
/-- The state with another runner block. -/
def State.setRunners (s : State) (x : RunnerBlock) : State := { s with runners := x }
/-- The state with another capture ring. -/
def State.setRing (s : State) (x : Ring) : State := { s with ring := x }
/-- The state with another service unit block. -/
def State.setService (s : State) (x : ServiceUnit) : State := { s with service := x }
/-- The state with another event unit block. -/
def State.setEvents (s : State) (x : EventUnit) : State := { s with events := x }
/-- The state with another clock. -/
def State.setClock (s : State) (x : Clock) : State := { s with clock := x }
/-- The state with another queue of commands. -/
def State.setPending (s : State) (x : List Instr) : State := { s with pending := x }

/-! ### Events (Table 10-2) -/

/-- The sixteen events (Table 10-2). -/
inductive Event
  | cycleTimeout
  | trip
  | lineStuck
  | frameBad
  | formatBad
  | abortSeen
  | dupNode
  | serviceOverrun
  | runnerEnd
  | runnerFault
  | windowHit
  | setDegraded
  | ringDrop
  | keyChange
  | reportFull
  | switchedIn
  deriving DecidableEq, Repr

/-- The event numbers of Table 10-2. -/
def Event.number : Event → Fin 16
  | .cycleTimeout => 0
  | .trip => 1
  | .lineStuck => 2
  | .frameBad => 3
  | .formatBad => 4
  | .abortSeen => 5
  | .dupNode => 6
  | .serviceOverrun => 7
  | .runnerEnd => 8
  | .runnerFault => 9
  | .windowHit => 10
  | .setDegraded => 11
  | .ringDrop => 12
  | .keyChange => 13
  | .reportFull => 14
  | .switchedIn => 15

/-- The flags with flag `n` set. -/
def setBit16 (flags : BitVec 16) (n : Nat) : BitVec 16 := flags ||| ((1 : BitVec 16) <<< n)

/-- The flags with flag `n` cleared. -/
def clearBit16 (flags : BitVec 16) (n : Nat) : BitVec 16 := flags &&& ~~~((1 : BitVec 16) <<< n)

/-- R192: an event is raised, and its flag becomes set. -/
def raise (e : Event) (s : State) : State :=
  s.setEvents { s.events with flags := setBit16 s.events.flags e.number.val }

/-- An event raised only when a condition holds. -/
def raiseIf (b : Bool) (e : Event) (s : State) : State := if b then raise e s else s

/-- Whether the flag of an event is set. -/
def State.flag (s : State) (e : Event) : Bool := s.events.flags.getLsbD e.number.val

/-- R194: the attention level, `none` when no flag is set and unmasked, otherwise the lowest class among those. -/
def EventUnit.attention (u : EventUnit) : Option (BitVec 4) :=
  ((List.finRange 16).filter fun n => u.flags.getLsbD n.val && !u.masks.getLsbD n.val).foldl
    (fun best n => match best with
      | none => some (u.classes.get n)
      | some c => some (if (u.classes.get n).toNat < c.toNat then u.classes.get n else c)) none

/-- R202, word 1: bit 7 and bits 6:5 of the bridge entry's status word. -/
def attentionBits (a : Option (BitVec 4)) : BitVec 16 :=
  match a with
  | none => 0
  | some c => 0x0080 ||| ((c.extractLsb' 0 2).setWidth 16 <<< 5)

end Sys2Proof.Machine
end

