-- ==== Sys2Proof/Machine/Ops.lean ====
section
/-! DEFINITION. The named operations over the bridge's stores: the clock, the per-section status words, lookups,
set membership, runner contexts and the capture ring. -/

namespace Sys2Proof.Machine

/-- One operation taken for each item of a list, in the list's order. -/
def forEach {α : Type} (l : List α) (f : α → State → State) (s : State) : State :=
  l.foldl (fun s a => f a s) s

/-- The section indexes in index order (R92). -/
def sections : List (Fin 32) := List.finRange 32

/-- The runners in index order (R137). -/
def runnerIndexes : List (Fin 4) := List.finRange 4

/-- The sets in index order (R70). -/
def setIndexes : List (Fin 8) := List.finRange 8

/-! ### Clock (log 2, log 8) -/

/-- A number of milliseconds on the model's clock. -/
def msTicks (n : Nat) : Nat := n * 1000 * Config.ticksPerMicrosecond

/-- R187: 20 ms. -/
def keyInterval : Nat := msTicks 20

/-- R93: 0.5 ms. -/
def wbrkInterval : Nat := 500 * Config.ticksPerMicrosecond

/-- R35: 1 ms. -/
def stuckInterval : Nat := msTicks 1

/-- The clock moved forward to an instant; a clock already there or past it stands (log 3). -/
def advanceTo (t : Nat) (s : State) : State :=
  s.setClock { s.clock with now := if s.clock.now < t then t else s.clock.now }

/-- One half microsecond passes (log 2). -/
def passTick (s : State) : State := s.setClock { s.clock with now := s.clock.now + 1 }

/-- The next open choice (log 8), and the state in which it has been taken. -/
def takeChoice (s : State) : Nat × State :=
  (Config.choice s.clock.choices, s.setClock { s.clock with choices := s.clock.choices + 1 })

/-! ### Mode -/

/-- The bridge is STANDBY or ENGAGED: the link interface is inline and the service unit executes. -/
def State.inline (s : State) : Bool := s.control.mode != .relayed

/-- The bridge is ENGAGED. -/
def State.engaged (s : State) : Bool := s.control.mode == .engaged

/-- The filtered key is ON (R187). -/
def State.keyOn (s : State) : Bool := s.control.key.filtered

/-- The cycle timer is EXPIRED (R43). -/
def State.timerExpired (s : State) : Bool := s.link.timer == .expired

/-- The strap address as a link word. -/
def State.strapWord (s : State) : LinkWord := s.control.strap.setWidth 16

/-- R182: strap addresses 1 to 62 are valid. -/
def strapValid (a : BitVec 6) : Bool := a != 0 && a != 63

/-! ### Runner contexts and what is read from them -/

/-- A runner's context. -/
def State.runner (s : State) (r : Fin 4) : Runner := s.runners.ctx.get r

/-- A runner's context replaced. -/
def setRunner (r : Fin 4) (c : Runner) (s : State) : State :=
  s.setRunners { s.runners with ctx := s.runners.ctx.set r c }

/-- R134: a runner that is RUNNING or WAITING. -/
def Runner.isLive (c : Runner) : Bool := c.state == .running || c.state == .waiting

/-- R6, R134: the bound-runner status word of a section: the runner whose list holds it (log 9). -/
def State.boundRunner (s : State) (i : Fin 32) : Option (Fin 4) :=
  runnerIndexes.find? fun r => decide (i ∈ (s.runner r).slots)

/-- R116: a section's injection J is the injection of the runner it is bound to, and 0 when it is bound to none
(log 9). -/
def State.inject (s : State) (i : Fin 32) : Word :=
  match s.boundRunner i with
  | none => 0
  | some r => (s.runner r).injection

/-- R141: a sync mark. -/
def State.syncMark (s : State) (m : Fin 8) : Bool := s.runners.marks.getLsbD m.val

/-- A sync mark set or cleared (R124, R142). -/
def setSyncMark (m : Fin 8) (b : Bool) (s : State) : State :=
  s.setRunners { s.runners with
    marks := if b then s.runners.marks ||| ((1 : BitVec 8) <<< m.val)
             else s.runners.marks &&& ~~~((1 : BitVec 8) <<< m.val) }

/-! ### Per-section status words -/

/-- The settings of a section record. -/
def State.settings (s : State) (i : Fin 32) : SectionSettings := s.table.get i

/-- The rewriter's status words of a section. -/
def State.rw (s : State) (i : Fin 32) : RewriteStatus := s.rewriter.sec.get i

/-- The rewriter's status words of a section replaced. -/
def setRw (i : Fin 32) (x : RewriteStatus) (s : State) : State :=
  s.setRewriter { s.rewriter with sec := s.rewriter.sec.set i x }

/-- Applied trim T set by an event of spec/01 section 1.6, with the mark "trim set since start" (R9). -/
def setTrimMarked (i : Fin 32) (t : Word) (s : State) : State :=
  setRw i { s.rw i with trim := t, mark := true } s

/-- The share unit's status words of a section. -/
def State.sh (s : State) (i : Fin 32) : ShareStatus := s.share.sec.get i

/-- The share unit's status words of a section replaced. -/
def setSh (i : Fin 32) (x : ShareStatus) (s : State) : State :=
  s.setShare { s.share with sec := s.share.sec.set i x }

/-- Load-share trim L stored (R75). -/
def setShareTrim (i : Fin 32) (l : Word) (s : State) : State := setSh i { s.sh i with trim := l } s

/-- Imbalance persistence count stored (R79). -/
def setImbalance (i : Fin 32) (n : BitVec 8) (s : State) : State := setSh i { s.sh i with imbalance := n } s

/-- The feedback counts of a section. -/
def State.counts (s : State) (i : Fin 32) : FeedbackCounts := s.banks.cnt.get i

/-- The feedback counts of a section replaced. -/
def setCounts (i : Fin 32) (x : FeedbackCounts) (s : State) : State :=
  s.setBanks { s.banks with cnt := s.banks.cnt.set i x }

/-- Deviation persistence count stored (R57, R60). -/
def setDeviation (i : Fin 32) (n : BitVec 8) (s : State) : State :=
  setCounts i { s.counts i with deviation := n } s

/-- Missing count stored (R54). -/
def setMissing (i : Fin 32) (n : BitVec 8) (s : State) : State :=
  setCounts i { s.counts i with missing := n } s

/-- The held record of a section (R62). -/
def State.heldRec (s : State) (i : Fin 32) : Option Feedback := s.banks.held.get i

/-- The trip latch and record of a section index. -/
def State.tp (s : State) (i : Fin 32) : TripStatus := s.trips.sec.get i

/-- The trip latch and record of a section index replaced. -/
def setTp (i : Fin 32) (x : TripStatus) (s : State) : State :=
  s.setTrips { s.trips with sec := s.trips.sec.set i x }

/-- R88: the trip latch is TRIPPED. -/
def State.tripped (s : State) (i : Fin 32) : Bool := (s.tp i).latch

/-- R111: the number of sections whose latch is TRIPPED. -/
def State.trippedCount (s : State) : Nat := (sections.filter s.tripped).length

/-- The trip condition's target: a valid section whose mode is ACTIVE (R94, R96). -/
def State.validActive (s : State) (i : Fin 32) : Bool :=
  (s.settings i).valid && (s.settings i).mode == .active

/-! ### Lookups -/

/-- R2: the index of the valid record that holds a node address; addresses 0 and 63 and above find none (R199). -/
def lookupAddress (t : Table SectionSettings 32) (a : LinkWord) : Option (Fin 32) :=
  if 1 ≤ a.toNat ∧ a.toNat ≤ 62 then
    sections.find? fun i => (t.get i).valid && (t.get i).node.setWidth 16 == a
  else none

/-- R8: lookup by the snapshot's validity and addresses. -/
def lookupSnap (t : Table SnapEntry 32) (a : LinkWord) : Option (Fin 32) :=
  if 1 ≤ a.toNat ∧ a.toNat ≤ 62 then
    sections.find? fun i => (t.get i).valid && (t.get i).node.setWidth 16 == a
  else none

/-- R66: the valid set that a section is a member of. -/
def State.setOf (s : State) (i : Fin 32) : Option (Fin 8) :=
  setIndexes.find? fun k => (s.share.sets.get k).valid && decide (i ∈ (s.share.sets.get k).memberList)

/-- The member position of a section in a set. -/
def SetSettings.positionOf (r : SetSettings) (i : Fin 32) : Option (Fin 6) :=
  (r.positions.find? fun pm => pm.2 == i).map (·.1)

/-- The read-only fields of a set replaced. -/
def setSetStatus (k : Fin 8) (x : SetStatus) (s : State) : State :=
  s.setShare { s.share with stat := s.share.stat.set k x }

/-- The read-only fields of a set. -/
def State.setStat (s : State) (k : Fin 8) : SetStatus := s.share.stat.get k

/-! ### Receivers and transmitters -/

/-- The port across. -/
def otherPort : Port → Port
  | .c => .d
  | .d => .c

/-- The receiver of a port. -/
def State.receiver (s : State) : Port → Receiver
  | .c => s.link.rxC
  | .d => s.link.rxD

/-- The receiver of a port replaced. -/
def setReceiver (p : Port) (x : Receiver) (s : State) : State :=
  match p with
  | .c => s.setLink { s.link with rxC := x }
  | .d => s.setLink { s.link with rxD := x }

/-- The transmitter of a port. -/
def State.transmitter (s : State) : Port → Transmitter
  | .c => s.link.txC
  | .d => s.link.txD

/-- The transmitter of a port replaced. -/
def setTransmitter (p : Port) (x : Transmitter) (s : State) : State :=
  match p with
  | .c => s.setLink { s.link with txC := x }
  | .d => s.setLink { s.link with txD := x }

/-! ### The capture ring (R151, R157) -/

/-- The ring's capacity (R151). -/
def ringSize : Nat := 8192

/-- The used count (R151). -/
def Ring.used (g : Ring) : Nat := g.words.length

/-- The free count (R151). -/
def Ring.free (g : Ring) : Nat := ringSize - g.used

/-- A record's words with the first-word indication on the first of them (R151). -/
def ringWords : List Word → List RingWord
  | [] => []
  | w :: ws => { word := w, first := true } :: ws.map fun x => { word := x, first := false }

/-- R157: a produced record is stored whole when it fits the free count, and otherwise dropped with RING_DROP. -/
def produceRecord (ws : List Word) (s : State) : State :=
  if ws.length ≤ s.ring.free then
    s.setRing { s.ring with
      words := s.ring.words ++ ringWords ws
      writePos := s.ring.writePos + BitVec.ofNat 13 ws.length }
  else
    raise .ringDrop (s.setRing { s.ring with drops := satInc s.ring.drops })

/-- R158: the words of a stream read freed. -/
def freeWords (n : Nat) (s : State) : State :=
  s.setRing { s.ring with words := s.ring.words.drop n, readPos := s.ring.readPos + BitVec.ofNat 13 n }

/-- R162: the ring emptied. -/
def emptyRing (s : State) : State :=
  s.setRing { words := [], readPos := s.ring.writePos, writePos := s.ring.writePos, drops := 0 }

/-- R161: the offset of the first unread word that carries the first-word indication. -/
def firstHeader (ws : List RingWord) : Option Nat := ws.findIdx? (·.first)

end Sys2Proof.Machine
end

