-- ==== Sys2Proof/Machine/Rewriter.lean ====
section
/-! DEFINITION. The reference rewriter (spec/01): the snapshot, the treatment of an entry with its speed computation,
and the commit. -/

namespace Sys2Proof.Machine

/-! ### Snapshot (R8, R9) -/

/-- R8: one section's part of the snapshot. -/
def State.snapOf (s : State) (i : Fin 32) : SnapEntry :=
  let r := s.settings i
  { valid := r.valid, node := r.node, mode := r.mode, tripped := s.tripped i
    draw := r.draw, trimLimit := r.trimLimit, slewLimit := r.slewLimit
    vMin := r.vMin, vMax := r.vMax, torqueCap := r.torqueCap
    overrideValue := r.overrideValue, overrideMask := r.overrideMask, overrideFn := r.overrideFn
    stopValue := r.stopValue, stopMask := r.stopMask, cutoff := r.cutoff
    share := (s.sh i).trim, inject := s.inject i
    trimPrev := (s.rw i).trim, lastOut := (s.rw i).lastOut }

/-- R8, R9: at a start mark of a cycle frame the snapshot is taken, every mark "trim set since start" clears, and
nothing of the new frame has been treated yet. -/
def takeSnapshot (s : State) : State :=
  s.setRewriter
    { snap := Table.ofFn s.snapOf
      sec := s.rewriter.sec.map fun x => { x with mark := false }
      treated := Table.replicate 32 none }

/-! ### The speed computation (R16 to R18) -/

/-- R16: the draw term P, by the formula and not by the bound inferred from it (log 29). -/
def drawTerm (vc draw : Int) : Int := roundDiv (vc * draw) 1000000

/-- R17: the applied trim T from P, L, J, Tmax, S and T_prev. -/
def appliedTrim (p l j : Int) (tmax slew : Nat) (tPrev : Int) : Int :=
  let w := p + l + j
  let wc := clampInt (-tmax) tmax w
  tPrev + clampInt (-slew) slew (wc - tPrev)

/-- R17 for one entry: the applied trim from the snapshot and the inbound speed. -/
def SnapEntry.trimFor (e : SnapEntry) (vc : Int) : Int :=
  appliedTrim (drawTerm vc e.draw.toInt) e.share.toInt e.inject.toInt e.trimLimit.toNat e.slewLimit.toNat
    e.trimPrev.toInt

/-- R18: the raw output. -/
def SnapEntry.rawOutput (e : SnapEntry) (vc : Int) : Int := vc + e.trimFor vc

/-- R18: the output speed, the raw output clamped to the window. -/
def SnapEntry.outputSpeed (e : SnapEntry) (vc : Int) : Int :=
  clampInt e.vMin.toInt e.vMax.toInt (e.rawOutput vc)

/-! ### The treatment of an entry (R13 to R15) -/

/-- R14: the override function on a whole word of flags. -/
def OverrideFn.apply (f : OverrideFn) (inbound value : LinkWord) : LinkWord :=
  match f with
  | .replace => value
  | .and => inbound &&& value
  | .or => inbound ||| value
  | .xor => inbound ^^^ value

/-- Flags chosen by a mask: where the mask is set from the first word, elsewhere from the second. -/
def maskedFlags (mask fromMask elsewhere : LinkWord) : LinkWord := (mask &&& fromMask) ||| (~~~mask &&& elsewhere)

/-- R15: the smaller of the inbound torque limit and the torque cap, unsigned. -/
def cappedTorque (inbound cap : LinkWord) : LinkWord := if inbound.toNat < cap.toNat then inbound else cap

/-- R14 to R18: the fields sent for a rewritten entry. -/
def SnapEntry.rewrite (e : SnapEntry) (f : RefFields) : RefFields :=
  { speed := s32 (e.outputSpeed f.speed.toInt)
    command := maskedFlags e.overrideMask (e.overrideFn.apply f.command e.overrideValue) f.command
    torque := cappedTorque f.torque e.torqueCap }

/-- R13: the section's entry is rewritten: ACTIVE, and untripped or tripped under IGNORE. -/
def SnapEntry.rewrites (e : SnapEntry) : Bool :=
  e.mode == .active && (!e.tripped || e.cutoff == .ignore)

/-- R13: the fields sent for a treated entry. -/
def SnapEntry.sentFields (e : SnapEntry) (f : RefFields) : RefFields :=
  if e.tripped then
    match e.cutoff with
    | .hold => e.lastOut.getD f
    | .strip => f
    | .stop => { speed := 0, command := maskedFlags e.stopMask e.stopValue f.command
                 torque := cappedTorque f.torque e.torqueCap }
    | .ignore => if e.mode = .active then e.rewrite f else f
  else if e.mode = .active then e.rewrite f
  else f

/-- R19: what the frame will commit for a treated entry. -/
def SnapEntry.commitOf (e : SnapEntry) (f : RefFields) : Commit :=
  { trim := if e.rewrites then some (s32 (e.trimFor f.speed.toInt)) else none
    sent := e.sentFields f
    inbound := f }

/-- R18: WINDOW_HIT is raised when the window clamp changes the speed of a rewritten entry. -/
def SnapEntry.windowHit (e : SnapEntry) (f : RefFields) : Bool :=
  e.rewrites && e.outputSpeed f.speed.toInt != e.rawOutput f.speed.toInt

/-- R19: what a treated entry will commit, noted for its section. -/
def noteTreated (i : Fin 32) (c : Commit) (s : State) : State :=
  s.setRewriter { s.rewriter with treated := s.rewriter.treated.set i (some c) }

/-- Nothing of the frame is to be committed any more (R19 after the commit, R20 at a fail). -/
def dropTreated (s : State) : State :=
  s.setRewriter { s.rewriter with treated := Table.replicate 32 none }

/-! ### Commit (R19) -/

/-- R19 for one section: a set mark commits nothing; otherwise T (of a rewritten entry), last output and last
inbound are written. -/
def commitOne (c : Option Commit) (x : RewriteStatus) : RewriteStatus :=
  match c with
  | none => x
  | some c =>
    if x.mark then x
    else { x with trim := c.trim.getD x.trim, lastIn := c.inbound, lastOut := some c.sent }

/-- The rewriter's status words of a section as the commit of the closing frame leaves them (R153). -/
def State.committedRw (s : State) (i : Fin 32) : RewriteStatus :=
  commitOne (s.rewriter.treated.get i) (s.rw i)

/-- R19: the commit at a cycle close. -/
def commitFrame (s : State) : State :=
  dropTreated (s.setRewriter { s.rewriter with sec := Table.ofFn s.committedRw })

/-! ### Events that set the trim (R22) -/

/-- R22: T of every section 0 and every mark set; the last outputs made absent when `dropOutputs`. -/
def zeroTrims (dropOutputs : Bool) (s : State) : State :=
  s.setRewriter { s.rewriter with
    sec := s.rewriter.sec.map fun x =>
      { x with trim := 0, mark := true, lastOut := if dropOutputs then none else x.lastOut } }

end Sys2Proof.Machine
end

