-- ==== Sys2Proof/Machine/Trips.lean ====
section
/-! DEFINITION. The trip unit (spec/05) with the part of the runner block and the ring that a trip reaches: leaving
RUNNING or WAITING (R143), the hand-off (R145), the trip action (R90, R91), the trip line (R102), the level rules
(R95, R96) and the cause-present tests (R61, R81, R100). -/

namespace Sys2Proof.Machine

/-! ### Leaving RUNNING or WAITING (R143) -/

/-- How a runner leaves RUNNING or WAITING: with an outcome and a user code, or with a fault at a step index. -/
inductive Leaving
  | outcome (o : RunnerOutcome) (code : BitVec 8)
  | fault (f : RunnerFault) (atStep : Nat)
  deriving DecidableEq, Repr

/-- Table 11-11: the outcome or fault code. -/
def Leaving.code : Leaving → Nat
  | .outcome o _ => o.code
  | .fault f _ => f.code

/-- R155: the user code an END record carries. -/
def Leaving.userCode : Leaving → BitVec 8
  | .outcome _ c => c
  | .fault _ _ => 0

/-- R155: the step index an END record carries. -/
def Leaving.stepIndex (how : Leaving) (c : Runner) : Nat :=
  match how with
  | .outcome _ _ => c.step
  | .fault _ k => k

/-- R155, R204: an END record. -/
def endRecord (r : Fin 4) (c : Runner) (how : Leaving) (cycle : BitVec 16) : List Word :=
  ringHeader 4 r (how.userCode ++ BitVec.ofNat 8 how.code) (BitVec.ofNat 16 (how.stepIndex c)) cycle

/-- R143: the context after the leaving. -/
def Runner.left (c : Runner) (how : Leaving) : Runner :=
  match how with
  | .outcome o code =>
    { c with state := .done, outcome := some o, endCode := code, injection := 0, recording := false, phase := 0 }
  | .fault f k =>
    { c with state := .faulted, fault := some f, faultStep := k, endCode := 0, injection := 0,
             recording := false, phase := 0 }

/-- R143: RUNNER_END for DONE, RUNNER_FAULT for FAULTED. -/
def Leaving.event : Leaving → Event
  | .outcome _ _ => .runnerEnd
  | .fault _ _ => .runnerFault

/-- A record produced only while the runner's recording is on (R155). -/
def produceIf (b : Bool) (ws : List Word) (s : State) : State := if b then produceRecord ws s else s

/-- R143: a runner leaves RUNNING or WAITING. `cycle` is the cycle number its END record carries (R155). -/
def leaveRunner (cycle : BitVec 16) (r : Fin 4) (how : Leaving) (s : State) : State :=
  raise how.event
    (setRunner r ((s.runner r).left how)
      (produceIf (s.runner r).recording (endRecord r (s.runner r) how cycle) s))

/-! ### Hand-off of a trip action (R145) -/

/-- R155, R204: a TRIP record of a section bound to a runner. -/
def tripRecordWords (r : Fin 4) (c : Runner) (s : State) (cycle : BitVec 16) (i : Fin 32) : List Word :=
  ringHeader 3 r (BitVec.ofNat 16 (c.slots.idxOf i + 256 * i.val))
    (BitVec.ofNat 16 (match (s.tp i).record with | some t => t.cause.code | none => 0)) cycle

/-- R145: one runner takes the hand-off of the sections a trip action moved to TRIPPED. -/
def handOffTo (cycle : BitVec 16) (moved : List (Fin 32)) (r : Fin 4) (s : State) : State :=
  let c := s.runner r
  let hits := moved.filter fun i => decide (i ∈ c.slots)
  if c.isLive then
    let s1 := forEach hits (fun i s' => produceIf c.recording (tripRecordWords r c s cycle i) s') s
    if hits.any fun i => (s.settings i).cutoff != .ignore then leaveRunner cycle r (.fault .tripped c.step) s1 else s1
  else s

/-- R145: the hand-off to the runners in index order. -/
def handOff (cycle : BitVec 16) (moved : List (Fin 32)) (s : State) : State :=
  forEach runnerIndexes (handOffTo cycle moved) s

/-! ### Trip line (R102) -/

/-- R102: the level of the trip line. -/
def State.lineLevel (s : State) : Bool :=
  s.engaged && sections.any fun i => s.tripped i && (s.settings i).cutoff != .ignore

/-- R102: the trip line set from its inputs. -/
def setTripLine (s : State) : State := s.setTrips { s.trips with line := s.lineLevel }

/-! ### The trip action (R90) and later causes (R91) -/

/-- R89, R90 part 1: the latch becomes TRIPPED and a new record is written. -/
def latchTrip (cause : TripCause) (i : Fin 32) (s : State) : State :=
  setTp i { latch := true
            record := some { cause := cause, cycle := s.link.lastCycle
                             speed := (s.rw i).lastOut.map (·.speed), later := 0 } } s

/-- R91: a cause entered among the later causes, unless it is the first cause or already there. -/
def TripRecord.addLater (t : TripRecord) (cause : TripCause) : TripRecord :=
  if cause = t.cause then t else { t with later := setBit16 t.later cause.code }

/-- R91: a trip that reaches a section already TRIPPED. -/
def addLaterCause (cause : TripCause) (i : Fin 32) (s : State) : State :=
  setTp i { s.tp i with record := (s.tp i).record.map fun t => t.addLater cause } s

/-- R90 part 2: PEER reaches one other member. -/
def peerTrip (i : Fin 32) (s : State) : State :=
  if s.tripped i then addLaterCause .peer i s else latchTrip .peer i s

/-- R90 parts 3 and 4 for one section that the action moved to TRIPPED. -/
def cutBack (i : Fin 32) (s : State) : State :=
  setDeviation i 0 (setImbalance i 0
    (if (s.settings i).cutoff = .ignore then s else setTrimMarked i 0 (setShareTrim i 0 s)))

/-- R83: the set of the tripped section becomes HALTED and settled no. -/
def haltSetOf (i : Fin 32) (s : State) : State :=
  match s.setOf i with
  | none => s
  | some k => setSetStatus k { s.setStat k with state := .halted, settled := false } s

/-- R90 part 2: the other members of the section's set, in member-list order. -/
def State.peersOf (s : State) (i : Fin 32) : List (Fin 32) :=
  match s.setOf i with
  | none => []
  | some k => (s.share.sets.get k).memberList.filter fun j => j != i

/-- R90: the sections that a trip of a CLEAR section moves to TRIPPED, the originating one first. -/
def State.movedBy (s : State) (i : Fin 32) : List (Fin 32) :=
  i :: (s.peersOf i).filter fun j => !s.tripped j

/-- R90: the trip action of a CLEAR section. `cycle` is the cycle number of the ring records it brings (R155). -/
def tripAction (cycle : BitVec 16) (cause : TripCause) (i : Fin 32) (s : State) : State :=
  setTripLine
    (handOff cycle (s.movedBy i)
      (raise .trip
        (haltSetOf i
          (forEach (s.movedBy i) cutBack
            (forEach (s.peersOf i) peerTrip (latchTrip cause i s))))))

/-- A trip with some cause reaches a section: R90 when it is CLEAR, R91 when it is TRIPPED. -/
def tripSection (cycle : BitVec 16) (cause : TripCause) (i : Fin 32) (s : State) : State :=
  if s.tripped i then addLaterCause cause i s else tripAction cycle cause i s

/-- R92: a condition that reaches several sections takes them in index order. -/
def tripAll (cycle : BitVec 16) (cause : TripCause) (is : List (Fin 32)) (s : State) : State :=
  forEach is (tripSection cycle cause) s

/-! ### Web break and LINK (R94 to R96) -/

/-- R94: the sections that a break onset takes. -/
def State.breakSections (s : State) : List (Fin 32) :=
  sections.filter fun i => s.validActive i && (s.settings i).breakResponse

/-- R96: the sections that a LINK expiry takes. -/
def State.linkSections (s : State) : List (Fin 32) := sections.filter s.validActive

/-- R95, R96: the level rules for sections that come to be ACTIVE, CLEAR and valid (`lnk`), with break response
yes (`brk`). When both conditions reach sections at once, which is taken first is open (R92, log 8). -/
def levelTrips (cycle : BitVec 16) (brk lnk : List (Fin 32)) (s : State) : State :=
  let b := if s.engaged && s.trips.wbrk.filtered then brk else []
  let l := if s.engaged && s.timerExpired then lnk else []
  if b = [] then tripAll cycle .link l s
  else if l = [] then tripAll cycle .brk b s
  else if (takeChoice s).1 % 2 = 0 then tripAll cycle .link l (tripAll cycle .brk b (takeChoice s).2)
  else tripAll cycle .brk b (tripAll cycle .link l (takeChoice s).2)

/-! ### Cause-present tests (R61, R81, R100) -/

/-- R56, R61: every cared flag of the held status word equals its fault value. -/
def State.driveFault (s : State) (i : Fin 32) : Bool :=
  match s.heldRec i with
  | none => false
  | some f => (s.settings i).faultCare != 0 &&
      (f.status &&& (s.settings i).faultCare) == ((s.settings i).faultValue &&& (s.settings i).faultCare)

/-- R57, R61: the deviation condition. -/
def State.deviates (s : State) (i : Fin 32) : Bool :=
  match s.heldRec i, (s.rw i).lastOut with
  | some f, some o => (s.settings i).devLimit != 0 &&
      decide (mag (f.speed.toInt - o.speed.toInt) > ((s.settings i).devLimit.toNat : Int))
  | _, _ => false

/-- R58, R61: the feedback-loss condition. -/
def State.feedbackLost (s : State) (i : Fin 32) : Bool :=
  decide ((s.counts i).missing.toNat ≥ (s.settings i).fbLimit.toNat)

/-- R81: the last error of the section's member position is present and above the threshold. -/
def State.imbalancePresent (s : State) (i : Fin 32) : Bool :=
  match s.setOf i with
  | none => false
  | some k =>
    match (s.share.sets.get k).positionOf i with
    | none => false
    | some p =>
      match (s.setStat k).lastErr.get p with
      | none => false
      | some e => decide (mag e.toInt > ((s.share.sets.get k).imbThreshold.toNat : Int))

/-- R100: whether a cause is present for a section. -/
def State.causePresent (s : State) (i : Fin 32) : TripCause → Bool
  | .brk => s.trips.wbrk.filtered
  | .link => s.timerExpired
  | .drive => s.driveFault i
  | .deviation => s.deviates i
  | .feedback => s.feedbackLost i
  | .imbalance => s.imbalancePresent i
  | .manual => false
  | .program => false
  | .peer => false

end Sys2Proof.Machine
end

