-- ==== Sys2Proof/Machine/Share.lean ====
section
/-! DEFINITION. The share unit (spec/04): classification, the load-share computation, the HALTED observation, the
imbalance supervision and the settled test, as they run at one report close (R70). -/

namespace Sys2Proof.Machine

/-- R72: a member's held record is present. -/
def State.observed (s : State) (i : Fin 32) : Bool := (s.heldRec i).isSome

/-- R73: a member's held actual torque, a signed 16-bit value. -/
def State.torqueOf (s : State) (i : Fin 32) : Int :=
  match s.heldRec i with
  | some f => f.torque.toInt
  | none => 0

/-- R73: the reference torque of the members that enter the mean. -/
def State.meanTorque (s : State) (ms : List (Fin 6 × Fin 32)) : Int :=
  roundDiv ((ms.map fun m => s.torqueOf m.2).sum) ms.length

/-- R73: the error of a member, e = torque − reference − bias. -/
def State.shareError (s : State) (cfg : SetSettings) (ref : Int) (m : Fin 6 × Fin 32) : Int :=
  s.torqueOf m.2 - ref - (cfg.bias.get m.1).toInt

/-- R73, R77: the last errors: stored for the members that enter the mean, absent for the other members; a position
beyond the member count keeps what it holds (R65). -/
def State.shareErrors (s : State) (cfg : SetSettings) (ref : Int) (old : Table (Option Word) 6) :
    Table (Option Word) 6 :=
  Table.ofFn fun p =>
    if p.val < cfg.memberCount.toNat then
      if s.observed (cfg.members.get p) then some (s32 (s.shareError cfg ref (p, cfg.members.get p))) else none
    else old.get p

/-- R74: the correction for an error. -/
def shareCorrection (cfg : SetSettings) (e : Int) : Int :=
  if mag e ≤ (cfg.deadband.toNat : Int) then 0 else -(roundDiv (e * (cfg.gain.toNat : Int)) 256)

/-- R75: the new load-share trim. -/
def newShareTrim (cfg : SetSettings) (e l : Int) : Int :=
  clampInt (-(cfg.shareLimit.toNat : Int)) cfg.shareLimit.toNat (l + shareCorrection cfg e)

/-- R72, R74: a corrected member: a follower whose mode is ACTIVE. -/
def State.corrected (s : State) (m : Fin 6 × Fin 32) : Bool := m.1 != 0 && (s.settings m.2).mode == .active

/-- R75: the load-share trim of one contributing member. -/
def correctMember (cfg : SetSettings) (ref : Int) (m : Fin 6 × Fin 32) (s : State) : State :=
  if s.corrected m then
    setShareTrim m.2 (s32 (newShareTrim cfg (s.shareError cfg ref m) (s.sh m.2).trim.toInt)) s
  else s

/-- R79: a member whose error is counted at a SHARING computation: contributing, ACTIVE, above the threshold. -/
def State.overThreshold (s : State) (cfg : SetSettings) (ref : Int) (m : Fin 6 × Fin 32) : Bool :=
  s.observed m.2 && (s.settings m.2).mode == .active &&
    decide (mag (s.shareError cfg ref m) > (cfg.imbThreshold.toNat : Int))

/-- R79: the imbalance persistence count of one member at a SHARING computation. -/
def countImbalance (cfg : SetSettings) (ref : Int) (m : Fin 6 × Fin 32) (s : State) : State :=
  setImbalance m.2 (if s.overThreshold cfg ref m then satInc (s.sh m.2).imbalance else 0) s

/-- R80: the members, in list order, whose count has just increased and is now at least the persistence. -/
def State.imbalanceReached (s : State) (cfg : SetSettings) (ref : Int) (ms : List (Fin 6 × Fin 32)) :
    List (Fin 32) :=
  (ms.filter fun m => s.overThreshold cfg ref m && decide (cfg.imbPersist.toNat ≤ (s.sh m.2).imbalance.toNat)).map
    (·.2)

/-- R82: the settled field set at the end of a set's computation. -/
def setSettled (k : Fin 8) (b : Bool) (s : State) : State := setSetStatus k { s.setStat k with settled := b } s

/-- R73 to R75, R79, R80, R82: the computation of a SHARING set. -/
def shareSharing (k : Fin 8) (s : State) : State :=
  let cfg := s.share.sets.get k
  let ms := cfg.positions
  let inMean := ms.filter fun m => s.observed m.2
  let ref := s.meanTorque inMean
  let s1 := setSetStatus k { s.setStat k with
    state := .sharing, contributing := inMean.length, lastRef := s32 ref
    lastErr := s.shareErrors cfg ref (s.setStat k).lastErr } s
  let s2 := forEach inMean (correctMember cfg ref) s1
  let s3 := forEach ms (countImbalance cfg ref) s2
  let s4 := tripAll s.link.lastCycle .imbalance (s3.imbalanceReached cfg ref ms) s3
  setSettled k ((s4.setStat k).state == .sharing &&
    inMean.all fun m => decide (mag (s.shareError cfg ref m) ≤ (cfg.deadband.toNat : Int))) s4

/-- R69, R76, R82: a DEGRADED set; SET_DEGRADED when it enters that state from another. -/
def shareDegraded (k : Fin 8) (s : State) : State :=
  let cfg := s.share.sets.get k
  let entered := (s.setStat k).state != .degraded
  let s1 := setSetStatus k
    { state := .degraded
      contributing := (cfg.positions.filter fun m => s.observed m.2).length
      lastRef := 0, lastErr := Table.replicate 6 none, settled := false } s
  let s2 := forEach cfg.memberList (fun i s' => setImbalance i 0 s') s1
  if entered then raise .setDegraded s2 else s2

/-- R77, R82: the observation of a HALTED set. -/
def shareHalted (k : Fin 8) (s : State) : State :=
  let cfg := s.share.sets.get k
  let inMean := cfg.positions.filter fun m => s.observed m.2
  let ref := s.meanTorque inMean
  if 2 ≤ inMean.length then
    setSetStatus k { state := .halted, contributing := inMean.length, lastRef := s32 ref
                     lastErr := s.shareErrors cfg ref (s.setStat k).lastErr, settled := false } s
  else
    setSetStatus k { state := .halted, contributing := 0, lastRef := 0
                     lastErr := Table.replicate 6 none, settled := false } s

/-- R70, R71: the work of one set at a report close while ENGAGED. A set whose members differ in trip state, which
R66 and R90 rule out, is left alone (log 25). -/
def shareSet (k : Fin 8) (s : State) : State :=
  let cfg := s.share.sets.get k
  if cfg.valid then
    if cfg.memberList.all s.tripped then shareHalted k s
    else if cfg.memberList.any s.tripped then s
    else if (cfg.memberList.filter s.observed).length < 2 then shareDegraded k s
    else shareSharing k s
  else s

/-- R70: the share unit at a report close: the valid sets in index order while ENGAGED, nothing otherwise. -/
def shareReportClose (s : State) : State := if s.engaged then forEach setIndexes shareSet s else s

/-! ### Engage, disengage (R84) and a lowered share limit (R67) -/

/-- R84: L of every section 0; every set INACTIVE, every last error absent, settled no; the imbalance counts 0 when
`clearCounts`. -/
def resetShare (clearCounts : Bool) (s : State) : State :=
  s.setShare
    { s.share with
      stat := s.share.stat.map fun x =>
        { x with state := .inactive, lastErr := Table.replicate 6 none, settled := false }
      sec := s.share.sec.map fun x => { trim := 0, imbalance := if clearCounts then 0 else x.imbalance } }

/-- R67: a member's load-share trim clamped to the new share limit. -/
def clampShare (lmax : Nat) (i : Fin 32) (s : State) : State :=
  setShareTrim i (s32 (clampInt (-(lmax : Int)) lmax (s.sh i).trim.toInt)) s

end Sys2Proof.Machine
end

