-- ==== Sys2Proof/Machine/Supervision.lean ====
section
/-! DEFINITION. The feedback banks (spec/03): capture, exchange and clearing, the missing counts, and the three tests
of the feedback supervision; with them the whole work of a report close (R52) and of a report fail (R53). -/

namespace Sys2Proof.Machine

/-! ### Banks (R47 to R53) -/

/-- R48: a status entry's capture into the fill bank, by the section table as it stands (R51). -/
def captureEntry (addr : LinkWord) (f : Feedback) (s : State) : State :=
  match lookupAddress s.table addr with
  | none => s
  | some i => s.setBanks { s.banks with fill := s.banks.fill.set i (some f) }

/-- R52 step 1: the banks exchange roles, and the new fill bank is made absent. -/
def exchangeBanks (s : State) : State :=
  s.setBanks { s.banks with held := s.banks.fill, fill := Table.replicate 32 none }

/-- R53 step 1: every record of the fill bank made absent. -/
def clearFill (s : State) : State := s.setBanks { s.banks with fill := Table.replicate 32 none }

/-- R54 at a report close: 0 for a present section, one more for an absent one; an invalid record is not updated. -/
def countMissingClose (s : State) : State :=
  s.setBanks { s.banks with
    cnt := Table.ofFn fun i =>
      let c := s.counts i
      if (s.settings i).valid then
        { c with missing := if (s.heldRec i).isSome then 0 else satInc c.missing }
      else c }

/-- R53 step 2, R54 at a report fail: one more for every valid section. -/
def countMissingFail (s : State) : State :=
  s.setBanks { s.banks with
    cnt := Table.ofFn fun i =>
      let c := s.counts i
      if (s.settings i).valid then { c with missing := satInc c.missing } else c }

/-! ### Supervision (R55 to R59) -/

/-- R55: a section is supervised. -/
def State.supervised (s : State) (i : Fin 32) : Bool := s.engaged && s.validActive i && !s.tripped i

/-- R57: the deviation persistence count after the test of this report close. -/
def State.deviationCount (s : State) (i : Fin 32) : BitVec 8 :=
  if s.deviates i then satInc (s.counts i).deviation else 0

/-- R57: the deviation count has reached the persistence at this report close. -/
def State.deviationDue (s : State) (i : Fin 32) : Bool :=
  s.deviates i && decide ((s.settings i).devPersist.toNat ≤ (s.deviationCount i).toNat)

/-- R58: the feedback-loss test of a supervised section. -/
def feedbackTest (cycle : BitVec 16) (i : Fin 32) (s : State) : State :=
  if s.feedbackLost i then tripSection cycle .feedback i s else s

/-- R55 to R59: one section's turn in the pass of a report close. -/
def superviseClose (cycle : BitVec 16) (i : Fin 32) (s : State) : State :=
  if s.supervised i then
    let due := s.deviationDue i
    let s1 := setDeviation i (s.deviationCount i) s
    if s.driveFault i then
      if due then addLaterCause .deviation i (tripSection cycle .drive i s1) else tripSection cycle .drive i s1
    else if due then tripSection cycle .deviation i s1
    else feedbackTest cycle i s1
  else setDeviation i 0 s

/-- R53 step 3: one section's turn in the pass of a report fail. -/
def superviseFail (cycle : BitVec 16) (i : Fin 32) (s : State) : State :=
  if s.supervised i then feedbackTest cycle i s else s

/-! ### The two report outcomes -/

/-- R52: a report close, in its four steps. The records of its trips carry the last cycle number (R155), as it stands
before or after the whole of a cycle close at the same instant (log 34). -/
def bankReportClose (s : State) : State :=
  let s3 := shareReportClose (countMissingClose (exchangeBanks s))
  forEach sections (superviseClose s.link.lastCycle) s3

/-- R53: a report fail, in its three steps. `cycle` is the cycle number of the ring records it may bring. -/
def bankReportFail (cycle : BitVec 16) (s : State) : State :=
  forEach sections (superviseFail cycle) (countMissingFail (clearFill s))

/-- R54, R60 at an accepted ENGAGE: every missing count and every deviation persistence count 0. -/
def zeroCounts (s : State) : State :=
  s.setBanks { s.banks with cnt := s.banks.cnt.map fun _ => { missing := 0, deviation := 0 } }

end Sys2Proof.Machine
end

