-- ==== Sys2Proof/Machine/Steps.lean ====
section
/-! DEFINITION. Step records (spec/06): the check of R114 as a reading of the record, and what each kind of step does
when it is reached and when it is resumed. -/

namespace Sys2Proof.Machine

/-- The AWAIT conditions with their operands (R121). -/
inductive WaitCondition
  | status (care pattern : LinkWord)
  | speedAtLeast (v : Int)
  | speedAtMost (v : Int)
  | torqueAtLeast (v : Int)
  | torqueAtMost (v : Int)
  | settled
  deriving DecidableEq, Repr

/-- A step that has passed the check of R114, with its operands (Table 6-1). An alternate `none` is NONE. -/
inductive StepOp
  | set (value : Int)
  | ramp (target : Int) (n : Nat)
  | dwell (n : Nat)
  | await (slot : Nat) (cond : WaitCondition) (timeout : Nat) (alternate : Option Nat)
  | sync (mark : Fin 8) (timeout : Nat) (alternate : Option Nat)
  | signal (mark : Fin 8) (on : Bool)
  | jump (target count : Nat)
  | recordOn (d : BitVec 8)
  | recordOff
  | mark (value : LinkWord)
  | cut (slot : Nat)
  | finish (code : BitVec 8)
  deriving DecidableEq, Repr

/-! ### Fields of a step record (Table 11-9) -/

/-- Word 0, bits 7:0: the kind code. -/
def StepRecord.kind (w : StepRecord) : Nat := (field w.w0 0 8).toNat
/-- Word 0, bits 15:8: the slot or the mark. -/
def StepRecord.selector (w : StepRecord) : Nat := (field w.w0 8 8).toNat
/-- Word 0, bits 23:16: the condition, the action or the switch. -/
def StepRecord.option (w : StepRecord) : Nat := (field w.w0 16 8).toNat
/-- Word 3, bits 31:16: the timeout or the count. -/
def StepRecord.upper (w : StepRecord) : Nat := (hiHalf w.w3).toNat
/-- Word 3, bits 15:0: the alternate or the target. -/
def StepRecord.lower (w : StepRecord) : Nat := (loHalf w.w3).toNat

/-- An integer operand that lies within its range. -/
def within (lo hi x : Int) : Option Int := if lo ≤ x ∧ x ≤ hi then some x else none

/-- A count operand that lies within its range. -/
def withinNat (lo hi x : Nat) : Option Nat := if lo ≤ x ∧ x ≤ hi then some x else none

/-- An alternate: FFFFh is NONE, otherwise an index of program memory. -/
def StepRecord.alternate (w : StepRecord) : Option (Option Nat) :=
  if w.lower = 0xFFFF then some none else (withinNat 0 511 w.lower).map some

/-- R121: the condition of an AWAIT record. -/
def StepRecord.condition (w : StepRecord) : Option WaitCondition :=
  match w.option with
  | 0 => some (.status (loHalf w.w1) (loHalf w.w2))
  | 1 => (within (-3000000) 3000000 w.w1.toInt).map .speedAtLeast
  | 2 => (within (-3000000) 3000000 w.w1.toInt).map .speedAtMost
  | 3 => (within (-4000) 4000 w.w1.toInt).map .torqueAtLeast
  | 4 => (within (-4000) 4000 w.w1.toInt).map .torqueAtMost
  | 5 => some .settled
  | _ => none

/-- R114: the slot of an AWAIT or CUT record: 0 to 3 and below the number of bound sections. -/
def StepRecord.slot (w : StepRecord) (bound : Nat) : Option Nat :=
  if w.selector ≤ 3 ∧ w.selector < bound then some w.selector else none

/-- R114: the step that a record holds for a runner with `bound` sections, or `none` when the check fails. -/
def StepRecord.read (w : StepRecord) (bound : Nat) : Option StepOp :=
  match w.kind with
  | 0 => (withinNat 0 255 w.w1.toNat).map fun c => .finish (BitVec.ofNat 8 c)
  | 1 => (within (-300000) 300000 w.w1.toInt).map .set
  | 2 =>
    match within (-300000) 300000 w.w1.toInt, withinNat 1 65535 w.w2.toNat with
    | some t, some n => some (.ramp t n)
    | _, _ => none
  | 3 => (withinNat 1 65535 w.w2.toNat).map .dwell
  | 4 =>
    match w.slot bound, w.condition, w.alternate with
    | some k, some c, some a => some (.await k c w.upper a)
    | _, _, _ => none
  | 5 =>
    match index? 8 w.selector, w.alternate with
    | some m, some a => some (.sync m w.upper a)
    | _, _ => none
  | 6 =>
    match index? 8 w.selector, withinNat 0 1 w.option with
    | some m, some b => some (.signal m (b == 1))
    | _, _ => none
  | 7 => (withinNat 0 511 w.lower).map fun t => .jump t w.upper
  | 8 =>
    match w.option with
    | 0 => some .recordOff
    | 1 => (withinNat 1 255 w.w2.toNat).map fun d => .recordOn (BitVec.ofNat 8 d)
    | _ => none
  | 9 => (withinNat 0 65535 w.w1.toNat).map fun v => .mark (BitVec.ofNat 16 v)
  | 10 => (w.slot bound).map .cut
  | _ => none

/-- R114: the step at a runner's current index; `none` when it fails the check or the index is 512 (R115). -/
def State.stepOf (s : State) (r : Fin 4) : Option StepOp :=
  match index? 512 (s.runner r).step with
  | none => none
  | some k => (s.program.get k).read (s.runner r).slots.length

/-! ### Conditions -/

/-- R121: a condition tested on a section. -/
def State.conditionHolds (s : State) (i : Fin 32) : WaitCondition → Bool
  | .status care pattern =>
    match s.heldRec i with
    | none => false
    | some f => (f.status &&& care) == (pattern &&& care)
  | .speedAtLeast v =>
    match s.heldRec i with
    | none => false
    | some f => decide (v ≤ f.speed.toInt)
  | .speedAtMost v =>
    match s.heldRec i with
    | none => false
    | some f => decide (f.speed.toInt ≤ v)
  | .torqueAtLeast v =>
    match s.heldRec i with
    | none => false
    | some f => decide (v ≤ f.torque.toInt)
  | .torqueAtMost v =>
    match s.heldRec i with
    | none => false
    | some f => decide (f.torque.toInt ≤ v)
  | .settled =>
    match s.setOf i with
    | none => false
    | some k => (s.setStat k).settled

/-- R121: a condition tested on the section bound in a slot. -/
def State.slotCondition (s : State) (r : Fin 4) (slot : Nat) (c : WaitCondition) : Bool :=
  match (s.runner r).slots[slot]? with
  | none => false
  | some i => s.conditionHolds i c

/-! ### Outcomes of a step (spec/06 section 6.2) -/

/-- What a step leads to; `left` when the runner has ended or faulted. -/
inductive StepResult
  | next
  | goto (k : Nat)
  | hold
  | left
  deriving DecidableEq, Repr

/-- The circumstances of an advance: the cycle number its ring records carry (R155), and whether a frame is closing,
so that a SAMPLE takes what its commit leaves (R153). -/
structure CloseCtx where
  cycle : BitVec 16
  closing : Bool
  deriving DecidableEq, Repr

/-- A runner faults (R144). -/
def faultRunner (ctx : CloseCtx) (r : Fin 4) (f : RunnerFault) (s : State) : State :=
  leaveRunner ctx.cycle r (.fault f (s.runner r).step) s

/-- R118: the injection of a ramp at progress k. -/
def rampValue (origin target : Int) (k n : Nat) : Int := origin + truncDiv ((target - origin) * k) n

/-- R126, R127: a counted jump. -/
def countedJump (ctx : CloseCtx) (r : Fin 4) (target count : Nat) (s : State) : State × StepResult :=
  let c := s.runner r
  let k := (match c.loop with | none => BitVec.ofNat 16 count | some l => l.remaining)
  if (match c.loop with | none => false | some l => l.owner != c.step) then (faultRunner ctx r .nesting s, .left)
  else if k - 1 = 0 then (setRunner r { c with loop := none } s, .next)
  else (setRunner r { c with loop := some { owner := c.step, remaining := k - 1 } } s, .goto target)

/-- R130: a CUT of a slot. -/
def cutStep (ctx : CloseCtx) (r : Fin 4) (slot : Nat) (s : State) : State × StepResult :=
  match (s.runner r).slots[slot]? with
  | none => (s, .next)
  | some i =>
    let s1 := tripSection ctx.cycle .program i s
    (s1, if (s1.runner r).isLive then .next else .left)

/-- What a step does when it is reached (R117 to R131). -/
def reachStep (ctx : CloseCtx) (r : Fin 4) (op : StepOp) (s : State) : State × StepResult :=
  let c := s.runner r
  match op with
  | .set v => (setRunner r { c with injection := s32 v } s, .next)
  | .ramp _ _ => (setRunner r { c with rampOrigin := c.injection, rampProgress := 0 } s, .hold)
  | .dwell n => (setRunner r { c with wait := BitVec.ofNat 16 n } s, .hold)
  | .await slot cond timeout _ =>
    if s.slotCondition r slot cond then (s, .next)
    else (setRunner r { c with wait := BitVec.ofNat 16 timeout } s, .hold)
  | .sync m timeout _ =>
    if s.syncMark m then (s, .next)
    else (setRunner r { c with wait := BitVec.ofNat 16 timeout } s, .hold)
  | .signal m on => (setSyncMark m on s, .next)
  | .jump target count => if count = 0 then (s, .goto target) else countedJump ctx r target count s
  | .recordOn d => (setRunner r { c with recording := true, decimation := d, phase := 0 } s, .next)
  | .recordOff => (setRunner r { c with recording := false } s, .next)
  | .mark v => (produceIf c.recording (ringHeader 2 r v 0 ctx.cycle) s, .next)
  | .cut slot => cutStep ctx r slot s
  | .finish code => (leaveRunner ctx.cycle r (.outcome .ended code) s, .left)

/-- R122, R123: an AWAIT or SYNC resumed: the test first, then the count. -/
def resumeWait (ctx : CloseCtx) (r : Fin 4) (met : Bool) (timeout : Nat) (alternate : Option Nat) (s : State) :
    State × StepResult :=
  let c := s.runner r
  if met then (s, .next)
  else if timeout = 0 then (s, .hold)
  else
    let s1 := setRunner r { c with wait := c.wait - 1 } s
    if c.wait.toNat ≤ 1 then
      match alternate with
      | some k => (s1, .goto k)
      | none => (faultRunner ctx r .timeout s1, .left)
    else (s1, .hold)

/-- What a holding step does when it is resumed at a later cycle close (R118, R120, R122, R123). -/
def resumeStep (ctx : CloseCtx) (r : Fin 4) (op : StepOp) (s : State) : State × StepResult :=
  let c := s.runner r
  match op with
  | .ramp target n =>
    let k := c.rampProgress.toNat + 1
    (setRunner r { c with rampProgress := BitVec.ofNat 16 k
                          injection := s32 (rampValue c.rampOrigin.toInt target k n) } s,
     if n ≤ k then .next else .hold)
  | .dwell _ => (setRunner r { c with wait := c.wait - 1 } s, if c.wait.toNat ≤ 1 then .next else .hold)
  | .await slot cond timeout alternate => resumeWait ctx r (s.slotCondition r slot cond) timeout alternate s
  | .sync m timeout alternate => resumeWait ctx r (s.syncMark m) timeout alternate s
  | op => reachStep ctx r op s

end Sys2Proof.Machine
end

