-- ==== Sys2Proof/Machine/Runners.lean ====
section
/-! DEFINITION. The program runners (spec/07): the SAMPLE of a close (R153, R154), the advance with its step budget
(R138, R139), the advance of all four, and the runner records of START, STOP and CLOSE. -/

namespace Sys2Proof.Machine

/-! ### SAMPLE (R153, R154, R204) -/

/-- The rewriter's status words a SAMPLE takes: as the commit of the closing frame leaves them (R153). -/
def State.sampledRw (ctx : CloseCtx) (s : State) (i : Fin 32) : RewriteStatus :=
  if ctx.closing then s.committedRw i else s.rw i

/-- R153: the four payload words of one slot. -/
def samplePayload (ctx : CloseCtx) (s : State) (i : Fin 32) : List Word :=
  let x := s.sampledRw ctx i
  [ match x.lastOut with | some o => o.speed | none => 0,
    match s.heldRec i with | some f => f.speed | none => 0,
    match s.heldRec i with | some f => halves f.torque f.status | none => 0,
    x.trim ]

/-- R204: the flags of a SAMPLE header from a slot on: bit 8 + s feedback present, bit 12 + s output present. -/
def sampleFlags (ctx : CloseCtx) (s : State) : Nat → List (Fin 32) → BitVec 16
  | _, [] => 0
  | k, i :: rest =>
    (if (s.heldRec i).isSome then (1 : BitVec 16) <<< (8 + k) else 0) |||
    (if (s.sampledRw ctx i).lastOut.isSome then (1 : BitVec 16) <<< (12 + k) else 0) |||
    sampleFlags ctx s (k + 1) rest

/-- R153: the report cycle number of the held records sampled, 0 when none is present. -/
def State.sampleCycle (s : State) (is : List (Fin 32)) : BitVec 16 :=
  match is.findSome? s.heldRec with
  | some f => f.cycle
  | none => 0

/-- R153, R204: a SAMPLE record. -/
def sampleRecord (ctx : CloseCtx) (s : State) (r : Fin 4) : List Word :=
  let is := (s.runner r).slots
  ringHeader 1 r (BitVec.ofNat 16 is.length ||| sampleFlags ctx s 0 is) 0 (s.sampleCycle is) ++
    is.flatMap (samplePayload ctx s)

/-- R154: the decimation phase of a recording runner at the start of its advance, with the SAMPLE when it reaches
d. -/
def takeSample (ctx : CloseCtx) (r : Fin 4) (s : State) : State :=
  let c := s.runner r
  if c.recording then
    if c.phase + 1 = c.decimation then
      setRunner r { c with phase := 0 } (produceRecord (sampleRecord ctx s r) s)
    else setRunner r { c with phase := c.phase + 1 } s
  else s

/-! ### The advance (R138, R139) -/

/-- The runner's current step index. -/
def setStep (r : Fin 4) (k : Nat) (s : State) : State := setRunner r { s.runner r with step := k } s

/-- The runner's state. -/
def setRunnerState (r : Fin 4) (x : RunnerState) (s : State) : State := setRunner r { s.runner r with state := x } s

/-- R138, R139: the steps a runner reaches with a number of them still allowed in this advance. -/
def runSteps (ctx : CloseCtx) (r : Fin 4) : Nat → State → State
  | 0, s => faultRunner ctx r .budget s
  | n + 1, s =>
    match s.stepOf r with
    | none => faultRunner ctx r .badStep s
    | some op =>
      match reachStep ctx r op s with
      | (s', .next) => runSteps ctx r n (setStep r ((s'.runner r).step + 1) s')
      | (s', .goto k) => runSteps ctx r n (setStep r k s')
      | (s', .hold) => setRunnerState r .waiting s'
      | (s', .left) => s'

/-- R139: the most steps in one advance. -/
def stepBudget : Nat := 16

/-- R138: a WAITING runner resumes its holding step and goes on from there. -/
def resumeRunner (ctx : CloseCtx) (r : Fin 4) (s : State) : State :=
  match s.stepOf r with
  | none => faultRunner ctx r .badStep s
  | some op =>
    match resumeStep ctx r op s with
    | (s', .next) => runSteps ctx r (stepBudget - 1) (setStep r ((s'.runner r).step + 1) s')
    | (s', .goto k) => runSteps ctx r (stepBudget - 1) (setStep r k s')
    | (s', .hold) => setRunnerState r .waiting s'
    | (s', .left) => s'

/-- R138: the advance of one runner at a cycle close. -/
def advanceRunner (ctx : CloseCtx) (r : Fin 4) (s : State) : State :=
  match (s.runner r).state with
  | .running => runSteps ctx r stepBudget (takeSample ctx r s)
  | .waiting => resumeRunner ctx r (setRunnerState r .running (takeSample ctx r s))
  | _ => s

/-- R137 step 2: the advances in runner index order. -/
def advanceAll (ctx : CloseCtx) (s : State) : State := forEach runnerIndexes (advanceRunner ctx) s

/-! ### Disengage (R147) -/

/-- R147: a RUNNING or WAITING runner leaves with outcome DISENGAGED. -/
def disengageRunner (cycle : BitVec 16) (r : Fin 4) (s : State) : State :=
  if (s.runner r).isLive then leaveRunner cycle r (.outcome .disengaged 0) s else s

/-! ### The moments RAMP_COMPLETE, DWELL_EXPIRY and WAIT_TIMEOUT name -/

/-- R118: the runner waits at a RAMP whose progress reaches n at its next advance. -/
def State.rampDue (s : State) (r : Fin 4) : Bool :=
  (s.runner r).state == .waiting &&
  match s.stepOf r with
  | some (.ramp _ n) => decide (n ≤ (s.runner r).rampProgress.toNat + 1)
  | _ => false

/-- R120: the runner waits at a DWELL whose wait remaining reaches 0 at its next advance. -/
def State.dwellDue (s : State) (r : Fin 4) : Bool :=
  (s.runner r).state == .waiting &&
  match s.stepOf r with
  | some (.dwell _) => decide ((s.runner r).wait.toNat ≤ 1)
  | _ => false

/-- R122, R123: the runner waits at an AWAIT or SYNC that is not met and whose wait runs out at its next advance. -/
def State.waitDue (s : State) (r : Fin 4) : Bool :=
  (s.runner r).state == .waiting &&
  match s.stepOf r with
  | some (.await slot cond timeout _) =>
    !s.slotCondition r slot cond && timeout != 0 && decide ((s.runner r).wait.toNat ≤ 1)
  | some (.sync m timeout _) => !s.syncMark m && timeout != 0 && decide ((s.runner r).wait.toNat ≤ 1)
  | _ => false

end Sys2Proof.Machine
end

