-- ==== Sys2Proof/Machine/Modes.lean ====
section
/-! DEFINITION. Mode control (spec/10): engage and disengage (R189, R190), the key and web-break filters (R93, R94,
R187), the end of reset and switch-in (R182, R184), and the cycle timer's expiry (R43, R96). -/

namespace Sys2Proof.Machine

/-- The bridge mode set. -/
def setMode (m : Mode) (s : State) : State := s.setControl { s.control with mode := m }

/-- R10: an entry held by the rewriter at a disengage is to leave with its inbound contents. -/
def passHeldEntry (s : State) : State :=
  if s.link.rxC.hold.isSome then setReceiver .c { s.link.rxC with holdPass := true } s else s

/-- R190: the disengage, in its order. `cycle` is the cycle number of the END records (R155). -/
def disengageBridge (cycle : BitVec 16) (s : State) : State :=
  setTripLine
    (resetShare false
      (zeroTrims false
        (forEach runnerIndexes (disengageRunner cycle) (passHeldEntry (setMode .standby s)))))

/-- R95 at an engage: every valid ACTIVE section with break response yes, while the web-break state is ASSERTED. -/
def engageBreakTrips (cycle : BitVec 16) (s : State) : State :=
  if s.trips.wbrk.filtered then
    tripAll cycle .brk (s.breakSections.filter fun i => !s.tripped i) s
  else s

/-- R189: the engage, in its order. -/
def engageBridge (cycle : BitVec 16) (s : State) : State :=
  engageBreakTrips cycle
    (setTripLine (zeroCounts (resetShare true (zeroTrims true (setMode .engaged s)))))

/-! ### Filters (R93, R187) -/

/-- A change of a raw level restarts the filter's interval; a level that does not change does nothing. -/
def InputFilter.input (f : InputFilter) (level : Bool) (now : Nat) : InputFilter :=
  if level = f.raw then f else { f with raw := level, changedAt := now }

/-- The filtered state takes the raw level. -/
def InputFilter.settle (f : InputFilter) : InputFilter := { f with filtered := f.raw }

/-- The key filter replaced. -/
def setKey (f : InputFilter) (s : State) : State := s.setControl { s.control with key := f }

/-- The web-break filter replaced. -/
def setWbrk (f : InputFilter) (s : State) : State := s.setTrips { s.trips with wbrk := f }

/-- R187: the key's interval is running: the reset has ended and the raw level differs from the filtered state. -/
def State.keyMoving (s : State) : Bool :=
  !s.control.resetHeld && s.control.key.raw != s.control.key.filtered

/-- R93: the web-break filter's interval is running. -/
def State.wbrkMoving (s : State) : Bool :=
  !s.control.resetHeld && s.trips.wbrk.raw != s.trips.wbrk.filtered

/-- R187, R190: the filtered key takes the raw level, KEY_CHANGE is raised, and a key turning OFF disengages an
ENGAGED bridge. The records of that disengage carry the last cycle number (R155), as it stands before or after the
whole of a cycle close at the same instant (log 34). -/
def settleKey (s : State) : State :=
  let s1 := raise .keyChange (setKey s.control.key.settle (advanceTo (s.control.key.changedAt + keyInterval) s))
  if s1.engaged && !s1.keyOn then disengageBridge s1.link.lastCycle s1 else s1

/-- R93, R94: the filtered web-break state takes the raw level; an onset while ENGAGED trips with BREAK, before or after
the whole of a cycle close at the same instant (log 34). -/
def settleWbrk (s : State) : State :=
  let s1 := setWbrk s.trips.wbrk.settle (advanceTo (s.trips.wbrk.changedAt + wbrkInterval) s)
  if s1.trips.wbrk.filtered && s1.engaged then tripAll s1.link.lastCycle .brk s1.breakSections s1 else s1

/-! ### Reset and switch-in (R181, R182, R184) -/

/-- R181: a hardware reset: every block at its reset values. The pins KEY and WBRK and the queue of commands are not
the bridge's registers and stand (log 26). -/
def hardwareReset (straps : BitVec 6) (s : State) : State :=
  State.inReset straps s.control.key.raw s.trips.wbrk.raw s.pending

/-- R182, R187, R93, R26: the reset ends: the straps are kept and the filters begin their intervals. The receivers' 1 ms
of R26 begins here too: a silence during the reset does not count toward it (log 33). -/
def endReset (straps : BitVec 6) (s : State) : State :=
  let now := s.clock.now
  setReceiver .d { s.link.rxD with lastEdge := now }
    (setReceiver .c { s.link.rxC with lastEdge := now }
      (setWbrk { s.trips.wbrk with changedAt := now }
        (s.setControl { s.control with
          resetHeld := false, strap := straps, key := { s.control.key with changedAt := now } })))

/-- R184: switch-in can be made: the reset has ended, the bridge is RELAYED, the strap address is valid and both
receivers are BETWEEN. -/
def State.canSwitchIn (s : State) : Bool :=
  !s.control.resetHeld && s.control.mode == .relayed && strapValid s.control.strap &&
    s.link.rxC.rx == .between && s.link.rxD.rx == .between

/-- R184: switch-in. -/
def switchInBridge (s : State) : State :=
  raise .switchedIn (s.setControl { s.control with relay := .opened, mode := .standby })

/-! ### Cycle timer (R43, R96) -/

/-- The cycle timer replaced. -/
def setTimer (t : CycleTimer) (s : State) : State := s.setLink { s.link with timer := t }

/-- R43: at a cycle close the timer restarts with the full cycle timeout. -/
def restartTimer (s : State) : State :=
  setTimer (.running (s.clock.now + msTicks s.link.timeout.toNat)) s

/-- R43, R96: the expiry of the cycle timer that runs until `deadline`. -/
def expireTimer (deadline : Nat) (s : State) : State :=
  let s1 := raise .cycleTimeout (setTimer .expired (advanceTo deadline s))
  if s1.engaged then tripAll s1.link.lastCycle .link s1.linkSections s1 else s1

/-- R43: the time since the last restart has reached the cycle timeout. -/
def State.timerUp (s : State) : Bool :=
  match s.link.timer with
  | .running t => decide (t ≤ s.clock.now)
  | .expired => false

/-- R43: an expiry that has fallen due is taken; a timer that has time left runs on. -/
def expireIfUp (s : State) : State :=
  match s.link.timer with
  | .running t => if s.timerUp then expireTimer t s else s
  | .expired => s

end Sys2Proof.Machine
end

