-- ==== Sys2Proof/Machine/Regions.lean ====
section
/-! DEFINITION. The nine regions as READ sees them (Table 9-1, Tables 11-7 to 11-13, R161): the words of every
record, built from the owners' state. -/

namespace Sys2Proof.Machine

/-- Table 11-7, words 13 to 21: the status words of a section record. -/
def State.sectionStatusWords (s : State) (i : Fin 32) : List Word :=
  let x := s.rw i
  let out := x.lastOut.getD ⟨0, 0, 0⟩
  [ flagAt (s.tripped i) 0 ||| flagAt x.lastOut.isSome 1 |||
      place (match s.boundRunner i with | some r => BitVec.ofNat 4 r.val | none => 0xF) 4,
    place (s.counts i).missing 0 ||| place (s.counts i).deviation 8 ||| place (s.sh i).imbalance 16,
    x.trim,
    (s.sh i).trim,
    s.inject i,
    x.lastIn.speed,
    halves x.lastIn.command x.lastIn.torque,
    out.speed,
    halves out.command out.torque ]

/-- Table 11-7: the 22 words of a section record. -/
def State.sectionWords (s : State) (i : Fin 32) : List Word :=
  (s.settings i).words ++ s.sectionStatusWords i

/-- A signed 32-bit value that may be absent, coded 80000000h when it is (R203). -/
def absentCoded (x : Option Word) : Word := x.getD 0x80000000

/-- Table 11-8, words 9 to 16: the read-only words of a set record. -/
def State.setStatusWords (s : State) (k : Fin 8) : List Word :=
  let x := s.setStat k
  [ place x.state.code 0 ||| flagAt x.settled 4 ||| place (BitVec.ofNat 3 x.contributing) 8,
    x.lastRef ] ++ x.lastErr.toList.map absentCoded

/-- Table 11-8: the 17 words of a set record. -/
def State.setWords (s : State) (k : Fin 8) : List Word := (s.share.sets.get k).words ++ s.setStatusWords k

/-- Table 11-9: the four words of a step record. -/
def StepRecord.words (w : StepRecord) : List Word := [w.w0, w.w1, w.w2, w.w3]

/-- The outcome or fault code of a context (Table 11-11). -/
def Runner.resultCode (c : Runner) : Nat :=
  match c.outcome, c.fault with
  | some o, _ => o.code
  | none, some f => f.code
  | none, none => 0

/-- Table 11-10, word 7: the bound section index of a slot, FFh for an empty one. -/
def Runner.slotByte (c : Runner) (k : Nat) : BitVec 8 :=
  match c.slots[k]? with
  | some i => BitVec.ofNat 8 i.val
  | none => 0xFF

/-- Table 11-10: the nine words of a runner record. -/
def State.runnerWords (s : State) (r : Fin 4) : List Word :=
  let c := s.runner r
  [ place (BitVec.ofNat 3 c.state.code) 0 ||| place (BitVec.ofNat 4 c.resultCode) 8 ||| place c.endCode 16 |||
      flagAt c.recording 24,
    halves (BitVec.ofNat 16 c.faultStep) (BitVec.ofNat 16 c.step),
    c.injection,
    match c.loop with
    | none => 0
    | some l => flagAt true 31 ||| place (BitVec.ofNat 9 l.owner) 16 ||| place l.remaining 0,
    halves c.rampProgress c.wait,
    c.rampOrigin,
    place c.decimation 0 ||| place c.phase 8 ||| place (BitVec.ofNat 3 c.slots.length) 16,
    place (c.slotByte 0) 0 ||| place (c.slotByte 1) 8 ||| place (c.slotByte 2) 16 ||| place (c.slotByte 3) 24,
    place s.runners.marks 0 ]

/-- Table 11-12: the four words of a trip record. -/
def State.tripWords (s : State) (i : Fin 32) : List Word :=
  let x := s.tp i
  match x.record with
  | none => [flagAt x.latch 0, 0, 0, 0]
  | some t =>
    [ flagAt x.latch 0 ||| flagAt true 1 ||| place (BitVec.ofNat 4 t.cause.code) 8,
      place t.cycle 0 ||| flagAt t.speed.isSome 16,
      t.speed.getD 0,
      place t.later 0 ]

/-- R161: the four words of the ring status record. -/
def Ring.statusWords (g : Ring) : List Word :=
  [ natWord g.used, natWord g.free, place g.drops 0,
    match firstHeader g.words with
    | some k => natWord k
    | none => 0xFFFFFFFF ]

/-- Table 11-13: eight classes of 4 bits each, from event `base` on. -/
def EventUnit.classWord (u : EventUnit) (base : Nat) : Word :=
  ((u.classes.toList.drop base).take 8).foldr (fun c acc => (acc <<< 4) ||| place c 0) 0

/-- Table 11-13: the five words of the EVENTS record. -/
def State.eventWords (s : State) : List Word :=
  [ place s.events.flags 0, place s.events.masks 0, s.events.classWord 0, s.events.classWord 8,
    place s.link.stuck.code 0 ]

/-- Table 11-13: the six words of the BRIDGE record. -/
def State.bridgeWords (s : State) : List Word :=
  let p := s.service.prot
  [ place s.control.mode.code 0 ||| flagAt s.keyOn 4,
    place s.control.strap 0,
    s.link.timeout,
    place s.link.period 0,
    place s.link.lastCycle 0,
    flagAt p.tuning 0 ||| flagAt p.limits 1 ||| flagAt p.sets 2 ||| flagAt p.program 3 ]

/-- The words of a record named by its index, when there is one. -/
def atIndex {n : Nat} (k : Nat) (f : Fin n → List Word) : List Word :=
  match index? n k with
  | some i => f i
  | none => []

/-- The words of a record of a region (R170); index 0 of the ring regions is read by R158 and R160 instead. -/
def State.recordWords (s : State) (region : BitVec 8) (k : Nat) : List Word :=
  if region = 1 then atIndex k s.sectionWords
  else if region = 2 then atIndex k s.setWords
  else if region = 3 then atIndex k fun i : Fin 512 => (s.program.get i).words
  else if region = 4 then atIndex k s.runnerWords
  else if region = 5 then atIndex k s.tripWords
  else if region = 6 then s.ring.statusWords
  else if region = 7 then s.ring.statusWords
  else if region = 8 then s.eventWords
  else if region = 9 then s.bridgeWords
  else []

/-- R205: the record length of a writable region. -/
def writableLength (region : BitVec 8) : Option Nat :=
  if region = 1 then some 22
  else if region = 2 then some 17
  else if region = 3 then some 4
  else if region = 8 then some 5
  else if region = 9 then some 6
  else none

end Sys2Proof.Machine
end

