-- ==== Sys2Proof/Machine/Service.lean ====
section
/-! DEFINITION. The service unit (spec/09): each request's checks in their order and its effect, the answer slot
(R166), and the writes and releases with the owners' rules (R3 to R5, R66 to R68, R103 to R108, R113, R175 to R177). -/

namespace Sys2Proof.Machine

/-- What a request answers: its code, its data words, and the first-header position. -/
structure Reply where
  code : AnswerCode
  data : List Word
  firstHeader : Option Nat
  deriving DecidableEq, Repr

/-- An answer with no data words. -/
def Reply.only (c : AnswerCode) : Reply := { code := c, data := [], firstHeader := none }

/-- The most data words of a block (R168). -/
def maxData : Nat := 8

/-- The data words of a request: a block carries at most eight (R168, log 20). -/
def blockData (data : List Word) : List Word := data.take maxData

/-- R166: a request reaches the service unit. In RELAYED nothing is executed; a full slot discards the request with
SERVICE_OVERRUN; otherwise it is executed and its answer fills the slot. -/
def serve (tag kind : BitVec 8) (op : State → State × Reply) (s : State) : State :=
  if s.inline then
    match s.service.slot with
    | some _ => raise .serviceOverrun s
    | none =>
      let out := op s
      out.1.setService { out.1.service with
        slot := some { tag := tag, kind := kind, code := out.2.code, data := out.2.data
                       firstHeader := out.2.firstHeader } }
  else s

/-- A refusal changes no state (R166). Its answer carries count 0, also for READ, PROTECT and CLEAR, whose rules give a
count for the accepted request only (log 32). -/
def refuse (c : AnswerCode) (s : State) : State × Reply := (s, Reply.only c)

/-! ### READ (R158 to R161, R170) -/

/-- R158, R159: a stream read of `count` words. -/
def streamRead (count : Nat) (s : State) : State × Reply :=
  let ws := s.ring.words.take count
  (freeWords ws.length s, { code := .ok, data := ws.map (·.word), firstHeader := firstHeader ws })

/-- R160, R159: a peek of `count` words from an offset. -/
def peekRead (offset count : Nat) (s : State) : State × Reply :=
  let ws := (s.ring.words.drop offset).take count
  (s, { code := .ok, data := ws.map (·.word), firstHeader := firstHeader ws })

/-- R170: a READ. -/
def readRequest (region : BitVec 8) (record offset : BitVec 16) (count : Nat) (s : State) : State × Reply :=
  match regionRecords region with
  | none => refuse .badRequest s
  | some n =>
    if n ≤ record.toNat then refuse .badValue s
    else if region = 6 ∧ record = 0 then streamRead count s
    else if region = 7 ∧ record = 0 then peekRead offset.toNat count s
    else (s, { code := .ok, data := run (s.recordWords region record.toNat) offset.toNat count, firstHeader := none })

/-! ### WRITE: the common checks (R171, R172) -/

/-- R172: whether a run covers one of the words `lo` to `hi` of a record. -/
def runTouches (off len lo hi : Nat) : Bool := decide (off ≤ hi) && decide (lo < off + len)

/-- R172: a group is protected while its flag is set or the key is OFF. -/
def State.groupProtected (s : State) (flag : Bool) : Bool := flag || !s.keyOn

/-- R172: whether a run includes a word of a protected group. -/
def State.writeProtected (s : State) (region : BitVec 8) (off len : Nat) : Bool :=
  let p := s.service.prot
  if region = 1 then
    (s.groupProtected p.tuning && runTouches off len 1 5) ||
    (s.groupProtected p.limits && (runTouches off len 0 0 || runTouches off len 6 12))
  else if region = 2 then s.groupProtected p.sets && runTouches off len 0 8
  else if region = 3 then s.groupProtected p.program && runTouches off len 0 3
  else if region = 9 then s.groupProtected p.limits && runTouches off len 2 2
  else false

/-- R171, R172: the checks every WRITE passes first; `none` when they pass. -/
def State.writeRefusal (s : State) (region : BitVec 8) (record offset : BitVec 16) (len : Nat) :
    Option AnswerCode :=
  match writableLength region, regionRecords region with
  | some size, some n =>
    if n ≤ record.toNat then some .badValue
    else if size < offset.toNat + len then some .badValue
    else if len = 0 then none
    else if s.writeProtected region offset.toNat len then some .protectedGroup
    else none
  | _, _ => some .badRequest

/-- R174: OK or CLAMPED: whether a clamp changed a word of the run. -/
def clampCode (merged clamped : List Word) (off len : Nat) : AnswerCode :=
  if run merged off len = run clamped off len then .ok else .clamped

/-- R174: the answer of an accepted write: the words of the run as they stand after it. -/
def writeReply (code : AnswerCode) (after : List Word) (off len : Nat) : Reply :=
  { code := code, data := run after off len, firstHeader := none }

/-- A WRITE passed through the common checks to its owner; a run of no words is answered OK (R171). -/
def guardWrite (region : BitVec 8) (record offset : BitVec 16) (data : List Word)
    (owner : State → State × Reply) (s : State) : State × Reply :=
  match s.writeRefusal region record offset data.length with
  | some c => refuse c s
  | none => if data = [] then (s, Reply.only .ok) else owner s

/-! ### SECTION (R3 to R5) -/

/-- R3, R66: the section is a member of a valid set or bound to a runner. -/
def State.sectionInUse (s : State) (i : Fin 32) : Bool := (s.setOf i).isSome || (s.boundRunner i).isSome

/-- R3: the structural checks, made when valid or the node address changes. -/
def State.structuralRefusal (s : State) (i : Fin 32) (new : SectionSettings) : Option AnswerCode :=
  let old := s.settings i
  if old.valid = new.valid ∧ old.node = new.node then none
  else if new.node = 63 ∨ (new.valid ∧ new.node = 0) then some .badValue
  else if new.valid ∧ new.node = s.control.strap then some .conflict
  else if new.valid ∧ sections.any (fun j => j != i && (s.settings j).valid && (s.settings j).node == new.node) then
    some .duplicate
  else if old.valid then
    if s.tripped i then some .tripped
    else if s.sectionInUse i then some .conflict
    else if s.engaged ∧ old.mode = .active then some .engaged
    else none
  else none

/-- R5: the checks of the live fields, on the clamped record. -/
def State.liveRefusal (s : State) (i : Fin 32) (new : SectionSettings) : Option AnswerCode :=
  let old := s.settings i
  if new.vMax.toInt < new.vMin.toInt then some .badValue
  else if s.engaged ∧ old.cutoff ≠ new.cutoff ∧ (old.mode = .active ∨ new.mode = .active) then some .engaged
  else if s.engaged ∧ old.mode = .active ∧ new.mode = .pass then some .engaged
  else if s.engaged ∧ old.mode = .active ∧ new.trimLimit.toNat < old.trimLimit.toNat then some .engaged
  else none

/-- R4: the write makes the record valid, re-addresses a valid record, or makes it invalid. -/
def renewsSection (old new : SectionSettings) : Bool :=
  old.valid != new.valid || (old.valid && old.node != new.node)

/-- R4: the per-section state of a new section. -/
def renewSection (i : Fin 32) (s : State) : State :=
  let s1 := setRw i { RewriteStatus.fresh with mark := true } s
  let s2 := setSh i { trim := 0, imbalance := 0 } s1
  let s3 := setCounts i { missing := 0, deviation := 0 } s2
  let s4 := setTp i { latch := s3.tripped i, record := none } s3
  s4.setBanks { s4.banks with fill := s4.banks.fill.set i none, held := s4.banks.held.set i none }

/-- The setting fields of a section record stored. -/
def storeSettings (i : Fin 32) (r : SectionSettings) (s : State) : State := s.setTable (s.table.set i r)

/-- R95, R96: the section meets the LINK level rule's condition on the section itself. -/
def State.linkReady (s : State) (i : Fin 32) : Bool := s.validActive i && !s.tripped i

/-- R95: the section meets the BREAK level rule's condition on the section itself. -/
def State.breakReady (s : State) (i : Fin 32) : Bool := s.linkReady i && (s.settings i).breakResponse

/-- The setting words of a run merged into a section record (R171). -/
def State.mergedSection (s : State) (i : Fin 32) (off : Nat) (data : List Word) : SectionSettings :=
  SectionSettings.ofWords (overlay (s.settings i).words off data)

/-- R3 to R5, R95, R96, R102, R174: a WRITE to a section record that has passed the common checks. -/
def writeSection (cycle : BitVec 16) (i : Fin 32) (off : Nat) (data : List Word) (s : State) : State × Reply :=
  let merged := s.mergedSection i off data
  let new := merged.clamp
  match s.structuralRefusal i new with
  | some c => refuse c s
  | none =>
    match s.liveRefusal i new with
    | some c => refuse c s
    | none =>
      let s1 := storeSettings i new s
      let s2 := if renewsSection (s.settings i) new then renewSection i s1 else s1
      let s3 := setTripLine s2
      let brk := if !s.breakReady i && s3.breakReady i then [i] else []
      let lnk := if !s.linkReady i && s3.linkReady i then [i] else []
      (levelTrips cycle brk lnk s3,
       writeReply (clampCode merged.words new.words off data.length) (s3.sectionWords i) off data.length)

/-! ### SET (R66 to R68) -/

/-- R66 check 2: a merged member count above 6, or a member position above 31. -/
def setOutOfRange (ws : List Word) : Bool :=
  decide (6 < (field (ws.getD 0 0) 0 3).toNat) || (setMemberFields ws).any fun b => decide (31 < b.toNat)

/-- R66: the structural fields of nine setting words: valid, member count, member positions. -/
def setStructure (ws : List Word) : Bool × BitVec 3 × List (BitVec 8) :=
  ((ws.getD 0 0).getLsbD 31, field (ws.getD 0 0) 0 3, setMemberFields ws)

/-- R66: the structural checks, made when valid, the member count or a member position changes. -/
def State.setRefusal (s : State) (k : Fin 8) (ws : List Word) : Option AnswerCode :=
  let new := SetSettings.ofWords ws
  let ms := new.memberList
  if setStructure ws = setStructure (s.share.sets.get k).words then none
  else if s.engaged then some .engaged
  else if setOutOfRange ws then some .badValue
  else if new.valid ∧ (new.memberCount.toNat < 2 ∨ ¬ ms.Nodup) then some .badValue
  else if new.valid ∧ ms.any (fun i => !(s.settings i).valid) then some .noEntry
  else if new.valid ∧
      setIndexes.any (fun j => j != k && (s.share.sets.get j).valid &&
        ms.any fun i => decide (i ∈ (s.share.sets.get j).memberList)) then some .conflict
  else if new.valid ∧ ¬ (ms.all s.tripped ∨ ms.all fun i => !s.tripped i) then some .conflict
  else none

/-- R68: the write makes the set valid or invalid, or changes its member list. -/
def rebuildsSet (old new : SetSettings) : Bool := old.valid != new.valid || decide (old.memberList ≠ new.memberList)

/-- The setting fields of a set record stored. -/
def storeSet (k : Fin 8) (r : SetSettings) (s : State) : State :=
  s.setShare { s.share with sets := s.share.sets.set k r }

/-- R68: the read-only fields of a set that was rebuilt. -/
def rebuildSet (k : Fin 8) (s : State) : State :=
  setSetStatus k { s.setStat k with
    contributing := 0, lastRef := 0, lastErr := Table.replicate 6 none, settled := false } s

/-- R66 to R68, R174: a WRITE to a set record that has passed the common checks. -/
def writeSet (k : Fin 8) (off : Nat) (data : List Word) (s : State) : State × Reply :=
  let old := s.share.sets.get k
  let ws := overlay old.words off data
  match s.setRefusal k ws with
  | some c => refuse c s
  | none =>
    let merged := SetSettings.ofWords ws
    let new := merged.clamp
    let s1 := storeSet k new s
    let s2 := if rebuildsSet old new then rebuildSet k s1 else s1
    let s3 :=
      if new.valid ∧ new.shareLimit.toNat < old.shareLimit.toNat then
        forEach new.memberList (clampShare new.shareLimit.toNat) s2
      else s2
    (s3, writeReply (clampCode merged.words new.words off data.length) (s3.setWords k) off data.length)

/-! ### PROGRAM, EVENTS, BRIDGE (R113, R175, R44) -/

/-- R113: some runner is RUNNING or WAITING. -/
def State.anyLive (s : State) : Bool := runnerIndexes.any fun r => (s.runner r).isLive

/-- A step record from four words. -/
def StepRecord.ofWords (ws : List Word) : StepRecord :=
  { w0 := ws.getD 0 0, w1 := ws.getD 1 0, w2 := ws.getD 2 0, w3 := ws.getD 3 0 }

/-- R113: a WRITE to a step record that has passed the common checks: stored whole as written. -/
def writeProgram (k : Fin 512) (off : Nat) (data : List Word) (s : State) : State × Reply :=
  if s.anyLive then refuse .busy s
  else
    let ws := overlay (s.program.get k).words off data
    (s.setProgram (s.program.set k (StepRecord.ofWords ws)), writeReply .ok ws off data.length)

/-- The sixteen classes of EVENTS words 2 and 3. -/
def classesOfWords (lo hi : Word) : Table (BitVec 4) 16 :=
  Table.ofFn fun n => if n.val < 8 then field lo (4 * n.val) 4 else field hi (4 * (n.val - 8)) 4

/-- R174, R175, R193: a WRITE to the EVENTS record: masks and classes of the merged record. -/
def writeEvents (off : Nat) (data : List Word) (s : State) : State × Reply :=
  let ws := overlay s.eventWords off data
  let classes := classesOfWords (ws.getD 2 0) (ws.getD 3 0)
  if classes.toList.any fun c => decide (3 < c.toNat) then refuse .badValue s
  else
    let s1 := s.setEvents { s.events with masks := loHalf (ws.getD 1 0), classes := classes }
    (s1, writeReply .ok s1.eventWords off data.length)

/-- R44, R174: the cycle timeout of the merged BRIDGE record, clamped. -/
def clampTimeout (w : Word) : Word := clampU 2 250 w

/-- R44: the timeout stored; a changed timeout restarts a RUNNING timer. -/
def storeTimeout (t : Word) (s : State) : State :=
  let s1 := s.setLink { s.link with timeout := t }
  if t = s.link.timeout then s1
  else match s.link.timer with
    | .expired => s1
    | .running _ => restartTimer s1

/-- R44, R174, R175: a WRITE to the BRIDGE record: only the cycle timeout is stored. -/
def writeBridge (off : Nat) (data : List Word) (s : State) : State × Reply :=
  let ws := overlay s.bridgeWords off data
  let merged := ws.getD 2 0
  let s1 := storeTimeout (clampTimeout merged) s
  (s1, writeReply (if runTouches off data.length 2 2 ∧ clampTimeout merged ≠ merged then .clamped else .ok)
    s1.bridgeWords off data.length)

/-! ### WRITE by region -/

/-- R171: a WRITE by its region, through the common checks to the owner. -/
def writeRequest (cycle : BitVec 16) (region : BitVec 8) (record offset : BitVec 16) (data : List Word)
    (s : State) : State × Reply :=
  guardWrite region record offset data
    (fun s =>
      if region = 1 then
        match index? 32 record.toNat with
        | some i => writeSection cycle i offset.toNat data s
        | none => refuse .badValue s
      else if region = 2 then
        match index? 8 record.toNat with
        | some k => writeSet k offset.toNat data s
        | none => refuse .badValue s
      else if region = 3 then
        match index? 512 record.toNat with
        | some k => writeProgram k offset.toNat data s
        | none => refuse .badValue s
      else if region = 8 then writeEvents offset.toNat data s
      else if region = 9 then writeBridge offset.toNat data s
      else refuse .badRequest s) s

/-! ### ENGAGE, DISENGAGE (R188 to R190) -/

/-- R188: the refusals of ENGAGE in their order. -/
def State.engageRefusal (s : State) : Option AnswerCode :=
  if s.engaged then some .mode
  else if !s.keyOn then some .keyOff
  else if s.timerExpired then some .link
  else if sections.any s.tripped then some .tripped
  else none

/-- R188, R189: ENGAGE. -/
def engageRequest (cycle : BitVec 16) (s : State) : State × Reply :=
  match s.engageRefusal with
  | some c => refuse c s
  | none => (engageBridge cycle s, Reply.only .ok)

/-- R190: DISENGAGE. -/
def disengageRequest (cycle : BitVec 16) (s : State) : State × Reply :=
  if s.engaged then (disengageBridge cycle s, Reply.only .ok) else refuse .mode s

/-! ### START, STOP, CLOSE, SIGNAL (R135, R136, R142, R146, R148) -/

/-- R135 check 4, R201: the section list of a START, each index read from its whole word. -/
def sectionList (ws : List Word) : Option (List (Fin 32)) := ws.mapM fun w => index? 32 w.toNat

/-- R136: the context that an accepted START leaves. -/
def Runner.started (slots : List (Fin 32)) (step : Nat) : Runner :=
  { Runner.afterReset with state := .running, step := step, slots := slots }

/-- R135, R136: START. -/
def startRequest (runner step : BitVec 16) (ws : List Word) (s : State) : State × Reply :=
  match index? 4 runner.toNat with
  | none => refuse .badValue s
  | some r =>
    if !s.engaged then refuse .mode s
    else if (s.runner r).state ≠ .idle then refuse .busy s
    else if 511 < step.toNat ∨ ws.length = 0 ∨ 4 < ws.length then refuse .badValue s
    else match sectionList ws with
      | none => refuse .badValue s
      | some is =>
        if ¬ is.Nodup then refuse .badValue s
        else if is.any fun i => !(s.settings i).valid then refuse .noEntry s
        else if is.any fun i => (s.settings i).mode == .pass || (s.boundRunner i).isSome then refuse .conflict s
        else if is.any s.tripped then refuse .tripped s
        else (setRunner r (Runner.started is step.toNat) s, Reply.only .ok)

/-- R146: STOP. -/
def stopRequest (cycle : BitVec 16) (runner : BitVec 16) (s : State) : State × Reply :=
  match index? 4 runner.toNat with
  | none => refuse .badValue s
  | some r =>
    if (s.runner r).state = .idle then refuse .idle s
    else if (s.runner r).isLive then (leaveRunner cycle r (.outcome .stopped 0) s, Reply.only .ok)
    else (s, Reply.only .ok)

/-- R148: CLOSE. The sections are unbound with the list (log 9). -/
def closeRequest (runner : BitVec 16) (s : State) : State × Reply :=
  match index? 4 runner.toNat with
  | none => refuse .badValue s
  | some r =>
    if (s.runner r).state = .idle then refuse .idle s
    else if (s.runner r).isLive then refuse .busy s
    else (setRunner r Runner.afterReset s, Reply.only .ok)

/-- Table 11-5: the action of data word 0: clear, set, or neither. -/
def actionOf (ws : List Word) : Option Bool :=
  match ws with
  | [] => none
  | w :: _ => if w = 0 then some false else if w = 1 then some true else none

/-- R142: SIGNAL. -/
def signalRequest (mark : BitVec 16) (ws : List Word) (s : State) : State × Reply :=
  match index? 8 mark.toNat, actionOf ws with
  | some m, some b => (setSyncMark m b s, Reply.only .ok)
  | _, _ => refuse .badValue s

/-! ### RELEASE and TRIP (R98, R103 to R108) -/

/-- R104: the CAUSE check fails for a section. -/
def State.causeFails (s : State) (i : Fin 32) : Bool :=
  match (s.tp i).record with
  | none => false
  | some t => s.causePresent i t.cause || TripCause.all.any fun c => t.later.getLsbD c.code && s.causePresent i c

/-- R105, R107: the difference of the committed last output and the last inbound speed. -/
def State.releaseGap (s : State) (i : Fin 32) : Int :=
  match (s.rw i).lastOut with
  | none => 0
  | some o => o.speed.toInt - (s.rw i).lastIn.speed.toInt

/-- R105: the GAP check fails for a section. -/
def State.gapFails (s : State) (i : Fin 32) : Bool :=
  ((s.settings i).cutoff == .hold || (s.settings i).cutoff == .stop) && (s.rw i).lastOut.isSome &&
    decide (mag (s.releaseGap i) > ((s.settings i).trimLimit.toNat : Int))

/-- R103: the sections that a release covers. -/
def State.covered (s : State) (i : Fin 32) : List (Fin 32) :=
  match s.setOf i with
  | none => [i]
  | some k => (s.share.sets.get k).memberList

/-- R103 check 4: the first check that fails, in member order. -/
def State.releaseRefusal (s : State) (i : Fin 32) : Option AnswerCode :=
  (s.covered i).findSome? fun j =>
    if s.causeFails j then some .cause else if s.engaged && s.gapFails j then some .gap else none

/-- R107: the seed of a released section. -/
def State.seed (s : State) (i : Fin 32) : Int :=
  if (s.settings i).mode = .pass then 0
  else clampInt (-((s.settings i).trimLimit.toNat : Int)) (s.settings i).trimLimit.toNat (s.releaseGap i)

/-- R106: one covered section is released. -/
def releaseOne (i : Fin 32) (s : State) : State :=
  let s1 := setTp i { s.tp i with latch := false } s
  let s2 := setDeviation i 0 (setSh i { trim := 0, imbalance := 0 } s1)
  if s.engaged then setTrimMarked i (s32 (s.seed i)) s2 else s2

/-- R106: the release action, with the level trips that follow it at once (R95, R96). -/
def releaseAll (cycle : BitVec 16) (is : List (Fin 32)) (s : State) : State :=
  let s1 := setTripLine (forEach is releaseOne s)
  let hit := fun (p : Fin 32 → Bool) => sections.filter fun i => decide (i ∈ is) && p i
  levelTrips cycle (hit s1.breakReady) (hit s1.linkReady) s1

/-- R103: RELEASE. -/
def releaseRequest (cycle : BitVec 16) (sect : BitVec 16) (s : State) : State × Reply :=
  match index? 32 sect.toNat with
  | none => refuse .badValue s
  | some i =>
    if !(s.settings i).valid then refuse .noEntry s
    else if !s.tripped i then refuse .notTripped s
    else match s.releaseRefusal i with
      | some c => refuse c s
      | none => (releaseAll cycle (s.covered i) s, Reply.only .ok)

/-- R98: TRIP. -/
def tripRequest (cycle : BitVec 16) (sect : BitVec 16) (s : State) : State × Reply :=
  match index? 32 sect.toNat with
  | none => refuse .badValue s
  | some i =>
    if !(s.settings i).valid then refuse .noEntry s
    else if !s.engaged then refuse .mode s
    else (tripSection cycle .manual i s, Reply.only .ok)

/-! ### CLEAR and PROTECT (R176, R177) -/

/-- R201: the word that names the ring in a CLEAR. -/
def ringItem : Word := 0x100

/-- R177: a data word of CLEAR names a flag or the ring. -/
def clearItemOk (w : Word) : Bool := decide (w.toNat ≤ 15) || w == ringItem

/-- R177: one item cleared: a flag, with the stuck-port record for LINE_STUCK, or the ring. -/
def clearItem (w : Word) (s : State) : State :=
  if w = ringItem then emptyRing s
  else
    let s1 := s.setEvents { s.events with flags := clearBit16 s.events.flags w.toNat }
    if w.toNat = Event.lineStuck.number.val then s1.setLink { s1.link with stuck := .none } else s1

/-- R177: CLEAR. -/
def clearRequest (ws : List Word) (s : State) : State × Reply :=
  if ws = [] ∨ ws.any (fun w => !clearItemOk w) then refuse .badValue s
  else
    let s1 := forEach ws clearItem s
    (s1, { code := .ok, data := if ringItem ∈ ws then s1.ring.statusWords.take 3 else [], firstHeader := none })

/-- R176: the flag of a group set to a value. -/
def Protection.put (p : Protection) (group : Nat) (b : Bool) : Protection :=
  match group with
  | 0 => { p with tuning := b }
  | 1 => { p with limits := b }
  | 2 => { p with sets := b }
  | 3 => { p with program := b }
  | _ => p

/-- R176: PROTECT. -/
def protectRequest (group : BitVec 16) (ws : List Word) (s : State) : State × Reply :=
  match actionOf ws with
  | none => refuse .badValue s
  | some b =>
    if 3 < group.toNat then refuse .badValue s
    else if !b ∧ !s.keyOn then refuse .keyOff s
    else (s.setService { s.service with prot := s.service.prot.put group.toNat b }, Reply.only .ok)

/-! ### A request by its kind (R169) -/

/-- R168, R169: what a request of a service block does, by its kind code. -/
def requestOp (cycle : BitVec 16) (q : Request) (s : State) : State × Reply :=
  match q.kind.toNat with
  | 1 => readRequest q.region q.record q.offset q.data.length s
  | 2 => writeRequest cycle q.region q.record q.offset q.data s
  | 3 => engageRequest cycle s
  | 4 => disengageRequest cycle s
  | 5 => startRequest q.record q.offset q.data s
  | 6 => stopRequest cycle q.record s
  | 7 => closeRequest q.record s
  | 8 => releaseRequest cycle q.record s
  | 9 => tripRequest cycle q.record s
  | 10 => signalRequest q.record q.data s
  | 11 => clearRequest q.data s
  | 12 => protectRequest q.record q.data s
  | _ => refuse .badRequest s

/-- R166: a service block reaches the service unit. -/
def serveRequest (cycle : BitVec 16) (q : Request) (s : State) : State :=
  serve q.tag q.kind (requestOp cycle q) s

end Sys2Proof.Machine
end

