-- ==== Sys2Proof/Machine/Link.lean ====
section
/-! DEFINITION. The section link (spec/02): the forwarding queues, the parse of a frame word by word, extraction and
appending, the outcomes of a frame, and the work of a cycle close and of a report close. -/

namespace Sys2Proof.Machine

/-! ### Forwarding queues (R31, R32) -/

/-- R31: a forwarding queue holds 256 symbols. -/
def queueSize : Nat := 256

/-- R31: a symbol put into a transmitter's queue; `none` when it finds the queue full. -/
def pushSymbol (p : Port) (sym : Symbol) (s : State) : Option State :=
  let t := s.transmitter p
  if t.queue.length < queueSize ∧ t.abortsOwed = 0 then
    some (setTransmitter p { t with queue := t.queue ++ [sym] } s)
  else none

/-- R31, R32: an abort mark put into a transmitter's queue, or owed until there is room for it (log 13). -/
def queueAbort (p : Port) (s : State) : State :=
  match pushSymbol p .abortMark s with
  | some s' => s'
  | none =>
    let t := s.transmitter p
    setTransmitter p { t with abortsOwed := t.abortsOwed + 1 } s

/-- R31, R42: data words of the frame arriving at port `p` put into the other port's queue and into the outbound
check; false when one of them found the queue full. -/
def forwardWords (p : Port) : List LinkWord → State → State × Bool
  | [], s => (s, true)
  | w :: ws, s =>
    match pushSymbol (otherPort p) (.word w) s with
    | none => (s, false)
    | some s' =>
      forwardWords p ws (setReceiver p { s'.receiver p with crcOut := crcWord (s'.receiver p).crcOut w } s')

/-- R31: the transmitter of a port sends the symbol at the head of its queue, or an idle symbol; an owed abort mark
takes the room that has come free. -/
def sendSymbol (p : Port) (s : State) : State :=
  let t := s.transmitter p
  match t.queue with
  | [] => setTransmitter p { t with line := .idle } s
  | sym :: rest =>
    if t.abortsOwed = 0 then setTransmitter p { t with queue := rest, line := sym } s
    else setTransmitter p { queue := rest ++ [.abortMark], abortsOwed := t.abortsOwed - 1, line := sym } s

/-! ### Frame outcomes that void the frame (R20, R30, R32, R38) -/

/-- A receiver's state set. -/
def setRx (p : Port) (x : RxState) (s : State) : State := setReceiver p { s.receiver p with rx := x } s

/-- R20, R38: a cycle fail: nothing is committed, and an extracted block is discarded. -/
def cycleFailEffects (s : State) : State :=
  dropTreated (s.setLink { s.link with reqBuf := [] })

/-- R30: what a fail at a port brings: a cycle fail at C, a report fail at D. -/
def frameFailed (p : Port) (s : State) : State :=
  match p with
  | .c => cycleFailEffects s
  | .d => bankReportFail s.link.lastCycle s

/-- The frame in flight at a port is given up: words still held back are discarded (R32), and what follows of it is
discarded as it arrives (R34). -/
def giveUpFrame (p : Port) (s : State) : State :=
  setReceiver p { s.receiver p with failed := true, hold := none, entry := [] } s

/-- R30, R32: a frame fails for a reason other than a bad check: the event is raised and the outbound copy ends with an
abort mark. -/
def failFrame (p : Port) (e : Event) (s : State) : State :=
  frameFailed p (giveUpFrame p (queueAbort (otherPort p) (raise e s)))

/-- R31: a frame one of whose symbols found the queue full fails with FORMAT_BAD. -/
def orFail (p : Port) (out : State × Bool) : State :=
  if out.2 then out.1 else failFrame p .formatBad out.1

/-! ### The parse (R28, R198 to R201) -/

/-- What a word of a frame is, by its position. -/
inductive Place
  | kind
  | count
  | cycle
  | target
  /-- Word `w` (0 to 4) of entry `k`. -/
  | entry (k w : Nat)
  /-- Word `b` of the service or answer block. -/
  | block (b : Nat)
  | check
  /-- The check word has arrived: only an end mark may follow. -/
  | after
  deriving DecidableEq, Repr

/-- R28, R198: the place of the next word of the frame. -/
def Receiver.place (x : Receiver) : Place :=
  match x.pos with
  | 0 => .kind
  | 1 => .count
  | 2 => .cycle
  | 3 => .target
  | p + 4 =>
    let n := 5 * x.count.toNat
    if p < n then .entry (p / 5) (p % 5)
    else if x.target = 0 then (if p = n then .check else .after)
    else if p - n < 2 then .block (p - n)
    else if p - n < x.blockLen then .block (p - n)
    else if p - n = x.blockLen then .check
    else .after

/-- R28, R199, R201: the frame is malformed at this word. -/
def wordMalformed (p : Port) (x : Receiver) (w : LinkWord) : Bool :=
  match x.place, p with
  | .kind, p => w != frameKind p
  | .count, .c => decide (w.toNat < 1) || decide (48 < w.toNat)
  | .count, .d => decide (48 < w.toNat)
  | .target, _ => decide (62 < w.toNat)
  | .block 0, .d => !knownKind (loByte w)
  | .block 1, _ => decide (8 < (loByte w).toNat)
  | .after, _ => true
  | _, _ => false

/-- The receiver after a well-formed word: the header fields, the block's length, the inbound check and the entry in
arrival. -/
def Receiver.accept (p : Port) (x : Receiver) (w : LinkWord) : Receiver :=
  let y := { x with pos := x.pos + 1, crcIn := crcWord x.crcIn w }
  match x.place with
  | .kind => y
  | .count => { y with count := w }
  | .cycle => { y with cycle := w }
  | .target => { y with target := w }
  | .entry _ 0 => { y with entry := [w] }
  | .entry _ _ => { y with entry := x.entry ++ [w] }
  | .block 0 => { y with blockKind := loByte w }
  | .block 1 =>
    { y with blockLen := (match p with
        | .c => serviceBlockLen (loByte w).toNat
        | .d => answerBlockLen (loByte w).toNat x.blockKind) }
  | .block _ => y
  | .check => { x with pos := x.pos + 1, checkGood := some (w == x.crcIn) }
  | .after => x

/-- R12, R49: an address from 1 to 62 enters the set of addresses met. -/
def noteAddress (p : Port) (w : LinkWord) (s : State) : State :=
  setReceiver p { s.receiver p with seen := w :: (s.receiver p).seen } s

/-- R12, R49, R199: an address that enters the duplicate tests. -/
def addressCounts (w : LinkWord) : Bool := decide (1 ≤ w.toNat) && decide (w.toNat ≤ 62)

/-- R12, R49: a repeated address. -/
def Receiver.repeats (x : Receiver) (w : LinkWord) : Bool := addressCounts w && decide (w ∈ x.seen)

/-! ### Downstream words (R10 to R12, R37) -/

/-- R37: the frame carries a block for the bridge. -/
def State.extracts (s : State) (x : Receiver) : Bool := x.target != 0 && x.target == s.strapWord

/-- R10 to R12: the node address word of a reference entry. Every entry that R13 treats is held, that of an untripped
PASS section too, whose inbound fields then leave whole (log 30). -/
def referenceAddress (w : LinkWord) (s : State) : State :=
  let dup := s.link.rxC.repeats w
  let s1 := if dup then raise .dupNode s else if addressCounts w then noteAddress .c w s else s
  match (if s.engaged && !dup then lookupSnap s.rewriter.snap w else none) with
  | none => orFail .c (forwardWords .c [w] s1)
  | some i => setReceiver .c { s1.link.rxC with hold := some i, holdPass := false } s1

/-- R10, R11, R13: a held entry is complete: it leaves treated, or with its inbound contents when the bridge has left
ENGAGED. -/
def releaseHeld (i : Fin 32) (s : State) : State :=
  let x := s.link.rxC
  let s1 := setReceiver .c { x with hold := none, holdPass := false } s
  if s.engaged && !x.holdPass then
    let e := s.rewriter.snap.get i
    let f := RefFields.ofEntry x.entry
    let out := forwardWords .c (x.entry.getD 0 0 :: (e.sentFields f).words) s1
    if out.2 then
      noteTreated i (e.commitOf f) (if e.windowHit f then raise .windowHit out.1 else out.1)
    else failFrame .c .formatBad out.1
  else orFail .c (forwardWords .c x.entry s1)

/-- A well-formed word of a cycle frame, `pl` its place, taken into the receiver: what is forwarded, held or taken out
(R11, R37). -/
def cycleWord (pl : Place) (w : LinkWord) (s : State) : State :=
  match pl with
  | .target =>
    if s.extracts s.link.rxC then
      orFail .c (forwardWords .c [0] (s.setLink { s.link with reqBuf := [] }))
    else orFail .c (forwardWords .c [w] s)
  | .entry _ 0 => referenceAddress w s
  | .entry _ k =>
    match s.link.rxC.hold with
    | none => orFail .c (forwardWords .c [w] s)
    | some i => if k = 4 then releaseHeld i s else s
  | .block _ =>
    if s.extracts s.link.rxC then s.setLink { s.link with reqBuf := s.link.reqBuf ++ [w] }
    else orFail .c (forwardWords .c [w] s)
  | .check => s
  | _ => orFail .c (forwardWords .c [w] s)

/-! ### Upstream words (R39 to R41, R48 to R50, R195, R202) -/

/-- R195, R202: the five words of the bridge entry, from the state at the moment of insertion. -/
def State.bridgeEntry (s : State) : List LinkWord :=
  [ s.strapWord,
    (s.control.mode.code).setWidth 16 ||| (if s.keyOn then 0x0004 else 0) ||| attentionBits s.events.attention |||
      (if s.trips.line then 0x0100 else 0),
    s.link.lastCycle,
    BitVec.ofNat 16 s.trippedCount,
    BitVec.ofNat 4 (s.runner 3).state.code ++ BitVec.ofNat 4 (s.runner 2).state.code ++
      BitVec.ofNat 4 (s.runner 1).state.code ++ BitVec.ofNat 4 (s.runner 0).state.code ]

/-- R39: what is appended to a report frame of a given inbound count and answer source. -/
def State.appendFor (s : State) (count source : LinkWord) : Append :=
  if count.toNat ≤ 46 then
    if source = 0 ∧ s.service.slot.isSome then .entryAndAnswer else .entry
  else if count.toNat = 47 then .entry
  else .nothing

/-- R39: the outbound entry count. -/
def outboundCount (count : LinkWord) : LinkWord := if count.toNat ≤ 47 then count + 1 else count

/-- R40, R41: the words inserted after the last inbound status entry. -/
def State.insertedWords (s : State) : List LinkWord :=
  match s.link.rxD.append with
  | .nothing => []
  | .entry => s.bridgeEntry
  | .entryAndAnswer => s.bridgeEntry ++ (match s.service.slot with | some a => a.block | none => [])

/-- R31, R40: the insertion: the words are put into the queue in one piece, so that inbound words wait behind them, and
when they do not all find room the frame fails with FORMAT_BAD (log 31). -/
def insertEntry (s : State) : State := orFail .d (forwardWords .d s.insertedWords s)

/-- R39: the decision what to append, with REPORT_FULL when nothing can be. -/
def decideAppend (w : LinkWord) (s : State) : State :=
  let s1 := setReceiver .d { s.link.rxD with append := s.appendFor s.link.rxD.count w } s
  if s1.link.rxD.append = .nothing then raise .reportFull s1 else s1

/-- R39: the answer source word that is sent. -/
def State.sourceWord (s : State) (w : LinkWord) : LinkWord :=
  if s.link.rxD.append = .entryAndAnswer then s.strapWord else w

/-- R39, R40: the answer source word of a report frame: the decision, the word sent, and with an inbound count of 0 the
insertion. -/
def answerSource (w : LinkWord) (s : State) : State :=
  let s1 := decideAppend w s
  let out := forwardWords .d [s1.sourceWord w] s1
  if out.2 then (if s.link.rxD.count = 0 then insertEntry out.1 else out.1)
  else failFrame .d .formatBad out.1

/-- R48: the fields of a complete status entry. -/
def Receiver.feedback (x : Receiver) : Feedback :=
  { status := x.entry.getD 1 0, speed := halves (x.entry.getD 2 0) (x.entry.getD 3 0)
    torque := x.entry.getD 4 0, cycle := x.cycle }

/-- R48 to R51: a complete status entry is captured, and its address joins those met. -/
def takeStatus (addr : LinkWord) (s : State) : State :=
  captureEntry addr s.link.rxD.feedback
    (if !s.link.rxD.repeats addr && addressCounts addr then noteAddress .d addr s else s)

/-- R40, R49: the insertion after the last status entry. When that entry repeats an address, whether DUP_NODE or the
insertion is taken first is open (R194, log 8). -/
def insertAfter (dup : Bool) (s : State) : State :=
  if dup then
    if s.link.rxD.append = .nothing then raise .dupNode s
    else if (takeChoice s).1 % 2 = 0 then insertEntry (raise .dupNode (takeChoice s).2)
    else raise .dupNode (insertEntry (takeChoice s).2)
  else insertEntry s

/-- R49: the status entry in arrival repeats an address that this report frame has carried. -/
def State.statusRepeats (s : State) : Bool := s.link.rxD.repeats (s.link.rxD.entry.getD 0 0)

/-- R40, R48 to R51: a status entry is complete: the duplicate test, the capture, and after the last entry the
insertion. -/
def statusEntryDone (k : Nat) (s : State) : State :=
  let s1 := takeStatus (s.link.rxD.entry.getD 0 0) s
  if k + 1 = s.link.rxD.count.toNat then insertAfter s.statusRepeats s1
  else raiseIf s.statusRepeats .dupNode s1

/-- A well-formed word of a report frame, `pl` its place, taken into the receiver (R39, R40, R48). DUP_NODE is raised
as the last word of an entry arrives, also when that word finds the queue full (R31, R49); what such an entry would
put into the fill bank the report fail clears at once (R53). -/
def reportWord (pl : Place) (w : LinkWord) (s : State) : State :=
  match pl with
  | .count => orFail .d (forwardWords .d [outboundCount w] s)
  | .target => answerSource w s
  | .entry k 4 =>
    let out := forwardWords .d [w] s
    if out.2 then statusEntryDone k out.1 else failFrame .d .formatBad (raiseIf s.statusRepeats .dupNode out.1)
  | .check => s
  | _ => orFail .d (forwardWords .d [w] s)

/-- R28: a data word of the frame in flight at an inline receiver that has not failed. -/
def frameWord (p : Port) (w : LinkWord) (s : State) : State :=
  let x := s.receiver p
  if wordMalformed p x w then failFrame p .formatBad s
  else
    let s1 := setReceiver p (x.accept p w) s
    match p with
    | .c => cycleWord x.place w s1
    | .d => reportWord x.place w s1

/-! ### Work of a cycle close (R30, R137, R166, R167) -/

/-- R45: the interval since the previous cycle close, in whole microseconds, rounded, saturating. -/
def periodOf (interval : Nat) : BitVec 16 :=
  BitVec.ofNat 16 (min 65535 (roundDiv interval Config.ticksPerMicrosecond).toNat)

/-- R45: the cycle period stored. -/
def storePeriod (s : State) : State :=
  s.setLink { s.link with
    period := (match s.link.lastClose with | some t => periodOf (s.clock.now - t) | none => s.link.period)
    lastClose := some s.clock.now }

/-- R46: the last cycle number stored. -/
def storeCycle (n : BitVec 16) (s : State) : State := s.setLink { s.link with lastCycle := n }

/-- R36: while Port D is STUCK a cycle close hands a report fail to the banks. -/
def stuckReportFail (cycle : BitVec 16) (s : State) : State :=
  if s.link.rxD.rx = .stuck then bankReportFail cycle s else s

/-- R137: where in a close a request is taken. -/
inductive TakenAt
  | beforeAdvance
  | afterAdvance
  | byServiceUnit
  deriving DecidableEq, Repr

/-- R137: STOP is taken before the advances, START, CLOSE, SIGNAL and a READ of the RUNNER region after them. -/
def Request.takenAt (q : Request) : TakenAt :=
  if q.kind = 6 then .beforeAdvance
  else if q.kind = 5 ∨ q.kind = 7 ∨ q.kind = 10 ∨ (q.kind = 1 ∧ q.region = 4) then .afterAdvance
  else .byServiceUnit

/-- The request of the closing frame, when it is taken at a given point. -/
def serveAt (at_ : TakenAt) (cycle : BitVec 16) (q : Option Request) (s : State) : State :=
  match q with
  | some q => if q.takenAt = at_ then serveRequest cycle q s else s
  | none => s

/-- R137: the runner block's operation at a cycle close. -/
def runnerBlock (ctx : CloseCtx) (q : Option Request) (s : State) : State :=
  serveAt .afterAdvance ctx.cycle q (advanceAll ctx (serveAt .beforeAdvance ctx.cycle q s))

/-- One piece of the work of a cycle close. Of the events of R149 and R155 that fall at the same instant only the
expiry is a piece of the close; the others are commands before or after it (log 34). -/
def closeAct (cycle : BitVec 16) (q : Option Request) (a : CloseAct) (s : State) : State :=
  match a with
  | .restart => restartTimer s
  | .period => storePeriod s
  | .number => storeCycle cycle s
  | .commit => commitFrame s
  | .stuckReport => stuckReportFail cycle s
  | .runners => runnerBlock { cycle := cycle, closing := true } q s
  | .request => serveAt .byServiceUnit cycle q s
  | .expiry => expireIfUp s

/-- The items of a list that are not in `seen`, each once, in the order of their first place. -/
def firstsOf : List CloseAct → List CloseAct → List CloseAct
  | [], _ => []
  | a :: l, seen => if a ∈ seen then firstsOf l seen else a :: firstsOf l (a :: seen)

/-- R43: when the restart is taken first, the expiry does not occur. -/
def dropLateExpiry : List CloseAct → List CloseAct
  | [] => []
  | .restart :: l => .restart :: l.filter fun a => a != .expiry
  | a :: l => a :: dropLateExpiry l

/-- The order in which the work of a close is taken when nothing else is asked: the restart first, and no expiry. -/
def CloseAct.all : List CloseAct := [.restart, .period, .number, .commit, .stuckReport, .runners, .request]

/-- Log 5: the order of the work of a close: first what `order` names, as it names it, then the rest. -/
def schedule (order : List CloseAct) : List CloseAct := firstsOf (dropLateExpiry order ++ CloseAct.all) []

/-- R30: a cycle close: the block in the request buffer is handed over (R38) and the close's work is done. -/
def closeCycle (order : List CloseAct) (s : State) : State :=
  let x := s.link.rxC
  let q := if s.extracts x then some (Request.ofBlock s.link.reqBuf) else none
  forEach (schedule order) (closeAct x.cycle q) (s.setLink { s.link with reqBuf := [] })

/-! ### Work of a report close (R41, R52) -/

/-- R41: the slot is emptied when the closing report frame carried its answer. -/
def consumeAnswer (s : State) : State :=
  if s.link.rxD.append = .entryAndAnswer then s.setService { s.service with slot := none } else s

/-- R30, R41, R52: a report close. -/
def closeReport (s : State) : State := bankReportClose (consumeAnswer s)

/-- R30: what a close at a port brings. -/
def frameClosed (p : Port) (order : List CloseAct) (s : State) : State :=
  match p with
  | .c => closeCycle order s
  | .d => closeReport s

/-! ### Marks and idle symbols (R27, R29, R33, R34) -/

/-- A line transition at a port is seen (R35). -/
def seeEdge (p : Port) (s : State) : State := setReceiver p { s.receiver p with lastEdge := s.clock.now } s

/-- R35: a symbol at a STUCK receiver brings the line transition that makes it BETWEEN (log 14). -/
def wakeReceiver (p : Port) (s : State) : State :=
  if (s.receiver p).rx = .stuck then setRx p .between (seeEdge p s) else seeEdge p s

/-- The receiver is parsing a frame that has not failed. -/
def Receiver.parsing (x : Receiver) : Bool := x.rx == .inFrame && !x.failed

/-- R27: a start mark begins a frame: the receiver starts its parse, Port C takes the snapshot (R8), and the mark is
queued for the other port. -/
def beginFrame (p : Port) (s : State) : State :=
  let s1 := setReceiver p { Receiver.afterReset with lastEdge := (s.receiver p).lastEdge } s
  let s2 := (match p with | .c => takeSnapshot s1 | .d => s1)
  match pushSymbol (otherPort p) .startMark s2 with
  | some s3 => s3
  | none => failFrame p .formatBad s2

/-- R27, R28, R34: a start mark at an inline receiver. -/
def startMarkAt (p : Port) (s : State) : State :=
  if (s.receiver p).parsing then beginFrame p (failFrame p .formatBad s) else beginFrame p s

/-- R27, R28, R34: a data word at an inline receiver. -/
def dataWordAt (p : Port) (w : LinkWord) (s : State) : State :=
  if (s.receiver p).rx = .inFrame then (if (s.receiver p).failed then s else frameWord p w s)
  else raise .formatBad s

/-- R27, R33, R34: an abort mark at an inline receiver. -/
def abortMarkAt (p : Port) (s : State) : State :=
  if (s.receiver p).rx = .inFrame then
    if (s.receiver p).failed then setRx p .between s
    else setRx p .between (failFrame p .abortSeen s)
  else queueAbort (otherPort p) s

/-- R27, R28, R34: an idle symbol at an inline receiver. -/
def idleAt (p : Port) (s : State) : State :=
  if (s.receiver p).rx = .inFrame then
    if (s.receiver p).failed then setRx p .between s
    else setRx p .between (failFrame p .formatBad s)
  else s

/-- R29: the outbound check word and the end mark put into the queue: correct when the inbound check was, and poisoned
otherwise; false when one of them found the queue full. -/
def sendCheck (p : Port) (good : Bool) (s : State) : State × Bool :=
  let c := (s.receiver p).crcOut
  match pushSymbol (otherPort p) (.word (if good then c else ~~~c)) s with
  | none => (s, false)
  | some s1 =>
    match pushSymbol (otherPort p) .endMark s1 with
    | none => (s1, false)
    | some s2 => (s2, true)

/-- R29, R30: the end mark after the check word of a well-formed frame. -/
def endAfterCheck (p : Port) (good : Bool) (order : List CloseAct) (s : State) : State :=
  let out := sendCheck p good s
  if out.2 then
    if good then frameClosed p order (setRx p .between out.1)
    else frameFailed p (raise .frameBad (giveUpFrame p (setRx p .between out.1)))
  else setRx p .between (failFrame p .formatBad out.1)

/-- R27 to R30, R34: an end mark at an inline receiver. -/
def endMarkAt (p : Port) (order : List CloseAct) (s : State) : State :=
  let x := s.receiver p
  if x.rx = .inFrame then
    if x.failed then setRx p .between s
    else match x.checkGood with
      | some good => endAfterCheck p good order s
      | none => setRx p .between (failFrame p .formatBad s)
  else raise .formatBad s

/-! ### Line stuck (R35) -/

/-- R35: a port enters the stuck-port record. -/
def StuckRecord.add (x : StuckRecord) (p : Port) : StuckRecord :=
  match x, p with
  | .none, .c => .portC
  | .none, .d => .portD
  | .portC, .c => .portC
  | .portD, .d => .portD
  | _, _ => .both

/-- R35: an inline receiver becomes STUCK. -/
def stickReceiver (p : Port) (s : State) : State :=
  let s1 := raise .lineStuck (s.setLink { s.link with stuck := s.link.stuck.add p })
  if (s.receiver p).parsing then setRx p .stuck (failFrame p .lineStuck s1) else setRx p .stuck s1

/-! ### The passive tap (R26, R183) -/

/-- R26: the move of a passive receiver on a symbol. A symbol at a STUCK one is itself a line transition (log 14). -/
def passiveMove (x : RxState) (sym : Symbol) : RxState :=
  match x, sym with
  | .inFrame, .endMark => .between
  | .inFrame, .abortMark => .between
  | .inFrame, .idle => .between
  | .inFrame, _ => .inFrame
  | _, .startMark => .inFrame
  | _, _ => .between

/-- R183: the relay carries a symbol to the other port's outgoing pair. -/
def relaySymbol (p : Port) (sym : Symbol) (s : State) : State :=
  setTransmitter (otherPort p) { s.transmitter (otherPort p) with line := sym } s

/-- R26, R183: a symbol at a port while the relay joins the ports. While the reset lasts the receivers are held. -/
def passiveAt (p : Port) (sym : Symbol) (s : State) : State :=
  if s.control.resetHeld then relaySymbol p sym s
  else relaySymbol p sym (setRx p (passiveMove (s.receiver p).rx sym) (seeEdge p s))

end Sys2Proof.Machine
end

