-- ==== Sys2Proof/Machine/LineCommands.lean ====
section
/-! DEFINITION. The commands of the line (spec/02): the symbols that arrive, the symbol that leaves, and the events of
a silent line. -/

namespace Sys2Proof.Machine

open Host (Outcome)

/-- A symbol that arrives at a port: at an inline receiver, its treatment there; while the relay joins the ports, the
passive tap (log 15). -/
def symbolAt (p : Port) (sym : Symbol) (treat : State → State) (s : State) : State :=
  if s.inline then treat (wakeReceiver p s) else passiveAt p sym s

/-- PASSIVE_SYMBOL (R26, R183). It is the event of a bridge in RELAYED; inline there is none (log 15). -/
def execPassiveSymbol (p : Port) (sym : Symbol) (s : State) : Outcome State Fault Refusal :=
  .next (if s.inline then s else passiveAt p sym s)

/-- START_MARK (R27, R28, R34, R8). -/
def execStartMark (p : Port) (s : State) : Outcome State Fault Refusal :=
  .next (symbolAt p .startMark (startMarkAt p) s)

/-- DATA_WORD (R27, R28, R34). -/
def execDataWord (p : Port) (w : LinkWord) (s : State) : Outcome State Fault Refusal :=
  .next (symbolAt p (.word w) (dataWordAt p w) s)

/-- ABORT_MARK (R27, R33, R34). -/
def execAbortMark (p : Port) (s : State) : Outcome State Fault Refusal :=
  .next (symbolAt p .abortMark (abortMarkAt p) s)

/-- IDLE_SYMBOL (R27, R28, R34). -/
def execIdleSymbol (p : Port) (s : State) : Outcome State Fault Refusal :=
  .next (symbolAt p .idle (idleAt p) s)

/-- END_MARK (R27 to R30, R34), whatever it does (log 16). -/
def execEndMark (p : Port) (order : List CloseAct) (s : State) : Outcome State Fault Refusal :=
  .next (symbolAt p .endMark (endMarkAt p order) s)

/-- TRANSMIT_SYMBOL (R31). In RELAYED the relay carries the traffic and the transmitters send nothing (R183). -/
def execTransmitSymbol (p : Port) (s : State) : Outcome State Fault Refusal :=
  .next (if s.inline then sendSymbol p s else s)

/-- LINE_STUCK (R26, R35): 1 ms has passed since the last transition. A passive receiver raises no event. -/
def lineStuckAt (p : Port) (s : State) : State :=
  if s.control.resetHeld || (s.receiver p).rx == .stuck then s
  else
    let s1 := advanceTo ((s.receiver p).lastEdge + stuckInterval) s
    if s.inline then stickReceiver p s1 else setRx p .stuck s1

/-- LINE_STUCK (R26, R35). -/
def execLineStuck (p : Port) (s : State) : Outcome State Fault Refusal := .next (lineStuckAt p s)

/-- LINE_RECOVERY (R26, R35). -/
def execLineRecovery (p : Port) (s : State) : Outcome State Fault Refusal :=
  .next (if !s.control.resetHeld && (s.receiver p).rx == .stuck then setRx p .between (seeEdge p s) else s)

/-- CYCLE_TIMEOUT (R43, R96). -/
def timeoutAt (s : State) : State :=
  match s.link.timer with
  | .running deadline => if s.inline then expireTimer deadline s else s
  | .expired => s

/-- CYCLE_TIMEOUT (R43, R96). -/
def execCycleTimeout (s : State) : Outcome State Fault Refusal := .next (timeoutAt s)

end Sys2Proof.Machine
end

