-- ==== Sys2Proof/Machine/OutcomeCommands.lean ====
section
/-! DEFINITION. The commands that name the outcome of a frame (R30): the end mark that closes or fails the frame in
flight at a port, with all that this outcome brings. -/

namespace Sys2Proof.Machine

open Host (Outcome)

/-- R29, R30: the end mark would close the frame in flight at a port: it is well-formed and its check word agreed. -/
def State.closes (s : State) (p : Port) : Bool :=
  s.inline && (s.receiver p).parsing && (s.receiver p).checkGood == some true

/-- R29, R30: the end mark would fail the frame in flight at a port: its check word is wrong or has not arrived. -/
def State.fails (s : State) (p : Port) : Bool :=
  s.inline && (s.receiver p).parsing && (s.receiver p).checkGood != some true

/-- CYCLE_CLOSE (R30, R19, R38, R43, R45, R46, R137, R166). -/
def execCycleClose (order : List CloseAct) (s : State) : Outcome State Fault Refusal :=
  .next (if s.closes .c then endMarkAt .c order (seeEdge .c s) else s)

/-- CYCLE_FAIL (R20, R29, R30, R32, R38). -/
def execCycleFail (s : State) : Outcome State Fault Refusal :=
  .next (if s.fails .c then endMarkAt .c [] (seeEdge .c s) else s)

/-- REPORT_CLOSE (R30, R41, R52). -/
def execReportClose (s : State) : Outcome State Fault Refusal :=
  .next (if s.closes .d then endMarkAt .d [] (seeEdge .d s) else s)

/-- REPORT_FAIL (R29, R30, R32, R53). -/
def execReportFail (s : State) : Outcome State Fault Refusal :=
  .next (if s.fails .d then endMarkAt .d [] (seeEdge .d s) else s)

end Sys2Proof.Machine
end

