-- ==== Sys2Proof/Machine/PinCommands.lean ====
section
/-! DEFINITION. The commands of reset, switch-in and the two input filters (spec/10 sections 10.1 to 10.3, spec/05
section 5.3). An event whose condition does not hold in the state changes nothing (log 4). -/

namespace Sys2Proof.Machine

open Host (Outcome)

/-- HARDWARE_RESET (R181). -/
def execHardwareReset (straps : BitVec 6) (s : State) : Outcome State Fault Refusal := .next (hardwareReset straps s)

/-- RESET_END (R182): the end of a reset that lasts. -/
def execResetEnd (straps : BitVec 6) (s : State) : Outcome State Fault Refusal :=
  .next (if s.control.resetHeld then endReset straps s else s)

/-- SWITCH_IN (R184). -/
def execSwitchIn (s : State) : Outcome State Fault Refusal := .next (if s.canSwitchIn then switchInBridge s else s)

/-- KEY_INPUT_CHANGE (R187). -/
def execKeyInputChange (on : Bool) (s : State) : Outcome State Fault Refusal :=
  .next (setKey (s.control.key.input on s.clock.now) s)

/-- KEY_CHANGE (R187). -/
def execKeyChange (s : State) : Outcome State Fault Refusal := .next (if s.keyMoving then settleKey s else s)

/-- WBRK_INPUT_CHANGE (R93). -/
def execWbrkInputChange (closed : Bool) (s : State) : Outcome State Fault Refusal :=
  .next (setWbrk (s.trips.wbrk.input closed s.clock.now) s)

/-- BREAK_ONSET (R93, R94). -/
def execBreakOnset (s : State) : Outcome State Fault Refusal :=
  .next (if s.wbrkMoving && s.trips.wbrk.raw then settleWbrk s else s)

/-- BREAK_END (R93): it trips and releases nothing. -/
def execBreakEnd (s : State) : Outcome State Fault Refusal :=
  .next (if s.wbrkMoving && !s.trips.wbrk.raw then settleWbrk s else s)

end Sys2Proof.Machine
end

