-- ==== Sys2Proof/Machine/RequestCommands.lean ====
section
/-! DEFINITION. The service requests as commands (spec/09): each is the request handed to the service unit at the close
just taken (log 6), so that a ring record it brings carries the last cycle number. -/

namespace Sys2Proof.Machine

open Host (Outcome)

/-- READ (R170). -/
def execRead (tag region : BitVec 8) (record offset : BitVec 16) (count : BitVec 8) (s : State) :
    Outcome State Fault Refusal :=
  .next (serve tag 1 (readRequest region record offset (min maxData count.toNat)) s)

/-- RING_STREAM_READ (R158): a READ of record 0 of the RING_STREAM region. -/
def execRingStreamRead (tag count : BitVec 8) (s : State) : Outcome State Fault Refusal :=
  .next (serve tag 1 (readRequest 6 0 0 (min maxData count.toNat)) s)

/-- WRITE (R171). -/
def execWrite (tag region : BitVec 8) (record offset : BitVec 16) (data : List Word) (s : State) :
    Outcome State Fault Refusal :=
  .next (serve tag 2 (writeRequest s.link.lastCycle region record offset (blockData data)) s)

/-- SECTION_WRITE (R3 to R5). -/
def execSectionWrite (tag : BitVec 8) (record offset : BitVec 16) (data : List Word) (s : State) :
    Outcome State Fault Refusal :=
  .next (serve tag 2 (writeRequest s.link.lastCycle 1 record offset (blockData data)) s)

/-- SET_WRITE (R66 to R68). -/
def execSetWrite (tag : BitVec 8) (record offset : BitVec 16) (data : List Word) (s : State) :
    Outcome State Fault Refusal :=
  .next (serve tag 2 (writeRequest s.link.lastCycle 2 record offset (blockData data)) s)

/-- PROGRAM_WRITE (R113). -/
def execProgramWrite (tag : BitVec 8) (record offset : BitVec 16) (data : List Word) (s : State) :
    Outcome State Fault Refusal :=
  .next (serve tag 2 (writeRequest s.link.lastCycle 3 record offset (blockData data)) s)

/-- EVENTS_WRITE (R175, R193). -/
def execEventsWrite (tag : BitVec 8) (record offset : BitVec 16) (data : List Word) (s : State) :
    Outcome State Fault Refusal :=
  .next (serve tag 2 (writeRequest s.link.lastCycle 8 record offset (blockData data)) s)

/-- BRIDGE_WRITE (R44, R175). -/
def execBridgeWrite (tag : BitVec 8) (record offset : BitVec 16) (data : List Word) (s : State) :
    Outcome State Fault Refusal :=
  .next (serve tag 2 (writeRequest s.link.lastCycle 9 record offset (blockData data)) s)

/-- ENGAGE (R188, R189). -/
def execEngage (tag : BitVec 8) (s : State) : Outcome State Fault Refusal :=
  .next (serve tag 3 (engageRequest s.link.lastCycle) s)

/-- DISENGAGE (R190). -/
def execDisengage (tag : BitVec 8) (s : State) : Outcome State Fault Refusal :=
  .next (serve tag 4 (disengageRequest s.link.lastCycle) s)

/-- START (R135, R136). -/
def execStart (tag : BitVec 8) (runner step : BitVec 16) (list : List Word) (s : State) :
    Outcome State Fault Refusal :=
  .next (serve tag 5 (startRequest runner step (blockData list)) s)

/-- STOP (R146). -/
def execStop (tag : BitVec 8) (runner : BitVec 16) (s : State) : Outcome State Fault Refusal :=
  .next (serve tag 6 (stopRequest s.link.lastCycle runner) s)

/-- CLOSE (R148). -/
def execClose (tag : BitVec 8) (runner : BitVec 16) (s : State) : Outcome State Fault Refusal :=
  .next (serve tag 7 (closeRequest runner) s)

/-- RELEASE (R103 to R108). -/
def execRelease (tag : BitVec 8) (sect : BitVec 16) (s : State) : Outcome State Fault Refusal :=
  .next (serve tag 8 (releaseRequest s.link.lastCycle sect) s)

/-- TRIP (R98). -/
def execTrip (tag : BitVec 8) (sect : BitVec 16) (s : State) : Outcome State Fault Refusal :=
  .next (serve tag 9 (tripRequest s.link.lastCycle sect) s)

/-- SIGNAL (R142). -/
def execSignal (tag : BitVec 8) (mark : BitVec 16) (data : List Word) (s : State) : Outcome State Fault Refusal :=
  .next (serve tag 10 (signalRequest mark (blockData data)) s)

/-- CLEAR (R177). -/
def execClear (tag : BitVec 8) (items : List Word) (s : State) : Outcome State Fault Refusal :=
  .next (serve tag 11 (clearRequest (blockData items)) s)

/-- PROTECT (R176). -/
def execProtect (tag : BitVec 8) (group : BitVec 16) (data : List Word) (s : State) : Outcome State Fault Refusal :=
  .next (serve tag 12 (protectRequest group (blockData data)) s)

/-- BADREQUEST (R169): a request of an unknown kind. -/
def execBadRequest (tag kind : BitVec 8) (s : State) : Outcome State Fault Refusal :=
  .next (serve tag kind (refuse .badRequest) s)

end Sys2Proof.Machine
end

