-- ==== Sys2Proof/Machine/RunnerCommands.lean ====
section
/-! DEFINITION. The commands that name a moment of a waiting runner's advance (R118, R120, R122, R123). Each runs that
runner's whole advance with the values as they stand, when the moment has come (log 7). -/

namespace Sys2Proof.Machine

open Host (Outcome)

/-- One runner's advance taken outside the close that brought it. -/
def advanceAlone (r : Fin 4) (s : State) : State :=
  advanceRunner { cycle := s.link.lastCycle, closing := false } r s

/-- RAMP_COMPLETE (R118). -/
def execRampComplete (r : Fin 4) (s : State) : Outcome State Fault Refusal :=
  .next (if s.rampDue r then advanceAlone r s else s)

/-- DWELL_EXPIRY (R120). -/
def execDwellExpiry (r : Fin 4) (s : State) : Outcome State Fault Refusal :=
  .next (if s.dwellDue r then advanceAlone r s else s)

/-- WAIT_TIMEOUT (R122, R123). -/
def execWaitTimeout (r : Fin 4) (s : State) : Outcome State Fault Refusal :=
  .next (if s.waitDue r then advanceAlone r s else s)

end Sys2Proof.Machine
end

