-- ==== Sys2Proof/Machine/Dispatch.lean ====
section
/-! DEFINITION. One arm per command: a direct call of its meaning. -/

namespace Sys2Proof.Machine

def exec (i : Instr) (s : State) : Host.Outcome State Fault Refusal :=
  match i with
  | .hardwareReset straps => Sys2Proof.Machine.execHardwareReset straps s
  | .resetEnd straps => Sys2Proof.Machine.execResetEnd straps s
  | .switchIn => Sys2Proof.Machine.execSwitchIn s
  | .passiveSymbol p sym => Sys2Proof.Machine.execPassiveSymbol p sym s
  | .keyInputChange on => Sys2Proof.Machine.execKeyInputChange on s
  | .keyChange => Sys2Proof.Machine.execKeyChange s
  | .wbrkInputChange closed => Sys2Proof.Machine.execWbrkInputChange closed s
  | .breakOnset => Sys2Proof.Machine.execBreakOnset s
  | .breakEnd => Sys2Proof.Machine.execBreakEnd s
  | .startMark p => Sys2Proof.Machine.execStartMark p s
  | .dataWord p w => Sys2Proof.Machine.execDataWord p w s
  | .abortMark p => Sys2Proof.Machine.execAbortMark p s
  | .idleSymbol p => Sys2Proof.Machine.execIdleSymbol p s
  | .transmitSymbol p => Sys2Proof.Machine.execTransmitSymbol p s
  | .cycleClose order => Sys2Proof.Machine.execCycleClose order s
  | .cycleFail => Sys2Proof.Machine.execCycleFail s
  | .reportClose => Sys2Proof.Machine.execReportClose s
  | .reportFail => Sys2Proof.Machine.execReportFail s
  | .lineStuck p => Sys2Proof.Machine.execLineStuck p s
  | .lineRecovery p => Sys2Proof.Machine.execLineRecovery p s
  | .cycleTimeout => Sys2Proof.Machine.execCycleTimeout s
  | .rampComplete r => Sys2Proof.Machine.execRampComplete r s
  | .dwellExpiry r => Sys2Proof.Machine.execDwellExpiry r s
  | .waitTimeout r => Sys2Proof.Machine.execWaitTimeout r s
  | .read tag region record offset count => Sys2Proof.Machine.execRead tag region record offset count s
  | .ringStreamRead tag count => Sys2Proof.Machine.execRingStreamRead tag count s
  | .write tag region record offset data => Sys2Proof.Machine.execWrite tag region record offset data s
  | .sectionWrite tag record offset data => Sys2Proof.Machine.execSectionWrite tag record offset data s
  | .setWrite tag record offset data => Sys2Proof.Machine.execSetWrite tag record offset data s
  | .programWrite tag record offset data => Sys2Proof.Machine.execProgramWrite tag record offset data s
  | .eventsWrite tag record offset data => Sys2Proof.Machine.execEventsWrite tag record offset data s
  | .bridgeWrite tag record offset data => Sys2Proof.Machine.execBridgeWrite tag record offset data s
  | .engage tag => Sys2Proof.Machine.execEngage tag s
  | .disengage tag => Sys2Proof.Machine.execDisengage tag s
  | .start tag runner step sections => Sys2Proof.Machine.execStart tag runner step sections s
  | .stop tag runner => Sys2Proof.Machine.execStop tag runner s
  | .close tag runner => Sys2Proof.Machine.execClose tag runner s
  | .release tag sect => Sys2Proof.Machine.execRelease tag sect s
  | .trip tag sect => Sys2Proof.Machine.execTrip tag sect s
  | .signal tag mark data => Sys2Proof.Machine.execSignal tag mark data s
  | .clear tag items => Sys2Proof.Machine.execClear tag items s
  | .protect tag group data => Sys2Proof.Machine.execProtect tag group data s
  | .badRequest tag kind => Sys2Proof.Machine.execBadRequest tag kind s
  | .endMark p order => Sys2Proof.Machine.execEndMark p order s

end Sys2Proof.Machine
end

