-- ==== Sys2Proof/Machine/Idle.lean ====
section
/-! DEFINITION. What the bridge does while no command waits (log 2): an event that has fallen due is taken, and when
none has, half a microsecond passes. -/

namespace Sys2Proof.Machine

/-- The events that time and the state bring of themselves. -/
inductive DueEvent
  | switchIn
  | key
  | wbrk
  | timeout
  | stuck (p : Port)
  deriving DecidableEq, Repr

/-- R187: the key's raw level has held for 20 ms. -/
def State.keyDue (s : State) : Bool := s.keyMoving && decide (s.control.key.changedAt + keyInterval ≤ s.clock.now)

/-- R93: the raw web-break level has held for 0.5 ms. -/
def State.wbrkDue (s : State) : Bool := s.wbrkMoving && decide (s.trips.wbrk.changedAt + wbrkInterval ≤ s.clock.now)

/-- R43: the cycle timer's remaining time is used up. -/
def State.timeoutDue (s : State) : Bool := s.inline && s.timerUp

/-- R35: a receiver has seen no line transition for 1 ms. -/
def State.stuckDue (s : State) (p : Port) : Bool :=
  !s.control.resetHeld && (s.receiver p).rx != .stuck &&
    decide ((s.receiver p).lastEdge + stuckInterval ≤ s.clock.now)

/-- The events that have fallen due. -/
def State.dueEvents (s : State) : List DueEvent :=
  (if s.canSwitchIn then [.switchIn] else []) ++ (if s.keyDue then [.key] else []) ++
  (if s.wbrkDue then [.wbrk] else []) ++ (if s.timeoutDue then [.timeout] else []) ++
  (if s.stuckDue .c then [.stuck .c] else []) ++ (if s.stuckDue .d then [.stuck .d] else [])

/-- A due event taken. -/
def takeDue (e : DueEvent) (s : State) : State :=
  match e with
  | .switchIn => switchInBridge s
  | .key => settleKey s
  | .wbrk => settleWbrk s
  | .timeout => timeoutAt s
  | .stuck p => lineStuckAt p s

/-- The step on an empty queue: when several events are due, which is taken first is open (R191, log 8). -/
def tick (s : State) : State :=
  match s.dueEvents with
  | [] => passTick s
  | [e] => takeDue e s
  | e :: es => takeDue ((e :: es).getD ((takeChoice s).1 % (es.length + 1)) e) (takeChoice s).2

end Sys2Proof.Machine
end

