-- ==== Sys2Proof/Safety.lean ====
section
/-! DEFINITION. The words in which claims about the bridge are made: which blocks two states share, the frame of an
operation, and the conditions that hold of every safe state. -/

namespace Sys2Proof.Machine

/-! ### Frames -/

/-- The blocks of the state (Table 2-1), the clock and the queue. -/
inductive Block
  | control
  | table
  | rewriter
  | link
  | banks
  | share
  | trips
  | program
  | runners
  | ring
  | service
  | events
  | clock
  | pending
  deriving DecidableEq, Repr

/-- Two states hold the same contents of one block. -/
def sameBlock (b : Block) (s t : State) : Prop :=
  match b with
  | .control => t.control = s.control
  | .table => t.table = s.table
  | .rewriter => t.rewriter = s.rewriter
  | .link => t.link = s.link
  | .banks => t.banks = s.banks
  | .share => t.share = s.share
  | .trips => t.trips = s.trips
  | .program => t.program = s.program
  | .runners => t.runners = s.runners
  | .ring => t.ring = s.ring
  | .service => t.service = s.service
  | .events => t.events = s.events
  | .clock => t.clock = s.clock
  | .pending => t.pending = s.pending

/-- Every block but those listed is unchanged. -/
structure SameExcept (bs : List Block) (s t : State) : Prop where
  same : ∀ b, b ∉ bs → sameBlock b s t

/-- The blocks that a trip can reach (R90, R143, R145): the first six owners of the trip's parts, and the event
flags. -/
def tripBlocks : List Block := [.rewriter, .banks, .share, .trips, .runners, .ring, .events]

/-! ### Requests -/

/-- The service unit will execute a request (R166): the bridge is inline and the answer slot is empty. -/
def State.canServe (s : State) : Prop := s.inline = true ∧ s.service.slot = none

/-- The commands that are service requests. -/
def isRequest : Instr → Bool
  | .read .. => true
  | .ringStreamRead .. => true
  | .write .. => true
  | .sectionWrite .. => true
  | .setWrite .. => true
  | .programWrite .. => true
  | .eventsWrite .. => true
  | .bridgeWrite .. => true
  | .engage _ => true
  | .disengage _ => true
  | .start .. => true
  | .stop .. => true
  | .close .. => true
  | .release .. => true
  | .trip .. => true
  | .signal .. => true
  | .clear .. => true
  | .protect .. => true
  | .badRequest .. => true
  | .hardwareReset _ => false
  | .resetEnd _ => false
  | .switchIn => false
  | .passiveSymbol .. => false
  | .keyInputChange _ => false
  | .keyChange => false
  | .wbrkInputChange _ => false
  | .breakOnset => false
  | .breakEnd => false
  | .startMark _ => false
  | .dataWord .. => false
  | .abortMark _ => false
  | .idleSymbol _ => false
  | .transmitSymbol _ => false
  | .cycleClose _ => false
  | .cycleFail => false
  | .reportClose => false
  | .reportFail => false
  | .lineStuck _ => false
  | .lineRecovery _ => false
  | .cycleTimeout => false
  | .rampComplete _ => false
  | .dwellExpiry _ => false
  | .waitTimeout _ => false
  | .endMark .. => false

/-- R167, R168: the command that a request of a service block is, once the block is handed over. -/
def Request.command (q : Request) : Instr :=
  match q.kind.toNat with
  | 1 => .read q.tag q.region q.record q.offset (BitVec.ofNat 8 q.data.length)
  | 2 => .write q.tag q.region q.record q.offset q.data
  | 3 => .engage q.tag
  | 4 => .disengage q.tag
  | 5 => .start q.tag q.record q.offset q.data
  | 6 => .stop q.tag q.record
  | 7 => .close q.tag q.record
  | 8 => .release q.tag q.record
  | 9 => .trip q.tag q.record
  | 10 => .signal q.tag q.record q.data
  | 11 => .clear q.tag q.data
  | 12 => .protect q.tag q.record q.data
  | _ => .badRequest q.tag q.kind

/-- R38: the command is the end of a cycle frame that carries the bridge a request of one of these kinds. -/
def closesWith (c : Instr) (kinds : List Nat) (s : State) : Prop :=
  ((∃ o, c = .cycleClose o) ∨ ∃ o, c = .endMark .c o) ∧ s.extracts s.link.rxC = true ∧
    (Request.ofBlock s.link.reqBuf).kind.toNat ∈ kinds

/-- An answer with a code and no data words. -/
def plainAnswer (tag kind : BitVec 8) (code : AnswerCode) : Answer :=
  { tag := tag, kind := kind, code := code, data := [], firstHeader := none }

/-- The state with an answer put into the slot. -/
def State.answered (s : State) (a : Answer) : State := { s with service := { s.service with slot := some a } }

/-! ### The bridge entry -/

/-- R194, R202: what the bridge entry's status word carries for the attention level of an event unit: 0 when no flag
is set and unmasked, otherwise bit 7 and, from bit 5, the lowest class among those flags. -/
def AttentionField (u : EventUnit) (att : Nat) : Prop :=
  let on := fun n : Fin 16 => u.flags.getLsbD n.val = true ∧ u.masks.getLsbD n.val = false
  ((∀ n, ¬ on n) ∧ att = 0) ∨
  ∃ n, on n ∧ (∀ m, on m → (u.classes.get n).toNat ≤ (u.classes.get m).toNat) ∧
    att = 128 + 32 * (u.classes.get n).toNat

/-- R195, R202: the five words of the bridge entry of an inline bridge, its event unit standing as `u`. -/
def BridgeEntryOf (s : State) (u : EventUnit) (ws : List LinkWord) : Prop :=
  ∃ att, AttentionField u att ∧ ws.map (·.toNat) =
    [ s.control.strap.toNat,
      (if s.control.mode = .engaged then 2 else 1) + (if s.control.key.filtered then 4 else 0) +
        (if s.trips.line then 256 else 0) + att,
      s.link.lastCycle.toNat,
      ((List.finRange 32).filter fun i => s.tripped i).length,
      (s.runner 0).state.code + 16 * (s.runner 1).state.code + 256 * (s.runner 2).state.code +
        4096 * (s.runner 3).state.code ]

/-- R41: the words of the answer that the report frame in flight is to carry. -/
def State.answerCarried (s : State) : List LinkWord :=
  match s.service.slot with
  | some a => a.block
  | none => []

/-! ### Outcomes that several commands share -/

/-- R22, R84, R102, R147, R190: `t` is `s` after a disengage: STANDBY; every T and L 0 with the marks set and the last
outputs kept; every set INACTIVE with no last error, not settled; every RUNNING or WAITING runner DONE, DISENGAGED,
with its list and place kept, the others as they were; the trip line released and every latch and record kept; no
stored ring word lost; of the flags only RUNNER_END, and RING_DROP for an END record without room, can be new. -/
structure Disengaged (s t : State) : Prop where
  control : t.control = { s.control with mode := .standby }
  rewriter : (∀ i, t.rw i = { s.rw i with trim := 0, mark := true }) ∧ t.rewriter.snap = s.rewriter.snap
  share : t.share.sets = s.share.sets ∧ (∀ i, t.sh i = { s.sh i with trim := 0 }) ∧
    ∀ k, t.setStat k =
      { s.setStat k with state := .inactive, lastErr := Table.replicate 6 none, settled := false }
  runners : t.runners.marks = s.runners.marks ∧ ∀ r, t.runner r =
    if (s.runner r).isLive then
      { s.runner r with state := .done, outcome := some .disengaged, endCode := 0, injection := 0,
                        recording := false, phase := 0 }
    else s.runner r
  trips : t.trips = { s.trips with line := false }
  ring : s.ring.words <+: t.ring.words ∧ t.ring.readPos = s.ring.readPos ∧
    ((∀ r, (s.runner r).isLive = true → (s.runner r).recording = false) → t.ring = s.ring)
  events : t.events.masks = s.events.masks ∧ t.events.classes = s.events.classes ∧
    (t.flag .runnerEnd = true ↔ s.flag .runnerEnd = true ∨ ∃ r, (s.runner r).isLive = true) ∧
    ∀ e, e ≠ .runnerEnd → e ≠ .ringDrop → t.flag e = s.flag e
  held : t.link = if s.link.rxC.hold.isSome then { s.link with rxC := { s.link.rxC with holdPass := true } } else s.link
  rest : SameExcept [.control, .rewriter, .link, .share, .trips, .runners, .ring, .events] s t

/-- R20, R30, R32, R38, R53: `t` is `s` after the frame in flight at a port has failed with an event other than
FRAME_BAD: the outbound copy ends with an abort mark; a cycle fail commits nothing and drops the extracted block, and
touches no other block; a report fail clears the fill bank, keeps the held bank and counts a missing report for every
valid section. -/
structure FrameVoid (p : Port) (e : Event) (s t : State) : Prop where
  queue : (t.transmitter (otherPort p)).queue = (s.transmitter (otherPort p)).queue ++ [.abortMark]
  flag : t.flag e = true
  snapshot : t.rewriter.snap = s.rewriter.snap
  cycleFail : p = .c → t.link.reqBuf = [] ∧ t.rewriter.sec = s.rewriter.sec ∧
    (∀ i, t.rewriter.treated.get i = none) ∧ t.banks = s.banks ∧ t.trips = s.trips ∧ t.runners = s.runners ∧
    t.ring = s.ring ∧ (∀ f, f ≠ e → t.flag f = s.flag f)
  reportFail : p = .d → ∀ i, t.banks.fill.get i = none ∧ t.heldRec i = s.heldRec i ∧
    (t.counts i).missing =
      if (s.settings i).valid then
        if (s.counts i).missing = 255 then 255 else (s.counts i).missing + 1
      else (s.counts i).missing
  slot : t.service = s.service

/-- R90 to R92, R95, R96: in `t` a section has been tripped by the level rules: by BREAK when `brk` holds and by LINK
when `lnk` holds, with the two as first and later cause in either order when both do (log 8). The record carries a
cycle number and a last output speed. -/
structure LevelTripped (brk lnk : Prop) (i : Fin 32) (cycle : BitVec 16) (speed : Option Word) (t : State) : Prop where
  latch : t.tripped i = true
  record : ∃ x, (t.tp i).record = some x ∧ x.cycle = cycle ∧ x.speed = speed ∧
    ((brk ∧ x.cause = .brk ∧ ((lnk ∧ x.later = 0x0004) ∨ (¬ lnk ∧ x.later = 0))) ∨
     (lnk ∧ x.cause = .link ∧ ((brk ∧ x.later = 0x0002) ∨ (¬ brk ∧ x.later = 0))))
  event : t.flag .trip = true
  counts : (t.counts i).deviation = 0 ∧ (t.sh i).imbalance = 0
  cut : (t.settings i).cutoff ≠ .ignore →
    (t.rw i).trim = 0 ∧ (t.rw i).mark = true ∧ (t.sh i).trim = 0 ∧ t.trips.line = true

/-! ### The invariants -/

/-- R151: the ring holds at most 8,192 words, and its positions differ by the used count, modulo 8,192. -/
def RingOk (s : State) : Prop :=
  s.ring.words.length ≤ ringSize ∧ s.ring.writePos = s.ring.readPos + BitVec.ofNat 13 s.ring.words.length

/-- R31: each forwarding queue holds at most 256 symbols. -/
def QueuesOk (s : State) : Prop := ∀ p, (s.transmitter p).queue.length ≤ queueSize

/-- R181 to R184, R187, R190: the relay is CLOSED exactly in RELAYED, a held reset keeps the bridge RELAYED, an inline
bridge has a valid strap address, and the bridge is ENGAGED only while the key is ON. -/
def ModeOk (s : State) : Prop :=
  (s.control.relay = .closed ↔ s.control.mode = .relayed) ∧
  (s.control.resetHeld = true → s.control.mode = .relayed) ∧
  (s.inline = true → strapValid s.control.strap = true) ∧
  (s.engaged = true → s.keyOn = true)

/-- R2, R3: while the reset lasts no section is valid; a valid section's address is 1 to 62, is not the strap address,
and is held by no other valid section. -/
def AddressesOk (s : State) : Prop :=
  (s.control.resetHeld = true → s.control.mode = .relayed ∧ ∀ i, (s.settings i).valid = false) ∧
  (∀ i, (s.settings i).valid = true →
    (s.settings i).node ≠ 0 ∧ (s.settings i).node ≠ 63 ∧ (s.settings i).node ≠ s.control.strap) ∧
  (∀ i j, i ≠ j → (s.settings i).valid = true → (s.settings j).valid = true →
    (s.settings i).node ≠ (s.settings j).node)

/-- Table 1-1: the numeric live fields of a section record lie in their ranges, and Vmin does not exceed Vmax (R5). -/
def SectionSettings.inRange (r : SectionSettings) : Prop :=
  -50000 ≤ r.draw.toInt ∧ r.draw.toInt ≤ 50000 ∧ r.trimLimit.toNat ≤ 300000 ∧
  1 ≤ r.slewLimit.toNat ∧ r.slewLimit.toNat ≤ 100000 ∧
  -3000000 ≤ r.vMin.toInt ∧ r.vMin.toInt ≤ r.vMax.toInt ∧ r.vMax.toInt ≤ 3000000 ∧
  r.torqueCap.toNat ≤ 4000 ∧ r.devLimit.toNat ≤ 300000 ∧ 1 ≤ r.devPersist.toNat ∧ 1 ≤ r.fbLimit.toNat

/-- Table 4-1: the live fields of a set record lie in their ranges, and a valid set has 2 to 6 members, no section
twice (R66). -/
def SetSettings.inRange (r : SetSettings) : Prop :=
  (∀ p, -500 ≤ (r.bias.get p).toInt ∧ (r.bias.get p).toInt ≤ 500) ∧
  r.gain.toNat ≤ 4095 ∧ r.deadband.toNat ≤ 500 ∧ 1 ≤ r.imbThreshold.toNat ∧ r.imbThreshold.toNat ≤ 2000 ∧
  1 ≤ r.imbPersist.toNat ∧ r.shareLimit.toNat ≤ 100000 ∧ r.memberCount.toNat ≤ 6 ∧
  (r.valid = true → 2 ≤ r.memberCount.toNat ∧ r.memberList.Nodup)

/-- R5, R44, R67, R193: every stored setting lies in its range. -/
def SettingsOk (s : State) : Prop :=
  (∀ i, (s.settings i).inRange) ∧ (∀ k, (s.share.sets.get k).inRange) ∧
  (2 ≤ s.link.timeout.toNat ∧ s.link.timeout.toNat ≤ 250) ∧
  (∀ n, (s.events.classes.get n).toNat ≤ 3)

/-- R102: the trip line is asserted exactly while the bridge is ENGAGED and some section is TRIPPED under a cutoff
action other than IGNORE. -/
def TripLineOk (s : State) : Prop :=
  s.trips.line = true ↔
    (s.control.mode = .engaged ∧ ∃ i, s.tripped i = true ∧ (s.settings i).cutoff ≠ .ignore)

/-- R66, R88 to R90: every member of a valid set is a valid section, a section belongs to at most one valid set, the
members of a valid set are in one trip state, and a TRIPPED section is valid and has a trip record. -/
def TripsOk (s : State) : Prop :=
  (∀ k i, (s.share.sets.get k).valid = true → i ∈ (s.share.sets.get k).memberList → (s.settings i).valid = true) ∧
  (∀ k l i, (s.share.sets.get k).valid = true → (s.share.sets.get l).valid = true →
    i ∈ (s.share.sets.get k).memberList → i ∈ (s.share.sets.get l).memberList → k = l) ∧
  (∀ k i j, (s.share.sets.get k).valid = true → i ∈ (s.share.sets.get k).memberList →
    j ∈ (s.share.sets.get k).memberList → s.tripped i = s.tripped j) ∧
  (∀ i, s.tripped i = true → (s.settings i).valid = true ∧ (s.tp i).record.isSome = true)

/-- R116, R134, R135: a runner runs only while the bridge is ENGAGED; one that does not run injects nothing and
records nothing; an IDLE runner is exactly one with no bound section; a list holds at most four sections, each a valid
one, no section twice, and no section is bound to two runners. -/
def RunnersOk (s : State) : Prop :=
  (∀ r, (s.runner r).isLive = true → s.control.mode = .engaged) ∧
  (∀ r, (s.runner r).isLive = false → (s.runner r).injection = 0 ∧ (s.runner r).recording = false) ∧
  (∀ r, (s.runner r).state = .idle ↔ (s.runner r).slots = []) ∧
  (∀ r, (s.runner r).slots.length ≤ 4 ∧ (s.runner r).slots.Nodup ∧ (s.runner r).step ≤ 512) ∧
  (∀ r i, i ∈ (s.runner r).slots → (s.settings i).valid = true) ∧
  (∀ r q i, i ∈ (s.runner r).slots → i ∈ (s.runner q).slots → r = q)

/-- R22, R84: while the bridge is not ENGAGED every applied trim and every load-share trim is 0, and nothing that a
frame in flight has treated can still change a trim. -/
def TrimsOk (s : State) : Prop :=
  s.engaged = false → ∀ i, (s.rw i).trim = 0 ∧ (s.sh i).trim = 0 ∧
    ((s.rewriter.treated.get i).isSome = true → (s.rw i).mark = true)

end Sys2Proof.Machine
end

