-- ==== Sys2Proof/WellFormed.lean ====
section
/-! DEFINITION. Which commands the table's rows name: a block carries at most eight data words, and a request row
leaves to the other rows what they name. `exec` gives every command a meaning, well-formed or not (log 20). -/

namespace Sys2Proof

/-- R168: a block carries at most eight data words. -/
def fitsBlock (data : List Word) : Bool := decide (data.length ≤ 8)

/-- The regions whose writes have rows of their own: SECTION, SET, PROGRAM, EVENTS, BRIDGE (Table 9-1). -/
def ownsWriteRow (region : BitVec 8) : Bool :=
  region == 1 || region == 2 || region == 3 || region == 8 || region == 9

/-- R168: the kind codes of Table 11-5. -/
def isRequestKind (kind : BitVec 8) : Bool := decide (1 ≤ kind.toNat) && decide (kind.toNat ≤ 12)

/-- The well-formed commands. -/
def Instr.wellFormed : Instr → Bool
  | .hardwareReset _ => true
  | .resetEnd _ => true
  | .switchIn => true
  | .passiveSymbol _ _ => true
  | .keyInputChange _ => true
  | .keyChange => true
  | .wbrkInputChange _ => true
  | .breakOnset => true
  | .breakEnd => true
  | .startMark _ => true
  | .dataWord _ _ => true
  | .abortMark _ => true
  | .idleSymbol _ => true
  | .transmitSymbol _ => true
  | .cycleClose _ => true
  | .cycleFail => true
  | .reportClose => true
  | .reportFail => true
  | .lineStuck _ => true
  | .lineRecovery _ => true
  | .cycleTimeout => true
  | .rampComplete _ => true
  | .dwellExpiry _ => true
  | .waitTimeout _ => true
  | .read _ region record _ count => !(region == 6 && record == 0) && decide (count.toNat ≤ 8)
  | .ringStreamRead _ count => decide (count.toNat ≤ 8)
  | .write _ region _ _ data => !ownsWriteRow region && fitsBlock data
  | .sectionWrite _ _ _ data => fitsBlock data
  | .setWrite _ _ _ data => fitsBlock data
  | .programWrite _ _ _ data => fitsBlock data
  | .eventsWrite _ _ _ data => fitsBlock data
  | .bridgeWrite _ _ _ data => fitsBlock data
  | .engage _ => true
  | .disengage _ => true
  | .start _ _ _ sections => fitsBlock sections
  | .stop _ _ => true
  | .close _ _ => true
  | .release _ _ => true
  | .trip _ _ => true
  | .signal _ _ data => fitsBlock data
  | .clear _ items => fitsBlock items
  | .protect _ _ data => fitsBlock data
  | .badRequest _ kind => !isRequestKind kind
  | .endMark _ _ => true

end Sys2Proof
end

