-- ==== Sys2Proof/Certificates/Slice0/Obligations.lean ====
section
/-! DEFINITION. The statements for the provers. Each docstring names the rules of spec/ that the statement rests on,
and where a clause is the model's choice, the log entry that makes it. -/

open Sys2Proof Sys2Proof.Machine

/-! ### The machine as a whole -/

/-- The command at the front of the queue is executed on the state with the queue's rest (the queue is the model's,
spec/95: each step is taken whole). -/
def Obligations.StepTakesFrontCommand : Prop :=
  ∀ (c : Instr) (rest : List Instr) (s : State),
    step { s with pending := c :: rest } = exec c { s with pending := rest }

/-- Every command answers a next state, with the queue of waiting commands as it stood (spec/95; the queue is the
model's). -/
def Obligations.EveryCommandAnswers : Prop :=
  ∀ (c : Instr) (s : State), ∃ t, exec c s = .next t ∧ t.pending = s.pending

/-- The model's choice (log 2): on an empty queue one due event is taken, and when none is due half a microsecond
passes. -/
def Obligations.EmptyQueuePassesTime : Prop :=
  ∀ s : State, s.pending = [] →
    (s.dueEvents = [] → step s = .next { s with clock := { s.clock with now := s.clock.now + 1 } }) ∧
    (∀ e, s.dueEvents = [e] → step s = .next (takeDue e s))

/-- R1, R64, R112: the settings of the section table, of the set table and the step records change only by a hardware
reset and by WRITE requests; so do the masks and classes (R192, R193) and the protection flags by PROTECT (R165). A
request comes as a command of its own or in the cycle frame that a command closes (R38). -/
def Obligations.SettingsChangeOnlyByWrites : Prop :=
  ∀ (c : Instr) (s t : State), exec c s = .next t → (∀ straps, c ≠ .hardwareReset straps) →
    ((∀ tag g r o d, c ≠ .write tag g r o d) → ¬ closesWith c [2] s →
      ((∀ tag r o d, c ≠ .sectionWrite tag r o d) → t.table = s.table) ∧
      ((∀ tag r o d, c ≠ .setWrite tag r o d) → t.share.sets = s.share.sets) ∧
      ((∀ tag r o d, c ≠ .programWrite tag r o d) → t.program = s.program) ∧
      ((∀ tag r o d, c ≠ .eventsWrite tag r o d) →
        t.events.masks = s.events.masks ∧ t.events.classes = s.events.classes)) ∧
    ((∀ tag g d, c ≠ .protect tag g d) → ¬ closesWith c [12] s → t.service.prot = s.service.prot)

/-- R88: a tripped section becomes untripped only by a RELEASE or a hardware reset. R192: an event flag is cleared
only by a CLEAR or a hardware reset. R151, R158, R162: unread ring words leave only by a stream read, a CLEAR or a
hardware reset. A request comes as a command of its own or in the cycle frame that a command closes (R38). -/
def Obligations.LatchesFlagsAndRingWordsStay : Prop :=
  ∀ (c : Instr) (s t : State), exec c s = .next t → (∀ straps, c ≠ .hardwareReset straps) →
    ((∀ tag i, c ≠ .release tag i) → ¬ closesWith c [8] s → ∀ i, s.tripped i = true → t.tripped i = true) ∧
    ((∀ tag items, c ≠ .clear tag items) → ¬ closesWith c [11] s → ∀ e, s.flag e = true → t.flag e = true) ∧
    ((∀ tag items, c ≠ .clear tag items) → (∀ tag n, c ≠ .ringStreamRead tag n) →
      (∀ tag g r o n, c ≠ .read tag g r o n) → ¬ closesWith c [1, 11] s →
      s.ring.words <+: t.ring.words ∧ t.ring.readPos = s.ring.readPos)

/-! ### Reset, pins, modes -/

/-- R181 with the reset values of R1, R4, R26, R31, R35, R37, R43 to R47, R54, R64, R88, R89, R93, R112, R133, R141,
R151, R165, R182, R187 and R192. -/
def Obligations.HardwareResetValues : Prop :=
  ∀ (straps : BitVec 6) (s : State), ∃ t, exec (.hardwareReset straps) s = .next t ∧
    t.control.mode = .relayed ∧ t.control.relay = .closed ∧ t.control.strap = straps ∧
    t.control.key.filtered = false ∧ t.trips.wbrk.filtered = false ∧ t.trips.line = false ∧
    (∀ i, t.settings i = SectionSettings.afterReset ∧ (t.rw i).trim = 0 ∧ (t.rw i).lastOut = none ∧
      (t.rw i).lastIn = ⟨0, 0, 0⟩ ∧ t.tp i = ⟨false, none⟩ ∧ t.counts i = ⟨0, 0⟩ ∧ t.sh i = ⟨0, 0⟩ ∧
      t.banks.fill.get i = none ∧ t.heldRec i = none ∧ t.boundRunner i = none ∧ t.inject i = 0) ∧
    (∀ k, t.share.sets.get k = SetSettings.afterReset ∧ t.setStat k = SetStatus.afterReset) ∧
    (∀ k, t.program.get k = ⟨0, 0, 0, 0⟩) ∧
    (∀ r, t.runner r = Runner.afterReset) ∧ t.runners.marks = 0 ∧
    t.ring = { words := [], readPos := 0, writePos := 0, drops := 0 } ∧
    t.service = { slot := none, prot := ⟨false, false, false, false⟩ } ∧
    t.events.flags = 0 ∧ t.events.masks = 0 ∧
    t.events.classes.toList = [0, 0, 0, 1, 1, 2, 2, 2, 3, 1, 2, 2, 2, 1, 2, 3] ∧
    (∀ p, (t.receiver p).rx = .inFrame ∧ (t.transmitter p).queue = []) ∧
    t.link.reqBuf = [] ∧ t.link.stuck = .none ∧ t.link.timer = .expired ∧ t.link.timeout = 20 ∧
    t.link.period = 0 ∧ t.link.lastCycle = 0

/-- R182, R187, R93, R184: the reset ends with the straps kept and the filters' intervals beginning, the receivers' too
by the model's choice (log 33); switch-in is made at a common gap with a strap address from 1 to 62, and not made
otherwise (the commands then change nothing, log 4). R93, R187: a change of a raw level starts its interval again; a
level that has held becomes the filtered state 20 ms (key) or 0.5 ms (web break) after the change, here 40,000 and
1,000 half microseconds (log 2, log 3); the key's change raises KEY_CHANGE. A key turning OFF while ENGAGED and a break
onset while ENGAGED are other statements. -/
def Obligations.ResetEndAndInputFilters : Prop :=
  (∀ (straps : BitVec 6) (s : State), s.control.resetHeld = true →
    exec (.resetEnd straps) s = .next { s with
      control := { s.control with
        resetHeld := false, strap := straps, key := { s.control.key with changedAt := s.clock.now } }
      trips := { s.trips with wbrk := { s.trips.wbrk with changedAt := s.clock.now } }
      link := { s.link with
        rxC := { s.link.rxC with lastEdge := s.clock.now }, rxD := { s.link.rxD with lastEdge := s.clock.now } } }) ∧
  (∀ (straps : BitVec 6) (s : State), s.control.resetHeld = false → exec (.resetEnd straps) s = .next s) ∧
  (∀ s : State, s.control.resetHeld = false → s.control.mode = .relayed → 1 ≤ s.control.strap.toNat →
    s.control.strap.toNat ≤ 62 → s.link.rxC.rx = .between → s.link.rxD.rx = .between →
    exec .switchIn s = .next { s with
      control := { s.control with relay := .opened, mode := .standby }
      events := { s.events with flags := s.events.flags ||| 0x8000#16 } }) ∧
  (∀ s : State, s.control.strap.toNat = 0 ∨ s.control.strap.toNat = 63 ∨ s.link.rxC.rx ≠ .between ∨
    s.link.rxD.rx ≠ .between → exec .switchIn s = .next s) ∧
  (∀ (on : Bool) (s : State), on ≠ s.control.key.raw →
    exec (.keyInputChange on) s = .next { s with
      control := { s.control with key := { s.control.key with raw := on, changedAt := s.clock.now } } }) ∧
  (∀ (closed : Bool) (s : State), closed ≠ s.trips.wbrk.raw →
    exec (.wbrkInputChange closed) s = .next { s with
      trips := { s.trips with wbrk := { s.trips.wbrk with raw := closed, changedAt := s.clock.now } } }) ∧
  (∀ s : State, s.control.resetHeld = false → s.control.key.raw ≠ s.control.key.filtered →
    (s.control.key.raw = true ∨ s.control.mode ≠ .engaged) →
    exec .keyChange s = .next { s with
      clock := { s.clock with now := max s.clock.now (s.control.key.changedAt + 40000) }
      control := { s.control with key := { s.control.key with filtered := s.control.key.raw } }
      events := { s.events with flags := s.events.flags ||| 0x2000#16 } }) ∧
  (∀ s : State, s.control.resetHeld = false → s.trips.wbrk.raw = true → s.trips.wbrk.filtered = false →
    s.control.mode ≠ .engaged →
    exec .breakOnset s = .next { s with
      clock := { s.clock with now := max s.clock.now (s.trips.wbrk.changedAt + 1000) }
      trips := { s.trips with wbrk := { s.trips.wbrk with filtered := true } } }) ∧
  (∀ s : State, s.control.resetHeld = false → s.trips.wbrk.raw = false → s.trips.wbrk.filtered = true →
    exec .breakEnd s = .next { s with
      clock := { s.clock with now := max s.clock.now (s.trips.wbrk.changedAt + 1000) }
      trips := { s.trips with wbrk := { s.trips.wbrk with filtered := false } } })

/-- R22, R84, R147, R190: a DISENGAGE request, and the key turning OFF while ENGAGED, leave the state that
`Disengaged` describes; the request is answered OK, and MODE when the bridge is not ENGAGED. The
key turns OFF 20 ms after its change, here 40,000 half microseconds (log 2), which the command moves the clock to (log
3). -/
def Obligations.Disengage : Prop :=
  (∀ (tag : BitVec 8) (s : State), s.canServe → s.control.mode = .engaged →
    ∃ t, exec (.disengage tag) s = .next (t.answered (plainAnswer tag 4 .ok)) ∧ Disengaged s t) ∧
  (∀ (tag : BitVec 8) (s : State), s.canServe → s.control.mode ≠ .engaged →
    exec (.disengage tag) s = .next (s.answered (plainAnswer tag 4 .mode))) ∧
  (∀ s : State, s.control.resetHeld = false → s.control.key.raw = false → s.control.key.filtered = true →
    s.control.mode = .engaged →
    ∃ t, exec .keyChange s = .next t ∧
      Disengaged
        { s with
          clock := { s.clock with now := max s.clock.now (s.control.key.changedAt + 40000) }
          control := { s.control with key := { s.control.key with filtered := false } }
          events := { s.events with flags := s.events.flags ||| 0x2000#16 } } t)

/-- R188: the refusals of ENGAGE in their order; otherwise it is accepted and answered OK with count 0, whatever the
two tables hold. R188 gives both orders of an ENGAGE carried in a frame against its close's restart of the timer, here
in STANDBY: with the restart first the LINK check passes, and with the request first and the timer EXPIRED it is
refused with LINK, whatever the order of the close's other work (the command's operand names the order, log 5). R189:
what the accepted ENGAGE leaves, here with the web-break line not asserted. -/
def Obligations.Engage : Prop :=
  (∀ (tag : BitVec 8) (s : State), s.canServe →
     (s.control.mode = .engaged → exec (.engage tag) s = .next (s.answered (plainAnswer tag 3 .mode))) ∧
     (s.control.mode ≠ .engaged → s.control.key.filtered = false →
       exec (.engage tag) s = .next (s.answered (plainAnswer tag 3 .keyOff))) ∧
     (s.control.mode ≠ .engaged → s.control.key.filtered = true → s.link.timer = .expired →
       exec (.engage tag) s = .next (s.answered (plainAnswer tag 3 .link))) ∧
     (s.control.mode ≠ .engaged → s.control.key.filtered = true → s.link.timer ≠ .expired →
       (∃ i, s.tripped i = true) → exec (.engage tag) s = .next (s.answered (plainAnswer tag 3 .tripped))) ∧
     (s.control.mode ≠ .engaged → s.control.key.filtered = true → s.link.timer ≠ .expired →
       (∀ i, s.tripped i = false) → s.trips.wbrk.filtered = false →
       ∃ t, exec (.engage tag) s = .next (t.answered (plainAnswer tag 3 .ok)) ∧
         t.control = { s.control with mode := .engaged } ∧
         (∀ i, t.rw i = { s.rw i with trim := 0, lastOut := none, mark := true }) ∧
         t.rewriter.snap = s.rewriter.snap ∧ t.rewriter.treated = s.rewriter.treated ∧
         t.share.sets = s.share.sets ∧ (∀ i, t.sh i = { trim := 0, imbalance := 0 }) ∧
         (∀ k, t.setStat k =
           { s.setStat k with state := .inactive, lastErr := Table.replicate 6 none, settled := false }) ∧
         (∀ i, t.counts i = { missing := 0, deviation := 0 }) ∧
         t.banks.fill = s.banks.fill ∧ t.banks.held = s.banks.held ∧
         t.trips = { s.trips with line := false } ∧
         SameExcept [.control, .rewriter, .share, .banks, .trips] s t)) ∧
  (∀ (tag : BitVec 8) (s : State), s.canServe → s.control.mode ≠ .engaged → s.control.key.filtered = true →
    s.link.timer ≠ .expired → (∀ i, s.tripped i = false) →
    ∃ t : State, exec (.engage tag) s = .next (t.answered (plainAnswer tag 3 .ok)) ∧ t.control.mode = .engaged) ∧
  (∀ (o : List CloseAct) (s : State), s.closes .c = true → s.link.txD.queue.length + 2 ≤ 256 →
    s.link.txD.abortsOwed = 0 → s.link.rxC.target ≠ 0 → s.link.rxC.target.toNat = s.control.strap.toNat →
    s.service.slot = none → s.control.mode = .standby → s.control.key.filtered = true →
    (∀ i, s.tripped i = false) → (∀ r, (s.runner r).isLive = false) →
    let q := Request.ofBlock s.link.reqBuf
    q.kind = 3 →
    (∃ t, exec (.cycleClose (.restart :: o)) s = .next t ∧ t.service.slot = some (plainAnswer q.tag 3 .ok) ∧
      t.control.mode = .engaged) ∧
    (s.link.timer = .expired → ∃ t, exec (.cycleClose (.request :: o)) s = .next t ∧
      t.service.slot = some (plainAnswer q.tag 3 .link) ∧ t.control.mode = .standby))

/-- R92, R94, R95: a break onset while ENGAGED, and an ENGAGE while the web-break line is asserted, leave every valid
ACTIVE section with break response yes TRIPPED. At an onset a section that was CLEAR has BREAK as its first cause, or
PEER with BREAK among the later causes; one that was TRIPPED keeps its record with BREAK in it. -/
def Obligations.BreakTrips : Prop :=
  (∀ s : State, s.control.resetHeld = false → s.trips.wbrk.raw = true → s.trips.wbrk.filtered = false →
    s.control.mode = .engaged →
    ∃ t, exec .breakOnset s = .next t ∧ t.trips.wbrk.filtered = true ∧ t.control = s.control ∧
      ∀ i, (s.settings i).valid = true → (s.settings i).mode = .active → (s.settings i).breakResponse = true →
        t.tripped i = true ∧
        (s.tripped i = false → ∃ x, (t.tp i).record = some x ∧ x.cycle = s.link.lastCycle ∧
          (x.cause = .brk ∨ (x.cause = .peer ∧ x.later.getLsbD 1 = true))) ∧
        (s.tripped i = true → ∀ x, (s.tp i).record = some x → ∃ y, (t.tp i).record = some y ∧
          y.cause = x.cause ∧ y.cycle = x.cycle ∧ y.speed = x.speed ∧
          (x.cause = .brk ∨ y.later.getLsbD 1 = true))) ∧
  (∀ (tag : BitVec 8) (s : State), s.canServe → s.control.mode ≠ .engaged → s.control.key.filtered = true →
    s.link.timer ≠ .expired → (∀ i, s.tripped i = false) → s.trips.wbrk.filtered = true →
    ∃ t, exec (.engage tag) s = .next t ∧ t.control.mode = .engaged ∧
      t.service.slot = some (plainAnswer tag 3 .ok) ∧
      ∀ i, (s.settings i).valid = true → (s.settings i).mode = .active → (s.settings i).breakResponse = true →
        t.tripped i = true ∧ t.flag .trip = true)

/-! ### The line -/

/-- R26, R183: a symbol at a passive receiver that is not STUCK moves it by the table of R26, raises no event, and
reaches the other port's outgoing pair as it came. A symbol at a STUCK one is itself the transition that makes it
BETWEEN (log 14). The rows of the single symbols are the same event in RELAYED (log 15). -/
def Obligations.PassiveTap : Prop :=
  (∀ (p : Port) (sym : Symbol) (s : State), s.control.resetHeld = false → s.control.mode = .relayed →
    ∃ t, exec (.passiveSymbol p sym) s = .next t ∧ SameExcept [.link] s t ∧
      (sym = .startMark → (t.receiver p).rx = .inFrame) ∧
      (∀ w, sym = .word w → (t.receiver p).rx = if (s.receiver p).rx = .inFrame then .inFrame else .between) ∧
      (sym = .endMark ∨ sym = .abortMark ∨ sym = .idle → (t.receiver p).rx = .between) ∧
      t.receiver (otherPort p) = s.receiver (otherPort p) ∧ t.transmitter p = s.transmitter p ∧
      t.transmitter (otherPort p) = { s.transmitter (otherPort p) with line := sym }) ∧
  (∀ (p : Port) (s : State), s.control.mode = .relayed →
    exec (.startMark p) s = exec (.passiveSymbol p .startMark) s ∧
    (∀ w, exec (.dataWord p w) s = exec (.passiveSymbol p (.word w)) s) ∧
    exec (.abortMark p) s = exec (.passiveSymbol p .abortMark) s ∧
    exec (.idleSymbol p) s = exec (.passiveSymbol p .idle) s ∧
    (∀ o, exec (.endMark p o) s = exec (.passiveSymbol p .endMark) s))

/-- R27: an inline receiver that is BETWEEN absorbs an idle symbol, discards a stray data word or end mark with
FORMAT_BAD, forwards an abort mark, and at Port D begins a frame with a start mark, where the queue has room (R31).
(The start mark at Port C is the statement `StartMark`.) R25, R31: a transmitter sends the symbol at the head of its
queue, and an idle symbol while the queue is empty; an abort mark that waited for room takes the room that has come
free (log 13). -/
def Obligations.BetweenFramesAndTransmit : Prop :=
  (∀ (p : Port) (s : State), s.inline = true → (s.receiver p).rx = .between →
     exec (.idleSymbol p) s = .next (setReceiver p { s.receiver p with lastEdge := s.clock.now } s) ∧
     (∀ w, exec (.dataWord p w) s =
       .next (raise .formatBad (setReceiver p { s.receiver p with lastEdge := s.clock.now } s))) ∧
     (∀ o, exec (.endMark p o) s =
       .next (raise .formatBad (setReceiver p { s.receiver p with lastEdge := s.clock.now } s))) ∧
     ((s.transmitter (otherPort p)).queue.length < 256 → (s.transmitter (otherPort p)).abortsOwed = 0 →
       exec (.abortMark p) s = .next
         (setTransmitter (otherPort p)
           { s.transmitter (otherPort p) with queue := (s.transmitter (otherPort p)).queue ++ [.abortMark] }
           (setReceiver p { s.receiver p with lastEdge := s.clock.now } s))) ∧
     (p = .d → (s.transmitter .c).queue.length < 256 → (s.transmitter .c).abortsOwed = 0 →
       exec (.startMark .d) s = .next
         (setTransmitter .c { s.transmitter .c with queue := (s.transmitter .c).queue ++ [.startMark] }
           (setReceiver .d { Receiver.afterReset with lastEdge := s.clock.now } s)))) ∧
  (∀ (p : Port) (s : State), s.inline = true →
     ((s.transmitter p).queue = [] →
       exec (.transmitSymbol p) s = .next (setTransmitter p { s.transmitter p with line := .idle } s)) ∧
     (∀ sym rest, (s.transmitter p).queue = sym :: rest → (s.transmitter p).abortsOwed = 0 →
       exec (.transmitSymbol p) s =
         .next (setTransmitter p { s.transmitter p with queue := rest, line := sym } s)) ∧
     (∀ sym rest n, (s.transmitter p).queue = sym :: rest → (s.transmitter p).abortsOwed = n + 1 →
       exec (.transmitSymbol p) s =
         .next (setTransmitter p { queue := rest ++ [.abortMark], abortsOwed := n, line := sym } s)))

/-- R8, R9, R27, R34: a start mark at Port C that breaks into no well-formed frame begins one: the snapshot of every
record is taken, every mark "trim set since start" clears, and the start mark is queued. One that arrives in a
well-formed frame first makes that frame fail with FORMAT_BAD and an abort mark (R34). -/
def Obligations.StartMark : Prop :=
  ∀ s : State, s.inline = true → s.link.txD.abortsOwed = 0 → s.link.txD.queue.length + 2 ≤ 256 →
    ∃ t, exec (.startMark .c) s = .next t ∧ SameExcept [.link, .rewriter, .events] s t ∧
      t.receiver .d = s.receiver .d ∧ t.transmitter .c = s.transmitter .c ∧
      t.link.rxC = { Receiver.afterReset with lastEdge := s.clock.now } ∧
      t.link.txD.queue = s.link.txD.queue ++
        (if s.link.rxC.rx = .inFrame ∧ s.link.rxC.failed = false then [.abortMark, .startMark] else [.startMark]) ∧
      (∀ e, t.flag e = (s.flag e ||
        decide (e = .formatBad ∧ s.link.rxC.rx = .inFrame ∧ s.link.rxC.failed = false))) ∧
      (∀ i, t.rw i = { s.rw i with mark := false } ∧ t.rewriter.treated.get i = none ∧
        t.rewriter.snap.get i =
          { valid := (s.settings i).valid, node := (s.settings i).node, mode := (s.settings i).mode
            tripped := (s.tp i).latch
            draw := (s.settings i).draw, trimLimit := (s.settings i).trimLimit
            slewLimit := (s.settings i).slewLimit
            vMin := (s.settings i).vMin, vMax := (s.settings i).vMax, torqueCap := (s.settings i).torqueCap
            overrideValue := (s.settings i).overrideValue, overrideMask := (s.settings i).overrideMask
            overrideFn := (s.settings i).overrideFn
            stopValue := (s.settings i).stopValue, stopMask := (s.settings i).stopMask
            cutoff := (s.settings i).cutoff
            share := (s.share.sec.get i).trim, inject := s.inject i
            trimPrev := (s.rewriter.sec.get i).trim, lastOut := (s.rewriter.sec.get i).lastOut })

/-- R10, R12, R37: a word of a reference entry that is not to be treated is forwarded as it came: in STANDBY every one,
while ENGAGED an address that no valid record of the snapshot holds, that is 0 or above 62, or that repeats, and every
word after it; DUP_NODE is raised for a repeated address. R11: while ENGAGED the address of a valid record of the
snapshot begins a hold, and the words up to the torque limit are held with it (log 30). R37: the service target word is
sent as 0 when it is the strap address, and as it came otherwise; the words of a block for the bridge go into the
request buffer and are not sent, those of another block are. Where the queue has room. -/
def Obligations.CycleFrameWords : Prop :=
  (∀ (w : LinkWord) (k j : Nat) (s : State), s.inline = true → s.link.rxC.parsing = true →
    s.link.rxC.place = .entry k j → s.link.rxC.hold = none → s.link.txD.queue.length < 256 →
    s.link.txD.abortsOwed = 0 →
    (s.control.mode = .standby ∨ j ≠ 0 ∨ w.toNat = 0 ∨ 62 < w.toNat ∨ w ∈ s.link.rxC.seen ∨
      ∀ i, (s.rewriter.snap.get i).valid = true → (s.rewriter.snap.get i).node.toNat ≠ w.toNat) →
    ∃ t, exec (.dataWord .c w) s = .next t ∧ SameExcept [.link, .events] s t ∧
      t.link.txD = { s.link.txD with queue := s.link.txD.queue ++ [.word w] } ∧
      t.link.rxC.pos = s.link.rxC.pos + 1 ∧ t.link.rxC.crcIn = crcWord s.link.rxC.crcIn w ∧
      t.link.rxC.crcOut = crcWord s.link.rxC.crcOut w ∧ t.link.rxC.hold = none ∧
      (∀ e, t.flag e = (s.flag e ||
        decide (e = .dupNode ∧ j = 0 ∧ 1 ≤ w.toNat ∧ w.toNat ≤ 62 ∧ w ∈ s.link.rxC.seen))) ∧
      t.link.rxC.seen =
        (if j = 0 ∧ 1 ≤ w.toNat ∧ w.toNat ≤ 62 ∧ w ∉ s.link.rxC.seen then w :: s.link.rxC.seen
         else s.link.rxC.seen)) ∧
  (∀ (w : LinkWord) (k : Nat) (i : Fin 32) (s : State), s.control.mode = .engaged → s.link.rxC.parsing = true →
    s.link.rxC.place = .entry k 0 → 1 ≤ w.toNat → w.toNat ≤ 62 → w ∉ s.link.rxC.seen →
    (s.rewriter.snap.get i).valid = true → (s.rewriter.snap.get i).node.toNat = w.toNat →
    (∀ j < i, (s.rewriter.snap.get j).valid = true → (s.rewriter.snap.get j).node.toNat ≠ w.toNat) →
    exec (.dataWord .c w) s = .next (setReceiver .c
      { s.link.rxC with
        pos := s.link.rxC.pos + 1, crcIn := crcWord s.link.rxC.crcIn w, entry := [w], seen := w :: s.link.rxC.seen
        hold := some i, holdPass := false, lastEdge := s.clock.now } s)) ∧
  (∀ (w : LinkWord) (k j : Nat) (i : Fin 32) (s : State), s.inline = true → s.link.rxC.parsing = true →
    s.link.rxC.place = .entry k j → 1 ≤ j → j ≤ 3 → s.link.rxC.hold = some i →
    exec (.dataWord .c w) s = .next (setReceiver .c
      { s.link.rxC with
        pos := s.link.rxC.pos + 1, crcIn := crcWord s.link.rxC.crcIn w, entry := s.link.rxC.entry ++ [w]
        lastEdge := s.clock.now } s)) ∧
  (∀ (w : LinkWord) (s : State), s.inline = true → s.link.rxC.parsing = true → s.link.rxC.place = .target →
    w.toNat ≤ 62 → s.link.txD.queue.length < 256 → s.link.txD.abortsOwed = 0 →
    ∃ t, exec (.dataWord .c w) s = .next t ∧ SameExcept [.link] s t ∧ t.link.rxC.target = w ∧
      t.link.txD.queue = s.link.txD.queue ++
        [.word (if w.toNat = s.control.strap.toNat then 0 else w)] ∧
      t.link.rxC.crcIn = crcWord s.link.rxC.crcIn w ∧
      t.link.reqBuf = if w ≠ 0 ∧ w.toNat = s.control.strap.toNat then [] else s.link.reqBuf) ∧
  (∀ (w : LinkWord) (b : Nat) (s : State), s.inline = true → s.link.rxC.parsing = true →
    s.link.rxC.place = .block b → (b = 1 → w.toNat % 256 ≤ 8) →
    (s.link.rxC.target ≠ 0 → s.link.rxC.target.toNat = s.control.strap.toNat →
      ∃ t, exec (.dataWord .c w) s = .next t ∧ SameExcept [.link] s t ∧
        t.link.reqBuf = s.link.reqBuf ++ [w] ∧ t.link.txD = s.link.txD ∧
        t.link.rxC.crcIn = crcWord s.link.rxC.crcIn w ∧ t.link.rxC.crcOut = s.link.rxC.crcOut) ∧
    (s.link.rxC.target.toNat ≠ s.control.strap.toNat → s.link.txD.queue.length < 256 → s.link.txD.abortsOwed = 0 →
      ∃ t, exec (.dataWord .c w) s = .next t ∧ SameExcept [.link] s t ∧ t.link.reqBuf = s.link.reqBuf ∧
        t.link.txD.queue = s.link.txD.queue ++ [.word w] ∧
        t.link.rxC.crcIn = crcWord s.link.rxC.crcIn w ∧ t.link.rxC.crcOut = crcWord s.link.rxC.crcOut w))

/-- R39: a report frame's entry count word is sent one higher, and 48 as it came. What is appended is decided at the
answer source word, from the inbound count and source and from the answer slot, as the table of R39 gives, with
REPORT_FULL at a count of 48; the source word is sent as the table gives. R40, R194, R195, R202: with an inbound count
of 0 the bridge entry, and the answer block where one is appended, follow at once. Where the queue has room (log
31). -/
def Obligations.ReportHeader : Prop :=
  (∀ (w : LinkWord) (s : State), s.inline = true → s.link.rxD.parsing = true → s.link.rxD.place = .count →
    w.toNat ≤ 48 → s.link.txC.queue.length < 256 → s.link.txC.abortsOwed = 0 →
    ∃ t, exec (.dataWord .d w) s = .next t ∧ SameExcept [.link] s t ∧ t.link.rxD.count = w ∧
      t.link.txC.queue = s.link.txC.queue ++ [.word (BitVec.ofNat 16 (min 48 (w.toNat + 1)))]) ∧
  (∀ (w : LinkWord) (s : State), s.inline = true → s.link.rxD.parsing = true → s.link.rxD.place = .target →
    w.toNat ≤ 62 → 1 ≤ s.link.rxD.count.toNat → s.link.rxD.count.toNat ≤ 48 →
    s.link.txC.queue.length < 256 → s.link.txC.abortsOwed = 0 →
    ∃ t, exec (.dataWord .d w) s = .next t ∧ SameExcept [.link, .events] s t ∧
      t.link.rxD.target = w ∧
      t.link.rxD.append =
        (if s.link.rxD.count.toNat = 48 then .nothing
         else if s.link.rxD.count.toNat ≤ 46 ∧ w = 0 ∧ s.service.slot.isSome then .entryAndAnswer else .entry) ∧
      t.link.txC.queue = s.link.txC.queue ++
        [.word (if s.link.rxD.count.toNat ≤ 46 ∧ w = 0 ∧ s.service.slot.isSome then s.control.strap.setWidth 16
                else w)] ∧
      (∀ e, t.flag e = (s.flag e || decide (e = .reportFull ∧ s.link.rxD.count.toNat = 48)))) ∧
  (∀ (w : LinkWord) (s : State), s.inline = true → s.link.rxD.parsing = true → s.link.rxD.place = .target →
    w.toNat ≤ 62 → s.link.rxD.count = 0 → (∀ n, (s.events.classes.get n).toNat ≤ 3) →
    s.link.txC.queue.length + 6 + s.answerCarried.length ≤ 256 → s.link.txC.abortsOwed = 0 →
    ∃ t ws, exec (.dataWord .d w) s = .next t ∧ SameExcept [.link] s t ∧ BridgeEntryOf s s.events ws ∧
      t.link.rxD.append = (if w = 0 ∧ s.service.slot.isSome then .entryAndAnswer else .entry) ∧
      t.link.txC.queue = s.link.txC.queue ++
        (if w = 0 ∧ s.service.slot.isSome then
          .word (s.control.strap.setWidth 16) :: (ws ++ s.answerCarried).map .word
         else .word w :: ws.map .word))

/-- R48 to R51: at the last word of a status entry the entry, forwarded as it came, is captured into the fill bank of
the valid section that holds its address, and into no other; DUP_NODE is raised when the address, from 1 to 62, has
been met in this frame. R40, R41, R194, R195, R202: after the last entry the bridge entry follows, and the answer block
where the decision of R39 appends one; when that last entry repeats an address, the attention level is the one before
or after DUP_NODE (R194, log 8). Where the queue has room (log 31). -/
def Obligations.StatusEntry : Prop :=
  ∀ (w a st h l : LinkWord) (k : Nat) (s : State), s.inline = true → s.link.rxD.parsing = true →
    s.link.rxD.place = .entry k 4 → s.link.rxD.entry = [a, st, h, l] → AddressesOk s →
    (∀ n, (s.events.classes.get n).toNat ≤ 3) →
    s.link.txC.queue.length + 6 + s.answerCarried.length ≤ 256 → s.link.txC.abortsOwed = 0 →
    let dup := 1 ≤ a.toNat ∧ a.toNat ≤ 62 ∧ a ∈ s.link.rxD.seen
    let last := k + 1 = s.link.rxD.count.toNat
    ∃ t, exec (.dataWord .d w) s = .next t ∧ SameExcept [.link, .banks, .events, .clock] s t ∧
      t.clock.now = s.clock.now ∧ t.banks.held = s.banks.held ∧ t.banks.cnt = s.banks.cnt ∧
      (∀ i, t.banks.fill.get i =
        if (s.settings i).valid = true ∧ (s.settings i).node.toNat = a.toNat then
          some { status := st, speed := h ++ l, torque := w, cycle := s.link.rxD.cycle }
        else s.banks.fill.get i) ∧
      (∀ e, t.flag e = (s.flag e || decide (e = .dupNode ∧ dup))) ∧
      t.link.rxD.seen =
        (if 1 ≤ a.toNat ∧ a.toNat ≤ 62 ∧ a ∉ s.link.rxD.seen then a :: s.link.rxD.seen else s.link.rxD.seen) ∧
      (¬ last ∨ s.link.rxD.append = .nothing → t.link.txC.queue = s.link.txC.queue ++ [.word w]) ∧
      (last → s.link.rxD.append ≠ .nothing →
        ∃ ws u, BridgeEntryOf s u ws ∧ (u = s.events ∨ u = t.events) ∧
          t.link.txC.queue = s.link.txC.queue ++ .word w ::
            (ws ++ if s.link.rxD.append = .entryAndAnswer then s.answerCarried else []).map .word)

/-- R11, R13, R18, R19: at the last word of a held entry the treated entry leaves whole, in the same positions, and
what it will commit is noted; WINDOW_HIT is raised when the window changed the speed. Nothing is committed yet. R10: an
entry held when the bridge left ENGAGED leaves with its inbound contents, and notes nothing and raises nothing. Where
the queue has room. -/
def Obligations.TreatedEntry : Prop :=
  (∀ (w a c h l : LinkWord) (k : Nat) (i : Fin 32) (s : State), s.control.mode = .engaged →
     s.link.rxC.parsing = true → s.link.rxC.place = .entry k 4 → s.link.rxC.hold = some i →
     s.link.rxC.holdPass = false → s.link.rxC.entry = [a, c, h, l] → s.link.txD.queue.length + 5 ≤ 256 →
     s.link.txD.abortsOwed = 0 →
     ∃ t, exec (.dataWord .c w) s = .next t ∧ SameExcept [.link, .rewriter, .events] s t ∧
       (let e := s.rewriter.snap.get i
        let f : RefFields := { command := c, speed := h ++ l, torque := w }
        let sent := e.sentFields f
        t.link.txD.queue = s.link.txD.queue ++
          [.word a, .word sent.command, .word (sent.speed.extractLsb' 16 16), .word (sent.speed.extractLsb' 0 16),
           .word sent.torque] ∧
        t.rewriter = { s.rewriter with treated := s.rewriter.treated.set i (some
          { trim := if e.mode = .active ∧ (e.tripped = false ∨ e.cutoff = .ignore)
              then some (s32 (e.trimFor f.speed.toInt)) else none
            sent := sent, inbound := f }) } ∧
        (∀ v, t.flag v = (s.flag v || decide (v = .windowHit ∧ e.mode = .active ∧
          (e.tripped = false ∨ e.cutoff = .ignore) ∧
          (f.speed.toInt + e.trimFor f.speed.toInt < e.vMin.toInt ∨
           (e.vMin.toInt ≤ f.speed.toInt + e.trimFor f.speed.toInt ∧
             e.vMax.toInt < f.speed.toInt + e.trimFor f.speed.toInt)))))) ∧
       t.link.rxC.hold = none ∧ t.link.rxC.pos = s.link.rxC.pos + 1) ∧
  (∀ (w a c h l : LinkWord) (k : Nat) (i : Fin 32) (s : State), s.inline = true → s.link.rxC.parsing = true →
    s.link.rxC.place = .entry k 4 → s.link.rxC.hold = some i →
    (s.link.rxC.holdPass = true ∨ s.control.mode = .standby) → s.link.rxC.entry = [a, c, h, l] →
    s.link.txD.queue.length + 5 ≤ 256 → s.link.txD.abortsOwed = 0 →
    ∃ t, exec (.dataWord .c w) s = .next t ∧ SameExcept [.link] s t ∧
      t.link.txD.queue = s.link.txD.queue ++ [.word a, .word c, .word h, .word l, .word w] ∧
      t.link.rxC.hold = none ∧ t.link.rxC.pos = s.link.rxC.pos + 1)

/-- R16: the draw term P is Vc × D / 1,000,000 rounded to the nearest integer, ties away from zero; with D = 0 it is 0.
For every 32-bit Vc and every D within ±50,000 its magnitude is at most 107,374,182 (log 29: the bound that R16 infers
is a thousandth of its own formula's value). R17: the applied trim of an entry, from its draw term, moves from T_prev
toward the limited wanted trim by at most S and never past it, and stays within Tmax when T_prev does; with Tmax = 0 it
moves toward 0. -/
def Obligations.DrawTermAndTrimStep : Prop :=
  (∀ vc d : Int,
     (2 * (1000000 * drawTerm vc d - vc * d) ≤ 1000000 ∧ -1000000 ≤ 2 * (1000000 * drawTerm vc d - vc * d)) ∧
     (0 ≤ vc * d → 2 * (1000000 * drawTerm vc d - vc * d) ≠ -1000000) ∧
     (vc * d < 0 → 2 * (1000000 * drawTerm vc d - vc * d) ≠ 1000000) ∧
     (d = 0 → drawTerm vc d = 0) ∧
     (-2147483648 ≤ vc → vc ≤ 2147483647 → -50000 ≤ d → d ≤ 50000 →
       -107374182 ≤ drawTerm vc d ∧ drawTerm vc d ≤ 107374182)) ∧
  (∀ (e : SnapEntry) (vc : Int),
     let p := drawTerm vc e.draw.toInt
     let w := p + e.share.toInt + e.inject.toInt
     let tmax : Int := e.trimLimit.toNat
     let t := e.trimFor vc
     let prev := e.trimPrev.toInt
     ∃ wc, -tmax ≤ wc ∧ wc ≤ tmax ∧ (-tmax ≤ w → w ≤ tmax → wc = w) ∧ (w < -tmax → wc = -tmax) ∧
       (tmax < w → wc = tmax) ∧
       (t - prev ≤ e.slewLimit.toNat ∧ prev - t ≤ e.slewLimit.toNat) ∧
       ((prev ≤ t ∧ t ≤ wc) ∨ (wc ≤ t ∧ t ≤ prev)) ∧
       (t ≠ wc → t - prev = e.slewLimit.toNat ∨ prev - t = e.slewLimit.toNat) ∧
       (-tmax ≤ prev → prev ≤ tmax → -tmax ≤ t ∧ t ≤ tmax))

/-- R13, R14, R15, R18: the fields sent for a treated entry, by the section's trip state, mode and cutoff action: the
speed of a rewritten entry within the window, its command word flag by flag, its torque limit the smaller of the
inbound one and the cap. -/
def Obligations.SentFields : Prop :=
  ∀ (e : SnapEntry) (f : RefFields),
    (e.tripped = false → e.mode = .pass → e.sentFields f = f) ∧
    (e.tripped = true → e.cutoff = .ignore → e.mode = .pass → e.sentFields f = f) ∧
    (e.tripped = true → e.cutoff = .strip → e.sentFields f = f) ∧
    (e.tripped = true → e.cutoff = .hold → e.lastOut = none → e.sentFields f = f) ∧
    (∀ o, e.tripped = true → e.cutoff = .hold → e.lastOut = some o → e.sentFields f = o) ∧
    (e.tripped = true → e.cutoff = .stop →
      (e.sentFields f).speed = 0 ∧ (e.sentFields f).torque.toNat = min f.torque.toNat e.torqueCap.toNat ∧
      ∀ n : Fin 16, (e.sentFields f).command.getLsbD n =
        if e.stopMask.getLsbD n then e.stopValue.getLsbD n else f.command.getLsbD n) ∧
    (e.mode = .active → (e.tripped = false ∨ e.cutoff = .ignore) →
      (e.vMin.toInt ≤ e.vMax.toInt →
        (e.sentFields f).speed.toInt =
          max e.vMin.toInt (min e.vMax.toInt (f.speed.toInt + e.trimFor f.speed.toInt))) ∧
      (e.sentFields f).torque.toNat = min f.torque.toNat e.torqueCap.toNat ∧
      ∀ n : Fin 16, (e.sentFields f).command.getLsbD n =
        if e.overrideMask.getLsbD n then
          match e.overrideFn with
          | .replace => e.overrideValue.getLsbD n
          | .and => f.command.getLsbD n && e.overrideValue.getLsbD n
          | .or => f.command.getLsbD n || e.overrideValue.getLsbD n
          | .xor => f.command.getLsbD n != e.overrideValue.getLsbD n
        else f.command.getLsbD n)

/-- R20, R28, R30, R32, R33, R34, R38, R53: in a frame that has not failed, an abort mark fails it with ABORT_SEEN
alone, at a held check word too (log 12), and an idle symbol with FORMAT_BAD, both with the receiver BETWEEN; a word
that makes it malformed fails it with FORMAT_BAD, the receiver staying IN_FRAME and discarding what follows; an end
mark before the check word fails it too (the receiver then BETWEEN, log 11). Where the queue has room for the abort
mark. R28, R198, R199, R201: what each word of a frame is, by its position, and the values that make it malformed
there. R34: the words of a failed frame are discarded, and an abort mark or idle symbol then makes the receiver BETWEEN
and does nothing else. R29: the check word is compared with the check of the words received, and nothing is sent for it
yet. -/
def Obligations.FrameGivenUp : Prop :=
  (∀ (p : Port) (s : State), s.inline = true → (s.receiver p).parsing = true →
     (s.transmitter (otherPort p)).queue.length < 256 → (s.transmitter (otherPort p)).abortsOwed = 0 →
     (∃ t, exec (.abortMark p) s = .next t ∧ FrameVoid p .abortSeen s t ∧ (t.receiver p).rx = .between) ∧
     (∃ t, exec (.idleSymbol p) s = .next t ∧ FrameVoid p .formatBad s t ∧ (t.receiver p).rx = .between) ∧
     (∀ w, wordMalformed p (s.receiver p) w = true →
       ∃ t, exec (.dataWord p w) s = .next t ∧ FrameVoid p .formatBad s t ∧ (t.receiver p).rx = .inFrame ∧
         (t.receiver p).failed = true) ∧
     (∀ o, (s.receiver p).checkGood = none →
       ∃ t, exec (.endMark p o) s = .next t ∧ FrameVoid p .formatBad s t ∧ (t.receiver p).rx = .between)) ∧
  (∀ (p : Port) (x : Receiver) (w : LinkWord),
    let count := w.toNat % 256
    (wordMalformed p x w = true ↔
      (x.place = .kind ∧ w.toNat ≠ (match p with | .c => 0x00C3 | .d => 0x00A6)) ∨
      (x.place = .count ∧ (48 < w.toNat ∨ (p = .c ∧ w.toNat = 0))) ∨
      (x.place = .target ∧ 62 < w.toNat) ∨
      (x.place = .block 0 ∧ p = .d ∧ (count = 0 ∨ 12 < count)) ∨
      (x.place = .block 1 ∧ 8 < count) ∨ x.place = .after) ∧
    (x.pos = 0 → x.place = .kind) ∧ (x.pos = 1 → x.place = .count) ∧ (x.pos = 2 → x.place = .cycle) ∧
    (x.pos = 3 → x.place = .target) ∧
    (∀ k j, k < x.count.toNat → j < 5 → x.pos = 4 + 5 * k + j → x.place = .entry k j) ∧
    (∀ b, x.pos = 4 + 5 * x.count.toNat + b →
      (x.target = 0 → x.place = if b = 0 then .check else .after) ∧
      (x.target ≠ 0 → (b < 2 ∨ b < x.blockLen → x.place = .block b) ∧
        (2 ≤ b → x.blockLen = b → x.place = .check) ∧ (2 ≤ b → x.blockLen < b → x.place = .after))) ∧
    (x.place ≠ .after → (x.accept p w).pos = x.pos + 1) ∧
    (x.place = .block 0 → (x.accept p w).blockKind.toNat = count) ∧
    (x.place = .block 1 → (x.accept p w).blockLen =
      match p with | .c => 4 + 2 * count | .d => 2 + 2 * count + if x.blockKind = 1 then 1 else 0)) ∧
  (∀ (p : Port) (s : State), s.inline = true → (s.receiver p).rx = .inFrame → (s.receiver p).failed = true →
    (∀ w, exec (.dataWord p w) s = .next (setReceiver p { s.receiver p with lastEdge := s.clock.now } s)) ∧
    exec (.abortMark p) s =
      .next (setReceiver p { s.receiver p with rx := .between, lastEdge := s.clock.now } s) ∧
    exec (.idleSymbol p) s =
      .next (setReceiver p { s.receiver p with rx := .between, lastEdge := s.clock.now } s)) ∧
  (∀ (p : Port) (w : LinkWord) (s : State), s.inline = true → (s.receiver p).parsing = true →
    (s.receiver p).place = .check →
    exec (.dataWord p w) s = .next (setReceiver p
      { s.receiver p with
        pos := (s.receiver p).pos + 1, checkGood := some (w == (s.receiver p).crcIn), lastEdge := s.clock.now } s))

/-- R30, R34: an end mark at an inline receiver does what the outcome it decides does (log 16), and the mark that ends
a failed frame makes the receiver BETWEEN and does nothing else. -/
def Obligations.EndMarkOutcomes : Prop :=
  ∀ (s : State),
    (∀ o, s.closes .c = true → exec (.endMark .c o) s = exec (.cycleClose o) s) ∧
    (∀ o, s.fails .c = true → exec (.endMark .c o) s = exec .cycleFail s) ∧
    (∀ o, s.closes .d = true → exec (.endMark .d o) s = exec .reportClose s) ∧
    (∀ o, s.fails .d = true → exec (.endMark .d o) s = exec .reportFail s) ∧
    (∀ p o, s.inline = true → (s.receiver p).rx = .inFrame → (s.receiver p).failed = true →
      exec (.endMark p o) s =
        .next (setReceiver p { s.receiver p with rx := .between, lastEdge := s.clock.now } s))

/-- R26, R30, R35: a receiver that has seen no transition for 1 ms (here 2,000 half microseconds, log 2, log 3) becomes
STUCK; inline, LINE_STUCK is raised, the port enters the stuck-port record, and a frame in flight fails with an abort
mark; a passive receiver raises nothing. A line transition makes a STUCK receiver BETWEEN. -/
def Obligations.LineStuckAndRecovery : Prop :=
  (∀ (p : Port) (s : State), s.inline = true → s.control.resetHeld = false → (s.receiver p).rx ≠ .stuck →
    ∃ t, exec (.lineStuck p) s = .next t ∧ (t.receiver p).rx = .stuck ∧ t.flag .lineStuck = true ∧
      t.clock.now = max s.clock.now ((s.receiver p).lastEdge + 2000) ∧
      t.link.stuck = (match s.link.stuck, p with
        | .none, .c => .portC
        | .none, .d => .portD
        | .portC, .c => .portC
        | .portC, .d => .both
        | .portD, .c => .both
        | .portD, .d => .portD
        | .both, _ => .both) ∧
      ((s.receiver p).parsing = true → (s.transmitter (otherPort p)).queue.length < 256 →
        (s.transmitter (otherPort p)).abortsOwed = 0 → FrameVoid p .lineStuck s t) ∧
      ((s.receiver p).parsing = false → SameExcept [.clock, .link, .events] s t ∧
        t.link.txC = s.link.txC ∧ t.link.txD = s.link.txD)) ∧
  (∀ (p : Port) (s : State), s.control.mode = .relayed → s.control.resetHeld = false →
    (s.receiver p).rx ≠ .stuck →
    ∃ t, exec (.lineStuck p) s = .next t ∧ (t.receiver p).rx = .stuck ∧ SameExcept [.clock, .link] s t) ∧
  (∀ (p : Port) (s : State), s.control.resetHeld = false → (s.receiver p).rx = .stuck →
    exec (.lineRecovery p) s =
      .next (setReceiver p { s.receiver p with rx := .between, lastEdge := s.clock.now } s))

/-- R43, R96: at the expiry the cycle timer becomes EXPIRED and CYCLE_TIMEOUT is raised; while ENGAGED every valid
ACTIVE section ends TRIPPED, with LINK as first cause, or PEER with LINK among the later causes, when it was CLEAR. The
command moves the clock to the expiry (log 3), and with an EXPIRED timer it changes nothing (log 4). R43, R92, R149: an
expiry that falls at a cycle close, taken before the restart at whatever place of the close's work (log 5), raises
CYCLE_TIMEOUT and trips; with the restart taken first it does not occur. -/
def Obligations.CycleTimeout : Prop :=
  (∀ (d : Nat) (s : State), s.control.mode = .standby → s.link.timer = .running d →
    exec .cycleTimeout s = .next { s with
      clock := { s.clock with now := max s.clock.now d }
      link := { s.link with timer := .expired }
      events := { s.events with flags := s.events.flags ||| 0x0001#16 } }) ∧
  (∀ (d : Nat) (s : State), s.control.mode = .engaged → s.link.timer = .running d →
    ∃ t, exec .cycleTimeout s = .next t ∧ t.link = { s.link with timer := .expired } ∧
      t.flag .cycleTimeout = true ∧ t.control = s.control ∧
      ∀ i, (s.settings i).valid = true → (s.settings i).mode = .active →
        t.tripped i = true ∧
        (s.tripped i = false → ∃ x, (t.tp i).record = some x ∧ x.cycle = s.link.lastCycle ∧
          (x.cause = .link ∨ (x.cause = .peer ∧ x.later.getLsbD 2 = true)))) ∧
  (∀ s : State, s.link.timer = .expired → exec .cycleTimeout s = .next s) ∧
  (∀ (o o' : List CloseAct) (d : Nat) (s : State), s.closes .c = true → s.control.mode = .engaged →
    s.link.timer = .running d → d ≤ s.clock.now → .restart ∉ o → s.link.txD.queue.length + 2 ≤ 256 →
    s.link.txD.abortsOwed = 0 → (s.link.rxC.target = 0 ∨ s.link.rxC.target.toNat ≠ s.control.strap.toNat) →
    ∃ t, exec (.cycleClose (o ++ .expiry :: o')) s = .next t ∧ t.flag .cycleTimeout = true ∧
      t.link.timer = .running (s.clock.now + 2000 * s.link.timeout.toNat) ∧
      ∀ i, (s.settings i).valid = true → (s.settings i).mode = .active → t.tripped i = true) ∧
  (∀ (o : List CloseAct) (s : State),
    exec (.cycleClose (.restart :: o)) s = exec (.cycleClose (.restart :: o.filter fun a => a != .expiry)) s)

/-! ### The outcomes of a frame -/

/-- R29, R30, R38, R43, R44, R45, R46: whatever the frame brought and in whatever order the work of the close is taken
(log 5), a cycle close leaves the timer RUNNING with the full cycle timeout as it then stands, the period and the
cycle number stored, the request buffer empty, the receiver BETWEEN, and the outbound copy ended with its correct check
and the end mark. Here with room in the queue; 2,000 half microseconds are a millisecond (log 2). -/
def Obligations.CycleCloseStores : Prop :=
  ∀ (o : List CloseAct) (s : State), s.closes .c = true → s.link.txD.queue.length + 2 ≤ 256 →
    s.link.txD.abortsOwed = 0 →
    ∃ t, exec (.cycleClose o) s = .next t ∧
      t.link.timer = .running (s.clock.now + 2000 * t.link.timeout.toNat) ∧
      t.link.lastCycle = s.link.rxC.cycle ∧ t.link.lastClose = some s.clock.now ∧
      (s.link.lastClose = none → t.link.period = s.link.period) ∧
      (∀ u, s.link.lastClose = some u → t.link.period.toNat = min 65535 ((s.clock.now - u + 1) / 2)) ∧
      t.link.reqBuf = [] ∧ t.link.rxC.rx = .between ∧ t.clock.now = s.clock.now ∧
      t.link.txD.queue = s.link.txD.queue ++ [.word s.link.rxC.crcOut, .endMark]

/-- R19: when nothing else falls at a cycle close (no request for the bridge, no live runner, Port D not STUCK, no
expiry of the cycle timer), the close commits each treated section whose mark is clear, leaves every other section's
words, and changes only the rewriter and the link interface, in whatever order its work is taken (log 5). R115, R137,
R138: when runners are live, a close in the model's default order advances runners 0 to 3, in that order, from the
state in which the frame is committed and its number stored, as the close of that frame. -/
def Obligations.CycleCloseCommits : Prop :=
  (∀ (o : List CloseAct) (s : State), s.closes .c = true → s.link.txD.queue.length + 2 ≤ 256 →
     s.link.txD.abortsOwed = 0 → (s.link.rxC.target = 0 ∨ s.link.rxC.target.toNat ≠ s.control.strap.toNat) →
     s.link.rxD.rx ≠ .stuck → (∀ r, (s.runner r).isLive = false) →
     (∀ d, s.link.timer = .running d → s.clock.now < d) →
     ∃ t, exec (.cycleClose o) s = .next t ∧ SameExcept [.link, .rewriter] s t ∧
       t.rewriter.snap = s.rewriter.snap ∧
       ∀ i, t.rewriter.treated.get i = none ∧
         (s.rewriter.treated.get i = none → t.rw i = s.rw i) ∧
         ((s.rw i).mark = true → t.rw i = s.rw i) ∧
         (∀ c, s.rewriter.treated.get i = some c → (s.rw i).mark = false →
           t.rw i = { trim := (match c.trim with | some x => x | none => (s.rw i).trim)
                      lastIn := c.inbound, lastOut := some c.sent, mark := false })) ∧
  (∀ s : State, s.closes .c = true → s.link.txD.queue.length + 2 ≤ 256 → s.link.txD.abortsOwed = 0 →
    (s.link.rxC.target = 0 ∨ s.link.rxC.target.toNat ≠ s.control.strap.toNat) → s.link.rxD.rx ≠ .stuck →
    let ctx : CloseCtx := { cycle := s.link.rxC.cycle, closing := true }
    ∃ u, exec (.cycleClose []) s =
        .next (advanceRunner ctx 3 (advanceRunner ctx 2 (advanceRunner ctx 1 (advanceRunner ctx 0 u)))) ∧
      SameExcept [.link, .rewriter] s u ∧ u.link.lastCycle = s.link.rxC.cycle ∧ u.link.reqBuf = [] ∧
      u.link.timer = .running (s.clock.now + 2000 * s.link.timeout.toNat) ∧ u.link.lastClose = some s.clock.now ∧
      u.link.txD.queue = s.link.txD.queue ++ [.word s.link.rxC.crcOut, .endMark] ∧
      ∀ i, u.rewriter.treated.get i = none ∧
        (s.rewriter.treated.get i = none ∨ (s.rw i).mark = true → u.rw i = s.rw i) ∧
        (∀ c, s.rewriter.treated.get i = some c → (s.rw i).mark = false →
          u.rw i = { trim := (match c.trim with | some x => x | none => (s.rw i).trim)
                     lastIn := c.inbound, lastOut := some c.sent, mark := false }))

/-- R38, R166, R167: the block that a closing frame carried for the bridge is handed to the service unit, in whatever
order the close's work is taken (log 5): with the answer slot full it is discarded with SERVICE_OVERRUN and the answer
kept; with the slot empty it is executed and its one answer, with its tag and kind, fills the slot. R137: in the
model's default order, when nothing else falls at the close (no live runner, Port D not STUCK), the close leaves what
the command of that request (log 6) leaves from the state in which the frame is committed, the cycle number stored and
the timer restarted. -/
def Obligations.CarriedRequestExecuted : Prop :=
  ∀ s : State, s.closes .c = true → s.link.txD.queue.length + 2 ≤ 256 → s.link.txD.abortsOwed = 0 →
    s.link.rxC.target ≠ 0 → s.link.rxC.target.toNat = s.control.strap.toNat →
    let q := Request.ofBlock s.link.reqBuf
    (s.service.slot ≠ none → ∀ o, ∃ t, exec (.cycleClose o) s = .next t ∧ t.service = s.service ∧
      t.flag .serviceOverrun = true ∧ t.link.reqBuf = []) ∧
    (s.service.slot = none → ∀ o, ∃ t a, exec (.cycleClose o) s = .next t ∧ t.service.slot = some a ∧
      a.tag = q.tag ∧ a.kind = q.kind ∧ t.link.reqBuf = []) ∧
    (s.service.slot = none → q.data.length ≤ 8 → s.link.rxD.rx ≠ .stuck → (∀ r, (s.runner r).isLive = false) →
      ∃ u, exec (.cycleClose []) s = exec q.command u ∧ SameExcept [.link, .rewriter] s u ∧
        u.link.lastCycle = s.link.rxC.cycle ∧ u.link.reqBuf = [] ∧
        u.link.timer = .running (s.clock.now + 2000 * s.link.timeout.toNat) ∧
        ∀ i, u.rewriter.treated.get i = none ∧
          (s.rewriter.treated.get i = none ∨ (s.rw i).mark = true → u.rw i = s.rw i) ∧
          (∀ c, s.rewriter.treated.get i = some c → (s.rw i).mark = false →
            u.rw i = { trim := (match c.trim with | some x => x | none => (s.rw i).trim)
                       lastIn := c.inbound, lastOut := some c.sent, mark := false }))

/-- R20, R29, R32, R38, R43, R46, R140: a cycle fail on a bad check raises FRAME_BAD and ends the outbound copy with the
inverted check and an end mark; one before the check word raises FORMAT_BAD and ends it with an abort mark, the
receiver then BETWEEN (log 11). Neither
commits, executes or advances anything, or touches the timer, the period and the cycle number. -/
def Obligations.CycleFail : Prop :=
  (∀ s : State, s.fails .c = true → s.link.rxC.checkGood = some false → s.link.txD.queue.length + 2 ≤ 256 →
    s.link.txD.abortsOwed = 0 →
    ∃ t, exec .cycleFail s = .next t ∧ SameExcept [.link, .rewriter, .events] s t ∧
      t.link.txD.queue = s.link.txD.queue ++ [.word (~~~s.link.rxC.crcOut), .endMark] ∧
      t.rewriter.sec = s.rewriter.sec ∧ t.rewriter.snap = s.rewriter.snap ∧
      (∀ i, t.rewriter.treated.get i = none) ∧ t.link.reqBuf = [] ∧ t.link.rxC.rx = .between ∧
      t.link.timer = s.link.timer ∧ t.link.period = s.link.period ∧ t.link.lastCycle = s.link.lastCycle ∧
      ∀ e, t.flag e = (s.flag e || decide (e = .frameBad))) ∧
  (∀ s : State, s.fails .c = true → s.link.rxC.checkGood = none → s.link.txD.queue.length < 256 →
    s.link.txD.abortsOwed = 0 →
    ∃ t, exec .cycleFail s = .next t ∧ SameExcept [.link, .rewriter, .events] s t ∧
      FrameVoid .c .formatBad s t ∧ t.link.rxC.rx = .between ∧
      t.link.timer = s.link.timer ∧ t.link.period = s.link.period ∧ t.link.lastCycle = s.link.lastCycle)

/-- R41, R47, R52, R54, R55: a report close in STANDBY makes the fill bank the held bank and the new fill bank absent,
updates every valid section's missing count, sets the deviation counts to 0, and empties the answer slot exactly when
the frame carried its answer. -/
def Obligations.ReportCloseStandby : Prop :=
  ∀ s : State, s.closes .d = true → s.control.mode = .standby → s.link.txC.queue.length + 2 ≤ 256 →
    s.link.txC.abortsOwed = 0 →
    ∃ t, exec .reportClose s = .next t ∧ SameExcept [.link, .banks, .service] s t ∧
      t.banks.held = s.banks.fill ∧
      (∀ i, t.banks.fill.get i = none ∧ (t.counts i).deviation = 0 ∧
        (t.counts i).missing =
          if (s.settings i).valid then
            if (s.banks.fill.get i).isSome then 0
            else if (s.counts i).missing = 255 then 255 else (s.counts i).missing + 1
          else (s.counts i).missing) ∧
      t.service = { s.service with slot := if s.link.rxD.append = .entryAndAnswer then none else s.service.slot } ∧
      t.link.rxD.rx = .between ∧
      t.link.txC.queue = s.link.txC.queue ++ [.word s.link.rxD.crcOut, .endMark] ∧
      t.link.lastCycle = s.link.lastCycle

/-- R23, R55, R56, R59, R60, R89, R90: at a report close while ENGAGED, a valid ACTIVE CLEAR section in no valid set
whose new held status word matches its fault value on a non-empty care mask is TRIPPED with first cause DRIVE, whatever
the other sections do at that close; DEVIATION is among the later causes exactly when its count reached the persistence
with it; the record takes the last cycle number and the last output speed; T and L are 0 unless the cutoff action is
IGNORE. R57, R60: with no drive fault, the deviation count grows by one, saturating at 255, while the actual speed is
further than the limit from the last output, and the section trips with first cause DEVIATION when the count has
reached the persistence; the count is 0 when the speed is within the limit, the limit is 0, or the held record or the
last output is absent. R54, R58: a section without a held record counts one report more, saturating at 255, and trips
with FEEDBACK when that count has reached its limit. -/
def Obligations.DriveFaultTrips : Prop :=
  (∀ (i : Fin 32) (f : Feedback) (s : State), s.closes .d = true → s.control.mode = .engaged →
     s.link.txC.queue.length + 2 ≤ 256 → s.link.txC.abortsOwed = 0 →
     (s.settings i).valid = true → (s.settings i).mode = .active → s.tripped i = false →
     (∀ k, (s.share.sets.get k).valid = true → i ∉ (s.share.sets.get k).memberList) →
     s.banks.fill.get i = some f → (s.settings i).faultCare ≠ 0 →
     f.status &&& (s.settings i).faultCare = (s.settings i).faultValue &&& (s.settings i).faultCare →
     ∃ t x, exec .reportClose s = .next t ∧ t.tripped i = true ∧ (t.tp i).record = some x ∧
       x.cause = .drive ∧ x.cycle = s.link.lastCycle ∧ x.speed = (s.rw i).lastOut.map (·.speed) ∧
       (∀ o, (s.rw i).lastOut = some o →
         (x.later = if (s.settings i).devLimit ≠ 0 ∧
             (f.speed.toInt - o.speed.toInt > (s.settings i).devLimit.toNat ∨
              o.speed.toInt - f.speed.toInt > (s.settings i).devLimit.toNat) ∧
             (s.settings i).devPersist.toNat ≤ min 255 ((s.counts i).deviation.toNat + 1)
           then 0x0010 else 0)) ∧
       t.counts i = { missing := 0, deviation := 0 } ∧ t.flag .trip = true ∧
       ((s.settings i).cutoff ≠ .ignore → (t.rw i).trim = 0 ∧ (t.rw i).mark = true ∧ (t.sh i).trim = 0) ∧
       ((s.settings i).cutoff = .ignore → t.rw i = s.rw i ∧ (t.sh i).trim = (s.sh i).trim)) ∧
  (∀ (i : Fin 32) (f : Feedback) (o : RefFields) (s : State), s.closes .d = true → s.control.mode = .engaged →
    s.link.txC.queue.length + 2 ≤ 256 → s.link.txC.abortsOwed = 0 →
    (s.settings i).valid = true → (s.settings i).mode = .active → s.tripped i = false →
    (∀ k, (s.share.sets.get k).valid = true → i ∉ (s.share.sets.get k).memberList) →
    s.banks.fill.get i = some f → (s.rw i).lastOut = some o → 1 ≤ (s.settings i).fbLimit.toNat →
    ((s.settings i).faultCare = 0 ∨
      f.status &&& (s.settings i).faultCare ≠ (s.settings i).faultValue &&& (s.settings i).faultCare) →
    let deviates := (s.settings i).devLimit ≠ 0 ∧
      ((s.settings i).devLimit.toNat : Int) < |f.speed.toInt - o.speed.toInt|
    let n := min 255 ((s.counts i).deviation.toNat + 1)
    ∃ t, exec .reportClose s = .next t ∧
      (deviates → (s.settings i).devPersist.toNat ≤ n →
        t.tp i = { latch := true
                   record := some { cause := .deviation, cycle := s.link.lastCycle, speed := some o.speed
                                    later := 0 } } ∧
        t.counts i = { missing := 0, deviation := 0 } ∧ t.flag .trip = true ∧
        ((s.settings i).cutoff ≠ .ignore → (t.rw i).trim = 0 ∧ (t.rw i).mark = true ∧ (t.sh i).trim = 0) ∧
        ((s.settings i).cutoff = .ignore → t.rw i = s.rw i ∧ (t.sh i).trim = (s.sh i).trim)) ∧
      (deviates → n < (s.settings i).devPersist.toNat →
        t.tp i = s.tp i ∧ t.rw i = s.rw i ∧ t.counts i = { missing := 0, deviation := BitVec.ofNat 8 n }) ∧
      (¬ deviates → t.tp i = s.tp i ∧ t.rw i = s.rw i ∧ t.counts i = { missing := 0, deviation := 0 })) ∧
  (∀ (i : Fin 32) (s : State), s.closes .d = true → s.link.txC.queue.length + 2 ≤ 256 →
    s.link.txC.abortsOwed = 0 → s.banks.fill.get i = none ∨ (s.rw i).lastOut = none →
    ∃ t, exec .reportClose s = .next t ∧ (t.counts i).deviation = 0) ∧
  (∀ (i : Fin 32) (s : State), s.closes .d = true → s.control.mode = .engaged →
    s.link.txC.queue.length + 2 ≤ 256 → s.link.txC.abortsOwed = 0 →
    (s.settings i).valid = true → (s.settings i).mode = .active → s.tripped i = false →
    (∀ k, (s.share.sets.get k).valid = true → i ∉ (s.share.sets.get k).memberList) →
    s.banks.fill.get i = none →
    let n := min 255 ((s.counts i).missing.toNat + 1)
    ∃ t, exec .reportClose s = .next t ∧ t.counts i = { missing := BitVec.ofNat 8 n, deviation := 0 } ∧
      ((s.settings i).fbLimit.toNat ≤ n →
        t.tp i = { latch := true
                   record := some { cause := .feedback, cycle := s.link.lastCycle
                                    speed := (s.rw i).lastOut.map (·.speed), later := 0 } } ∧
        t.flag .trip = true ∧
        ((s.settings i).cutoff ≠ .ignore → (t.rw i).trim = 0 ∧ (t.rw i).mark = true ∧ (t.sh i).trim = 0) ∧
        ((s.settings i).cutoff = .ignore → t.rw i = s.rw i ∧ (t.sh i).trim = (s.sh i).trim)) ∧
      (n < (s.settings i).fbLimit.toNat → t.tp i = s.tp i ∧ t.rw i = s.rw i))

/-- R29, R32, R41, R53, R54, R55, R58: a report fail on a bad check raises FRAME_BAD and voids the outbound copy; the
fill bank is cleared, the held bank and the answer kept, and every valid section's missing count grows by one; a
supervised section in no valid set whose count has reached its limit trips with FEEDBACK; in STANDBY no section trips.
R36: a cycle close while Port D is STUCK brings the banks the same report fail, in whatever order the close's work is
taken (log 5), here with no request for the bridge; it raises no link event of its own, and while ENGAGED every valid
ACTIVE section whose count has reached its limit is TRIPPED after it, with first cause FEEDBACK in the model's default
order when it was CLEAR and is in no valid set. -/
def Obligations.ReportFail : Prop :=
  (∀ s : State, s.fails .d = true → s.link.rxD.checkGood = some false → s.link.txC.queue.length + 2 ≤ 256 →
     s.link.txC.abortsOwed = 0 →
     ∃ t, exec .reportFail s = .next t ∧ t.flag .frameBad = true ∧ t.service = s.service ∧ t.control = s.control ∧
       t.link.rxD.rx = .between ∧
       t.link.txC.queue = s.link.txC.queue ++ [.word (~~~s.link.rxD.crcOut), .endMark] ∧
       (∀ i, t.banks.fill.get i = none ∧ t.heldRec i = s.heldRec i ∧
         (t.counts i).missing =
           if (s.settings i).valid then
             if (s.counts i).missing = 255 then 255 else (s.counts i).missing + 1
           else (s.counts i).missing) ∧
       (s.control.mode = .standby → t.trips = s.trips ∧ t.share = s.share ∧ t.rewriter = s.rewriter) ∧
       (s.control.mode = .engaged → ∀ i, (s.settings i).valid = true → (s.settings i).mode = .active →
         s.tripped i = false → (∀ k, (s.share.sets.get k).valid = true → i ∉ (s.share.sets.get k).memberList) →
         (if (s.settings i).fbLimit.toNat ≤ min 255 ((s.counts i).missing.toNat + 1) then
           t.tripped i = true ∧ ∃ x, (t.tp i).record = some x ∧ x.cause = .feedback ∧ x.later = 0
         else t.tp i = s.tp i))) ∧
  (∀ (o : List CloseAct) (s : State), s.closes .c = true → s.link.txD.queue.length + 2 ≤ 256 →
    s.link.txD.abortsOwed = 0 → (s.link.rxC.target = 0 ∨ s.link.rxC.target.toNat ≠ s.control.strap.toNat) →
    s.link.rxD.rx = .stuck →
    ∃ t, exec (.cycleClose o) s = .next t ∧ t.link.rxD = s.link.rxD ∧ t.link.stuck = s.link.stuck ∧
      t.flag .frameBad = s.flag .frameBad ∧ t.flag .formatBad = s.flag .formatBad ∧
      t.flag .abortSeen = s.flag .abortSeen ∧ t.flag .lineStuck = s.flag .lineStuck ∧
      (∀ i, t.banks.fill.get i = none ∧ t.heldRec i = s.heldRec i ∧
        (t.counts i).missing =
          if (s.settings i).valid then
            if (s.counts i).missing = 255 then 255 else (s.counts i).missing + 1
          else (s.counts i).missing) ∧
      (s.control.mode = .standby → (∀ r, (s.runner r).isLive = false) → t.trips = s.trips) ∧
      (s.control.mode = .engaged → ∀ i, (s.settings i).valid = true → (s.settings i).mode = .active →
        (s.settings i).fbLimit.toNat ≤ min 255 ((s.counts i).missing.toNat + 1) →
        t.tripped i = true ∧
        (o = [] → s.tripped i = false →
          (∀ k, (s.share.sets.get k).valid = true → i ∉ (s.share.sets.get k).memberList) →
          ∃ x, (t.tp i).record = some x ∧ x.cause = .feedback ∧ x.cycle = s.link.rxC.cycle)))

/-- R69, R72 to R75, R79, R82: the computation of a SHARING set with no member over the imbalance threshold: the
reference torque is the rounded mean of the observed torques; each ACTIVE contributing follower's L moves by the
correction and is clamped to Lmax; every other member's L is kept; the imbalance counts are 0; the set is SHARING, and
settled exactly when every contributing error is within the deadband. R52, R69, R70: a report close while ENGAGED takes
the work of every valid set, in index order, on the new held bank with the missing counts updated, and the supervision
of the sections after it. With one valid set the close leaves the reference, the errors and the contributing count that
this work leaves, and, when the supervision trips no member, the set's whole status and its members' trims. -/
def Obligations.ShareComputation : Prop :=
  (∀ (k : Fin 8) (s : State),
     let cfg := s.share.sets.get k
     let inMean := cfg.positions.filter fun m => (s.heldRec m.2).isSome
     let ref := s.meanTorque inMean
     let err := fun m : Fin 6 × Fin 32 => s.torqueOf m.2 - ref - (cfg.bias.get m.1).toInt
     cfg.valid = true → cfg.shareLimit.toNat ≤ 100000 → cfg.memberList.Nodup →
     (∀ i ∈ cfg.memberList, s.tripped i = false) →
     2 ≤ inMean.length →
     (∀ m ∈ inMean, (s.settings m.2).mode = .active → |err m| ≤ (cfg.imbThreshold.toNat : Int)) →
     let t := shareSet k s
     2 * (ref * inMean.length - (inMean.map fun m => s.torqueOf m.2).sum) ≤ inMean.length ∧
     -(inMean.length : Int) ≤ 2 * (ref * inMean.length - (inMean.map fun m => s.torqueOf m.2).sum) ∧
     (t.setStat k).state = .sharing ∧ (t.setStat k).contributing = inMean.length ∧
     (t.setStat k).lastRef.toInt = ref ∧
     ((t.setStat k).settled = true ↔ ∀ m ∈ inMean, |err m| ≤ (cfg.deadband.toNat : Int)) ∧
     (∀ m ∈ cfg.positions, (t.sh m.2).imbalance = 0 ∧
       ((s.heldRec m.2).isSome = true → m.1 ≠ 0 → (s.settings m.2).mode = .active →
         (t.sh m.2).trim.toInt =
           max (-(cfg.shareLimit.toNat : Int)) (min (cfg.shareLimit.toNat : Int)
             ((s.sh m.2).trim.toInt +
               if |err m| ≤ (cfg.deadband.toNat : Int) then 0 else -(roundDiv (err m * cfg.gain.toNat) 256)))) ∧
       ((s.heldRec m.2).isSome = false ∨ m.1 = 0 ∨ (s.settings m.2).mode = .pass →
         (t.sh m.2).trim = (s.sh m.2).trim) ∧
       (t.setStat k).lastErr.get m.1 =
         if (s.heldRec m.2).isSome then some (BitVec.ofInt 32 (err m)) else none) ∧
     (∀ i, i ∉ cfg.memberList → t.sh i = s.sh i) ∧ SameExcept [.share] s t) ∧
  (∀ s : State, s.closes .d = true → s.control.mode = .engaged → s.link.txC.queue.length + 2 ≤ 256 →
    s.link.txC.abortsOwed = 0 →
    ∃ u t, SameExcept [.link, .banks, .service] s u ∧ u.banks.held = s.banks.fill ∧
      (∀ i, u.banks.fill.get i = none ∧ (u.counts i).deviation = (s.counts i).deviation ∧
        (u.counts i).missing =
          if (s.settings i).valid then
            if (s.banks.fill.get i).isSome then 0
            else if (s.counts i).missing = 255 then 255 else (s.counts i).missing + 1
          else (s.counts i).missing) ∧
      exec .reportClose s = .next t ∧
      t = forEach sections (superviseClose s.link.lastCycle) (forEach (List.finRange 8) shareSet u) ∧
      ∀ k, (s.share.sets.get k).valid = true → (∀ j, (s.share.sets.get j).valid = true → j = k) →
        (t.setStat k).contributing = ((shareSet k u).setStat k).contributing ∧
        (t.setStat k).lastRef = ((shareSet k u).setStat k).lastRef ∧
        (t.setStat k).lastErr = ((shareSet k u).setStat k).lastErr ∧
        ((∀ i ∈ (s.share.sets.get k).memberList, t.tripped i = (shareSet k u).tripped i) →
          t.setStat k = (shareSet k u).setStat k ∧
          ∀ i ∈ (s.share.sets.get k).memberList, t.sh i = (shareSet k u).sh i))

/-- R69, R72, R76, R82: a set with no member tripped and fewer than two contributing becomes DEGRADED: every
load-share trim kept, the imbalance counts 0, no reference and no errors, not settled, SET_DEGRADED on entering. R77: a
set with every member tripped is HALTED: no trim and no count changes, and with at least two members observed the
reference and the errors are those of the observed members, otherwise none. R79, R80, R83, R91: in a SHARING set the
members over the threshold whose count has reached the persistence trip it: the first of them in list order with
IMBALANCE, every other member with PEER, with IMBALANCE among the later causes exactly of the others that reached
it. -/
def Obligations.SetDegradedHaltedTripped : Prop :=
  ∀ (k : Fin 8) (s : State),
    let cfg := s.share.sets.get k
    let seen := cfg.positions.filter fun m => (s.heldRec m.2).isSome
    let ref := s.meanTorque seen
    let err := fun m : Fin 6 × Fin 32 => s.torqueOf m.2 - ref - (cfg.bias.get m.1).toInt
    cfg.valid = true → 2 ≤ cfg.memberCount.toNat → cfg.memberList.Nodup →
    let t := shareSet k s
    ((∀ i ∈ cfg.memberList, s.tripped i = false) → seen.length < 2 →
      SameExcept [.share, .events] s t ∧ t.share.sets = s.share.sets ∧
      t.setStat k = { state := .degraded, contributing := seen.length, lastRef := 0
                      lastErr := Table.replicate 6 none, settled := false } ∧
      (∀ j, j ≠ k → t.setStat j = s.setStat j) ∧
      (∀ i, t.sh i = if i ∈ cfg.memberList then { s.sh i with imbalance := 0 } else s.sh i) ∧
      ∀ e, t.flag e = (s.flag e || decide (e = .setDegraded ∧ (s.setStat k).state ≠ .degraded))) ∧
    ((∀ i ∈ cfg.memberList, s.tripped i = true) →
      SameExcept [.share] s t ∧ t.share.sets = s.share.sets ∧ t.share.sec = s.share.sec ∧
      (t.setStat k).state = .halted ∧ (t.setStat k).settled = false ∧
      (∀ j, j ≠ k → t.setStat j = s.setStat j) ∧
      (2 ≤ seen.length → (t.setStat k).contributing = seen.length ∧ (t.setStat k).lastRef.toInt = ref ∧
        ∀ m ∈ cfg.positions, (t.setStat k).lastErr.get m.1 =
          if (s.heldRec m.2).isSome then some (BitVec.ofInt 32 (err m)) else none) ∧
      (seen.length < 2 → (t.setStat k).contributing = 0 ∧ (t.setStat k).lastRef = 0 ∧
        ∀ p, (t.setStat k).lastErr.get p = none)) ∧
    ((∀ i ∈ cfg.memberList, s.tripped i = false ∧ s.setOf i = some k) → 2 ≤ seen.length →
      let reached := (cfg.positions.filter fun m => (s.heldRec m.2).isSome && (s.settings m.2).mode == .active &&
        decide ((cfg.imbThreshold.toNat : Int) < |err m|) &&
        decide (cfg.imbPersist.toNat ≤ min 255 ((s.sh m.2).imbalance.toNat + 1))).map (·.2)
      (reached = [] → t.trips = s.trips ∧ (t.setStat k).state = .sharing) ∧
      (∀ i rest, reached = i :: rest →
        (t.setStat k).state = .halted ∧ (t.setStat k).settled = false ∧ t.flag .trip = true ∧
        ∀ j ∈ cfg.memberList, t.tripped j = true ∧ (t.sh j).imbalance = 0 ∧
          ∃ x, (t.tp j).record = some x ∧ x.cause = (if j = i then .imbalance else .peer) ∧
            (x.later.getLsbD 6 = true ↔ j ∈ rest)))

/-! ### Runners -/

/-- R115, R118, R120, R131, R138, R143: at the close at which a RAMP's progress reaches n the injection is exactly the
target and the runner goes on in the same advance, here into a DWELL; at the close at which a DWELL's wait runs out it
goes on, here into an END: DONE with outcome ENDED, the user code stored, the injection 0, RUNNER_END raised. R122,
R123, R143, R144: at the close at which the wait of an AWAIT or SYNC that is not met runs out, alternate NONE faults
the runner with TIMEOUT at the waiting step, and an alternate index takes the runner there in the same advance, here
into an END. The commands run that runner's whole advance (log 7). At an earlier close the hold goes on: a RAMP at
progress k of n injects the origin plus the increment truncated toward zero, a DWELL counts down, and an AWAIT or SYNC
is tested before its wait is counted: met, it goes on with fifteen more steps allowed, and not met it counts down, or
holds without limit under timeout 0. Here with the recording off. -/
def Obligations.HoldsEnd : Prop :=
  (∀ (r : Fin 4) (target : Int) (n m : Nat) (s : State),
    let c := s.runner r
    c.state = .waiting → c.recording = false → s.stepOf r = some (.ramp target n) →
    c.rampProgress.toNat + 1 = n →
    (setRunner r { c with step := c.step + 1 } s).stepOf r = some (.dwell m) →
    exec (.rampComplete r) s = .next (setRunner r
      { c with state := .waiting, injection := BitVec.ofInt 32 target, rampProgress := BitVec.ofNat 16 n
               step := c.step + 1, wait := BitVec.ofNat 16 m } s)) ∧
  (∀ (r : Fin 4) (n : Nat) (code : BitVec 8) (s : State),
    let c := s.runner r
    c.state = .waiting → c.recording = false → s.stepOf r = some (.dwell n) → c.wait = 1 →
    (setRunner r { c with step := c.step + 1 } s).stepOf r = some (.finish code) →
    exec (.dwellExpiry r) s = .next (raise .runnerEnd (setRunner r
      { c with state := .done, outcome := some .ended, endCode := code, injection := 0, recording := false
               phase := 0, wait := 0, step := c.step + 1 } s))) ∧
  (∀ (r : Fin 4) (n : Nat) (alt : Option Nat) (s : State),
     let c := s.runner r
     c.state = .waiting → c.recording = false → c.wait = 1 → n ≠ 0 →
     ((∃ m, s.stepOf r = some (.sync m n alt) ∧ s.syncMark m = false) ∨
      (∃ slot cond, s.stepOf r = some (.await slot cond n alt) ∧ s.slotCondition r slot cond = false)) →
     (alt = none → exec (.waitTimeout r) s = .next (raise .runnerFault (setRunner r
       { c with state := .faulted, fault := some .timeout, faultStep := c.step, endCode := 0, injection := 0
                recording := false, phase := 0, wait := 0 } s))) ∧
     (∀ k code, alt = some k → (setRunner r { c with step := k } s).stepOf r = some (.finish code) →
       exec (.waitTimeout r) s = .next (raise .runnerEnd (setRunner r
         { c with state := .done, outcome := some .ended, endCode := code, injection := 0, recording := false
                  phase := 0, wait := 0, step := k } s)))) ∧
  (∀ (ctx : CloseCtx) (r : Fin 4) (s : State),
    let c := s.runner r
    c.state = .waiting → c.recording = false →
    (∀ target n, s.stepOf r = some (.ramp target n) → c.rampProgress.toNat + 1 < n →
      let k := c.rampProgress.toNat + 1
      advanceRunner ctx r s = setRunner r
        { c with rampProgress := BitVec.ofNat 16 k
                 injection := BitVec.ofInt 32
                   (c.rampOrigin.toInt + Int.tdiv ((target - c.rampOrigin.toInt) * k) n) } s) ∧
    (∀ n, s.stepOf r = some (.dwell n) → 2 ≤ c.wait.toNat →
      advanceRunner ctx r s = setRunner r { c with wait := c.wait - 1 } s) ∧
    (∀ n alt met, ((∃ m, s.stepOf r = some (.sync m n alt) ∧ met = s.syncMark m) ∨
        (∃ slot cond, s.stepOf r = some (.await slot cond n alt) ∧ met = s.slotCondition r slot cond)) →
      (met = true → advanceRunner ctx r s =
        runSteps ctx r 15 (setRunner r { c with state := .running, step := c.step + 1 } s)) ∧
      (met = false → n = 0 → advanceRunner ctx r s = s) ∧
      (met = false → n ≠ 0 → 2 ≤ c.wait.toNat →
        advanceRunner ctx r s = setRunner r { c with wait := c.wait - 1 } s)))

/-- R115, R117, R138, R139, R144: a runner reaches at most sixteen steps in one advance. Sixteen SET steps in a row
carry it to a seventeenth, and it faults there with BUDGET before that step acts, whatever stands there; after fifteen
the sixteenth may hold, here a DWELL, with the last value as the injection; a holding step that is resumed is the first
of the sixteen. A runner that is IDLE, DONE or FAULTED is not advanced. Here with the recording off. -/
def Obligations.StepBudget : Prop :=
  ∀ (ctx : CloseCtx) (r : Fin 4) (v : Nat → Int) (s : State),
    let c := s.runner r
    let at_ := fun k => (setRunner r { c with step := c.step + k } s).stepOf r
    c.recording = false →
    (c.state = .running → (∀ k < 16, at_ k = some (.set (v k))) →
      advanceRunner ctx r s = raise .runnerFault (setRunner r
        { c with state := .faulted, fault := some .budget, faultStep := c.step + 16, step := c.step + 16
                 endCode := 0, injection := 0, recording := false, phase := 0 } s)) ∧
    (∀ m, c.state = .running → (∀ k < 15, at_ k = some (.set (v k))) → at_ 15 = some (.dwell m) →
      advanceRunner ctx r s = setRunner r
        { c with state := .waiting, step := c.step + 15, injection := BitVec.ofInt 32 (v 14)
                 wait := BitVec.ofNat 16 m } s) ∧
    (∀ m, c.state = .waiting → c.wait = 1 → at_ 0 = some (.dwell m) →
      (∀ k, 1 ≤ k → k < 16 → at_ k = some (.set (v k))) →
      advanceRunner ctx r s = raise .runnerFault (setRunner r
        { c with state := .faulted, fault := some .budget, faultStep := c.step + 16, step := c.step + 16
                 endCode := 0, injection := 0, recording := false, phase := 0, wait := 0 } s)) ∧
    (c.state = .idle ∨ c.state = .done ∨ c.state = .faulted → advanceRunner ctx r s = s)

/-- R114 to R131, R144, R155: what a step does when a runner reaches it with `n` more steps allowed in this advance,
and where the runner goes on in the same advance. SET, SIGNAL, RECORD and MARK go on to the next index; a RAMP records
its origin and progress 0 and holds; a DWELL holds with its wait; an AWAIT or SYNC is tested first and goes on, or
holds with the wait at its timeout; END leaves the runner DONE; a plain JUMP goes to its target; a counted JUMP loads
or keeps the counter, and takes the jump while its count is above 0; one that meets another step's counter faults with
NESTING, the counter kept; a record that fails the check of R114 faults with BADSTEP and has no effect, and so does
index 512; a CUT of a CLEAR section in no valid set trips it with PROGRAM, and the runner goes on under IGNORE and
faults TRIPPED at the CUT otherwise; a CUT of a TRIPPED section enters PROGRAM among its later causes and goes on. END
and the faults here with the recording off. Table 11-9: the step that a record holds for a runner with `bound`
sections, when its fields lie in their ranges, and none otherwise. R121: when each condition of an AWAIT holds. -/
def Obligations.StepKinds : Prop :=
  (∀ (ctx : CloseCtx) (r : Fin 4) (n : Nat) (s : State),
    let c := s.runner r
    let onward := fun (x : Runner) (u : State) => runSteps ctx r n (setRunner r x u)
    let faulted := fun (f : RunnerFault) => raise .runnerFault (setRunner r
      { c with state := .faulted, fault := some f, faultStep := c.step, endCode := 0, injection := 0
               recording := false, phase := 0 } s)
    (∀ v, s.stepOf r = some (.set v) →
      runSteps ctx r (n + 1) s = onward { c with injection := BitVec.ofInt 32 v, step := c.step + 1 } s) ∧
    (∀ m on, s.stepOf r = some (.signal m on) →
      ∃ u, runSteps ctx r (n + 1) s = onward { c with step := c.step + 1 } u ∧ SameExcept [.runners] s u ∧
        (∀ q, u.runner q = s.runner q) ∧ ∀ j, u.syncMark j = if j = m then on else s.syncMark j) ∧
    (∀ t, s.stepOf r = some (.jump t 0) → runSteps ctx r (n + 1) s = onward { c with step := t } s) ∧
    (∀ t k, s.stepOf r = some (.jump t k) → 1 ≤ k → k ≤ 65535 →
      (c.loop = none → k = 1 → runSteps ctx r (n + 1) s = onward { c with step := c.step + 1 } s) ∧
      (c.loop = none → 2 ≤ k → runSteps ctx r (n + 1) s =
        onward { c with loop := some { owner := c.step, remaining := BitVec.ofNat 16 (k - 1) }, step := t } s) ∧
      (∀ l, c.loop = some l → l.owner = c.step → l.remaining = 1 →
        runSteps ctx r (n + 1) s = onward { c with loop := none, step := c.step + 1 } s) ∧
      (∀ l, c.loop = some l → l.owner = c.step → 2 ≤ l.remaining.toNat →
        runSteps ctx r (n + 1) s =
          onward { c with loop := some { l with remaining := l.remaining - 1 }, step := t } s) ∧
      (∀ l, c.loop = some l → l.owner ≠ c.step → c.recording = false →
        runSteps ctx r (n + 1) s = faulted .nesting)) ∧
    (∀ d, s.stepOf r = some (.recordOn d) → runSteps ctx r (n + 1) s =
      onward { c with recording := true, decimation := d, phase := 0, step := c.step + 1 } s) ∧
    (s.stepOf r = some .recordOff →
      runSteps ctx r (n + 1) s = onward { c with recording := false, step := c.step + 1 } s) ∧
    (∀ v, s.stepOf r = some (.mark v) →
      runSteps ctx r (n + 1) s = onward { c with step := c.step + 1 }
        (if c.recording then produceRecord
          [BitVec.ofNat 32 (0x20000000 + 0x1000000 * r.val + v.toNat), ctx.cycle.setWidth 32] s else s)) ∧
    (∀ target k, s.stepOf r = some (.ramp target k) → runSteps ctx r (n + 1) s =
      setRunner r { c with state := .waiting, rampOrigin := c.injection, rampProgress := 0 } s) ∧
    (∀ k, s.stepOf r = some (.dwell k) → runSteps ctx r (n + 1) s =
      setRunner r { c with state := .waiting, wait := BitVec.ofNat 16 k } s) ∧
    (∀ slot cond k alt i, s.stepOf r = some (.await slot cond k alt) → c.slots[slot]? = some i →
      runSteps ctx r (n + 1) s =
        if s.conditionHolds i cond then onward { c with step := c.step + 1 } s
        else setRunner r { c with state := .waiting, wait := BitVec.ofNat 16 k } s) ∧
    (∀ m k alt, s.stepOf r = some (.sync m k alt) → runSteps ctx r (n + 1) s =
      if s.syncMark m then onward { c with step := c.step + 1 } s
      else setRunner r { c with state := .waiting, wait := BitVec.ofNat 16 k } s) ∧
    (∀ code, s.stepOf r = some (.finish code) → c.recording = false → runSteps ctx r (n + 1) s =
      raise .runnerEnd (setRunner r
        { c with state := .done, outcome := some .ended, endCode := code, injection := 0, recording := false
                 phase := 0 } s)) ∧
    (s.stepOf r = none → c.recording = false → runSteps ctx r (n + 1) s = faulted .badStep) ∧
    (∀ slot i x, s.stepOf r = some (.cut slot) → c.slots[slot]? = some i → c.state = .running →
      s.tripped i = true → (s.tp i).record = some x →
      let later := if x.cause = .program then x.later else x.later ||| 0x0100
      let entered : TripStatus := { latch := true, record := some { x with later := later } }
      runSteps ctx r (n + 1) s = onward { c with step := c.step + 1 }
        { s with trips := { s.trips with sec := s.trips.sec.set i entered } }) ∧
    (c.step = 512 → s.stepOf r = none) ∧
    (∀ slot i, s.stepOf r = some (.cut slot) → c.slots[slot]? = some i → c.state = .running → c.recording = false →
      s.tripped i = false → (∀ k, (s.share.sets.get k).valid = true → i ∉ (s.share.sets.get k).memberList) →
      (∀ q, q ≠ r → i ∉ (s.runner q).slots) →
      ∃ u x, u.tripped i = true ∧ (u.tp i).record = some x ∧ x.cause = .program ∧ x.later = 0 ∧
        u.flag .trip = true ∧ (∀ j, j ≠ i → u.tp j = s.tp j) ∧
        if (s.settings i).cutoff = .ignore then
          runSteps ctx r (n + 1) s = onward { c with step := c.step + 1 } u ∧ u.runners = s.runners
        else
          runSteps ctx r (n + 1) s = u ∧ u.flag .runnerFault = true ∧
          u.runner r = { c with state := .faulted, fault := some .tripped, faultStep := c.step, endCode := 0
                                injection := 0, recording := false, phase := 0 })) ∧
  (∀ (w : StepRecord) (bound : Nat),
    let kind := w.w0.toNat % 256
    let sel := w.w0.toNat / 256 % 256
    let opt := w.w0.toNat / 65536 % 256
    let upper := w.w3.toNat / 65536
    let lower := w.w3.toNat % 65536
    let alt : Option Nat := if lower = 65535 then none else some lower
    let altOk := lower ≤ 511 ∨ lower = 65535
    let slotOk := sel ≤ 3 ∧ sel < bound
    let speed := -3000000 ≤ w.w1.toInt ∧ w.w1.toInt ≤ 3000000
    let torque := -4000 ≤ w.w1.toInt ∧ w.w1.toInt ≤ 4000
    let inject := -300000 ≤ w.w1.toInt ∧ w.w1.toInt ≤ 300000
    let closes := 1 ≤ w.w2.toNat ∧ w.w2.toNat ≤ 65535
    let holds := fun (ok : Prop) (op : StepOp) => (ok → w.read bound = some op) ∧ (¬ ok → w.read bound = none)
    (kind = 0 → holds (w.w1.toNat ≤ 255) (.finish (w.w1.setWidth 8))) ∧
    (kind = 1 → holds inject (.set w.w1.toInt)) ∧
    (kind = 2 → holds (inject ∧ closes) (.ramp w.w1.toInt w.w2.toNat)) ∧
    (kind = 3 → holds closes (.dwell w.w2.toNat)) ∧
    (kind = 4 →
      (opt = 0 → holds (slotOk ∧ altOk) (.await sel (.status (w.w1.setWidth 16) (w.w2.setWidth 16)) upper alt)) ∧
      (opt = 1 → holds (slotOk ∧ altOk ∧ speed) (.await sel (.speedAtLeast w.w1.toInt) upper alt)) ∧
      (opt = 2 → holds (slotOk ∧ altOk ∧ speed) (.await sel (.speedAtMost w.w1.toInt) upper alt)) ∧
      (opt = 3 → holds (slotOk ∧ altOk ∧ torque) (.await sel (.torqueAtLeast w.w1.toInt) upper alt)) ∧
      (opt = 4 → holds (slotOk ∧ altOk ∧ torque) (.await sel (.torqueAtMost w.w1.toInt) upper alt)) ∧
      (opt = 5 → holds (slotOk ∧ altOk) (.await sel .settled upper alt)) ∧
      (5 < opt → w.read bound = none)) ∧
    (kind = 5 → (∀ m : Fin 8, sel = m.val → holds altOk (.sync m upper alt)) ∧ (7 < sel → w.read bound = none)) ∧
    (kind = 6 → (∀ m : Fin 8, sel = m.val → holds (opt ≤ 1) (.signal m (opt == 1))) ∧
      (7 < sel → w.read bound = none)) ∧
    (kind = 7 → holds (lower ≤ 511) (.jump lower upper)) ∧
    (kind = 8 → (opt = 0 → w.read bound = some .recordOff) ∧
      (opt = 1 → holds (1 ≤ w.w2.toNat ∧ w.w2.toNat ≤ 255) (.recordOn (w.w2.setWidth 8))) ∧
      (1 < opt → w.read bound = none)) ∧
    (kind = 9 → holds (w.w1.toNat ≤ 65535) (.mark (w.w1.setWidth 16))) ∧
    (kind = 10 → holds slotOk (.cut sel)) ∧
    (10 < kind → w.read bound = none)) ∧
  (∀ (r : Fin 4) (k : Fin 512) (s : State), (s.runner r).step = k.val →
    s.stepOf r = (s.program.get k).read (s.runner r).slots.length) ∧
  (∀ (i : Fin 32) (s : State),
    (∀ f, s.heldRec i = some f →
      (∀ care pattern, s.conditionHolds i (.status care pattern) = true ↔
        ∀ n : Fin 16, care.getLsbD n = true → f.status.getLsbD n = pattern.getLsbD n) ∧
      ∀ v, (s.conditionHolds i (.speedAtLeast v) = true ↔ v ≤ f.speed.toInt) ∧
        (s.conditionHolds i (.speedAtMost v) = true ↔ f.speed.toInt ≤ v) ∧
        (s.conditionHolds i (.torqueAtLeast v) = true ↔ v ≤ f.torque.toInt) ∧
        (s.conditionHolds i (.torqueAtMost v) = true ↔ f.torque.toInt ≤ v)) ∧
    (s.heldRec i = none → ∀ cond, cond ≠ .settled → s.conditionHolds i cond = false) ∧
    (TripsOk s → (s.conditionHolds i .settled = true ↔
      ∃ k, (s.share.sets.get k).valid = true ∧ i ∈ (s.share.sets.get k).memberList ∧ (s.setStat k).settled = true)))

/-- R145, R153 to R155, R204: the records of a recording runner. At an advance it counts its decimation phase, and
when the phase reaches d it first produces a SAMPLE of its sections in slot order, as the commit of a closing frame
leaves them (here of a runner that goes on in a DWELL). A STOP brings an END record; a TRIP of a bound section in no
valid set brings a TRIP record with its slot, index and first cause, and, unless its cutoff action is IGNORE, the END
record of the runner's fault. Where the ring has room; a command's records carry the last cycle number (log 6). -/
def Obligations.RunnerRecords : Prop :=
  (∀ (ctx : CloseCtx) (r : Fin 4) (m : Nat) (s : State),
    let c := s.runner r
    let rw := fun i => if ctx.closing then
      (match s.rewriter.treated.get i with
       | none => s.rw i
       | some x => if (s.rw i).mark then s.rw i else
           { trim := (match x.trim with | some y => y | none => (s.rw i).trim)
             lastIn := x.inbound, lastOut := some x.sent, mark := (s.rw i).mark })
      else s.rw i
    let payload := fun i : Fin 32 =>
      [ (match (rw i).lastOut with | some o => o.speed | none => 0),
        (match s.heldRec i with | some f => f.speed | none => 0),
        (match s.heldRec i with | some f => f.torque ++ f.status | none => 0),
        (rw i).trim ]
    c.state = .waiting → c.recording = true → s.stepOf r = some (.dwell m) → 2 ≤ c.wait.toNat →
    c.slots.length ≤ 4 →
    (c.phase + 1 ≠ c.decimation →
      advanceRunner ctx r s = setRunner r { c with phase := c.phase + 1, wait := c.wait - 1 } s) ∧
    (c.phase + 1 = c.decimation →
      ∃ h1 h2 : Word, advanceRunner ctx r s =
          setRunner r { c with phase := 0, wait := c.wait - 1 }
            (produceRecord ([h1, h2] ++ c.slots.flatMap payload) s) ∧
        h1.toNat / 0x1000000 = 16 + r.val ∧ h1.toNat / 65536 % 256 = 0 ∧ h1.toNat % 256 = c.slots.length ∧
        (∀ k < 4, h1.getLsbD (8 + k) =
          (match c.slots[k]? with | some i => (s.heldRec i).isSome | none => false)) ∧
        (∀ k < 4, h1.getLsbD (12 + k) =
          (match c.slots[k]? with | some i => (rw i).lastOut.isSome | none => false)) ∧
        (∀ i f, i ∈ c.slots → s.heldRec i = some f → (∀ j ∈ c.slots, ∀ g, s.heldRec j = some g → g.cycle = f.cycle) →
          h2 = f.cycle.setWidth 32) ∧
        ((∀ i ∈ c.slots, s.heldRec i = none) → h2 = 0))) ∧
  (∀ (tag : BitVec 8) (runner : BitVec 16) (r : Fin 4) (s : State), s.canServe → runner.toNat = r.val →
    (s.runner r).isLive = true → (s.runner r).recording = true → (s.runner r).step ≤ 512 →
    exec (.stop tag runner) s = .next (State.answered
      (raise .runnerEnd (setRunner r
        { s.runner r with state := .done, outcome := some .stopped, endCode := 0, injection := 0
                          recording := false, phase := 0 }
        (produceRecord [BitVec.ofNat 32 (0x40000002 + 0x1000000 * r.val),
          BitVec.ofNat 32 (65536 * (s.runner r).step + s.link.lastCycle.toNat)] s)))
      (plainAnswer tag 6 .ok))) ∧
  (∀ (tag : BitVec 8) (sect : BitVec 16) (r : Fin 4) (j : Nat) (i : Fin 32) (s : State), s.canServe → RunnersOk s →
    sect.toNat = i.val → s.control.mode = .engaged → (s.settings i).valid = true → s.tripped i = false →
    (∀ k, (s.share.sets.get k).valid = true → i ∉ (s.share.sets.get k).memberList) →
    (s.runner r).isLive = true → (s.runner r).recording = true → (s.runner r).slots[j]? = some i →
    s.ring.words.length + 4 ≤ 8192 →
    ∃ t, exec (.trip tag sect) s = .next t ∧
      (t.ring.words.drop s.ring.words.length).map (fun x => (x.word.toNat, x.first)) =
        [(0x30000000 + 0x1000000 * r.val + 256 * i.val + j, true), (65536 * 7 + s.link.lastCycle.toNat, false)] ++
        (if (s.settings i).cutoff = .ignore then [] else
          [(0x4000000C + 0x1000000 * r.val, true),
           (65536 * (s.runner r).step + s.link.lastCycle.toNat, false)]))

/-! ### Service requests -/

/-- R166, R183: in RELAYED no request is executed and nothing changes; inline, a request that finds the answer slot
full is discarded: SERVICE_OVERRUN is raised, and nothing else changes. R169, R171: a WRITE to a region that is not
writable, or is no region, and a request of an unknown kind, are answered BADREQUEST with the tag and the kind as
received, and change nothing else. A WRITE that names a writable region is that region's own row. -/
def Obligations.RequestsTurnedAway : Prop :=
  (∀ (c : Instr) (s : State), isRequest c = true →
     (s.control.mode = .relayed → exec c s = .next s) ∧
     (s.control.mode ≠ .relayed → s.service.slot ≠ none → exec c s = .next (raise .serviceOverrun s))) ∧
  (∀ (tag region : BitVec 8) (record offset : BitVec 16) (data : List Word) (s : State), s.canServe →
    region ≠ 1 → region ≠ 2 → region ≠ 3 → region ≠ 8 → region ≠ 9 →
    exec (.write tag region record offset data) s = .next (s.answered (plainAnswer tag 2 .badRequest))) ∧
  (∀ (tag : BitVec 8) (record offset : BitVec 16) (data : List Word) (s : State),
    exec (.write tag 1 record offset data) s = exec (.sectionWrite tag record offset data) s ∧
    exec (.write tag 2 record offset data) s = exec (.setWrite tag record offset data) s ∧
    exec (.write tag 3 record offset data) s = exec (.programWrite tag record offset data) s ∧
    exec (.write tag 8 record offset data) s = exec (.eventsWrite tag record offset data) s ∧
    exec (.write tag 9 record offset data) s = exec (.bridgeWrite tag record offset data) s) ∧
  (∀ (tag kind : BitVec 8) (s : State), s.canServe → (kind.toNat = 0 ∨ 12 < kind.toNat) →
    exec (.badRequest tag kind) s = .next (s.answered (plainAnswer tag kind .badRequest)))

/-- R170, R175, R205: a READ of a record answers OK with the record's words from the offset on, as many as asked and as
lie within it, and changes no state; the refusals come first, and their answers with count 0 and no data words are the
model's choice (log 32). R6, R161, R203, R205, Tables 11-7 to 11-13: the words of the records of every region: BRIDGE,
SECTION, SET, PROGRAM, RUNNER, TRIP, the ring status and EVENTS. That RUNNER word 3 reads 0 in every bit while the loop
counter is idle is the model's choice (log 18: Table 11-10 gives the fields of a loaded counter only), and the bound
runner and J of a section record are read from the runner contexts (log 9). -/
def Obligations.ReadRecord : Prop :=
  (∀ (tag region : BitVec 8) (record offset : BitVec 16) (count : BitVec 8) (s : State), s.canServe →
    (region = 0 ∨ 9 < region.toNat → exec (.read tag region record offset count) s =
      .next (s.answered (plainAnswer tag 1 .badRequest))) ∧
    (∀ n, regionRecords region = some n → n ≤ record.toNat → exec (.read tag region record offset count) s =
      .next (s.answered (plainAnswer tag 1 .badValue))) ∧
    (∀ n, regionRecords region = some n → record.toNat < n → ¬ ((region = 6 ∨ region = 7) ∧ record = 0) →
      count.toNat ≤ 8 → exec (.read tag region record offset count) s =
      .next (s.answered { tag := tag, kind := 1, code := .ok
                          data := ((s.recordWords region record.toNat).drop offset.toNat).take count.toNat
                          firstHeader := none }))) ∧
  (∀ s : State, (s.recordWords 9 0).map (·.toNat) =
    [ (match s.control.mode with | .relayed => 0 | .standby => 1 | .engaged => 2) +
        (if s.control.key.filtered then 16 else 0),
      s.control.strap.toNat, s.link.timeout.toNat, s.link.period.toNat, s.link.lastCycle.toNat,
      (if s.service.prot.tuning then 1 else 0) + (if s.service.prot.limits then 2 else 0) +
        (if s.service.prot.sets then 4 else 0) + (if s.service.prot.program then 8 else 0) ]) ∧
  (∀ (i : Fin 32) (bound : Nat) (s : State), RunnersOk s →
    ((∃ r, i ∈ (s.runner r).slots ∧ bound = r.val) ∨ ((∀ r, i ∉ (s.runner r).slots) ∧ bound = 15)) →
    let c := s.settings i
    let x := s.rw i
    let out : RefFields := match x.lastOut with | some o => o | none => { speed := 0, command := 0, torque := 0 }
    (s.recordWords 1 i.val).map (·.toNat) =
      [ 0x80000000 * c.valid.toNat + c.node.toNat,
        (match c.mode with | .pass => 0 | .active => 1) +
          256 * (match c.overrideFn with | .replace => 0 | .and => 1 | .or => 2 | .xor => 3),
        c.draw.toNat, c.trimLimit.toNat, c.slewLimit.toNat,
        65536 * c.overrideMask.toNat + c.overrideValue.toNat, c.vMin.toNat, c.vMax.toNat,
        c.torqueCap.toNat + 65536 * (match c.cutoff with | .hold => 0 | .strip => 1 | .stop => 2 | .ignore => 3) +
          0x1000000 * c.breakResponse.toNat,
        65536 * c.stopMask.toNat + c.stopValue.toNat, c.devLimit.toNat,
        c.devPersist.toNat + 256 * c.fbLimit.toNat, 65536 * c.faultCare.toNat + c.faultValue.toNat,
        (s.tripped i).toNat + 2 * x.lastOut.isSome.toNat + 16 * bound,
        (s.counts i).missing.toNat + 256 * (s.counts i).deviation.toNat + 65536 * (s.sh i).imbalance.toNat,
        x.trim.toNat, (s.sh i).trim.toNat, (s.inject i).toNat, x.lastIn.speed.toNat,
        65536 * x.lastIn.command.toNat + x.lastIn.torque.toNat, out.speed.toNat,
        65536 * out.command.toNat + out.torque.toNat ] ∧
    (∀ r, i ∈ (s.runner r).slots → s.inject i = (s.runner r).injection) ∧
    ((∀ r, i ∉ (s.runner r).slots) → s.inject i = 0)) ∧
  (∀ (k : Fin 8) (s : State),
    let c := s.share.sets.get k
    let x := s.setStat k
    let m := fun p => (c.members.get p).val
    let b := fun p => (c.bias.get p).toNat
    (s.recordWords 2 k.val).map (·.toNat) =
      [ 0x80000000 * c.valid.toNat + c.memberCount.toNat, m 0 + 256 * m 1 + 65536 * m 2 + 0x1000000 * m 3,
        m 4 + 256 * m 5, 65536 * b 0 + b 1, 65536 * b 2 + b 3, 65536 * b 4 + b 5,
        c.gain.toNat + 65536 * c.deadband.toNat, c.imbThreshold.toNat + 65536 * c.imbPersist.toNat,
        c.shareLimit.toNat,
        (match x.state with | .inactive => 0 | .sharing => 1 | .degraded => 2 | .halted => 3) +
          16 * x.settled.toNat + 256 * (x.contributing % 8),
        x.lastRef.toNat ] ++
      (List.finRange 6).map fun p => match x.lastErr.get p with | some e => e.toNat | none => 0x80000000) ∧
  (∀ (k : Fin 512) (s : State), let w := s.program.get k
    s.recordWords 3 k.val = [w.w0, w.w1, w.w2, w.w3]) ∧
  (∀ (r : Fin 4) (s : State),
    let c := s.runner r
    let slot := fun k : Nat => match c.slots[k]? with | some i => i.val | none => 255
    (s.recordWords 4 r.val).map (·.toNat) =
      [ (match c.state with | .idle => 0 | .running => 1 | .waiting => 2 | .done => 3 | .faulted => 4) +
          256 * (match c.outcome, c.fault with
            | some .ended, _ => 1
            | some .stopped, _ => 2
            | some .disengaged, _ => 3
            | none, some .badStep => 8
            | none, some .budget => 9
            | none, some .nesting => 10
            | none, some .timeout => 11
            | none, some .tripped => 12
            | none, none => 0) +
          65536 * c.endCode.toNat + 0x1000000 * c.recording.toNat,
        c.step % 65536 + 65536 * (c.faultStep % 65536), c.injection.toNat,
        (match c.loop with | none => 0 | some l => 0x80000000 + 65536 * (l.owner % 512) + l.remaining.toNat),
        c.wait.toNat + 65536 * c.rampProgress.toNat, c.rampOrigin.toNat,
        c.decimation.toNat + 256 * c.phase.toNat + 65536 * (c.slots.length % 8),
        slot 0 + 256 * slot 1 + 65536 * slot 2 + 0x1000000 * slot 3, s.runners.marks.toNat ]) ∧
  (∀ (i : Fin 32) (s : State),
    ((s.tp i).record = none → s.tripped i = false → (s.recordWords 5 i.val).map (·.toNat) = [0, 0, 0, 0]) ∧
    (∀ x, (s.tp i).record = some x → (s.recordWords 5 i.val).map (·.toNat) =
      [ (s.tripped i).toNat + 2 + 256 * (match x.cause with
          | .brk => 1
          | .link => 2
          | .drive => 3
          | .deviation => 4
          | .feedback => 5
          | .imbalance => 6
          | .manual => 7
          | .program => 8
          | .peer => 9),
        x.cycle.toNat + 65536 * x.speed.isSome.toNat, (match x.speed with | some v => v.toNat | none => 0),
        x.later.toNat ])) ∧
  (∀ s : State, RingOk s → ∀ region : BitVec 8, region = 6 ∨ region = 7 →
    (s.recordWords region 1).map (·.toNat) =
      [ s.ring.words.length, 8192 - s.ring.words.length, s.ring.drops.toNat,
        (match s.ring.words.findIdx? (·.first) with | some k => k | none => 0xFFFFFFFF) ]) ∧
  (∀ s : State, (s.recordWords 8 0).map (·.toNat) =
    [ s.events.flags.toNat, s.events.masks.toNat,
      ((List.finRange 8).map fun n => (s.events.classes.get (Fin.castAdd 8 n)).toNat * 16 ^ n.val).sum,
      ((List.finRange 8).map fun n => (s.events.classes.get (Fin.natAdd 8 n)).toNat * 16 ^ n.val).sum,
      (match s.link.stuck with | .none => 0 | .portC => 1 | .portD => 2 | .both => 3) ])

/-- R151, R157 to R160: a produced record that fits the free count is stored whole, its first word alone carrying the
first-word indication, and the write position advances by its size; one that does not fit is dropped whole, the drop
count saturating at 65,535, with RING_DROP. A stream read returns and frees the oldest unread words, as many as asked
and as there are; a peek returns the words from an offset and frees nothing; each answers OK with the place of the
first returned word that begins a record. -/
def Obligations.RingRecordsAndReads : Prop :=
  (∀ (ws : List Word) (s : State),
     (s.ring.words.length + ws.length ≤ 8192 → produceRecord ws s = { s with ring := { s.ring with
       words := s.ring.words ++ ws.mapIdx fun k w => { word := w, first := k == 0 }
       writePos := s.ring.writePos + BitVec.ofNat 13 ws.length } }) ∧
     (s.ring.words.length ≤ 8192 → 8192 < s.ring.words.length + ws.length →
       SameExcept [.ring, .events] s (produceRecord ws s) ∧
       (produceRecord ws s).ring = { s.ring with drops := BitVec.ofNat 16 (min 65535 (s.ring.drops.toNat + 1)) } ∧
       ∀ e, (produceRecord ws s).flag e = (s.flag e || decide (e = .ringDrop)))) ∧
  (∀ (tag count : BitVec 8) (s : State), s.canServe → count.toNat ≤ 8 →
    exec (.ringStreamRead tag count) s = .next (State.answered
      { s with ring := { s.ring with
          words := s.ring.words.drop count.toNat
          readPos := s.ring.readPos + BitVec.ofNat 13 (min count.toNat s.ring.words.length) } }
      { tag := tag, kind := 1, code := .ok, data := (s.ring.words.take count.toNat).map (·.word)
        firstHeader := (s.ring.words.take count.toNat).findIdx? (·.first) })) ∧
  (∀ (tag : BitVec 8) (offset : BitVec 16) (count : BitVec 8) (s : State), s.canServe → count.toNat ≤ 8 →
    exec (.read tag 7 0 offset count) s = .next (s.answered
      { tag := tag, kind := 1, code := .ok
        data := (((s.ring.words.map (·.word)).drop offset.toNat).take count.toNat)
        firstHeader := ((s.ring.words.drop offset.toNat).take count.toNat).findIdx? (·.first) }))

/-- R5, R166, R171, R172, R174: a WRITE of the draw trim word of a section: refused PROTECTED while TUNING is protected
or the key is OFF; otherwise the value clamped to ±50,000 is stored, every other field and section is kept, and the
answer is OK or CLAMPED with the stored word. While ENGAGED a WRITE to an ACTIVE section is refused ENGAGED when it
changes the mode to PASS, changes the cutoff action, or lowers the trim limit; that this holds of an invalid record
too, by its stored mode, is the model's choice (log 27: R5 makes no exception for one). A raised trim limit is stored,
clamped to 300,000. A lower speed bound above the upper one is refused BADVALUE. Over states whose settings are in
range and whose trip line agrees. -/
def Obligations.SectionLiveWrites : Prop :=
  (∀ (tag : BitVec 8) (record : BitVec 16) (i : Fin 32) (d : Word) (s : State), s.canServe → SettingsOk s →
     TripLineOk s → record.toNat = i.val →
     ((s.service.prot.tuning = true ∨ s.control.key.filtered = false) →
       exec (.sectionWrite tag record 2 [d]) s = .next (s.answered (plainAnswer tag 2 .protectedGroup))) ∧
     (s.service.prot.tuning = false → s.control.key.filtered = true →
       let v := BitVec.ofInt 32 (max (-50000) (min 50000 d.toInt))
       exec (.sectionWrite tag record 2 [d]) s = .next (State.answered
         { s with table := s.table.set i { s.settings i with draw := v } }
         { tag := tag, kind := 2, code := if v = d then .ok else .clamped, data := [v], firstHeader := none }))) ∧
  (∀ (tag : BitVec 8) (record : BitVec 16) (i : Fin 32) (w : Word) (s : State), s.canServe → SettingsOk s →
    TripLineOk s → record.toNat = i.val → s.service.prot.tuning = false → s.service.prot.limits = false →
    s.control.key.filtered = true →
    (s.control.mode = .engaged → (s.settings i).mode = .active →
      (w.toNat % 2 = 0 →
        exec (.sectionWrite tag record 1 [w]) s = .next (s.answered (plainAnswer tag 2 .engaged))) ∧
      (Cutoff.ofCode (w.extractLsb' 16 2) ≠ (s.settings i).cutoff →
        exec (.sectionWrite tag record 8 [w]) s = .next (s.answered (plainAnswer tag 2 .engaged))) ∧
      (w.toNat < (s.settings i).trimLimit.toNat →
        exec (.sectionWrite tag record 3 [w]) s = .next (s.answered (plainAnswer tag 2 .engaged)))) ∧
    ((s.settings i).trimLimit.toNat ≤ w.toNat →
      let v := BitVec.ofNat 32 (min 300000 w.toNat)
      exec (.sectionWrite tag record 3 [w]) s = .next (State.answered
        { s with table := s.table.set i { s.settings i with trimLimit := v } }
        { tag := tag, kind := 2, code := if v = w then .ok else .clamped, data := [v], firstHeader := none })) ∧
    ((s.settings i).vMax.toInt < min 3000000 w.toInt →
      exec (.sectionWrite tag record 6 [w]) s = .next (s.answered (plainAnswer tag 2 .badValue))))

/-- R2, R3, R4, R174: in STANDBY a WRITE that makes an invalid record valid under an address is refused BADVALUE for 63
and 0, CONFLICT for the strap address, DUPLICATE for an address another valid record holds, and otherwise is applied:
the record is valid at that address and its per-section state is that of a new section, no other section's settings,
trim, record or counts change. R95, R96: while ENGAGED an accepted WRITE that makes a record valid with mode ACTIVE,
changes a CLEAR valid section from PASS to ACTIVE, or changes the break response of a CLEAR valid ACTIVE one from no to
yes, trips the section at once: with BREAK while the web-break line is asserted and the break response is yes, and, for
the first two, with LINK while the timer is EXPIRED; otherwise it stays CLEAR. Here the section is in no valid set. -/
def Obligations.SectionMadeValid : Prop :=
  (∀ (tag : BitVec 8) (record : BitVec 16) (i : Fin 32) (a : BitVec 6) (s : State), s.canServe →
     s.control.mode = .standby → SettingsOk s → record.toNat = i.val → (s.settings i).valid = false →
     s.control.key.filtered = true → s.service.prot.limits = false →
     let d : Word := 0x80000000#32 ||| a.setWidth 32
     (a = 63 ∨ a = 0 →
       exec (.sectionWrite tag record 0 [d]) s = .next (s.answered (plainAnswer tag 2 .badValue))) ∧
     (a ≠ 63 → a ≠ 0 → a = s.control.strap →
       exec (.sectionWrite tag record 0 [d]) s = .next (s.answered (plainAnswer tag 2 .conflict))) ∧
     (a ≠ 63 → a ≠ 0 → a ≠ s.control.strap → (∃ j, (s.settings j).valid = true ∧ (s.settings j).node = a) →
       exec (.sectionWrite tag record 0 [d]) s = .next (s.answered (plainAnswer tag 2 .duplicate))) ∧
     (a ≠ 63 → a ≠ 0 → a ≠ s.control.strap → (∀ j, (s.settings j).valid = true → (s.settings j).node ≠ a) →
       ∃ t, exec (.sectionWrite tag record 0 [d]) s = .next (t.answered
           { tag := tag, kind := 2, code := .ok, data := [d], firstHeader := none }) ∧
         SameExcept [.table, .rewriter, .banks, .share, .trips] s t ∧
         t.table = s.table.set i { s.settings i with valid := true, node := a } ∧
         t.rw i = { trim := 0, lastIn := ⟨0, 0, 0⟩, lastOut := none, mark := true } ∧
         t.counts i = { missing := 0, deviation := 0 } ∧ (t.sh i).imbalance = 0 ∧ (t.tp i).record = none ∧
         t.heldRec i = none ∧ t.banks.fill.get i = none ∧
         (∀ j, j ≠ i → t.rw j = s.rw j ∧ t.counts j = s.counts j ∧ t.sh j = s.sh j ∧ t.tp j = s.tp j ∧
           t.heldRec j = s.heldRec j ∧ t.banks.fill.get j = s.banks.fill.get j))) ∧
  (∀ (tag : BitVec 8) (record : BitVec 16) (i : Fin 32) (a : BitVec 6) (w : Word) (s : State), s.canServe →
    s.control.mode = .engaged → SettingsOk s → record.toNat = i.val → s.control.key.filtered = true →
    s.service.prot.limits = false → s.service.prot.tuning = false → s.tripped i = false →
    (∀ k, (s.share.sets.get k).valid = true → i ∉ (s.share.sets.get k).memberList) →
    let asserted := s.trips.wbrk.filtered = true
    let expired := s.link.timer = .expired
    let writes := fun (offset : BitVec 16) (d : Word) (brk lnk : Prop) (speed : Option Word) =>
      ∃ t ans, exec (.sectionWrite tag record offset [d]) s = .next (t.answered ans) ∧ ans.tag = tag ∧ ans.kind = 2 ∧
        (ans.code = .ok ∨ ans.code = .clamped) ∧ t.control = s.control ∧ (t.settings i).valid = true ∧
        (t.settings i).mode = .active ∧ (∀ j, j ≠ i → t.tp j = s.tp j ∧ t.settings j = s.settings j) ∧
        (brk ∨ lnk → LevelTripped brk lnk i s.link.lastCycle speed t) ∧ (¬ brk → ¬ lnk → t.tripped i = false)
    ((s.settings i).valid = false → (s.settings i).mode = .active → a ≠ 63 → a ≠ 0 → a ≠ s.control.strap →
      (∀ j, (s.settings j).valid = true → (s.settings j).node ≠ a) →
      writes 0 (0x80000000#32 ||| a.setWidth 32) (asserted ∧ (s.settings i).breakResponse = true) expired none) ∧
    ((s.settings i).valid = true → (s.settings i).mode = .pass → w.toNat % 2 = 1 →
      writes 1 w (asserted ∧ (s.settings i).breakResponse = true) expired ((s.rw i).lastOut.map (·.speed))) ∧
    ((s.settings i).valid = true → (s.settings i).mode = .active → (s.settings i).breakResponse = false →
      w.getLsbD 24 = true → Cutoff.ofCode (w.extractLsb' 16 2) = (s.settings i).cutoff →
      writes 8 w asserted False ((s.rw i).lastOut.map (·.speed))))

/-- R3, R4, R174: a WRITE that makes a valid record invalid or changes its address, its address and the checks 1 to 3
in order: refused TRIPPED while the section is TRIPPED, CONFLICT while it is a member of a valid set or bound to a
runner, ENGAGED while the bridge is ENGAGED and the section ACTIVE; otherwise applied, with the per-section state of a
new section, and no other section's settings, trim, record or counts change. -/
def Obligations.ValidSectionRestructured : Prop :=
  ∀ (tag : BitVec 8) (record : BitVec 16) (i : Fin 32) (v : Bool) (a : BitVec 6) (s : State), s.canServe →
    SettingsOk s → record.toNat = i.val → (s.settings i).valid = true → s.control.key.filtered = true →
    s.service.prot.limits = false → (v = false ∨ a ≠ (s.settings i).node) → a ≠ 63 →
    (v = true → a ≠ 0 ∧ a ≠ s.control.strap ∧
      ∀ j, j ≠ i → (s.settings j).valid = true → (s.settings j).node ≠ a) →
    let d : Word := (if v then 0x80000000#32 else 0#32) ||| a.setWidth 32
    let free := (∀ k, (s.share.sets.get k).valid = true → i ∉ (s.share.sets.get k).memberList) ∧
      ∀ r, i ∉ (s.runner r).slots
    (s.tripped i = true →
      exec (.sectionWrite tag record 0 [d]) s = .next (s.answered (plainAnswer tag 2 .tripped))) ∧
    (s.tripped i = false → ¬ free →
      exec (.sectionWrite tag record 0 [d]) s = .next (s.answered (plainAnswer tag 2 .conflict))) ∧
    (s.tripped i = false → free → s.control.mode = .engaged → (s.settings i).mode = .active →
      exec (.sectionWrite tag record 0 [d]) s = .next (s.answered (plainAnswer tag 2 .engaged))) ∧
    (s.tripped i = false → free → (s.control.mode ≠ .engaged ∨ (s.settings i).mode = .pass) →
      ∃ t, exec (.sectionWrite tag record 0 [d]) s = .next (t.answered
          { tag := tag, kind := 2, code := .ok, data := [d], firstHeader := none }) ∧
        SameExcept [.table, .rewriter, .banks, .share, .trips] s t ∧
        t.table = s.table.set i { s.settings i with valid := v, node := a } ∧
        t.rw i = { trim := 0, lastIn := ⟨0, 0, 0⟩, lastOut := none, mark := true } ∧
        t.counts i = { missing := 0, deviation := 0 } ∧ (t.sh i).imbalance = 0 ∧
        t.tp i = { latch := false, record := none } ∧ t.heldRec i = none ∧ t.banks.fill.get i = none ∧
        (∀ j, j ≠ i → t.rw j = s.rw j ∧ t.counts j = s.counts j ∧ t.sh j = s.sh j ∧ t.tp j = s.tp j ∧
          t.heldRec j = s.heldRec j ∧ t.banks.fill.get j = s.banks.fill.get j))

/-- R67, R171, R172, R174: a WRITE that lowers the share limit of a valid set stores it and at once clamps the
load-share trim of every member to it; no other section's trim and no other field changes. Over states whose settings
are in range. While SETS is protected it is refused. -/
def Obligations.ShareLimitLowered : Prop :=
  ∀ (tag : BitVec 8) (record : BitVec 16) (k : Fin 8) (v : Word) (s : State), s.canServe → SettingsOk s →
    record.toNat = k.val → s.control.key.filtered = true →
    let cfg := s.share.sets.get k
    (s.service.prot.sets = true →
      exec (.setWrite tag record 8 [v]) s = .next (s.answered (plainAnswer tag 2 .protectedGroup))) ∧
    (s.service.prot.sets = false → cfg.valid = true → v.toNat < cfg.shareLimit.toNat →
      ∃ t, exec (.setWrite tag record 8 [v]) s = .next (t.answered
          { tag := tag, kind := 2, code := .ok, data := [v], firstHeader := none }) ∧
        SameExcept [.share] s t ∧ t.share.sets = s.share.sets.set k { cfg with shareLimit := v } ∧
        t.share.stat = s.share.stat ∧
        ∀ i, t.sh i = if i ∈ cfg.memberList then
            { s.sh i with trim := BitVec.ofInt 32 (max (-(v.toNat : Int)) (min (v.toNat : Int) (s.sh i).trim.toInt)) }
          else s.sh i)

/-- R66, R68, R174: a WRITE that makes an invalid set valid with `n` members: refused ENGAGED while the bridge is
ENGAGED, then BADVALUE for a count above 6 or below 2 or a section twice, NOENTRY for an invalid member, CONFLICT for a
member of another valid set or members in different trip states; otherwise applied. One that makes a valid set invalid
is refused ENGAGED or applied. Applied, it clears the last errors, the contributing count, the last reference torque
and settled, and changes no load-share trim. A member position above 31 is refused BADVALUE. Over states whose settings
are in range, with SETS not protected. -/
def Obligations.SetStructure : Prop :=
  ∀ (tag : BitVec 8) (record : BitVec 16) (k : Fin 8) (n : BitVec 3) (s : State), s.canServe → SettingsOk s →
    record.toNat = k.val → s.control.key.filtered = true → s.service.prot.sets = false →
    let cfg := s.share.sets.get k
    let ms := ((List.finRange 6).take n.toNat).map cfg.members.get
    let d : Word := 0x80000000#32 ||| n.setWidth 32
    let refused := fun (w : Word) (code : AnswerCode) =>
      exec (.setWrite tag record 0 [w]) s = .next (s.answered (plainAnswer tag 2 code))
    let applied := fun (w : Word) (v : Bool) =>
      ∃ t, exec (.setWrite tag record 0 [w]) s = .next (t.answered
          { tag := tag, kind := 2, code := .ok, data := [w], firstHeader := none }) ∧
        SameExcept [.share] s t ∧ t.share.sets = s.share.sets.set k { cfg with valid := v, memberCount := n } ∧
        t.share.sec = s.share.sec ∧ (∀ j, j ≠ k → t.setStat j = s.setStat j) ∧
        t.setStat k = { state := (s.setStat k).state, contributing := 0, lastRef := 0
                        lastErr := Table.replicate 6 none, settled := false }
    (cfg.valid = false →
      (s.control.mode = .engaged → refused d .engaged) ∧
      (s.control.mode ≠ .engaged →
        (n.toNat < 2 ∨ 6 < n.toNat ∨ ¬ ms.Nodup → refused d .badValue) ∧
        (2 ≤ n.toNat → n.toNat ≤ 6 → ms.Nodup →
          ((∃ i ∈ ms, (s.settings i).valid = false) → refused d .noEntry) ∧
          ((∀ i ∈ ms, (s.settings i).valid = true) →
            let shared := ∃ j, j ≠ k ∧ (s.share.sets.get j).valid = true ∧
              ∃ i ∈ ms, i ∈ (s.share.sets.get j).memberList
            let mixed := (∃ i ∈ ms, s.tripped i = true) ∧ ∃ i ∈ ms, s.tripped i = false
            (shared ∨ mixed → refused d .conflict) ∧ (¬ shared → ¬ mixed → applied d true))))) ∧
    (cfg.valid = true → n.toNat ≤ 6 →
      (s.control.mode = .engaged → refused (n.setWidth 32) .engaged) ∧
      (s.control.mode ≠ .engaged → applied (n.setWidth 32) false)) ∧
    (∀ (w : Word) (b : Fin 4), s.control.mode ≠ .engaged → 31 < w.toNat / 256 ^ b.val % 256 →
      exec (.setWrite tag record 1 [w]) s = .next (s.answered (plainAnswer tag 2 .badValue)))

/-- R113, R171, R172, R174: a WRITE of a whole step record is refused PROTECTED while PROGRAM is protected or the key
is OFF, BUSY while any runner is RUNNING or WAITING, and otherwise is stored whole as written, with no check of its
contents. -/
def Obligations.ProgramWrite : Prop :=
  ∀ (tag : BitVec 8) (record : BitVec 16) (k : Fin 512) (a b c d : Word) (s : State), s.canServe →
    record.toNat = k.val →
    ((s.service.prot.program = true ∨ s.control.key.filtered = false) →
      exec (.programWrite tag record 0 [a, b, c, d]) s = .next (s.answered (plainAnswer tag 2 .protectedGroup))) ∧
    (s.service.prot.program = false → s.control.key.filtered = true → (∃ r, (s.runner r).isLive = true) →
      exec (.programWrite tag record 0 [a, b, c, d]) s = .next (s.answered (plainAnswer tag 2 .busy))) ∧
    (s.service.prot.program = false → s.control.key.filtered = true → (∀ r, (s.runner r).isLive = false) →
      exec (.programWrite tag record 0 [a, b, c, d]) s = .next (State.answered
        { s with program := s.program.set k ⟨a, b, c, d⟩ }
        { tag := tag, kind := 2, code := .ok, data := [a, b, c, d], firstHeader := none }))

/-- R44, R172, R174, R175, R193: a WRITE of the masks word of the EVENTS record stores its sixteen masks, and one of a
class word, the first or the second, its eight classes, whatever the key and the protection; a class word with a class
above 3 is refused BADVALUE; a WRITE of the cycle timeout stores it clamped to 2 to 250 and restarts a RUNNING timer
when it changed, with 2,000 half microseconds to the millisecond (log 2). -/
def Obligations.EventsAndBridgeWrite : Prop :=
  (∀ (tag : BitVec 8) (m : Word) (s : State), s.canServe → (∀ n, (s.events.classes.get n).toNat ≤ 3) →
    exec (.eventsWrite tag 0 1 [m]) s = .next (State.answered
      { s with events := { s.events with masks := m.setWidth 16 } }
      { tag := tag, kind := 2, code := .ok, data := [(m.setWidth 16).setWidth 32], firstHeader := none })) ∧
  (∀ (tag : BitVec 8) (m : Word) (b : Fin 2) (s : State), s.canServe →
    ((∃ n : Fin 8, 3 < m.toNat / 16 ^ n.val % 16) →
      exec (.eventsWrite tag 0 (BitVec.ofNat 16 (2 + b.val)) [m]) s =
        .next (s.answered (plainAnswer tag 2 .badValue))) ∧
    ((∀ n : Fin 8, m.toNat / 16 ^ n.val % 16 ≤ 3) → (∀ n, (s.events.classes.get n).toNat ≤ 3) →
      ∃ t, exec (.eventsWrite tag 0 (BitVec.ofNat 16 (2 + b.val)) [m]) s = .next (t.answered
          { tag := tag, kind := 2, code := .ok, data := [m], firstHeader := none }) ∧
        SameExcept [.events] s t ∧ t.events.flags = s.events.flags ∧ t.events.masks = s.events.masks ∧
        ∀ n : Fin 16, (t.events.classes.get n).toNat =
          if n.val / 8 = b.val then m.toNat / 16 ^ (n.val % 8) % 16 else (s.events.classes.get n).toNat)) ∧
  (∀ (tag : BitVec 8) (v : Word) (s : State), s.canServe → s.control.key.filtered = true →
    s.service.prot.limits = false →
    let u := BitVec.ofNat 32 (max 2 (min 250 v.toNat))
    exec (.bridgeWrite tag 0 2 [v]) s = .next (State.answered
      { s with link := { s.link with
          timeout := u
          timer := if u = s.link.timeout ∨ s.link.timer = .expired then s.link.timer
                   else .running (s.clock.now + 2000 * u.toNat) } }
      { tag := tag, kind := 2, code := if u = v then .ok else .clamped, data := [u], firstHeader := none }))

/-- R116, R133 to R136: the refusals of START in their order, each over the whole list, and the accepted START: the
runner RUNNING at the index with the sections bound in the order given, every other context field as after a reset,
nothing executed. -/
def Obligations.Start : Prop :=
  ∀ (tag : BitVec 8) (runner step : BitVec 16) (is : List (Fin 32)) (s : State), s.canServe → is.length ≤ 8 →
    let ws : List Word := is.map fun i => BitVec.ofNat 32 i.val
    let c := Instr.start tag runner step ws
    (4 ≤ runner.toNat → exec c s = .next (s.answered (plainAnswer tag 5 .badValue))) ∧
    ∀ r : Fin 4, runner.toNat = r.val →
      (s.control.mode ≠ .engaged → exec c s = .next (s.answered (plainAnswer tag 5 .mode))) ∧
      (s.control.mode = .engaged → (s.runner r).state ≠ .idle →
        exec c s = .next (s.answered (plainAnswer tag 5 .busy))) ∧
      (s.control.mode = .engaged → (s.runner r).state = .idle →
        (511 < step.toNat ∨ is = [] ∨ 4 < is.length ∨ ¬ is.Nodup) →
        exec c s = .next (s.answered (plainAnswer tag 5 .badValue))) ∧
      (s.control.mode = .engaged → (s.runner r).state = .idle → step.toNat ≤ 511 → is ≠ [] → is.length ≤ 4 →
        is.Nodup →
        ((∃ i ∈ is, (s.settings i).valid = false) →
          exec c s = .next (s.answered (plainAnswer tag 5 .noEntry))) ∧
        ((∀ i ∈ is, (s.settings i).valid = true) →
          (∃ i ∈ is, (s.settings i).mode = .pass ∨ ∃ q, i ∈ (s.runner q).slots) →
          exec c s = .next (s.answered (plainAnswer tag 5 .conflict))) ∧
        ((∀ i ∈ is, (s.settings i).valid = true ∧ (s.settings i).mode = .active ∧ ∀ q, i ∉ (s.runner q).slots) →
          (∃ i ∈ is, s.tripped i = true) → exec c s = .next (s.answered (plainAnswer tag 5 .tripped))) ∧
        ((∀ i ∈ is, (s.settings i).valid = true ∧ (s.settings i).mode = .active ∧ (∀ q, i ∉ (s.runner q).slots) ∧
            s.tripped i = false) →
          let started : Runner :=
            { state := .running, outcome := none, fault := none, faultStep := 0, endCode := 0
              step := step.toNat, slots := is, injection := 0, loop := none, wait := 0, rampOrigin := 0
              rampProgress := 0, recording := false, decimation := 1, phase := 0 }
          exec c s = .next (State.answered
            { s with runners := { s.runners with ctx := s.runners.ctx.set r started } }
            (plainAnswer tag 5 .ok))))

/-- R133, R143, R146, R148: STOP of a RUNNING or WAITING runner (here not recording) makes it DONE, STOPPED with its
list and place kept; of a DONE or FAULTED one it leaves the context; CLOSE of a DONE or FAULTED runner returns its
context to the reset values and unbinds its sections, raising no event and writing nothing into the ring; and each
refuses in its order. R124, R142: SIGNAL sets or clears one sync mark, and refuses a mark above 7 or an action that is
neither. -/
def Obligations.StopCloseAndSignal : Prop :=
  (∀ (tag : BitVec 8) (runner : BitVec 16) (s : State), s.canServe →
     (4 ≤ runner.toNat → exec (.stop tag runner) s = .next (s.answered (plainAnswer tag 6 .badValue)) ∧
       exec (.close tag runner) s = .next (s.answered (plainAnswer tag 7 .badValue))) ∧
     ∀ r : Fin 4, runner.toNat = r.val →
       ((s.runner r).state = .idle → exec (.stop tag runner) s = .next (s.answered (plainAnswer tag 6 .idle)) ∧
         exec (.close tag runner) s = .next (s.answered (plainAnswer tag 7 .idle))) ∧
       ((s.runner r).state = .running ∨ (s.runner r).state = .waiting →
         exec (.close tag runner) s = .next (s.answered (plainAnswer tag 7 .busy)) ∧
         ((s.runner r).recording = false →
           let stopped : Runner :=
             { s.runner r with state := .done, outcome := some .stopped, endCode := 0, injection := 0
                               recording := false, phase := 0 }
           exec (.stop tag runner) s = .next (State.answered
             { s with
               runners := { s.runners with ctx := s.runners.ctx.set r stopped }
               events := { s.events with flags := s.events.flags ||| 0x0100#16 } }
             (plainAnswer tag 6 .ok)))) ∧
       ((s.runner r).state = .done ∨ (s.runner r).state = .faulted →
         exec (.stop tag runner) s = .next (s.answered (plainAnswer tag 6 .ok)) ∧
         exec (.close tag runner) s = .next (State.answered
           { s with runners := { s.runners with ctx := s.runners.ctx.set r Runner.afterReset } }
           (plainAnswer tag 7 .ok)))) ∧
  (∀ (tag : BitVec 8) (mark : BitVec 16) (w : Word) (s : State), s.canServe →
     (7 < mark.toNat ∨ 1 < w.toNat →
       exec (.signal tag mark [w]) s = .next (s.answered (plainAnswer tag 10 .badValue))) ∧
     exec (.signal tag mark []) s = .next (s.answered (plainAnswer tag 10 .badValue)) ∧
     (∀ m : Fin 8, mark.toNat = m.val → w.toNat ≤ 1 →
       ∃ t, exec (.signal tag mark [w]) s = .next (t.answered (plainAnswer tag 10 .ok)) ∧
         SameExcept [.runners] s t ∧ (∀ r, t.runner r = s.runner r) ∧
         ∀ n : Fin 8, t.syncMark n = if n = m then decide (w.toNat = 1) else s.syncMark n))

/-- R22, R23, R61, R81, R103 to R108: RELEASE of a tripped section in no valid set. The refusals in their order; in
STANDBY an accepted release clears the latch and the counts and L, keeps T and the trip record; while ENGAGED T becomes
the seed, here of an ACTIVE section under HOLD with a last output, and the mark is set; here the web-break line is not
asserted and the cycle timer is RUNNING, so no level rule follows. R95, R96: a release while ENGAGED of an ACTIVE
section that has break response yes while the web-break line is asserted, or of any ACTIVE section while the timer is
EXPIRED, is accepted and answered OK, and the section trips again at once under a new record. R103 to R107: a release
that names a member of a valid set judges the members in member-list order, and is refused with the first check that
fails, nothing changed; when none fails every member is released, whatever its mode and cutoff action, the set's status
kept; here in STANDBY, or with no level rule to follow. -/
def Obligations.Release : Prop :=
  (∀ (tag : BitVec 8) (sect : BitVec 16) (s : State), s.canServe →
     (32 ≤ sect.toNat → exec (.release tag sect) s = .next (s.answered (plainAnswer tag 8 .badValue))) ∧
     ∀ i : Fin 32, sect.toNat = i.val →
       ((s.settings i).valid = false → exec (.release tag sect) s = .next (s.answered (plainAnswer tag 8 .noEntry))) ∧
       ((s.settings i).valid = true → s.tripped i = false →
         exec (.release tag sect) s = .next (s.answered (plainAnswer tag 8 .notTripped))) ∧
       ((s.settings i).valid = true → s.tripped i = true →
         (∀ k, (s.share.sets.get k).valid = true → i ∉ (s.share.sets.get k).memberList) →
         ∀ x, (s.tp i).record = some x →
         ((∃ cause, cause ≠ .peer ∧ (x.cause = cause ∨ x.later.getLsbD cause.code = true) ∧
             s.causePresent i cause = true) →
           exec (.release tag sect) s = .next (s.answered (plainAnswer tag 8 .cause))) ∧
         ((∀ cause, cause ≠ .peer → (x.cause = cause ∨ x.later.getLsbD cause.code = true) →
             s.causePresent i cause = false) →
           (s.control.mode = .standby → TripLineOk s →
             ∃ t, exec (.release tag sect) s = .next (t.answered (plainAnswer tag 8 .ok)) ∧
               SameExcept [.banks, .share, .trips] s t ∧
               t.trips = { s.trips with sec := s.trips.sec.set i { latch := false, record := some x } } ∧
               t.share = { s.share with sec := s.share.sec.set i { trim := 0, imbalance := 0 } } ∧
               t.banks = { s.banks with cnt := s.banks.cnt.set i { s.counts i with deviation := 0 } }) ∧
           (s.control.mode = .engaged → ∀ o, (s.rw i).lastOut = some o → (s.settings i).mode = .active →
             (s.settings i).cutoff = .hold → s.trips.wbrk.filtered = false → s.link.timer ≠ .expired →
             let gap := o.speed.toInt - (s.rw i).lastIn.speed.toInt
             ((s.settings i).trimLimit.toNat < |gap| →
               exec (.release tag sect) s = .next (s.answered (plainAnswer tag 8 .gap))) ∧
             (|gap| ≤ (s.settings i).trimLimit.toNat →
               let seeded : RewriteStatus := { s.rw i with trim := BitVec.ofInt 32 gap, mark := true }
               ∃ t, exec (.release tag sect) s = .next (t.answered (plainAnswer tag 8 .ok)) ∧
                 SameExcept [.rewriter, .banks, .share, .trips] s t ∧
                 t.rewriter = { s.rewriter with sec := s.rewriter.sec.set i seeded } ∧
                 t.trips.sec = s.trips.sec.set i { latch := false, record := some x } ∧
                 t.share = { s.share with sec := s.share.sec.set i { trim := 0, imbalance := 0 } } ∧
                 t.banks = { s.banks with cnt := s.banks.cnt.set i { s.counts i with deviation := 0 } }))))) ∧
  (∀ (tag : BitVec 8) (sect : BitVec 16) (i : Fin 32) (x : TripRecord) (s : State), s.canServe →
    sect.toNat = i.val → s.control.mode = .engaged → (s.settings i).valid = true → (s.settings i).mode = .active →
    s.tripped i = true → (∀ k, (s.share.sets.get k).valid = true → i ∉ (s.share.sets.get k).memberList) →
    (s.tp i).record = some x →
    (∀ cause, cause ≠ .peer → (x.cause = cause ∨ x.later.getLsbD cause.code = true) →
      s.causePresent i cause = false) →
    ((s.settings i).cutoff = .hold ∨ (s.settings i).cutoff = .stop → ∀ o, (s.rw i).lastOut = some o →
      |o.speed.toInt - (s.rw i).lastIn.speed.toInt| ≤ (s.settings i).trimLimit.toNat) →
    let brk := s.trips.wbrk.filtered = true ∧ (s.settings i).breakResponse = true
    let lnk := s.link.timer = .expired
    brk ∨ lnk →
    ∃ t, exec (.release tag sect) s = .next (t.answered (plainAnswer tag 8 .ok)) ∧ t.control = s.control ∧
      t.table = s.table ∧ (∀ j, j ≠ i → t.tp j = s.tp j) ∧
      LevelTripped brk lnk i s.link.lastCycle ((s.rw i).lastOut.map (·.speed)) t) ∧
  (∀ (tag : BitVec 8) (sect : BitVec 16) (i : Fin 32) (k : Fin 8) (s : State), s.canServe → TripsOk s →
    sect.toNat = i.val → (s.share.sets.get k).valid = true → i ∈ (s.share.sets.get k).memberList →
    (s.share.sets.get k).memberList.Nodup → s.tripped i = true →
    let ms := (s.share.sets.get k).memberList
    let limit := fun j => ((s.settings j).trimLimit.toNat : Int)
    let gap := fun j : Fin 32 => match (s.rw j).lastOut with
      | some o => o.speed.toInt - (s.rw j).lastIn.speed.toInt
      | none => 0
    let causeFails := fun j => ∃ x cause, (s.tp j).record = some x ∧ cause ≠ .peer ∧
      (x.cause = cause ∨ x.later.getLsbD cause.code = true) ∧ s.causePresent j cause = true
    let gapFails := fun j => s.control.mode = .engaged ∧
      ((s.settings j).cutoff = .hold ∨ (s.settings j).cutoff = .stop) ∧ (s.rw j).lastOut ≠ none ∧
      limit j < |gap j|
    (∀ before j rest, ms = before ++ j :: rest → (∀ m ∈ before, ¬ causeFails m ∧ ¬ gapFails m) →
      (causeFails j → exec (.release tag sect) s = .next (s.answered (plainAnswer tag 8 .cause))) ∧
      (¬ causeFails j → gapFails j → exec (.release tag sect) s = .next (s.answered (plainAnswer tag 8 .gap)))) ∧
    ((∀ m ∈ ms, ¬ causeFails m ∧ ¬ gapFails m) →
      s.control.mode = .standby ∨ (s.trips.wbrk.filtered = false ∧ s.link.timer ≠ .expired) →
      ∃ t, exec (.release tag sect) s = .next (t.answered (plainAnswer tag 8 .ok)) ∧
        SameExcept [.rewriter, .banks, .share, .trips] s t ∧ TripLineOk t ∧ t.trips.wbrk = s.trips.wbrk ∧
        t.share.sets = s.share.sets ∧ t.share.stat = s.share.stat ∧
        (∀ j ∈ ms, t.tp j = { latch := false, record := (s.tp j).record } ∧
          t.sh j = { trim := 0, imbalance := 0 } ∧ t.counts j = { s.counts j with deviation := 0 } ∧
          t.rw j = if s.control.mode = .engaged then
              { s.rw j with
                trim := BitVec.ofInt 32
                  (if (s.settings j).mode = .pass then 0 else max (-limit j) (min (limit j) (gap j)))
                mark := true }
            else s.rw j) ∧
        (∀ j, j ∉ ms → t.tp j = s.tp j ∧ t.sh j = s.sh j ∧ t.counts j = s.counts j ∧ t.rw j = s.rw j)))

/-- R23, R60, R83, R89, R90, R91, R98: TRIP. The refusals in their order; a TRIPPED section gets MANUAL among its
later causes and nothing else changes; a CLEAR section, whatever its mode, is TRIPPED with first cause MANUAL and its
record, counts 0, T and L 0 unless under IGNORE, TRIP raised, and every other member of its set is TRIPPED with it, one
that was CLEAR with first cause PEER, the set HALTED. -/
def Obligations.Trip : Prop :=
  ∀ (tag : BitVec 8) (sect : BitVec 16) (s : State), s.canServe →
    (32 ≤ sect.toNat → exec (.trip tag sect) s = .next (s.answered (plainAnswer tag 9 .badValue))) ∧
    ∀ i : Fin 32, sect.toNat = i.val →
      ((s.settings i).valid = false → exec (.trip tag sect) s = .next (s.answered (plainAnswer tag 9 .noEntry))) ∧
      ((s.settings i).valid = true → s.control.mode ≠ .engaged →
        exec (.trip tag sect) s = .next (s.answered (plainAnswer tag 9 .mode))) ∧
      ((s.settings i).valid = true → s.control.mode = .engaged → s.tripped i = true →
        ∀ x, (s.tp i).record = some x →
        let later := if x.cause = .manual then x.later else x.later ||| 0x0080#16
        let entered : TripStatus := { latch := true, record := some { x with later := later } }
        exec (.trip tag sect) s = .next (State.answered
          { s with trips := { s.trips with sec := s.trips.sec.set i entered } } (plainAnswer tag 9 .ok))) ∧
      ((s.settings i).valid = true → s.control.mode = .engaged → s.tripped i = false →
        ∃ t, exec (.trip tag sect) s = .next (t.answered (plainAnswer tag 9 .ok)) ∧
          SameExcept tripBlocks s t ∧ t.flag .trip = true ∧
          (let x : TripRecord := { cause := .manual, cycle := s.link.lastCycle, later := 0
                                   speed := (s.rw i).lastOut.map (·.speed) }
           t.tp i = { latch := true, record := some x }) ∧
          t.counts i = { s.counts i with deviation := 0 } ∧ (t.sh i).imbalance = 0 ∧
          (if (s.settings i).cutoff = .ignore then t.rw i = s.rw i ∧ (t.sh i).trim = (s.sh i).trim
           else t.rw i = { s.rw i with trim := 0, mark := true } ∧ (t.sh i).trim = 0 ∧ t.trips.line = true) ∧
          (∀ k, s.setOf i = some k → (t.setStat k).state = .halted ∧ (t.setStat k).settled = false ∧
            ∀ j ∈ (s.share.sets.get k).memberList, t.tripped j = true ∧
              (j ≠ i → s.tripped j = false → ∃ x, (t.tp j).record = some x ∧ x.cause = .peer)) ∧
          (∀ j, j ≠ i → (∀ k, s.setOf i = some k → j ∉ (s.share.sets.get k).memberList) →
            t.tp j = s.tp j ∧ t.rw j = s.rw j ∧ t.sh j = s.sh j ∧ t.counts j = s.counts j) ∧
          (∀ r, (s.runner r).isLive = true → i ∈ (s.runner r).slots → (s.settings i).cutoff ≠ .ignore →
            (t.runner r).state = .faulted ∧ (t.runner r).fault = some .tripped ∧
            (t.runner r).faultStep = (s.runner r).step ∧ (t.runner r).injection = 0 ∧
            (t.runner r).slots = (s.runner r).slots))

/-- R176: PROTECT sets or clears the protection flag of one group; BADVALUE when the group is not one of the four or
the action is neither set nor clear, KEYOFF when it clears with the key OFF; setting is accepted with the key OFF. R168:
with no data word there is no action. That a refused answer carries count 0 is the model's choice (log 32). -/
def Obligations.Protect : Prop :=
  ∀ (tag : BitVec 8) (group : BitVec 16) (w : Word) (rest : List Word) (s : State), s.canServe →
    (3 < group.toNat ∨ 1 < w.toNat →
      exec (.protect tag group (w :: rest)) s = .next (s.answered (plainAnswer tag 12 .badValue))) ∧
    exec (.protect tag group []) s = .next (s.answered (plainAnswer tag 12 .badValue)) ∧
    (group.toNat ≤ 3 → w.toNat = 0 → s.control.key.filtered = false →
      exec (.protect tag group (w :: rest)) s = .next (s.answered (plainAnswer tag 12 .keyOff))) ∧
    (group.toNat ≤ 3 → (w.toNat = 1 ∨ (w.toNat = 0 ∧ s.control.key.filtered = true)) →
      exec (.protect tag group (w :: rest)) s = .next (State.answered
        { s with service := { s.service with prot :=
          { tuning := if group.toNat = 0 then decide (w.toNat = 1) else s.service.prot.tuning
            limits := if group.toNat = 1 then decide (w.toNat = 1) else s.service.prot.limits
            sets := if group.toNat = 2 then decide (w.toNat = 1) else s.service.prot.sets
            program := if group.toNat = 3 then decide (w.toNat = 1) else s.service.prot.program } } }
        (plainAnswer tag 12 .ok)))

/-- R35, R162, R177: CLEAR is refused for no item, or for an item that is neither a flag nor the ring; otherwise
exactly the flags named are cleared, the stuck-port record becomes none when LINE_STUCK is among them, and the ring is
emptied when it is named, with the new used, free and drop counts in the answer. No runner is touched. That a refused
answer carries count 0 and no data words is the model's choice (log 32). -/
def Obligations.Clear : Prop :=
  ∀ (tag : BitVec 8) (items : List Word) (s : State), s.canServe → items.length ≤ 8 →
    ((items = [] ∨ ∃ w ∈ items, 15 < w.toNat ∧ w.toNat ≠ 256) →
      exec (.clear tag items) s = .next (s.answered (plainAnswer tag 11 .badValue))) ∧
    (items ≠ [] → (∀ w ∈ items, w.toNat ≤ 15 ∨ w.toNat = 256) →
      ∃ t, exec (.clear tag items) s = .next (t.answered
          { tag := tag, kind := 11, code := .ok
            data := if (256 : Word) ∈ items then [0, 8192, 0] else [], firstHeader := none }) ∧
        SameExcept [.events, .link, .ring] s t ∧
        t.events.masks = s.events.masks ∧ t.events.classes = s.events.classes ∧
        (∀ e : Event, t.flag e = (s.flag e && !decide (BitVec.ofNat 32 e.number.val ∈ items))) ∧
        t.link = { s.link with stuck := if (2 : Word) ∈ items then .none else s.link.stuck } ∧
        t.ring = if (256 : Word) ∈ items then
            { words := [], readPos := s.ring.writePos, writePos := s.ring.writePos, drops := 0 }
          else s.ring)

/-! ### Formats -/

/-- R29, R197: a receiver that takes the words of a frame followed by their check word ends with register 0, so the
check word is the one that agrees; the inverted check never does. -/
def Obligations.CheckWord : Prop :=
  ∀ ws : List LinkWord,
    crcWords crcInit (ws ++ [crcWords crcInit ws]) = 0 ∧
    (∀ w, crcWords crcInit (ws ++ [w]) = 0 → w = crcWords crcInit ws) ∧
    ~~~(crcWords crcInit ws) ≠ crcWords crcInit ws

/-- R168, R200, R201: the request that is read from a service block of at most eight data words is the one that was
written into it, and the block has the length that its count gives. R203, Tables 11-7 and 11-8: the setting words of a
section record and of a set record hold every setting field, so that what a READ returns reads back as the same
settings. R200, R201, R205, Tables 11-3 to 11-5: the words of a service block, and the words and the length of an
answer block, whose first-header position lies from 0 to 7 when there is one. -/
def Obligations.BlocksAndRecordsRoundTrip : Prop :=
  (∀ q : Request, q.data.length ≤ 8 →
     Request.ofBlock q.block = q ∧ q.block.length = 4 + 2 * q.data.length ∧
     (loByte (q.block.getD 1 0)).toNat = q.data.length) ∧
  (∀ r : SectionSettings, r.words.length = 13 ∧ SectionSettings.ofWords r.words = r) ∧
  (∀ r : SetSettings, r.words.length = 9 ∧ SetSettings.ofWords r.words = r) ∧
  (∀ q : Request, q.data.length ≤ 8 → q.block.map (·.toNat) =
     [ 256 * q.tag.toNat + q.kind.toNat, 256 * q.region.toNat + q.data.length, q.record.toNat, q.offset.toNat ] ++
     q.data.flatMap fun w => [w.toNat / 65536, w.toNat % 65536]) ∧
  (∀ a : Answer, a.data.length ≤ 8 → (∀ k, a.firstHeader = some k → k ≤ 7) →
     let code := match a.code with
       | .ok => 0x00
       | .clamped => 0x01
       | .busy => 0x02
       | .protectedGroup => 0x03
       | .engaged => 0x04
       | .mode => 0x05
       | .badValue => 0x06
       | .badRequest => 0x07
       | .noEntry => 0x08
       | .duplicate => 0x09
       | .conflict => 0x0A
       | .tripped => 0x0B
       | .notTripped => 0x0C
       | .cause => 0x0D
       | .gap => 0x0E
       | .keyOff => 0x0F
       | .link => 0x10
       | .idle => 0x11
     a.block.map (·.toNat) =
       [256 * a.tag.toNat + a.kind.toNat, 256 * code + a.data.length] ++
       (if a.kind = 1 then [match a.firstHeader with | some k => k | none => 0xFFFF] else []) ++
       (a.data.flatMap fun w => [w.toNat / 65536, w.toNat % 65536]) ∧
     a.block.length = 2 + 2 * a.data.length + (if a.kind = 1 then 1 else 0))

/-! ### Invariants that every step keeps -/

/-- R181, with the reset values of R1, R64, R133, R151, R165 and R192: the state after reset meets every invariant. -/
def Obligations.ResetMeetsInvariants : Prop :=
  RingOk State.reset ∧ QueuesOk State.reset ∧ ModeOk State.reset ∧ AddressesOk State.reset ∧
  SettingsOk State.reset ∧ TripLineOk State.reset ∧ TripsOk State.reset ∧ RunnersOk State.reset ∧ TrimsOk State.reset

/-- R31, R151: no step lets a forwarding queue hold more than 256 symbols, the ring more than 8,192 words, or its
positions part from its used count. -/
def Obligations.RingAndQueuesKept : Prop :=
  ∀ s t : State, RingOk s → QueuesOk s → step s = .next t → RingOk t ∧ QueuesOk t

/-- R2, R3, R181 to R184, R187, R190: every step keeps the relay, the mode, the key and the strap address in agreement,
and the valid sections at distinct addresses from 1 to 62 that are not the strap address. -/
def Obligations.ModeAndAddressesKept : Prop :=
  ∀ s t : State, ModeOk s → AddressesOk s → step s = .next t → ModeOk t ∧ AddressesOk t

/-- R5, R44, R66, R67, R193, R203: every step keeps every stored setting in its range. -/
def Obligations.SettingsKept : Prop :=
  ∀ s t : State, SettingsOk s → step s = .next t → SettingsOk t

/-- R3, R66, R88, R89, R90, R103, R116, R134, R135, R145: every step keeps the members of each valid set valid, in one
set and in one trip state, a TRIPPED section valid and recorded, and the runners' bindings disjoint, valid and running
only while ENGAGED. -/
def Obligations.TripsAndRunnersKept : Prop :=
  ∀ s t : State, TripsOk s → RunnersOk s → step s = .next t → TripsOk t ∧ RunnersOk t

/-- R19, R22, R75, R84, R102: after every step, while the bridge is not ENGAGED every applied trim and every load-share
trim is 0, and a frame in flight can no longer commit one; and the trip line is asserted exactly while the bridge is
ENGAGED and some section is TRIPPED under a cutoff action other than IGNORE. -/
def Obligations.TrimsAndTripLineKept : Prop :=
  ∀ s t : State, step s = .next t → (TrimsOk s → TrimsOk t) ∧ (TripLineOk s → TripLineOk t)
end

