-- ==== Sys2Proof/Laws/State.lean ====
section
/-! SUPPORT. One lemma per block per setter of the state: a setter changes its own block and no other. -/

namespace Sys2Proof.Machine

section
variable (s : State) (x : ModeControl)

@[simp] theorem State.setControl_control : (s.setControl x).control = x := rfl
@[simp] theorem State.setControl_table : (s.setControl x).table = s.table := rfl
@[simp] theorem State.setControl_rewriter : (s.setControl x).rewriter = s.rewriter := rfl
@[simp] theorem State.setControl_link : (s.setControl x).link = s.link := rfl
@[simp] theorem State.setControl_banks : (s.setControl x).banks = s.banks := rfl
@[simp] theorem State.setControl_share : (s.setControl x).share = s.share := rfl
@[simp] theorem State.setControl_trips : (s.setControl x).trips = s.trips := rfl
@[simp] theorem State.setControl_program : (s.setControl x).program = s.program := rfl
@[simp] theorem State.setControl_runners : (s.setControl x).runners = s.runners := rfl
@[simp] theorem State.setControl_ring : (s.setControl x).ring = s.ring := rfl
@[simp] theorem State.setControl_service : (s.setControl x).service = s.service := rfl
@[simp] theorem State.setControl_events : (s.setControl x).events = s.events := rfl
@[simp] theorem State.setControl_clock : (s.setControl x).clock = s.clock := rfl
@[simp] theorem State.setControl_pending : (s.setControl x).pending = s.pending := rfl

end

section
variable (s : State) (x : Table SectionSettings 32)

@[simp] theorem State.setTable_control : (s.setTable x).control = s.control := rfl
@[simp] theorem State.setTable_table : (s.setTable x).table = x := rfl
@[simp] theorem State.setTable_rewriter : (s.setTable x).rewriter = s.rewriter := rfl
@[simp] theorem State.setTable_link : (s.setTable x).link = s.link := rfl
@[simp] theorem State.setTable_banks : (s.setTable x).banks = s.banks := rfl
@[simp] theorem State.setTable_share : (s.setTable x).share = s.share := rfl
@[simp] theorem State.setTable_trips : (s.setTable x).trips = s.trips := rfl
@[simp] theorem State.setTable_program : (s.setTable x).program = s.program := rfl
@[simp] theorem State.setTable_runners : (s.setTable x).runners = s.runners := rfl
@[simp] theorem State.setTable_ring : (s.setTable x).ring = s.ring := rfl
@[simp] theorem State.setTable_service : (s.setTable x).service = s.service := rfl
@[simp] theorem State.setTable_events : (s.setTable x).events = s.events := rfl
@[simp] theorem State.setTable_clock : (s.setTable x).clock = s.clock := rfl
@[simp] theorem State.setTable_pending : (s.setTable x).pending = s.pending := rfl

end

section
variable (s : State) (x : Rewriter)

@[simp] theorem State.setRewriter_control : (s.setRewriter x).control = s.control := rfl
@[simp] theorem State.setRewriter_table : (s.setRewriter x).table = s.table := rfl
@[simp] theorem State.setRewriter_rewriter : (s.setRewriter x).rewriter = x := rfl
@[simp] theorem State.setRewriter_link : (s.setRewriter x).link = s.link := rfl
@[simp] theorem State.setRewriter_banks : (s.setRewriter x).banks = s.banks := rfl
@[simp] theorem State.setRewriter_share : (s.setRewriter x).share = s.share := rfl
@[simp] theorem State.setRewriter_trips : (s.setRewriter x).trips = s.trips := rfl
@[simp] theorem State.setRewriter_program : (s.setRewriter x).program = s.program := rfl
@[simp] theorem State.setRewriter_runners : (s.setRewriter x).runners = s.runners := rfl
@[simp] theorem State.setRewriter_ring : (s.setRewriter x).ring = s.ring := rfl
@[simp] theorem State.setRewriter_service : (s.setRewriter x).service = s.service := rfl
@[simp] theorem State.setRewriter_events : (s.setRewriter x).events = s.events := rfl
@[simp] theorem State.setRewriter_clock : (s.setRewriter x).clock = s.clock := rfl
@[simp] theorem State.setRewriter_pending : (s.setRewriter x).pending = s.pending := rfl

end

section
variable (s : State) (x : Link)

@[simp] theorem State.setLink_control : (s.setLink x).control = s.control := rfl
@[simp] theorem State.setLink_table : (s.setLink x).table = s.table := rfl
@[simp] theorem State.setLink_rewriter : (s.setLink x).rewriter = s.rewriter := rfl
@[simp] theorem State.setLink_link : (s.setLink x).link = x := rfl
@[simp] theorem State.setLink_banks : (s.setLink x).banks = s.banks := rfl
@[simp] theorem State.setLink_share : (s.setLink x).share = s.share := rfl
@[simp] theorem State.setLink_trips : (s.setLink x).trips = s.trips := rfl
@[simp] theorem State.setLink_program : (s.setLink x).program = s.program := rfl
@[simp] theorem State.setLink_runners : (s.setLink x).runners = s.runners := rfl
@[simp] theorem State.setLink_ring : (s.setLink x).ring = s.ring := rfl
@[simp] theorem State.setLink_service : (s.setLink x).service = s.service := rfl
@[simp] theorem State.setLink_events : (s.setLink x).events = s.events := rfl
@[simp] theorem State.setLink_clock : (s.setLink x).clock = s.clock := rfl
@[simp] theorem State.setLink_pending : (s.setLink x).pending = s.pending := rfl

end

section
variable (s : State) (x : Banks)

@[simp] theorem State.setBanks_control : (s.setBanks x).control = s.control := rfl
@[simp] theorem State.setBanks_table : (s.setBanks x).table = s.table := rfl
@[simp] theorem State.setBanks_rewriter : (s.setBanks x).rewriter = s.rewriter := rfl
@[simp] theorem State.setBanks_link : (s.setBanks x).link = s.link := rfl
@[simp] theorem State.setBanks_banks : (s.setBanks x).banks = x := rfl
@[simp] theorem State.setBanks_share : (s.setBanks x).share = s.share := rfl
@[simp] theorem State.setBanks_trips : (s.setBanks x).trips = s.trips := rfl
@[simp] theorem State.setBanks_program : (s.setBanks x).program = s.program := rfl
@[simp] theorem State.setBanks_runners : (s.setBanks x).runners = s.runners := rfl
@[simp] theorem State.setBanks_ring : (s.setBanks x).ring = s.ring := rfl
@[simp] theorem State.setBanks_service : (s.setBanks x).service = s.service := rfl
@[simp] theorem State.setBanks_events : (s.setBanks x).events = s.events := rfl
@[simp] theorem State.setBanks_clock : (s.setBanks x).clock = s.clock := rfl
@[simp] theorem State.setBanks_pending : (s.setBanks x).pending = s.pending := rfl

end

section
variable (s : State) (x : ShareUnit)

@[simp] theorem State.setShare_control : (s.setShare x).control = s.control := rfl
@[simp] theorem State.setShare_table : (s.setShare x).table = s.table := rfl
@[simp] theorem State.setShare_rewriter : (s.setShare x).rewriter = s.rewriter := rfl
@[simp] theorem State.setShare_link : (s.setShare x).link = s.link := rfl
@[simp] theorem State.setShare_banks : (s.setShare x).banks = s.banks := rfl
@[simp] theorem State.setShare_share : (s.setShare x).share = x := rfl
@[simp] theorem State.setShare_trips : (s.setShare x).trips = s.trips := rfl
@[simp] theorem State.setShare_program : (s.setShare x).program = s.program := rfl
@[simp] theorem State.setShare_runners : (s.setShare x).runners = s.runners := rfl
@[simp] theorem State.setShare_ring : (s.setShare x).ring = s.ring := rfl
@[simp] theorem State.setShare_service : (s.setShare x).service = s.service := rfl
@[simp] theorem State.setShare_events : (s.setShare x).events = s.events := rfl
@[simp] theorem State.setShare_clock : (s.setShare x).clock = s.clock := rfl
@[simp] theorem State.setShare_pending : (s.setShare x).pending = s.pending := rfl

end

section
variable (s : State) (x : TripUnit)

@[simp] theorem State.setTrips_control : (s.setTrips x).control = s.control := rfl
@[simp] theorem State.setTrips_table : (s.setTrips x).table = s.table := rfl
@[simp] theorem State.setTrips_rewriter : (s.setTrips x).rewriter = s.rewriter := rfl
@[simp] theorem State.setTrips_link : (s.setTrips x).link = s.link := rfl
@[simp] theorem State.setTrips_banks : (s.setTrips x).banks = s.banks := rfl
@[simp] theorem State.setTrips_share : (s.setTrips x).share = s.share := rfl
@[simp] theorem State.setTrips_trips : (s.setTrips x).trips = x := rfl
@[simp] theorem State.setTrips_program : (s.setTrips x).program = s.program := rfl
@[simp] theorem State.setTrips_runners : (s.setTrips x).runners = s.runners := rfl
@[simp] theorem State.setTrips_ring : (s.setTrips x).ring = s.ring := rfl
@[simp] theorem State.setTrips_service : (s.setTrips x).service = s.service := rfl
@[simp] theorem State.setTrips_events : (s.setTrips x).events = s.events := rfl
@[simp] theorem State.setTrips_clock : (s.setTrips x).clock = s.clock := rfl
@[simp] theorem State.setTrips_pending : (s.setTrips x).pending = s.pending := rfl

end

section
variable (s : State) (x : Table StepRecord 512)

@[simp] theorem State.setProgram_control : (s.setProgram x).control = s.control := rfl
@[simp] theorem State.setProgram_table : (s.setProgram x).table = s.table := rfl
@[simp] theorem State.setProgram_rewriter : (s.setProgram x).rewriter = s.rewriter := rfl
@[simp] theorem State.setProgram_link : (s.setProgram x).link = s.link := rfl
@[simp] theorem State.setProgram_banks : (s.setProgram x).banks = s.banks := rfl
@[simp] theorem State.setProgram_share : (s.setProgram x).share = s.share := rfl
@[simp] theorem State.setProgram_trips : (s.setProgram x).trips = s.trips := rfl
@[simp] theorem State.setProgram_program : (s.setProgram x).program = x := rfl
@[simp] theorem State.setProgram_runners : (s.setProgram x).runners = s.runners := rfl
@[simp] theorem State.setProgram_ring : (s.setProgram x).ring = s.ring := rfl
@[simp] theorem State.setProgram_service : (s.setProgram x).service = s.service := rfl
@[simp] theorem State.setProgram_events : (s.setProgram x).events = s.events := rfl
@[simp] theorem State.setProgram_clock : (s.setProgram x).clock = s.clock := rfl
@[simp] theorem State.setProgram_pending : (s.setProgram x).pending = s.pending := rfl

end

section
variable (s : State) (x : RunnerBlock)

@[simp] theorem State.setRunners_control : (s.setRunners x).control = s.control := rfl
@[simp] theorem State.setRunners_table : (s.setRunners x).table = s.table := rfl
@[simp] theorem State.setRunners_rewriter : (s.setRunners x).rewriter = s.rewriter := rfl
@[simp] theorem State.setRunners_link : (s.setRunners x).link = s.link := rfl
@[simp] theorem State.setRunners_banks : (s.setRunners x).banks = s.banks := rfl
@[simp] theorem State.setRunners_share : (s.setRunners x).share = s.share := rfl
@[simp] theorem State.setRunners_trips : (s.setRunners x).trips = s.trips := rfl
@[simp] theorem State.setRunners_program : (s.setRunners x).program = s.program := rfl
@[simp] theorem State.setRunners_runners : (s.setRunners x).runners = x := rfl
@[simp] theorem State.setRunners_ring : (s.setRunners x).ring = s.ring := rfl
@[simp] theorem State.setRunners_service : (s.setRunners x).service = s.service := rfl
@[simp] theorem State.setRunners_events : (s.setRunners x).events = s.events := rfl
@[simp] theorem State.setRunners_clock : (s.setRunners x).clock = s.clock := rfl
@[simp] theorem State.setRunners_pending : (s.setRunners x).pending = s.pending := rfl

end

section
variable (s : State) (x : Ring)

@[simp] theorem State.setRing_control : (s.setRing x).control = s.control := rfl
@[simp] theorem State.setRing_table : (s.setRing x).table = s.table := rfl
@[simp] theorem State.setRing_rewriter : (s.setRing x).rewriter = s.rewriter := rfl
@[simp] theorem State.setRing_link : (s.setRing x).link = s.link := rfl
@[simp] theorem State.setRing_banks : (s.setRing x).banks = s.banks := rfl
@[simp] theorem State.setRing_share : (s.setRing x).share = s.share := rfl
@[simp] theorem State.setRing_trips : (s.setRing x).trips = s.trips := rfl
@[simp] theorem State.setRing_program : (s.setRing x).program = s.program := rfl
@[simp] theorem State.setRing_runners : (s.setRing x).runners = s.runners := rfl
@[simp] theorem State.setRing_ring : (s.setRing x).ring = x := rfl
@[simp] theorem State.setRing_service : (s.setRing x).service = s.service := rfl
@[simp] theorem State.setRing_events : (s.setRing x).events = s.events := rfl
@[simp] theorem State.setRing_clock : (s.setRing x).clock = s.clock := rfl
@[simp] theorem State.setRing_pending : (s.setRing x).pending = s.pending := rfl

end

section
variable (s : State) (x : ServiceUnit)

@[simp] theorem State.setService_control : (s.setService x).control = s.control := rfl
@[simp] theorem State.setService_table : (s.setService x).table = s.table := rfl
@[simp] theorem State.setService_rewriter : (s.setService x).rewriter = s.rewriter := rfl
@[simp] theorem State.setService_link : (s.setService x).link = s.link := rfl
@[simp] theorem State.setService_banks : (s.setService x).banks = s.banks := rfl
@[simp] theorem State.setService_share : (s.setService x).share = s.share := rfl
@[simp] theorem State.setService_trips : (s.setService x).trips = s.trips := rfl
@[simp] theorem State.setService_program : (s.setService x).program = s.program := rfl
@[simp] theorem State.setService_runners : (s.setService x).runners = s.runners := rfl
@[simp] theorem State.setService_ring : (s.setService x).ring = s.ring := rfl
@[simp] theorem State.setService_service : (s.setService x).service = x := rfl
@[simp] theorem State.setService_events : (s.setService x).events = s.events := rfl
@[simp] theorem State.setService_clock : (s.setService x).clock = s.clock := rfl
@[simp] theorem State.setService_pending : (s.setService x).pending = s.pending := rfl

end

section
variable (s : State) (x : EventUnit)

@[simp] theorem State.setEvents_control : (s.setEvents x).control = s.control := rfl
@[simp] theorem State.setEvents_table : (s.setEvents x).table = s.table := rfl
@[simp] theorem State.setEvents_rewriter : (s.setEvents x).rewriter = s.rewriter := rfl
@[simp] theorem State.setEvents_link : (s.setEvents x).link = s.link := rfl
@[simp] theorem State.setEvents_banks : (s.setEvents x).banks = s.banks := rfl
@[simp] theorem State.setEvents_share : (s.setEvents x).share = s.share := rfl
@[simp] theorem State.setEvents_trips : (s.setEvents x).trips = s.trips := rfl
@[simp] theorem State.setEvents_program : (s.setEvents x).program = s.program := rfl
@[simp] theorem State.setEvents_runners : (s.setEvents x).runners = s.runners := rfl
@[simp] theorem State.setEvents_ring : (s.setEvents x).ring = s.ring := rfl
@[simp] theorem State.setEvents_service : (s.setEvents x).service = s.service := rfl
@[simp] theorem State.setEvents_events : (s.setEvents x).events = x := rfl
@[simp] theorem State.setEvents_clock : (s.setEvents x).clock = s.clock := rfl
@[simp] theorem State.setEvents_pending : (s.setEvents x).pending = s.pending := rfl

end

section
variable (s : State) (x : Clock)

@[simp] theorem State.setClock_control : (s.setClock x).control = s.control := rfl
@[simp] theorem State.setClock_table : (s.setClock x).table = s.table := rfl
@[simp] theorem State.setClock_rewriter : (s.setClock x).rewriter = s.rewriter := rfl
@[simp] theorem State.setClock_link : (s.setClock x).link = s.link := rfl
@[simp] theorem State.setClock_banks : (s.setClock x).banks = s.banks := rfl
@[simp] theorem State.setClock_share : (s.setClock x).share = s.share := rfl
@[simp] theorem State.setClock_trips : (s.setClock x).trips = s.trips := rfl
@[simp] theorem State.setClock_program : (s.setClock x).program = s.program := rfl
@[simp] theorem State.setClock_runners : (s.setClock x).runners = s.runners := rfl
@[simp] theorem State.setClock_ring : (s.setClock x).ring = s.ring := rfl
@[simp] theorem State.setClock_service : (s.setClock x).service = s.service := rfl
@[simp] theorem State.setClock_events : (s.setClock x).events = s.events := rfl
@[simp] theorem State.setClock_clock : (s.setClock x).clock = x := rfl
@[simp] theorem State.setClock_pending : (s.setClock x).pending = s.pending := rfl

end

section
variable (s : State) (x : List Instr)

@[simp] theorem State.setPending_control : (s.setPending x).control = s.control := rfl
@[simp] theorem State.setPending_table : (s.setPending x).table = s.table := rfl
@[simp] theorem State.setPending_rewriter : (s.setPending x).rewriter = s.rewriter := rfl
@[simp] theorem State.setPending_link : (s.setPending x).link = s.link := rfl
@[simp] theorem State.setPending_banks : (s.setPending x).banks = s.banks := rfl
@[simp] theorem State.setPending_share : (s.setPending x).share = s.share := rfl
@[simp] theorem State.setPending_trips : (s.setPending x).trips = s.trips := rfl
@[simp] theorem State.setPending_program : (s.setPending x).program = s.program := rfl
@[simp] theorem State.setPending_runners : (s.setPending x).runners = s.runners := rfl
@[simp] theorem State.setPending_ring : (s.setPending x).ring = s.ring := rfl
@[simp] theorem State.setPending_service : (s.setPending x).service = s.service := rfl
@[simp] theorem State.setPending_events : (s.setPending x).events = s.events := rfl
@[simp] theorem State.setPending_clock : (s.setPending x).clock = s.clock := rfl
@[simp] theorem State.setPending_pending : (s.setPending x).pending = x := rfl

end

end Sys2Proof.Machine
end

