-- ==== Sys2Proof/Laws/Frames.lean ====
section
/-! SUPPORT. Which blocks each shared operation can change: one frame lemma per operation. -/

namespace Sys2Proof.Machine

variable {s t u : State} {as bs : List Block}

/-! ### The calculus of frames -/

@[refl] theorem SameExcept.refl : SameExcept bs s s := ⟨fun b _ => by cases b <;> rfl⟩

theorem sameBlock_trans {b : Block} (h : sameBlock b s t) (k : sameBlock b t u) : sameBlock b s u := by
  cases b <;> exact Eq.trans k h

theorem SameExcept.trans (h : SameExcept bs s t) (k : SameExcept bs t u) : SameExcept bs s u :=
  ⟨fun b hb => sameBlock_trans (h.same b hb) (k.same b hb)⟩

theorem SameExcept.mono (h : SameExcept as s t) (hs : ∀ b ∈ as, b ∈ bs := by decide) : SameExcept bs s t :=
  ⟨fun b hb => h.same b fun hb' => hb (hs b hb')⟩

/-- One operation with a smaller frame taken after another. -/
theorem SameExcept.step (h : SameExcept bs s t) (k : SameExcept as t u) (hs : ∀ b ∈ as, b ∈ bs := by decide) :
    SameExcept bs s u := h.trans (k.mono hs)

theorem SameExcept.ite {c : Prop} [Decidable c] (h : SameExcept bs s t) (k : SameExcept bs s u) :
    SameExcept bs s (if c then t else u) := by
  split
  · exact h
  · exact k

theorem SameExcept.forEach {α : Type} {f : α → State → State} (h : ∀ a t, SameExcept bs t (f a t)) (l : List α) :
    SameExcept bs s (forEach l f s) := by
  induction l generalizing s with
  | nil => exact .refl
  | cons a l ih => exact (h a s).trans ih

/-! ### Setters -/

theorem setControl_frame (x : ModeControl) : SameExcept [.control] s (s.setControl x) := ⟨fun b hb => by
  cases b <;> first | rfl | simp at hb⟩
theorem setTable_frame (x : Table SectionSettings 32) : SameExcept [.table] s (s.setTable x) := ⟨fun b hb => by
  cases b <;> first | rfl | simp at hb⟩
theorem setRewriter_frame (x : Rewriter) : SameExcept [.rewriter] s (s.setRewriter x) := ⟨fun b hb => by
  cases b <;> first | rfl | simp at hb⟩
theorem setLink_frame (x : Link) : SameExcept [.link] s (s.setLink x) := ⟨fun b hb => by
  cases b <;> first | rfl | simp at hb⟩
theorem setBanks_frame (x : Banks) : SameExcept [.banks] s (s.setBanks x) := ⟨fun b hb => by
  cases b <;> first | rfl | simp at hb⟩
theorem setShare_frame (x : ShareUnit) : SameExcept [.share] s (s.setShare x) := ⟨fun b hb => by
  cases b <;> first | rfl | simp at hb⟩
theorem setTrips_frame (x : TripUnit) : SameExcept [.trips] s (s.setTrips x) := ⟨fun b hb => by
  cases b <;> first | rfl | simp at hb⟩
theorem setProgram_frame (x : Table StepRecord 512) : SameExcept [.program] s (s.setProgram x) := ⟨fun b hb => by
  cases b <;> first | rfl | simp at hb⟩
theorem setRunners_frame (x : RunnerBlock) : SameExcept [.runners] s (s.setRunners x) := ⟨fun b hb => by
  cases b <;> first | rfl | simp at hb⟩
theorem setRing_frame (x : Ring) : SameExcept [.ring] s (s.setRing x) := ⟨fun b hb => by
  cases b <;> first | rfl | simp at hb⟩
theorem setService_frame (x : ServiceUnit) : SameExcept [.service] s (s.setService x) := ⟨fun b hb => by
  cases b <;> first | rfl | simp at hb⟩
theorem setEvents_frame (x : EventUnit) : SameExcept [.events] s (s.setEvents x) := ⟨fun b hb => by
  cases b <;> first | rfl | simp at hb⟩
theorem setClock_frame (x : Clock) : SameExcept [.clock] s (s.setClock x) := ⟨fun b hb => by
  cases b <;> first | rfl | simp at hb⟩

/-! ### Operations over one block -/

theorem raise_frame (e : Event) : SameExcept [.events] s (raise e s) := setEvents_frame _

theorem raiseIf_frame (b : Bool) (e : Event) : SameExcept [.events] s (raiseIf b e s) := .ite (raise_frame _) .refl
theorem advanceTo_frame (k : Nat) : SameExcept [.clock] s (advanceTo k s) := setClock_frame _
theorem passTick_frame : SameExcept [.clock] s (passTick s) := setClock_frame _
theorem takeChoice_frame : SameExcept [.clock] s (takeChoice s).2 := setClock_frame _
theorem setRunner_frame (r : Fin 4) (c : Runner) : SameExcept [.runners] s (setRunner r c s) := setRunners_frame _
theorem setSyncMark_frame (m : Fin 8) (b : Bool) : SameExcept [.runners] s (setSyncMark m b s) := setRunners_frame _
theorem setRw_frame (i : Fin 32) (x : RewriteStatus) : SameExcept [.rewriter] s (setRw i x s) := setRewriter_frame _
theorem setTrimMarked_frame (i : Fin 32) (x : Word) : SameExcept [.rewriter] s (setTrimMarked i x s) := setRw_frame ..
theorem setSh_frame (i : Fin 32) (x : ShareStatus) : SameExcept [.share] s (setSh i x s) := setShare_frame _
theorem setShareTrim_frame (i : Fin 32) (x : Word) : SameExcept [.share] s (setShareTrim i x s) := setSh_frame ..
theorem setImbalance_frame (i : Fin 32) (n : BitVec 8) : SameExcept [.share] s (setImbalance i n s) := setSh_frame ..
theorem setCounts_frame (i : Fin 32) (x : FeedbackCounts) : SameExcept [.banks] s (setCounts i x s) := setBanks_frame _
theorem setDeviation_frame (i : Fin 32) (n : BitVec 8) : SameExcept [.banks] s (setDeviation i n s) := setCounts_frame ..
theorem setMissing_frame (i : Fin 32) (n : BitVec 8) : SameExcept [.banks] s (setMissing i n s) := setCounts_frame ..
theorem setTp_frame (i : Fin 32) (x : TripStatus) : SameExcept [.trips] s (setTp i x s) := setTrips_frame _
theorem setSetStatus_frame (k : Fin 8) (x : SetStatus) : SameExcept [.share] s (setSetStatus k x s) :=
  setShare_frame _
theorem setReceiver_frame (p : Port) (x : Receiver) : SameExcept [.link] s (setReceiver p x s) := by
  cases p <;> exact setLink_frame _
theorem setTransmitter_frame (p : Port) (x : Transmitter) : SameExcept [.link] s (setTransmitter p x s) := by
  cases p <;> exact setLink_frame _
theorem freeWords_frame (n : Nat) : SameExcept [.ring] s (freeWords n s) := setRing_frame _
theorem emptyRing_frame : SameExcept [.ring] s (emptyRing s) := setRing_frame _

theorem produceRecord_frame (ws : List Word) : SameExcept [.ring, .events] s (produceRecord ws s) := by
  unfold produceRecord
  exact .ite (SameExcept.refl.step (setRing_frame _)) ((SameExcept.refl.step (setRing_frame _)).step (raise_frame _))

/-! ### Rewriter -/

theorem takeSnapshot_frame : SameExcept [.rewriter] s (takeSnapshot s) := setRewriter_frame _
theorem noteTreated_frame (i : Fin 32) (c : Commit) : SameExcept [.rewriter] s (noteTreated i c s) :=
  setRewriter_frame _
theorem dropTreated_frame : SameExcept [.rewriter] s (dropTreated s) := setRewriter_frame _
theorem commitFrame_frame : SameExcept [.rewriter] s (commitFrame s) :=
  (setRewriter_frame _).trans dropTreated_frame
theorem zeroTrims_frame (b : Bool) : SameExcept [.rewriter] s (zeroTrims b s) := setRewriter_frame _

/-! ### Trip unit -/

theorem produceIf_frame (b : Bool) (ws : List Word) : SameExcept [.ring, .events] s (produceIf b ws s) :=
  .ite (produceRecord_frame ws) .refl

/-- The blocks that a runner's leaving can change (R143). -/
def leaveBlocks : List Block := [.runners, .ring, .events]

theorem leaveRunner_frame (c : BitVec 16) (r : Fin 4) (how : Leaving) :
    SameExcept leaveBlocks s (leaveRunner c r how s) :=
  ((SameExcept.refl.step (produceIf_frame ..)).step (setRunner_frame ..)).step (raise_frame _)

theorem handOffTo_frame (c : BitVec 16) (is : List (Fin 32)) (r : Fin 4) :
    SameExcept leaveBlocks s (handOffTo c is r s) := by
  have h : SameExcept leaveBlocks s
      (forEach (is.filter fun i => decide (i ∈ (s.runner r).slots))
        (fun i s' => produceIf (s.runner r).recording (tripRecordWords r (s.runner r) s c i) s') s) :=
    .forEach (fun _ _ => (produceIf_frame ..).mono) _
  exact .ite (.ite (h.trans (leaveRunner_frame ..)) h) .refl

theorem handOff_frame (c : BitVec 16) (is : List (Fin 32)) : SameExcept leaveBlocks s (handOff c is s) :=
  .forEach (fun _ _ => handOffTo_frame ..) _

theorem setTripLine_frame : SameExcept [.trips] s (setTripLine s) := setTrips_frame _
theorem latchTrip_frame (c : TripCause) (i : Fin 32) : SameExcept [.trips] s (latchTrip c i s) := setTp_frame ..
theorem addLaterCause_frame (c : TripCause) (i : Fin 32) : SameExcept [.trips] s (addLaterCause c i s) :=
  setTp_frame ..
theorem peerTrip_frame (i : Fin 32) : SameExcept [.trips] s (peerTrip i s) :=
  .ite (addLaterCause_frame ..) (latchTrip_frame ..)

theorem cutBack_frame (i : Fin 32) : SameExcept [.rewriter, .banks, .share] s (cutBack i s) := by
  have h : SameExcept [.rewriter, .banks, .share] s
      (if (s.settings i).cutoff = .ignore then s else setTrimMarked i 0 (setShareTrim i 0 s)) :=
    .ite .refl ((SameExcept.refl.step (setShareTrim_frame ..)).step (setTrimMarked_frame ..))
  exact (h.step (setImbalance_frame ..)).step (setDeviation_frame ..)

theorem haltSetOf_frame (i : Fin 32) : SameExcept [.share] s (haltSetOf i s) := by
  unfold haltSetOf
  split
  · exact .refl
  · exact setSetStatus_frame ..

theorem tripAction_frame (c : BitVec 16) (cause : TripCause) (i : Fin 32) :
    SameExcept tripBlocks s (tripAction c cause i s) := by
  have h1 : SameExcept tripBlocks s (forEach (s.peersOf i) peerTrip (latchTrip cause i s)) :=
    (SameExcept.refl.step (latchTrip_frame ..)).trans (.forEach (fun _ _ => (peerTrip_frame _).mono) _)
  have h2 : SameExcept tripBlocks s
      (forEach (s.movedBy i) cutBack (forEach (s.peersOf i) peerTrip (latchTrip cause i s))) :=
    h1.trans (.forEach (fun _ _ => (cutBack_frame _).mono) _)
  exact (((h2.step (haltSetOf_frame _)).step (raise_frame _)).step (handOff_frame ..)).step setTripLine_frame

theorem tripSection_frame (c : BitVec 16) (cause : TripCause) (i : Fin 32) :
    SameExcept tripBlocks s (tripSection c cause i s) :=
  .ite ((addLaterCause_frame ..).mono) (tripAction_frame ..)

theorem tripAll_frame (c : BitVec 16) (cause : TripCause) (is : List (Fin 32)) :
    SameExcept tripBlocks s (tripAll c cause is s) :=
  .forEach (fun _ _ => tripSection_frame ..) _

/-- The blocks that level trips can change: with two rules at once an open choice is taken (log 8). -/
def levelBlocks : List Block := [.rewriter, .banks, .share, .trips, .runners, .ring, .events, .clock]

theorem levelTrips_frame (c : BitVec 16) (brk lnk : List (Fin 32)) :
    SameExcept levelBlocks s (levelTrips c brk lnk s) := by
  unfold levelTrips
  exact .ite ((tripAll_frame ..).mono) (.ite ((tripAll_frame ..).mono)
    (.ite
      (((SameExcept.refl.step takeChoice_frame).step (tripAll_frame ..)).step (tripAll_frame ..))
      (((SameExcept.refl.step takeChoice_frame).step (tripAll_frame ..)).step (tripAll_frame ..))))

/-! ### Share unit and supervision -/

theorem correctMember_frame (cfg : SetSettings) (ref : Int) (m : Fin 6 × Fin 32) :
    SameExcept [.share] s (correctMember cfg ref m s) := .ite (setShareTrim_frame ..) .refl

theorem shareSharing_frame (k : Fin 8) : SameExcept tripBlocks s (shareSharing k s) := by
  unfold shareSharing
  have h1 := fun x : SetStatus => (SameExcept.refl (bs := tripBlocks) (s := s)).step (setSetStatus_frame k x)
  exact ((((h1 _).trans (.forEach (fun _ _ => (correctMember_frame ..).mono) _)).trans
    (.forEach (fun _ _ => (setImbalance_frame ..).mono) _)).trans (tripAll_frame ..)).step (setSetStatus_frame ..)

theorem shareDegraded_frame (k : Fin 8) : SameExcept [.share, .events] s (shareDegraded k s) := by
  have h := (SameExcept.refl (bs := [.share, .events]) (s := s)).step (setSetStatus_frame k
    { state := .degraded
      contributing := ((s.share.sets.get k).positions.filter fun m => s.observed m.2).length
      lastRef := 0, lastErr := Table.replicate 6 none, settled := false })
  have h2 := h.trans (.forEach (f := fun i s' => setImbalance i 0 s') (fun _ _ => (setImbalance_frame ..).mono)
    (s.share.sets.get k).memberList)
  exact .ite (h2.step (raise_frame _)) h2

theorem shareHalted_frame (k : Fin 8) : SameExcept [.share] s (shareHalted k s) :=
  .ite (setSetStatus_frame ..) (setSetStatus_frame ..)

theorem shareSet_frame (k : Fin 8) : SameExcept tripBlocks s (shareSet k s) := by
  unfold shareSet
  exact .ite (.ite ((shareHalted_frame _).mono) (.ite .refl (.ite ((shareDegraded_frame _).mono)
    (shareSharing_frame _)))) .refl

theorem shareReportClose_frame : SameExcept tripBlocks s (shareReportClose s) :=
  .ite (.forEach (fun _ _ => shareSet_frame _) _) .refl

theorem resetShare_frame (b : Bool) : SameExcept [.share] s (resetShare b s) := setShare_frame _
theorem clampShare_frame (n : Nat) (i : Fin 32) : SameExcept [.share] s (clampShare n i s) := setShareTrim_frame ..

theorem captureEntry_frame (a : LinkWord) (f : Feedback) : SameExcept [.banks] s (captureEntry a f s) := by
  unfold captureEntry
  split
  · exact .refl
  · exact setBanks_frame _

theorem exchangeBanks_frame : SameExcept [.banks] s (exchangeBanks s) := setBanks_frame _
theorem clearFill_frame : SameExcept [.banks] s (clearFill s) := setBanks_frame _
theorem countMissingClose_frame : SameExcept [.banks] s (countMissingClose s) := setBanks_frame _
theorem countMissingFail_frame : SameExcept [.banks] s (countMissingFail s) := setBanks_frame _
theorem zeroCounts_frame : SameExcept [.banks] s (zeroCounts s) := setBanks_frame _

theorem feedbackTest_frame (c : BitVec 16) (i : Fin 32) : SameExcept tripBlocks s (feedbackTest c i s) :=
  .ite (tripSection_frame ..) .refl

theorem superviseClose_frame (c : BitVec 16) (i : Fin 32) : SameExcept tripBlocks s (superviseClose c i s) := by
  have h := (SameExcept.refl (bs := tripBlocks) (s := s)).step (setDeviation_frame i (s.deviationCount i))
  unfold superviseClose
  exact .ite
    (.ite (.ite ((h.trans (tripSection_frame ..)).step (addLaterCause_frame ..)) (h.trans (tripSection_frame ..)))
      (.ite (h.trans (tripSection_frame ..)) (h.trans (feedbackTest_frame ..))))
    ((setDeviation_frame ..).mono)

theorem superviseFail_frame (c : BitVec 16) (i : Fin 32) : SameExcept tripBlocks s (superviseFail c i s) :=
  .ite (feedbackTest_frame ..) .refl

theorem bankReportClose_frame : SameExcept tripBlocks s (bankReportClose s) :=
  (((SameExcept.refl.step exchangeBanks_frame).step countMissingClose_frame).trans shareReportClose_frame).trans
    (.forEach (fun _ _ => superviseClose_frame ..) _)

theorem bankReportFail_frame (c : BitVec 16) : SameExcept tripBlocks s (bankReportFail c s) :=
  ((SameExcept.refl.step clearFill_frame).step countMissingFail_frame).trans
    (.forEach (fun _ _ => superviseFail_frame ..) _)

/-! ### Runners -/

theorem faultRunner_frame (ctx : CloseCtx) (r : Fin 4) (f : RunnerFault) :
    SameExcept leaveBlocks s (faultRunner ctx r f s) := leaveRunner_frame ..

theorem countedJump_frame (ctx : CloseCtx) (r : Fin 4) (a b : Nat) :
    SameExcept leaveBlocks s (countedJump ctx r a b s).1 := by
  unfold countedJump
  dsimp only
  split <;> split
  all_goals first
    | exact faultRunner_frame ..
    | exact (setRunner_frame ..).mono
    | (split
       · exact (setRunner_frame ..).mono
       · exact (setRunner_frame ..).mono)

theorem cutStep_frame (ctx : CloseCtx) (r : Fin 4) (k : Nat) : SameExcept tripBlocks s (cutStep ctx r k s).1 := by
  unfold cutStep
  split
  · exact .refl
  · exact tripSection_frame ..

theorem reachStep_frame (ctx : CloseCtx) (r : Fin 4) (op : StepOp) :
    SameExcept tripBlocks s (reachStep ctx r op s).1 := by
  cases op with
  | set v => exact (setRunner_frame ..).mono
  | ramp a b => exact (setRunner_frame ..).mono
  | dwell n => exact (setRunner_frame ..).mono
  | await k c n a =>
    simp only [reachStep]
    split
    · exact .refl
    · exact (setRunner_frame ..).mono
  | sync m n a =>
    simp only [reachStep]
    split
    · exact .refl
    · exact (setRunner_frame ..).mono
  | signal m b => exact (setSyncMark_frame ..).mono
  | jump a n =>
    simp only [reachStep]
    split
    · exact .refl
    · exact (countedJump_frame ..).mono
  | recordOn d => exact (setRunner_frame ..).mono
  | recordOff => exact (setRunner_frame ..).mono
  | mark v => exact (produceIf_frame ..).mono
  | cut k => exact cutStep_frame ..
  | finish c => exact (leaveRunner_frame ..).mono

theorem resumeWait_frame (ctx : CloseCtx) (r : Fin 4) (b : Bool) (n : Nat) (a : Option Nat) :
    SameExcept leaveBlocks s (resumeWait ctx r b n a s).1 := by
  unfold resumeWait
  dsimp only
  split
  · exact .refl
  · split
    · exact .refl
    · split
      · split
        · exact (setRunner_frame ..).mono
        · exact ((SameExcept.refl (bs := leaveBlocks)).step (setRunner_frame ..)).trans (faultRunner_frame ..)
      · exact (setRunner_frame ..).mono

theorem resumeStep_frame (ctx : CloseCtx) (r : Fin 4) (op : StepOp) :
    SameExcept tripBlocks s (resumeStep ctx r op s).1 := by
  cases op with
  | ramp a b => exact (setRunner_frame ..).mono
  | dwell n => exact (setRunner_frame ..).mono
  | await k c n a => exact (resumeWait_frame ..).mono
  | sync m n a => exact (resumeWait_frame ..).mono
  | _ => exact reachStep_frame ..

theorem takeSample_frame (ctx : CloseCtx) (r : Fin 4) : SameExcept leaveBlocks s (takeSample ctx r s) :=
  .ite (.ite ((SameExcept.refl.step (produceRecord_frame _)).step (setRunner_frame ..)) ((setRunner_frame ..).mono))
    .refl

theorem setStep_frame (r : Fin 4) (k : Nat) : SameExcept [.runners] s (setStep r k s) := setRunner_frame ..
theorem setRunnerState_frame (r : Fin 4) (x : RunnerState) : SameExcept [.runners] s (setRunnerState r x s) :=
  setRunner_frame ..

theorem runSteps_frame (ctx : CloseCtx) (r : Fin 4) (n : Nat) : SameExcept tripBlocks s (runSteps ctx r n s) := by
  induction n generalizing s with
  | zero => exact (faultRunner_frame ..).mono
  | succ n ih =>
    rw [runSteps]
    split
    · exact (faultRunner_frame ..).mono
    · next op _ =>
      have h := reachStep_frame (s := s) ctx r op
      split <;> rename_i e <;> rw [e] at h
      · exact (h.step (setStep_frame ..)).trans ih
      · exact (h.step (setStep_frame ..)).trans ih
      · exact h.step (setRunnerState_frame ..)
      · exact h

theorem resumeRunner_frame (ctx : CloseCtx) (r : Fin 4) : SameExcept tripBlocks s (resumeRunner ctx r s) := by
  rw [resumeRunner]
  split
  · exact (faultRunner_frame ..).mono
  · next op _ =>
    have h := resumeStep_frame (s := s) ctx r op
    split <;> rename_i e <;> rw [e] at h
    · exact (h.step (setStep_frame ..)).trans (runSteps_frame ..)
    · exact (h.step (setStep_frame ..)).trans (runSteps_frame ..)
    · exact h.step (setRunnerState_frame ..)
    · exact h

theorem advanceRunner_frame (ctx : CloseCtx) (r : Fin 4) : SameExcept tripBlocks s (advanceRunner ctx r s) := by
  rw [advanceRunner]
  split
  · exact (SameExcept.refl.step (takeSample_frame ..)).trans (runSteps_frame ..)
  · exact ((SameExcept.refl.step (takeSample_frame ..)).step (setRunnerState_frame ..)).trans (resumeRunner_frame ..)
  · exact .refl

theorem advanceAll_frame (ctx : CloseCtx) : SameExcept tripBlocks s (advanceAll ctx s) :=
  .forEach (fun _ _ => advanceRunner_frame ..) _

theorem disengageRunner_frame (c : BitVec 16) (r : Fin 4) : SameExcept leaveBlocks s (disengageRunner c r s) :=
  .ite (leaveRunner_frame ..) .refl

/-! ### Mode control -/

theorem setMode_frame (m : Mode) : SameExcept [.control] s (setMode m s) := setControl_frame _
theorem passHeldEntry_frame : SameExcept [.link] s (passHeldEntry s) := .ite (setReceiver_frame ..) .refl

/-- The blocks that a disengage can change (R190). -/
def disengageBlocks : List Block := [.control, .link, .rewriter, .share, .trips, .runners, .ring, .events]

theorem disengageBridge_frame (c : BitVec 16) : SameExcept disengageBlocks s (disengageBridge c s) := by
  have h : SameExcept disengageBlocks s (passHeldEntry (setMode .standby s)) :=
    (SameExcept.refl.step (setMode_frame _)).step passHeldEntry_frame
  exact (((h.trans (.forEach (fun _ _ => (disengageRunner_frame ..).mono) _)).step (zeroTrims_frame _)).step
    (resetShare_frame _)).step setTripLine_frame

theorem engageBreakTrips_frame (c : BitVec 16) : SameExcept tripBlocks s (engageBreakTrips c s) :=
  .ite (tripAll_frame ..) .refl

/-- The blocks that an engage can change (R189). -/
def engageBlocks : List Block := [.control, .rewriter, .banks, .share, .trips, .runners, .ring, .events]

theorem engageBridge_frame (c : BitVec 16) : SameExcept engageBlocks s (engageBridge c s) :=
  (((((SameExcept.refl.step (setMode_frame _)).step (zeroTrims_frame _)).step (resetShare_frame _)).step
    zeroCounts_frame).step setTripLine_frame).step (engageBreakTrips_frame _)

theorem setKey_frame (f : InputFilter) : SameExcept [.control] s (setKey f s) := setControl_frame _
theorem setWbrk_frame (f : InputFilter) : SameExcept [.trips] s (setWbrk f s) := setTrips_frame _

theorem settleKey_frame :
    SameExcept [.control, .link, .rewriter, .share, .trips, .runners, .ring, .events, .clock] s (settleKey s) := by
  unfold settleKey
  have h := (((SameExcept.refl
    (bs := [.control, .link, .rewriter, .share, .trips, .runners, .ring, .events, .clock]) (s := s)).step
    (advanceTo_frame (s.control.key.changedAt + keyInterval))).step (setKey_frame s.control.key.settle)).step
    (raise_frame .keyChange)
  exact .ite (h.step (disengageBridge_frame _)) h

theorem settleWbrk_frame : SameExcept levelBlocks s (settleWbrk s) := by
  unfold settleWbrk
  have h := ((SameExcept.refl (bs := levelBlocks) (s := s)).step
    (advanceTo_frame (s.trips.wbrk.changedAt + wbrkInterval))).step (setWbrk_frame s.trips.wbrk.settle)
  exact .ite (h.step (tripAll_frame ..)) h

theorem endReset_frame (x : BitVec 6) : SameExcept [.control, .link, .trips] s (endReset x s) := by
  unfold endReset
  dsimp only
  exact (((SameExcept.refl.step (setControl_frame _)).step (setWbrk_frame _)).step (setReceiver_frame ..)).step
    (setReceiver_frame ..)

theorem switchInBridge_frame : SameExcept [.control, .events] s (switchInBridge s) :=
  (SameExcept.refl.step (setControl_frame _)).step (raise_frame _)

theorem setTimer_frame (x : CycleTimer) : SameExcept [.link] s (setTimer x s) := setLink_frame _
theorem restartTimer_frame : SameExcept [.link] s (restartTimer s) := setTimer_frame _

theorem expireTimer_frame (k : Nat) :
    SameExcept [.rewriter, .banks, .share, .trips, .runners, .ring, .events, .clock, .link] s (expireTimer k s) := by
  unfold expireTimer
  have h := (((SameExcept.refl
    (bs := [.rewriter, .banks, .share, .trips, .runners, .ring, .events, .clock, .link]) (s := s)).step
    (advanceTo_frame k)).step (setTimer_frame .expired)).step (raise_frame .cycleTimeout)
  exact .ite (h.step (tripAll_frame ..)) h

theorem expireIfUp_frame :
    SameExcept [.rewriter, .banks, .share, .trips, .runners, .ring, .events, .clock, .link] s (expireIfUp s) := by
  unfold expireIfUp
  split
  · exact .ite (expireTimer_frame _) .refl
  · exact .refl

/-! ### Requests -/

theorem storeSettings_frame (i : Fin 32) (r : SectionSettings) : SameExcept [.table] s (storeSettings i r s) :=
  setTable_frame _

theorem renewSection_frame (i : Fin 32) : SameExcept [.rewriter, .share, .banks, .trips] s (renewSection i s) :=
  ((((SameExcept.refl.step (setRw_frame ..)).step (setSh_frame ..)).step (setCounts_frame ..)).step
    (setTp_frame ..)).step (setBanks_frame _)

/-- The blocks that a write to a section record can change: its settings, the state R4 renews, and what a level trip
reaches. -/
def sectionWriteBlocks : List Block :=
  [.table, .rewriter, .banks, .share, .trips, .runners, .ring, .events, .clock]

theorem writeSection_frame (c : BitVec 16) (i : Fin 32) (off : Nat) (data : List Word) :
    SameExcept sectionWriteBlocks s (writeSection c i off data s).1 := by
  unfold writeSection
  dsimp only
  split
  · exact .refl
  · split
    · exact .refl
    · have h := (SameExcept.refl (bs := sectionWriteBlocks) (s := s)).step
        (storeSettings_frame i (s.mergedSection i off data).clamp)
      refine SameExcept.step ?_ (levelTrips_frame ..)
      refine SameExcept.step ?_ setTripLine_frame
      exact .ite (h.step (renewSection_frame _)) h

theorem storeSet_frame (k : Fin 8) (r : SetSettings) : SameExcept [.share] s (storeSet k r s) := setShare_frame _
theorem rebuildSet_frame (k : Fin 8) : SameExcept [.share] s (rebuildSet k s) := setSetStatus_frame ..

theorem writeSet_frame (k : Fin 8) (off : Nat) (data : List Word) :
    SameExcept [.share] s (writeSet k off data s).1 := by
  unfold writeSet
  dsimp only
  split
  · exact .refl
  · have h : ∀ r, SameExcept [.share] s (if rebuildsSet (s.share.sets.get k) r then rebuildSet k (storeSet k r s)
        else storeSet k r s) := fun r =>
      .ite ((storeSet_frame ..).trans (rebuildSet_frame _)) (storeSet_frame ..)
    exact .ite ((h _).trans (.forEach (fun _ _ => clampShare_frame ..) _)) (h _)

theorem writeProgram_frame (k : Fin 512) (off : Nat) (data : List Word) :
    SameExcept [.program] s (writeProgram k off data s).1 := by
  unfold writeProgram
  split
  · exact .refl
  · exact setProgram_frame _

theorem writeEvents_frame (off : Nat) (data : List Word) : SameExcept [.events] s (writeEvents off data s).1 := by
  unfold writeEvents
  dsimp only
  split
  · exact .refl
  · exact setEvents_frame _

theorem storeTimeout_frame (w : Word) : SameExcept [.link] s (storeTimeout w s) := by
  unfold storeTimeout
  dsimp only
  split
  · exact setLink_frame _
  · split
    · exact setLink_frame _
    · exact (setLink_frame _).trans restartTimer_frame

theorem writeBridge_frame (off : Nat) (data : List Word) : SameExcept [.link] s (writeBridge off data s).1 :=
  storeTimeout_frame _

/-- The blocks that a WRITE can change. -/
def writeBlocks : List Block :=
  [.table, .rewriter, .banks, .share, .trips, .runners, .ring, .events, .clock, .program, .link]

theorem guardWrite_frame {g : State → State × Reply} (region : BitVec 8) (record offset : BitVec 16)
    (data : List Word) (h : SameExcept bs s (g s).1) :
    SameExcept bs s (guardWrite region record offset data g s).1 := by
  unfold guardWrite
  split
  · exact .refl
  · split
    · exact .refl
    · exact h

theorem writeRequest_frame (c : BitVec 16) (region : BitVec 8) (record offset : BitVec 16) (data : List Word) :
    SameExcept writeBlocks s (writeRequest c region record offset data s).1 := by
  refine guardWrite_frame _ _ _ _ ?_
  repeat' split
  all_goals first
    | exact .refl
    | exact (writeSection_frame ..).mono
    | exact (writeSet_frame ..).mono
    | exact (writeProgram_frame ..).mono
    | exact (writeEvents_frame ..).mono
    | exact (writeBridge_frame ..).mono

theorem readRequest_frame (region : BitVec 8) (record offset : BitVec 16) (n : Nat) :
    SameExcept [.ring] s (readRequest region record offset n s).1 := by
  unfold readRequest
  repeat' split
  all_goals first
    | exact .refl
    | exact freeWords_frame _

theorem engageRequest_frame (c : BitVec 16) : SameExcept engageBlocks s (engageRequest c s).1 := by
  unfold engageRequest
  split
  · exact .refl
  · exact engageBridge_frame _

theorem disengageRequest_frame (c : BitVec 16) : SameExcept disengageBlocks s (disengageRequest c s).1 := by
  unfold disengageRequest
  split
  · exact disengageBridge_frame _
  · exact .refl

theorem startRequest_frame (a b : BitVec 16) (ws : List Word) : SameExcept [.runners] s (startRequest a b ws s).1 := by
  unfold startRequest
  repeat' split
  all_goals first
    | exact .refl
    | exact setRunner_frame ..

theorem stopRequest_frame (c a : BitVec 16) : SameExcept leaveBlocks s (stopRequest c a s).1 := by
  unfold stopRequest
  repeat' split
  all_goals first
    | exact .refl
    | exact leaveRunner_frame ..

theorem closeRequest_frame (a : BitVec 16) : SameExcept [.runners] s (closeRequest a s).1 := by
  unfold closeRequest
  repeat' split
  all_goals first
    | exact .refl
    | exact setRunner_frame ..

theorem signalRequest_frame (a : BitVec 16) (ws : List Word) : SameExcept [.runners] s (signalRequest a ws s).1 := by
  unfold signalRequest
  split
  · exact setSyncMark_frame ..
  · exact .refl

theorem releaseOne_frame (i : Fin 32) :
    SameExcept [.rewriter, .banks, .share, .trips] s (releaseOne i s) := by
  have h := (((SameExcept.refl (bs := [.rewriter, .banks, .share, .trips]) (s := s)).step
    (setTp_frame i { s.tp i with latch := false })).step (setSh_frame i { trim := 0, imbalance := 0 })).step
    (setDeviation_frame i 0)
  exact .ite (h.step (setTrimMarked_frame ..)) h

theorem releaseAll_frame (c : BitVec 16) (is : List (Fin 32)) : SameExcept levelBlocks s (releaseAll c is s) := by
  have h : SameExcept levelBlocks s (forEach is releaseOne s) := .forEach (fun _ _ => (releaseOne_frame _).mono) _
  exact (h.step setTripLine_frame).trans (levelTrips_frame ..)

theorem releaseRequest_frame (c a : BitVec 16) : SameExcept levelBlocks s (releaseRequest c a s).1 := by
  unfold releaseRequest
  repeat' split
  all_goals first
    | exact .refl
    | exact releaseAll_frame ..

theorem tripRequest_frame (c a : BitVec 16) : SameExcept tripBlocks s (tripRequest c a s).1 := by
  unfold tripRequest
  repeat' split
  all_goals first
    | exact .refl
    | exact tripSection_frame ..

/-- The blocks that a CLEAR can change. -/
def clearBlocks : List Block := [.events, .link, .ring]

theorem clearItem_frame (w : Word) : SameExcept clearBlocks s (clearItem w s) := by
  unfold clearItem
  dsimp only
  split
  · exact emptyRing_frame.mono
  · split
    · exact (SameExcept.refl.step (setEvents_frame _)).step (setLink_frame _)
    · exact (setEvents_frame _).mono

theorem clearRequest_frame (ws : List Word) : SameExcept clearBlocks s (clearRequest ws s).1 := by
  unfold clearRequest
  split
  · exact .refl
  · exact .forEach (fun _ _ => clearItem_frame _) _

theorem protectRequest_frame (a : BitVec 16) (ws : List Word) :
    SameExcept [.service] s (protectRequest a ws s).1 := by
  unfold protectRequest
  repeat' split
  all_goals first
    | exact .refl
    | exact setService_frame _

/-- Everything but the queue and the reset inputs: what a request can change. -/
def requestBlocks : List Block :=
  [.control, .table, .rewriter, .link, .banks, .share, .trips, .program, .runners, .ring, .service, .events, .clock]

theorem requestOp_frame (c : BitVec 16) (q : Request) : SameExcept requestBlocks s (requestOp c q s).1 := by
  unfold requestOp
  split
  · exact (readRequest_frame ..).mono
  · exact (writeRequest_frame ..).mono
  · exact (engageRequest_frame ..).mono
  · exact (disengageRequest_frame ..).mono
  · exact (startRequest_frame ..).mono
  · exact (stopRequest_frame ..).mono
  · exact (closeRequest_frame ..).mono
  · exact (releaseRequest_frame ..).mono
  · exact (tripRequest_frame ..).mono
  · exact (signalRequest_frame ..).mono
  · exact (clearRequest_frame ..).mono
  · exact (protectRequest_frame ..).mono
  · exact .refl

/-- A request handed to the service unit changes what its operation changes, the answer slot and the overrun flag. -/
theorem serve_frame (tag kind : BitVec 8) (op : State → State × Reply) (h : SameExcept bs s (op s).1)
    (hs : ∀ b ∈ [Block.service, .events], b ∈ bs) : SameExcept bs s (serve tag kind op s) := by
  unfold serve
  split
  · split
    · exact (raise_frame _).mono fun b hb => hs b (by simp_all)
    · exact h.trans ((setService_frame _).mono fun b hb => hs b (by simp_all))
  · exact .refl

end Sys2Proof.Machine
end

