-- ==== Sys2Proof/Laws/Closed.lean ====
section
/-! SUPPORT. One induction for every trip, leaving, share computation, supervision and advance: a relation between
states that holds of their elementary updates holds of them. An elementary update of a runner keeps its list, and one of
a trip latch sets it or keeps it. -/

namespace Sys2Proof.Machine

/-- What an operation of the trip unit writes for a section: TRIPPED with a record, or the latch as it stood. -/
def tripWrite (old new : TripStatus) : Prop :=
  (new.latch = true ∧ new.record.isSome = true) ∨
    (new.latch = old.latch ∧ new.record.isSome = old.record.isSome)

/-- A relation between states that is closed under the elementary updates of the ring, the events and the clock, and
under a running or waiting runner's leaving. -/
structure ClosedRun (G : State → State → Prop) : Prop where
  refl : ∀ s, G s s
  trans : ∀ {s t u}, G s t → G t u → G s u
  raise : ∀ e s, G s (raise e s)
  produce : ∀ ws s, G s (produceRecord ws s)
  takeChoice : ∀ s, G s (takeChoice s).2
  leave : ∀ c r how s, (s.runner r).isLive = true → G s (leaveRunner c r how s)

/-- The same with a trip taken as one elementary update. -/
structure ClosedRunTrip (G : State → State → Prop) : Prop extends ClosedRun G where
  tripSection : ∀ c cause i s, G s (tripSection c cause i s)

/-- The same with the updates of a runner's context, each of which keeps its list, and of a sync mark. -/
structure ClosedAdvance (G : State → State → Prop) : Prop extends ClosedRunTrip G where
  setRunner : ∀ r c s, c.slots = (s.runner r).slots → G s (setRunner r c s)
  setSyncMark : ∀ m b s, G s (setSyncMark m b s)

/-- A relation between states that is closed under the elementary updates that a trip, a share computation and the
supervision make outside the trip unit. -/
structure ClosedBase (G : State → State → Prop) : Prop extends ClosedRun G where
  setRw : ∀ i x s, G s (setRw i x s)
  setSh : ∀ i x s, G s (setSh i x s)
  setCounts : ∀ i x s, G s (setCounts i x s)
  setSetStatus : ∀ k x s, G s (setSetStatus k x s)

/-- A relation that is closed under the elementary updates, those of the trip unit included. -/
structure Closed (G : State → State → Prop) : Prop extends ClosedBase G where
  setTp : ∀ i x s, tripWrite (s.tp i) x → G s (setTp i x s)
  setTripLine : ∀ s, G s (setTripLine s)

/-- A relation that is closed under the elementary updates, a trip taken as one of them. -/
structure ClosedTrip (G : State → State → Prop) : Prop extends ClosedBase G, ClosedRunTrip G where
  addLaterCause : ∀ cause i s, G s (addLaterCause cause i s)

variable {G : State → State → Prop} {s t u : State}

theorem produceIf_runner (b : Bool) (ws : List Word) (r : Fin 4) : (produceIf b ws s).runner r = s.runner r := by
  have h := (produceIf_frame (s := s) b ws).same .runners (by decide)
  exact congrArg (fun x : RunnerBlock => x.ctx.get r) h

namespace ClosedRun

theorem ite (_ : ClosedRun G) {c : Prop} [Decidable c] (h : G s t) (k : G s u) : G s (if c then t else u) := by
  split
  · exact h
  · exact k

theorem forEach (g : ClosedRun G) {α : Type} {f : α → State → State} (h : ∀ a t, G t (f a t)) (l : List α) :
    G s (forEach l f s) := by
  induction l generalizing s with
  | nil => exact g.refl s
  | cons a l ih => exact g.trans (h a s) ih

/-! ### Leaving and hand-off -/

theorem produceIf (g : ClosedRun G) (b : Bool) (ws : List Word) : G s (produceIf b ws s) :=
  g.ite (g.produce ws s) (g.refl s)

theorem handOffTo (g : ClosedRun G) (c : BitVec 16) (is : List (Fin 32)) (r : Fin 4) : G s (handOffTo c is r s) := by
  have h : G s (Machine.forEach (is.filter fun i => decide (i ∈ (s.runner r).slots))
      (fun i s' => Machine.produceIf (s.runner r).recording (tripRecordWords r (s.runner r) s c i) s') s) :=
    g.forEach (fun _ _ => g.produceIf ..) _
  have hr : (Machine.forEach (is.filter fun i => decide (i ∈ (s.runner r).slots))
      (fun i s' => Machine.produceIf (s.runner r).recording (tripRecordWords r (s.runner r) s c i) s') s).runner r =
      s.runner r :=
    congrArg (fun x : RunnerBlock => x.ctx.get r)
      ((SameExcept.forEach (fun _ _ => produceIf_frame ..) _).same .runners (by decide))
  unfold Machine.handOffTo
  dsimp only
  split
  · next hl => exact g.ite (g.trans h (g.leave _ _ _ _ (by rw [hr]; exact hl))) h
  · exact g.refl s

theorem handOff (g : ClosedRun G) (c : BitVec 16) (is : List (Fin 32)) : G s (handOff c is s) :=
  g.forEach (fun _ _ => g.handOffTo ..) _

theorem disengageRunner (g : ClosedRun G) (c : BitVec 16) (r : Fin 4) : G s (disengageRunner c r s) :=
  by
  unfold Machine.disengageRunner
  split
  · next h => exact g.leave _ _ _ _ h
  · exact g.refl s

end ClosedRun

namespace ClosedBase

theorem setTrimMarked (g : ClosedBase G) (i : Fin 32) (x : Word) : G s (setTrimMarked i x s) := g.setRw ..
theorem setShareTrim (g : ClosedBase G) (i : Fin 32) (x : Word) : G s (setShareTrim i x s) := g.setSh ..
theorem setImbalance (g : ClosedBase G) (i : Fin 32) (x : BitVec 8) : G s (setImbalance i x s) := g.setSh ..
theorem setDeviation (g : ClosedBase G) (i : Fin 32) (x : BitVec 8) : G s (setDeviation i x s) := g.setCounts ..

end ClosedBase

namespace Closed

/-! ### Trips -/

theorem latchTrip (g : Closed G) (c : TripCause) (i : Fin 32) : G s (latchTrip c i s) :=
  g.setTp _ _ _ (.inl ⟨rfl, rfl⟩)

theorem addLaterCause (g : Closed G) (c : TripCause) (i : Fin 32) : G s (addLaterCause c i s) :=
  g.setTp _ _ _ (.inr ⟨rfl, by cases (s.tp i).record <;> rfl⟩)

theorem peerTrip (g : Closed G) (i : Fin 32) : G s (peerTrip i s) := g.ite (g.addLaterCause ..) (g.latchTrip ..)

theorem cutBack (g : Closed G) (i : Fin 32) : G s (cutBack i s) := by
  have h : G s (if (s.settings i).cutoff = .ignore then s
      else Machine.setTrimMarked i 0 (Machine.setShareTrim i 0 s)) :=
    g.ite (g.refl s) (g.trans (g.setShareTrim ..) (g.setTrimMarked ..))
  exact g.trans (g.trans h (g.setImbalance ..)) (g.setDeviation ..)

theorem haltSetOf (g : Closed G) (i : Fin 32) : G s (haltSetOf i s) := by
  unfold Machine.haltSetOf
  split
  · exact g.refl s
  · exact g.setSetStatus ..

theorem tripAction (g : Closed G) (c : BitVec 16) (cause : TripCause) (i : Fin 32) : G s (tripAction c cause i s) := by
  have h1 : G s (Machine.forEach (s.peersOf i) Machine.peerTrip (Machine.latchTrip cause i s)) :=
    g.trans (g.latchTrip ..) (g.forEach (fun _ _ => g.peerTrip _) _)
  have h2 := g.trans h1 (g.forEach (f := Machine.cutBack) (fun _ _ => g.cutBack _) (s.movedBy i))
  exact g.trans (g.trans (g.trans (g.trans h2 (g.haltSetOf _)) (g.raise ..)) (g.handOff ..)) (g.setTripLine _)

theorem tripSection (g : Closed G) (c : BitVec 16) (cause : TripCause) (i : Fin 32) : G s (tripSection c cause i s) :=
  g.ite (g.addLaterCause ..) (g.tripAction ..)

/-- What holds of the trip unit's elementary updates holds of its trips. -/
theorem toTrip (g : Closed G) : ClosedTrip G :=
  { g with
    tripSection := fun c cause i _ => g.tripSection c cause i
    addLaterCause := fun cause i _ => g.addLaterCause cause i }

end Closed

/-- A runner's leaving from the elementary updates it is made of. -/
theorem leave_of (ht : ∀ {s t u}, G s t → G t u → G s u) (he : ∀ e s, G s (raise e s)) (h0 : ∀ s, G s s)
    (hp : ∀ ws s, G s (produceRecord ws s)) (hr : ∀ r c s, c.slots = (s.runner r).slots → G s (setRunner r c s))
    (c : BitVec 16) (r : Fin 4) (how : Leaving) (s : State) : G s (leaveRunner c r how s) := by
  have h1 : G s (produceIf (s.runner r).recording (endRecord r (s.runner r) how c) s) := by
    unfold produceIf
    split
    · exact hp ..
    · exact h0 s
  refine ht (ht h1 (hr _ _ _ ?_)) (he ..)
  rw [produceIf_runner]
  cases how <;> rfl

namespace ClosedRunTrip

theorem tripAll (g : ClosedRunTrip G) (c : BitVec 16) (cause : TripCause) (is : List (Fin 32)) : G s (tripAll c cause is s) :=
  g.forEach (fun _ _ => g.tripSection ..) _

theorem levelTrips (g : ClosedRunTrip G) (c : BitVec 16) (brk lnk : List (Fin 32)) : G s (levelTrips c brk lnk s) := by
  unfold Machine.levelTrips
  exact g.ite (g.tripAll ..) (g.ite (g.tripAll ..) (g.ite
    (g.trans (g.trans (g.takeChoice s) (g.tripAll ..)) (g.tripAll ..))
    (g.trans (g.trans (g.takeChoice s) (g.tripAll ..)) (g.tripAll ..))))

end ClosedRunTrip

namespace ClosedAdvance

theorem leaveRunner (g : ClosedAdvance G) (c : BitVec 16) (r : Fin 4) (how : Leaving) : G s (leaveRunner c r how s) :=
  leave_of (G := G) g.trans g.raise g.refl g.produce g.setRunner c r how s

theorem faultRunner (g : ClosedAdvance G) (ctx : CloseCtx) (r : Fin 4) (f : RunnerFault) : G s (faultRunner ctx r f s) :=
  g.leaveRunner ..

theorem countedJump (g : ClosedAdvance G) (ctx : CloseCtx) (r : Fin 4) (a b : Nat) : G s (countedJump ctx r a b s).1 := by
  unfold Machine.countedJump
  dsimp only
  split <;> split
  all_goals first
    | exact g.faultRunner ..
    | exact g.setRunner _ _ _ rfl
    | (split
       · exact g.setRunner _ _ _ rfl
       · exact g.setRunner _ _ _ rfl)

theorem cutStep (g : ClosedAdvance G) (ctx : CloseCtx) (r : Fin 4) (k : Nat) : G s (cutStep ctx r k s).1 := by
  unfold Machine.cutStep
  split
  · exact g.refl s
  · exact g.tripSection ..

theorem reachStep (g : ClosedAdvance G) (ctx : CloseCtx) (r : Fin 4) (op : StepOp) : G s (reachStep ctx r op s).1 := by
  cases op with
  | set v => exact g.setRunner _ _ _ rfl
  | ramp a b => exact g.setRunner _ _ _ rfl
  | dwell n => exact g.setRunner _ _ _ rfl
  | await k c n a =>
    simp only [Machine.reachStep]
    split
    · exact g.refl s
    · exact g.setRunner _ _ _ rfl
  | sync m n a =>
    simp only [Machine.reachStep]
    split
    · exact g.refl s
    · exact g.setRunner _ _ _ rfl
  | signal m b => exact g.setSyncMark ..
  | jump a n =>
    simp only [Machine.reachStep]
    split
    · exact g.refl s
    · exact g.countedJump ..
  | recordOn d => exact g.setRunner _ _ _ rfl
  | recordOff => exact g.setRunner _ _ _ rfl
  | mark v => exact g.produceIf ..
  | cut k => exact g.cutStep ..
  | finish c => exact g.leaveRunner ..

theorem resumeWait (g : ClosedAdvance G) (ctx : CloseCtx) (r : Fin 4) (b : Bool) (n : Nat) (a : Option Nat) :
    G s (resumeWait ctx r b n a s).1 := by
  unfold Machine.resumeWait
  dsimp only
  split
  · exact g.refl s
  · split
    · exact g.refl s
    · split
      · split
        · exact g.setRunner _ _ _ rfl
        · refine g.trans ?_ (g.faultRunner ..)
          exact g.setRunner _ _ _ rfl
      · exact g.setRunner _ _ _ rfl

theorem resumeStep (g : ClosedAdvance G) (ctx : CloseCtx) (r : Fin 4) (op : StepOp) : G s (resumeStep ctx r op s).1 := by
  cases op with
  | ramp a b => exact g.setRunner _ _ _ rfl
  | dwell n => exact g.setRunner _ _ _ rfl
  | await k c n a => exact g.resumeWait ..
  | sync m n a => exact g.resumeWait ..
  | _ => exact g.reachStep ..

theorem takeSample (g : ClosedAdvance G) (ctx : CloseCtx) (r : Fin 4) : G s (takeSample ctx r s) := by
  have hr : ∀ ws, (produceRecord ws s).runner r = s.runner r := fun ws =>
    congrArg (fun x : RunnerBlock => x.ctx.get r) ((produceRecord_frame (s := s) ws).same .runners (by decide))
  exact g.ite (g.ite (g.trans (g.produce ..) (g.setRunner _ _ _ (by rw [hr]))) (g.setRunner _ _ _ rfl)) (g.refl s)

theorem setStep (g : ClosedAdvance G) (r : Fin 4) (k : Nat) : G s (setStep r k s) := g.setRunner _ _ _ rfl
theorem setRunnerState (g : ClosedAdvance G) (r : Fin 4) (x : RunnerState) : G s (setRunnerState r x s) :=
  g.setRunner _ _ _ rfl

theorem runSteps (g : ClosedAdvance G) (ctx : CloseCtx) (r : Fin 4) (n : Nat) : G s (runSteps ctx r n s) := by
  induction n generalizing s with
  | zero => exact g.faultRunner ..
  | succ n ih =>
    rw [Machine.runSteps]
    split
    · exact g.faultRunner ..
    · next op _ =>
      have h := g.reachStep (s := s) ctx r op
      split <;> rename_i e <;> rw [e] at h
      · exact g.trans (g.trans h (g.setStep ..)) ih
      · exact g.trans (g.trans h (g.setStep ..)) ih
      · exact g.trans h (g.setRunnerState ..)
      · exact h

theorem resumeRunner (g : ClosedAdvance G) (ctx : CloseCtx) (r : Fin 4) : G s (resumeRunner ctx r s) := by
  rw [Machine.resumeRunner]
  split
  · exact g.faultRunner ..
  · next op _ =>
    have h := g.resumeStep (s := s) ctx r op
    split <;> rename_i e <;> rw [e] at h
    · exact g.trans (g.trans h (g.setStep ..)) (g.runSteps ..)
    · exact g.trans (g.trans h (g.setStep ..)) (g.runSteps ..)
    · exact g.trans h (g.setRunnerState ..)
    · exact h

theorem advanceRunner (g : ClosedAdvance G) (ctx : CloseCtx) (r : Fin 4) : G s (advanceRunner ctx r s) := by
  rw [Machine.advanceRunner]
  split
  · exact g.trans (g.takeSample ..) (g.runSteps ..)
  · exact g.trans (g.trans (g.takeSample ..) (g.setRunnerState ..)) (g.resumeRunner ..)
  · exact g.refl s

theorem advanceAll (g : ClosedAdvance G) (ctx : CloseCtx) : G s (advanceAll ctx s) :=
  g.forEach (fun _ _ => g.advanceRunner ..) _

end ClosedAdvance

namespace ClosedTrip

/-! ### Share unit and supervision -/

theorem correctMember (g : ClosedTrip G) (cfg : SetSettings) (ref : Int) (m : Fin 6 × Fin 32) :
    G s (correctMember cfg ref m s) := g.ite (g.setShareTrim ..) (g.refl s)

theorem shareSharing (g : ClosedTrip G) (k : Fin 8) : G s (shareSharing k s) := by
  unfold Machine.shareSharing
  exact g.trans (g.trans (g.trans (g.trans (g.setSetStatus ..) (g.forEach (fun _ _ => g.correctMember ..) _))
    (g.forEach (fun _ _ => g.setImbalance ..) _)) (g.tripAll ..)) (g.setSetStatus ..)

theorem shareDegraded (g : ClosedTrip G) (k : Fin 8) : G s (shareDegraded k s) := by
  have h : ∀ x, G s (Machine.forEach (s.share.sets.get k).memberList (fun i s' => Machine.setImbalance i 0 s')
      (Machine.setSetStatus k x s)) := fun x =>
    g.trans (g.setSetStatus k x s) (g.forEach (fun _ _ => g.setImbalance ..) _)
  exact g.ite (g.trans (h _) (g.raise ..)) (h _)

theorem shareHalted (g : ClosedTrip G) (k : Fin 8) : G s (shareHalted k s) :=
  g.ite (g.setSetStatus ..) (g.setSetStatus ..)

theorem shareSet (g : ClosedTrip G) (k : Fin 8) : G s (shareSet k s) := by
  unfold Machine.shareSet
  exact g.ite (g.ite (g.shareHalted _) (g.ite (g.refl s) (g.ite (g.shareDegraded _) (g.shareSharing _)))) (g.refl s)

theorem shareReportClose (g : ClosedTrip G) : G s (shareReportClose s) :=
  g.ite (g.forEach (fun _ _ => g.shareSet _) _) (g.refl s)

theorem feedbackTest (g : ClosedTrip G) (c : BitVec 16) (i : Fin 32) : G s (feedbackTest c i s) :=
  g.ite (g.tripSection ..) (g.refl s)

theorem superviseClose (g : ClosedTrip G) (c : BitVec 16) (i : Fin 32) : G s (superviseClose c i s) := by
  have h := g.setDeviation (s := s) i (s.deviationCount i)
  unfold Machine.superviseClose
  exact g.ite
    (g.ite (g.ite (g.trans (g.trans h (g.tripSection ..)) (g.addLaterCause ..)) (g.trans h (g.tripSection ..)))
      (g.ite (g.trans h (g.tripSection ..)) (g.trans h (g.feedbackTest ..))))
    (g.setDeviation ..)

theorem superviseFail (g : ClosedTrip G) (c : BitVec 16) (i : Fin 32) : G s (superviseFail c i s) :=
  g.ite (g.feedbackTest ..) (g.refl s)

end ClosedTrip

end Sys2Proof.Machine
end

