-- ==== Sys2Proof/Laws/LinkFrames.lean ====
section
/-! SUPPORT. The frames of the section link's operations (spec/02): one lemma per operation. -/

namespace Sys2Proof.Machine

variable {s t : State} {bs : List Block}

/-- The blocks that a failing frame can change: the link, what a report fail reaches, what a cycle fail drops. -/
def failBlocks : List Block := [.rewriter, .banks, .share, .trips, .runners, .ring, .events, .link]

/-- The blocks that a symbol inside a frame can change; an open choice may be taken (log 8). -/
def lineBlocks : List Block := [.rewriter, .banks, .share, .trips, .runners, .ring, .events, .link, .clock]

theorem pushSymbol_frame {p : Port} {sym : Symbol} (h : pushSymbol p sym s = some t) : SameExcept [.link] s t := by
  unfold pushSymbol at h
  dsimp only at h
  split at h
  · cases h; exact setTransmitter_frame ..
  · cases h

theorem queueAbort_frame (p : Port) : SameExcept [.link] s (queueAbort p s) := by
  unfold queueAbort
  split
  · next h => exact pushSymbol_frame h
  · exact setTransmitter_frame ..

theorem forwardWords_frame (p : Port) (ws : List LinkWord) : SameExcept [.link] s (forwardWords p ws s).1 := by
  induction ws generalizing s with
  | nil => exact .refl
  | cons w ws ih =>
    rw [forwardWords]
    split
    · exact .refl
    · next h => exact ((pushSymbol_frame h).trans (setReceiver_frame ..)).trans ih

theorem sendSymbol_frame (p : Port) : SameExcept [.link] s (sendSymbol p s) := by
  unfold sendSymbol
  dsimp only
  split
  · exact setTransmitter_frame ..
  · exact .ite (setTransmitter_frame ..) (setTransmitter_frame ..)

theorem setRx_frame (p : Port) (x : RxState) : SameExcept [.link] s (setRx p x s) := setReceiver_frame ..

theorem cycleFailEffects_frame : SameExcept [.rewriter, .link] s (cycleFailEffects s) :=
  (SameExcept.refl.step (setLink_frame _)).step dropTreated_frame

theorem frameFailed_frame (p : Port) : SameExcept failBlocks s (frameFailed p s) := by
  cases p
  · exact cycleFailEffects_frame.mono
  · exact (bankReportFail_frame _).mono

theorem giveUpFrame_frame (p : Port) : SameExcept [.link] s (giveUpFrame p s) := setReceiver_frame ..

theorem failFrame_frame (p : Port) (e : Event) : SameExcept failBlocks s (failFrame p e s) :=
  (((SameExcept.refl.step (raise_frame _)).step (queueAbort_frame _)).step (giveUpFrame_frame _)).trans
    (frameFailed_frame _)

theorem orFail_frame (p : Port) {out : State × Bool} (h : SameExcept failBlocks s out.1) :
    SameExcept failBlocks s (orFail p out) := .ite h (h.trans (failFrame_frame ..))

/-- Words forwarded, or the frame failed when the queue is full. -/
theorem forwardOrFail_frame (p : Port) (ws : List LinkWord) (h : SameExcept failBlocks s t) :
    SameExcept failBlocks s (orFail p (forwardWords p ws t)) := orFail_frame p (h.step (forwardWords_frame ..))

theorem noteAddress_frame (p : Port) (w : LinkWord) : SameExcept [.link] s (noteAddress p w s) :=
  setReceiver_frame ..

theorem referenceAddress_frame (w : LinkWord) : SameExcept failBlocks s (referenceAddress w s) := by
  have h : SameExcept failBlocks s (if s.link.rxC.repeats w then raise .dupNode s
      else if addressCounts w then noteAddress .c w s else s) :=
    .ite ((raise_frame _).mono) (.ite ((noteAddress_frame ..).mono) .refl)
  unfold referenceAddress
  dsimp only
  split
  · exact forwardOrFail_frame _ _ h
  · exact h.step (setReceiver_frame ..)

theorem releaseHeld_frame (i : Fin 32) : SameExcept failBlocks s (releaseHeld i s) := by
  have h := (SameExcept.refl (bs := failBlocks) (s := s)).step
    (setReceiver_frame .c { s.link.rxC with hold := none, holdPass := false })
  unfold releaseHeld
  dsimp only
  split
  · split
    · split
      · exact ((h.step (forwardWords_frame ..)).step (raise_frame _)).step (noteTreated_frame ..)
      · exact (h.step (forwardWords_frame ..)).step (noteTreated_frame ..)
    · exact (h.step (forwardWords_frame ..)).trans (failFrame_frame ..)
  · exact forwardOrFail_frame _ _ h

theorem cycleWord_frame (pl : Place) (w : LinkWord) : SameExcept failBlocks s (cycleWord pl w s) := by
  unfold cycleWord
  split
  · exact .ite (forwardOrFail_frame _ _ ((setLink_frame _).mono)) (forwardOrFail_frame _ _ .refl)
  · exact referenceAddress_frame _
  · split
    · exact forwardOrFail_frame _ _ .refl
    · exact .ite (releaseHeld_frame _) .refl
  · exact .ite ((setLink_frame _).mono) (forwardOrFail_frame _ _ .refl)
  · exact .refl
  · exact forwardOrFail_frame _ _ .refl

theorem insertEntry_frame : SameExcept failBlocks s (insertEntry s) := forwardOrFail_frame _ _ .refl

theorem decideAppend_frame (w : LinkWord) : SameExcept [.link, .events] s (decideAppend w s) := by
  unfold decideAppend
  exact .ite ((SameExcept.refl.step (setReceiver_frame ..)).step (raise_frame _)) ((setReceiver_frame ..).mono)

theorem answerSource_frame (w : LinkWord) : SameExcept failBlocks s (answerSource w s) := by
  have h : SameExcept failBlocks s (decideAppend w s) := (decideAppend_frame w).mono
  unfold answerSource
  dsimp only
  split
  · exact .ite ((h.step (forwardWords_frame ..)).trans insertEntry_frame) (h.step (forwardWords_frame ..))
  · exact (h.step (forwardWords_frame ..)).trans (failFrame_frame ..)

theorem takeStatus_frame (a : LinkWord) : SameExcept [.link, .banks] s (takeStatus a s) := by
  have h : SameExcept [.link, .banks] s
      (if !s.link.rxD.repeats a && addressCounts a then noteAddress .d a s else s) :=
    .ite ((noteAddress_frame ..).mono) .refl
  exact h.step (captureEntry_frame ..)

theorem insertAfter_frame (dup : Bool) : SameExcept lineBlocks s (insertAfter dup s) :=
  .ite (.ite ((raise_frame _).mono)
    (.ite (((SameExcept.refl.step takeChoice_frame).step (raise_frame _)).step insertEntry_frame)
      (((SameExcept.refl.step takeChoice_frame).step insertEntry_frame).step (raise_frame _))))
    (insertEntry_frame.mono)

theorem statusEntryDone_frame (k : Nat) : SameExcept lineBlocks s (statusEntryDone k s) := by
  have h : SameExcept lineBlocks s (takeStatus (s.link.rxD.entry.getD 0 0) s) := (takeStatus_frame _).mono
  exact .ite (h.trans (insertAfter_frame _)) (h.step (raiseIf_frame ..))

theorem reportWord_frame (pl : Place) (w : LinkWord) : SameExcept lineBlocks s (reportWord pl w s) := by
  unfold reportWord
  split
  · exact (forwardOrFail_frame _ _ .refl).mono
  · exact (answerSource_frame _).mono
  · dsimp only
    split
    · exact (SameExcept.refl.step (forwardWords_frame ..)).trans (statusEntryDone_frame _)
    · exact ((SameExcept.refl.step (forwardWords_frame ..)).step (raiseIf_frame ..)).step (failFrame_frame ..)
  · exact .refl
  · exact (forwardOrFail_frame _ _ .refl).mono

theorem frameWord_frame (p : Port) (w : LinkWord) : SameExcept lineBlocks s (frameWord p w s) := by
  unfold frameWord
  dsimp only
  split
  · exact (failFrame_frame ..).mono
  · cases p
    · exact (SameExcept.refl.step (setReceiver_frame ..)).step (cycleWord_frame ..)
    · exact (SameExcept.refl.step (setReceiver_frame ..)).trans (reportWord_frame ..)

/-! ### Closes -/

theorem storePeriod_frame : SameExcept [.link] s (storePeriod s) := setLink_frame _
theorem storeCycle_frame (n : BitVec 16) : SameExcept [.link] s (storeCycle n s) := setLink_frame _
theorem stuckReportFail_frame (c : BitVec 16) : SameExcept tripBlocks s (stuckReportFail c s) :=
  .ite (bankReportFail_frame _) .refl

theorem serveRequest_frame (c : BitVec 16) (q : Request) : SameExcept requestBlocks s (serveRequest c q s) :=
  serve_frame _ _ _ (requestOp_frame ..) (by decide)

theorem serveAt_frame (a : TakenAt) (c : BitVec 16) (q : Option Request) :
    SameExcept requestBlocks s (serveAt a c q s) := by
  unfold serveAt
  split
  · exact .ite (serveRequest_frame ..) .refl
  · exact .refl

theorem runnerBlock_frame (ctx : CloseCtx) (q : Option Request) : SameExcept requestBlocks s (runnerBlock ctx q s) :=
  ((serveAt_frame ..).step (advanceAll_frame _)).trans (serveAt_frame ..)

theorem closeAct_frame (c : BitVec 16) (q : Option Request) (a : CloseAct) :
    SameExcept requestBlocks s (closeAct c q a s) := by
  cases a
  · exact restartTimer_frame.mono
  · exact storePeriod_frame.mono
  · exact (storeCycle_frame _).mono
  · exact commitFrame_frame.mono
  · exact (stuckReportFail_frame _).mono
  · exact runnerBlock_frame ..
  · exact serveAt_frame ..
  · exact expireIfUp_frame.mono

theorem closeCycle_frame (order : List CloseAct) : SameExcept requestBlocks s (closeCycle order s) :=
  (SameExcept.refl.step (setLink_frame _)).trans (.forEach (fun _ _ => closeAct_frame ..) _)

theorem consumeAnswer_frame : SameExcept [.service] s (consumeAnswer s) := .ite (setService_frame _) .refl

/-- The blocks that a report close can change (R41, R52). -/
def reportCloseBlocks : List Block := [.rewriter, .banks, .share, .trips, .runners, .ring, .service, .events]

theorem closeReport_frame : SameExcept reportCloseBlocks s (closeReport s) :=
  (SameExcept.refl.step consumeAnswer_frame).step bankReportClose_frame

theorem frameClosed_frame (p : Port) (order : List CloseAct) : SameExcept requestBlocks s (frameClosed p order s) := by
  cases p
  · exact closeCycle_frame _
  · exact closeReport_frame.mono

/-! ### Marks and the line -/

theorem seeEdge_frame (p : Port) : SameExcept [.link] s (seeEdge p s) := setReceiver_frame ..
theorem wakeReceiver_frame (p : Port) : SameExcept [.link] s (wakeReceiver p s) :=
  .ite ((seeEdge_frame _).trans (setRx_frame ..)) (seeEdge_frame _)

theorem beginFrame_frame (p : Port) : SameExcept failBlocks s (beginFrame p s) := by
  unfold beginFrame
  dsimp only
  have h : SameExcept failBlocks s
      (match p with
      | .c => takeSnapshot (setReceiver p { Receiver.afterReset with lastEdge := (s.receiver p).lastEdge } s)
      | .d => setReceiver p { Receiver.afterReset with lastEdge := (s.receiver p).lastEdge } s) := by
    cases p
    · exact (SameExcept.refl.step (setReceiver_frame ..)).step takeSnapshot_frame
    · exact (setReceiver_frame ..).mono
  split
  · next e => exact h.step (pushSymbol_frame e)
  · exact h.trans (failFrame_frame ..)

theorem startMarkAt_frame (p : Port) : SameExcept failBlocks s (startMarkAt p s) :=
  .ite ((failFrame_frame ..).trans (beginFrame_frame _)) (beginFrame_frame _)

theorem dataWordAt_frame (p : Port) (w : LinkWord) : SameExcept lineBlocks s (dataWordAt p w s) :=
  .ite (.ite .refl (frameWord_frame ..)) ((raise_frame _).mono)

theorem abortMarkAt_frame (p : Port) : SameExcept failBlocks s (abortMarkAt p s) :=
  .ite (.ite ((setRx_frame ..).mono) ((failFrame_frame ..).step (setRx_frame ..))) ((queueAbort_frame _).mono)

theorem idleAt_frame (p : Port) : SameExcept failBlocks s (idleAt p s) :=
  .ite (.ite ((setRx_frame ..).mono) ((failFrame_frame ..).step (setRx_frame ..))) .refl

theorem sendCheck_frame (p : Port) (good : Bool) : SameExcept [.link] s (sendCheck p good s).1 := by
  unfold sendCheck
  dsimp only
  split
  · exact .refl
  · next h =>
    split
    · exact pushSymbol_frame h
    · next h2 => exact (pushSymbol_frame h).trans (pushSymbol_frame h2)

theorem endAfterCheck_frame (p : Port) (good : Bool) (order : List CloseAct) :
    SameExcept requestBlocks s (endAfterCheck p good order s) := by
  unfold endAfterCheck
  dsimp only
  have h := (SameExcept.refl (bs := requestBlocks) (s := s)).step (sendCheck_frame p good)
  refine .ite (.ite ((h.step (setRx_frame ..)).trans (frameClosed_frame ..)) ?_) ?_
  · exact (((h.step (setRx_frame ..)).step (giveUpFrame_frame _)).step (raise_frame _)).step (frameFailed_frame _)
  · exact (h.step (failFrame_frame ..)).step (setRx_frame ..)

theorem endMarkAt_frame (p : Port) (order : List CloseAct) : SameExcept requestBlocks s (endMarkAt p order s) := by
  unfold endMarkAt
  dsimp only
  split
  · split
    · exact (setRx_frame ..).mono
    · split
      · exact endAfterCheck_frame ..
      · exact (SameExcept.refl.step (failFrame_frame ..)).step (setRx_frame ..)
  · exact (raise_frame _).mono

theorem stickReceiver_frame (p : Port) : SameExcept failBlocks s (stickReceiver p s) := by
  unfold stickReceiver
  dsimp only
  have h := ((SameExcept.refl (bs := failBlocks) (s := s)).step
    (setLink_frame { s.link with stuck := s.link.stuck.add p })).step (raise_frame .lineStuck)
  exact .ite ((h.trans (failFrame_frame ..)).step (setRx_frame ..)) (h.step (setRx_frame ..))

theorem relaySymbol_frame (p : Port) (sym : Symbol) : SameExcept [.link] s (relaySymbol p sym s) :=
  setTransmitter_frame ..

theorem passiveAt_frame (p : Port) (sym : Symbol) : SameExcept [.link] s (passiveAt p sym s) :=
  .ite (relaySymbol_frame ..) (((seeEdge_frame _).trans (setRx_frame ..)).trans (relaySymbol_frame ..))

theorem symbolAt_frame (p : Port) (sym : Symbol) {f : State → State} (h : ∀ t, SameExcept bs t (f t))
    (hs : Block.link ∈ bs) : SameExcept bs s (symbolAt p sym f s) := by
  have hs' : ∀ b ∈ [Block.link], b ∈ bs := by simpa using hs
  exact .ite (((wakeReceiver_frame _).mono hs').trans (h _)) ((passiveAt_frame ..).mono hs')

theorem lineStuckAt_frame (p : Port) : SameExcept lineBlocks s (lineStuckAt p s) := by
  unfold lineStuckAt
  dsimp only
  exact .ite .refl (.ite ((SameExcept.refl.step (advanceTo_frame _)).step (stickReceiver_frame _))
    ((SameExcept.refl.step (advanceTo_frame _)).step (setRx_frame ..)))

theorem timeoutAt_frame : SameExcept lineBlocks s (timeoutAt s) := by
  unfold timeoutAt
  split
  · exact .ite ((expireTimer_frame _).mono) .refl
  · exact .refl

/-! ### Commands -/

/-- The blocks that any command can change: all but the queue. -/
theorem request_frame (tag kind : BitVec 8) (op : State → State × Reply) (h : SameExcept requestBlocks s (op s).1) :
    SameExcept requestBlocks s (serve tag kind op s) := serve_frame _ _ _ h (by decide)

/-- Every command answers a next state, and leaves the queue of commands as it stands. -/
theorem exec_next (c : Instr) (s : State) : ∃ t, exec c s = .next t ∧ SameExcept requestBlocks s t := by
  cases c
  case hardwareReset straps => exact ⟨_, rfl, ⟨fun b hb => by cases b <;> first | rfl | simp [requestBlocks] at hb⟩⟩
  case resetEnd straps => exact ⟨_, rfl, .ite ((endReset_frame _).mono) .refl⟩
  case switchIn => exact ⟨_, rfl, .ite (switchInBridge_frame.mono) .refl⟩
  case passiveSymbol p sym => exact ⟨_, rfl, .ite .refl ((passiveAt_frame ..).mono)⟩
  case keyInputChange b => exact ⟨_, rfl, (setKey_frame _).mono⟩
  case keyChange => exact ⟨_, rfl, .ite (settleKey_frame.mono) .refl⟩
  case wbrkInputChange b => exact ⟨_, rfl, (setWbrk_frame _).mono⟩
  case breakOnset => exact ⟨_, rfl, .ite (settleWbrk_frame.mono) .refl⟩
  case breakEnd => exact ⟨_, rfl, .ite (settleWbrk_frame.mono) .refl⟩
  case startMark p => exact ⟨_, rfl, symbolAt_frame _ _ (fun _ => (startMarkAt_frame _).mono) (by decide)⟩
  case dataWord p w => exact ⟨_, rfl, symbolAt_frame _ _ (fun _ => (dataWordAt_frame ..).mono) (by decide)⟩
  case abortMark p => exact ⟨_, rfl, symbolAt_frame _ _ (fun _ => (abortMarkAt_frame _).mono) (by decide)⟩
  case idleSymbol p => exact ⟨_, rfl, symbolAt_frame _ _ (fun _ => (idleAt_frame _).mono) (by decide)⟩
  case transmitSymbol p => exact ⟨_, rfl, .ite ((sendSymbol_frame _).mono) .refl⟩
  case cycleClose order =>
    exact ⟨_, rfl, .ite (((seeEdge_frame _).mono).trans (endMarkAt_frame ..)) .refl⟩
  case cycleFail => exact ⟨_, rfl, .ite (((seeEdge_frame _).mono).trans (endMarkAt_frame ..)) .refl⟩
  case reportClose => exact ⟨_, rfl, .ite (((seeEdge_frame _).mono).trans (endMarkAt_frame ..)) .refl⟩
  case reportFail => exact ⟨_, rfl, .ite (((seeEdge_frame _).mono).trans (endMarkAt_frame ..)) .refl⟩
  case lineStuck p => exact ⟨_, rfl, (lineStuckAt_frame _).mono⟩
  case lineRecovery p =>
    exact ⟨_, rfl, .ite ((SameExcept.refl.step (seeEdge_frame _)).step (setRx_frame ..)) .refl⟩
  case cycleTimeout => exact ⟨_, rfl, timeoutAt_frame.mono⟩
  case rampComplete r => exact ⟨_, rfl, .ite ((advanceRunner_frame ..).mono) .refl⟩
  case dwellExpiry r => exact ⟨_, rfl, .ite ((advanceRunner_frame ..).mono) .refl⟩
  case waitTimeout r => exact ⟨_, rfl, .ite ((advanceRunner_frame ..).mono) .refl⟩
  case read => exact ⟨_, rfl, request_frame _ _ _ ((readRequest_frame ..).mono)⟩
  case ringStreamRead => exact ⟨_, rfl, request_frame _ _ _ ((readRequest_frame ..).mono)⟩
  case write => exact ⟨_, rfl, request_frame _ _ _ ((writeRequest_frame ..).mono)⟩
  case sectionWrite => exact ⟨_, rfl, request_frame _ _ _ ((writeRequest_frame ..).mono)⟩
  case setWrite => exact ⟨_, rfl, request_frame _ _ _ ((writeRequest_frame ..).mono)⟩
  case programWrite => exact ⟨_, rfl, request_frame _ _ _ ((writeRequest_frame ..).mono)⟩
  case eventsWrite => exact ⟨_, rfl, request_frame _ _ _ ((writeRequest_frame ..).mono)⟩
  case bridgeWrite => exact ⟨_, rfl, request_frame _ _ _ ((writeRequest_frame ..).mono)⟩
  case engage => exact ⟨_, rfl, request_frame _ _ _ ((engageRequest_frame _).mono)⟩
  case disengage => exact ⟨_, rfl, request_frame _ _ _ ((disengageRequest_frame _).mono)⟩
  case start => exact ⟨_, rfl, request_frame _ _ _ ((startRequest_frame ..).mono)⟩
  case stop => exact ⟨_, rfl, request_frame _ _ _ ((stopRequest_frame ..).mono)⟩
  case close => exact ⟨_, rfl, request_frame _ _ _ ((closeRequest_frame _).mono)⟩
  case release => exact ⟨_, rfl, request_frame _ _ _ ((releaseRequest_frame ..).mono)⟩
  case trip => exact ⟨_, rfl, request_frame _ _ _ ((tripRequest_frame ..).mono)⟩
  case signal => exact ⟨_, rfl, request_frame _ _ _ ((signalRequest_frame ..).mono)⟩
  case clear => exact ⟨_, rfl, request_frame _ _ _ ((clearRequest_frame _).mono)⟩
  case protect => exact ⟨_, rfl, request_frame _ _ _ ((protectRequest_frame ..).mono)⟩
  case badRequest => exact ⟨_, rfl, request_frame _ _ _ .refl⟩
  case endMark p order => exact ⟨_, rfl, symbolAt_frame _ _ (fun _ => endMarkAt_frame ..) (by decide)⟩

theorem takeDue_frame (e : DueEvent) : SameExcept requestBlocks s (takeDue e s) := by
  cases e
  · exact switchInBridge_frame.mono
  · exact settleKey_frame.mono
  · exact settleWbrk_frame.mono
  · exact timeoutAt_frame.mono
  · exact (lineStuckAt_frame _).mono

theorem tick_frame : SameExcept requestBlocks s (tick s) := by
  unfold tick
  split
  · exact passTick_frame.mono
  · exact takeDue_frame _
  · exact (SameExcept.refl.step takeChoice_frame).trans (takeDue_frame _)

end Sys2Proof.Machine
end

