-- ==== Sys2Proof/Laws/ClosedAll.lean ====
section
/-! SUPPORT. The induction of Laws/Closed.lean carried over the link, the requests and every command: a relation that
holds of the elementary updates below, each under the guard the model makes it under, holds of every step. -/

namespace Sys2Proof.Machine

/-- A relation between states that is closed under every elementary update of the bridge but those of the key. -/
structure ClosedMost (G : State → State → Prop) : Prop extends Closed G where
  setRunner : ∀ r c s, c.slots = (s.runner r).slots → G s (setRunner r c s)
  setSyncMark : ∀ m b s, G s (setSyncMark m b s)
  advanceTo : ∀ k s, G s (advanceTo k s)
  passTick : ∀ s, G s (passTick s)
  setReceiver : ∀ p x s, G s (setReceiver p x s)
  push : ∀ {p sym s t}, pushSymbol p sym s = some t → G s t
  owe : ∀ p n s, G s (setTransmitter p { s.transmitter p with abortsOwed := n } s)
  send : ∀ p s, G s (sendSymbol p s)
  relay : ∀ p sym s, G s (relaySymbol p sym s)
  reqBuf : ∀ ws s, G s (s.setLink { s.link with reqBuf := ws })
  stuck : ∀ x s, G s (s.setLink { s.link with stuck := x })
  setTimer : ∀ x s, G s (setTimer x s)
  timeout : ∀ w s, G s (s.setLink { s.link with timeout := clampTimeout w })
  storePeriod : ∀ s, G s (storePeriod s)
  storeCycle : ∀ n s, G s (storeCycle n s)
  takeSnapshot : ∀ s, G s (takeSnapshot s)
  noteTreated : ∀ i c s, G s (noteTreated i c s)
  dropTreated : ∀ s, G s (dropTreated s)
  commitFrame : ∀ s, G s (commitFrame s)
  zeroTrims : ∀ b s, G s (zeroTrims b s)
  setBanks : ∀ x s, G s (s.setBanks x)
  disengageMode : ∀ s, s.engaged = true → G s (setMode .standby s)
  engageMode : ∀ s, s.inline = true → s.engageRefusal = none → G s (setMode .engaged s)
  resetShare : ∀ b s, G s (resetShare b s)
  setWbrk : ∀ x s, G s (setWbrk x s)
  endReset : ∀ x s, s.control.resetHeld = true → G s (endReset x s)
  switchIn : ∀ s, s.canSwitchIn = true → G s (switchInBridge s)
  hardwareReset : ∀ x s, G s (hardwareReset x s)
  storeSettings : ∀ i off data s, s.inline = true → s.structuralRefusal i (s.mergedSection i off data).clamp = none →
    s.liveRefusal i (s.mergedSection i off data).clamp = none →
    G s (storeSettings i (s.mergedSection i off data).clamp s)
  clearTp : ∀ i x s, x.latch = false → G s (Machine.setTp i x s)
  renewTp : ∀ i s, G s (Machine.setTp i { latch := s.tripped i, record := none } s)
  storeSet : ∀ k ws s, s.setRefusal k ws = none → G s (storeSet k (SetSettings.ofWords ws).clamp s)
  setProgram : ∀ x s, G s (s.setProgram x)
  storeEvents : ∀ m c s, (c.toList.any fun c => decide (3 < c.toNat)) = false →
    G s (s.setEvents { s.events with masks := m, classes := c })
  clearFlags : ∀ f s, G s (s.setEvents { s.events with flags := f })
  freeWords : ∀ n s, n ≤ s.ring.words.length → G s (freeWords n s)
  emptyRing : ∀ s, G s (emptyRing s)
  setSlot : ∀ a s, G s (s.setService { s.service with slot := a })
  setProt : ∀ p s, G s (s.setService { s.service with prot := p })
  start : ∀ r is k s, G s (Machine.setRunner r (Runner.started is k) s)
  close : ∀ r s, G s (Machine.setRunner r Runner.afterReset s)

variable {s t : State}

/-- A relation between states that is closed under every update a command is made of, a trip-bringing operation taken
whole. -/
structure ClosedAll (G : State → State → Prop) : Prop where
  refl : ∀ s, G s s
  trans : ∀ {s t u}, G s t → G t u → G s u
  raise : ∀ e s, G s (raise e s)
  takeChoice : ∀ s, G s (takeChoice s).2
  advanceTo : ∀ k s, G s (advanceTo k s)
  passTick : ∀ s, G s (passTick s)
  setReceiver : ∀ p x s, G s (setReceiver p x s)
  push : ∀ {p sym s t}, pushSymbol p sym s = some t → G s t
  owe : ∀ p n s, G s (setTransmitter p { s.transmitter p with abortsOwed := n } s)
  send : ∀ p s, G s (sendSymbol p s)
  relay : ∀ p sym s, G s (relaySymbol p sym s)
  reqBuf : ∀ ws s, G s (s.setLink { s.link with reqBuf := ws })
  stuck : ∀ x s, G s (s.setLink { s.link with stuck := x })
  restartTimer : ∀ s, G s (restartTimer s)
  expireTimer : ∀ k s, G s (expireTimer k s)
  storeTimeout : ∀ w s, G s (storeTimeout (clampTimeout w) s)
  storePeriod : ∀ s, G s (storePeriod s)
  storeCycle : ∀ n s, G s (storeCycle n s)
  takeSnapshot : ∀ s, G s (takeSnapshot s)
  noteTreated : ∀ i c s, s.engaged = true → G s (noteTreated i c s)
  dropTreated : ∀ s, G s (dropTreated s)
  commitFrame : ∀ s, G s (commitFrame s)
  captureEntry : ∀ a f s, G s (captureEntry a f s)
  bankReportClose : ∀ s, G s (bankReportClose s)
  bankReportFail : ∀ c s, G s (bankReportFail c s)
  inputKey : ∀ b k s, G s (setKey (s.control.key.input b k) s)
  settleKey : ∀ s, s.keyMoving = true → G s (settleKey s)
  inputWbrk : ∀ b k s, G s (setWbrk (s.trips.wbrk.input b k) s)
  settleWbrk : ∀ s, G s (settleWbrk s)
  endReset : ∀ x s, s.control.resetHeld = true → G s (endReset x s)
  switchIn : ∀ s, s.canSwitchIn = true → G s (switchInBridge s)
  hardwareReset : ∀ x s, G s (hardwareReset x s)
  advanceRunner : ∀ ctx r s, G s (advanceRunner ctx r s)
  freeWords : ∀ n s, n ≤ s.ring.words.length → G s (freeWords n s)
  writeSection : ∀ c i off data s, s.inline = true → G s (writeSection c i off data s).1
  writeSet : ∀ k off data s, G s (writeSet k off data s).1
  writeProgram : ∀ k off data s, G s (writeProgram k off data s).1
  writeEvents : ∀ off data s, G s (writeEvents off data s).1
  engageBridge : ∀ c s, s.inline = true → s.engageRefusal = none → G s (engageBridge c s)
  disengageBridge : ∀ c s, s.engaged = true → G s (disengageBridge c s)
  startRequest : ∀ a b ws s, G s (startRequest a b ws s).1
  stopRequest : ∀ c a s, G s (stopRequest c a s).1
  closeRequest : ∀ a s, G s (closeRequest a s).1
  setSyncMark : ∀ m b s, G s (setSyncMark m b s)
  releaseRequest : ∀ c a s, G s (releaseRequest c a s).1
  tripRequest : ∀ c a s, G s (tripRequest c a s).1
  clearFlags : ∀ f s, G s (s.setEvents { s.events with flags := f })
  emptyRing : ∀ s, G s (emptyRing s)
  setSlot : ∀ a s, G s (s.setService { s.service with slot := a })
  setProt : ∀ p s, G s (s.setService { s.service with prot := p })

namespace ClosedMost

variable {G : State → State → Prop}

theorem toAdvance (g : ClosedMost G) : ClosedAdvance G :=
  { g.toClosed.toTrip with setRunner := g.setRunner, setSyncMark := g.setSyncMark }

theorem passHeldEntry (g : ClosedMost G) : G s (passHeldEntry s) := g.toClosedBase.ite (g.setReceiver ..) (g.refl s)

theorem disengageBridge (g : ClosedMost G) (c : BitVec 16) (h : s.engaged = true) : G s (disengageBridge c s) :=
  g.trans (g.trans (g.trans (g.trans (g.trans (g.disengageMode s h) g.passHeldEntry)
    (g.toClosedBase.forEach (fun _ _ => g.disengageRunner ..) _)) (g.zeroTrims ..)) (g.resetShare ..))
    (g.setTripLine _)

theorem settleKey_of (g : ClosedMost G) (hkey : ∀ f s, G s (setKey f s)) : G s (settleKey s) := by
  unfold Machine.settleKey
  have h := g.trans (g.trans (g.advanceTo (s.control.key.changedAt + keyInterval) s)
    (hkey s.control.key.settle _)) (g.raise .keyChange _)
  dsimp only
  split
  · next hk =>
    refine g.trans h (g.disengageBridge _ ?_)
    simp only [Bool.and_eq_true] at hk
    exact hk.1
  · exact h

/-! ### Reports -/

theorem captureEntry (g : ClosedMost G) (a : LinkWord) (f : Feedback) : G s (captureEntry a f s) := by
  unfold Machine.captureEntry
  split
  · exact g.refl s
  · exact g.setBanks ..

theorem bankReportClose (g : ClosedMost G) : G s (bankReportClose s) :=
  g.trans (g.trans (g.trans (g.setBanks _ _) (g.setBanks _ _)) g.toClosed.toTrip.shareReportClose)
    (g.toClosedBase.forEach (fun _ _ => g.toClosed.toTrip.superviseClose ..) _)

theorem bankReportFail (g : ClosedMost G) (c : BitVec 16) : G s (bankReportFail c s) :=
  g.trans (g.trans (g.setBanks _ _) (g.setBanks _ _)) (g.toClosedBase.forEach (fun _ _ => g.toClosed.toTrip.superviseFail ..) _)

/-! ### Modes -/

theorem engageBreakTrips (g : ClosedMost G) (c : BitVec 16) : G s (engageBreakTrips c s) :=
  g.toClosedBase.ite (g.toClosed.toTrip.tripAll ..) (g.refl s)

theorem engageBridge (g : ClosedMost G) (c : BitVec 16) (h : s.inline = true) (k : s.engageRefusal = none) :
    G s (engageBridge c s) :=
  g.trans (g.trans (g.trans (g.trans (g.trans (g.engageMode s h k) (g.zeroTrims ..)) (g.resetShare ..))
    (g.setBanks _ _)) (g.setTripLine _)) (g.engageBreakTrips _)

theorem settleWbrk (g : ClosedMost G) : G s (settleWbrk s) := by
  unfold Machine.settleWbrk
  have h := g.trans (g.advanceTo (s.trips.wbrk.changedAt + wbrkInterval) s) (g.setWbrk s.trips.wbrk.settle _)
  exact g.toClosedBase.ite (g.trans h (g.toClosed.toTrip.tripAll ..)) h

theorem restartTimer (g : ClosedMost G) : G s (restartTimer s) := g.setTimer ..

theorem expireTimer (g : ClosedMost G) (k : Nat) : G s (expireTimer k s) := by
  unfold Machine.expireTimer
  have h := g.trans (g.trans (g.advanceTo k s) (g.setTimer .expired _)) (g.raise .cycleTimeout _)
  exact g.toClosedBase.ite (g.trans h (g.toClosed.toTrip.tripAll ..)) h

/-! ### Requests -/

theorem renewSection (g : ClosedMost G) (i : Fin 32) : G s (renewSection i s) :=
  g.trans (g.trans (g.trans (g.trans (g.setRw ..) (g.setSh ..)) (g.setCounts ..)) (g.renewTp ..)) (g.setBanks ..)

theorem writeSection (g : ClosedMost G) (c : BitVec 16) (i : Fin 32) (off : Nat) (data : List Word)
    (hi : s.inline = true) : G s (writeSection c i off data s).1 := by
  unfold Machine.writeSection
  dsimp only
  split
  · exact g.refl s
  · next h =>
    split
    · exact g.refl s
    · next k =>
      have h := g.storeSettings i off data s hi h k
      refine g.trans ?_ (g.toClosed.toTrip.levelTrips ..)
      refine g.trans ?_ (g.setTripLine _)
      exact g.toClosedBase.ite (g.trans h (g.renewSection _)) h

theorem writeSet (g : ClosedMost G) (k : Fin 8) (off : Nat) (data : List Word) : G s (writeSet k off data s).1 := by
  unfold Machine.writeSet
  dsimp only
  split
  · exact g.refl s
  · next h =>
    have h1 := g.storeSet _ _ _ h
    have h2 : G s (if rebuildsSet (s.share.sets.get k)
          (SetSettings.ofWords (overlay (s.share.sets.get k).words off data)).clamp then
        rebuildSet k (Machine.storeSet k (SetSettings.ofWords (overlay (s.share.sets.get k).words off data)).clamp s)
        else Machine.storeSet k (SetSettings.ofWords (overlay (s.share.sets.get k).words off data)).clamp s) :=
      g.toClosedBase.ite (g.trans h1 (g.setSetStatus ..)) h1
    exact g.toClosedBase.ite (g.trans h2 (g.toClosedBase.forEach (fun _ _ => g.setSh ..) _)) h2

theorem writeProgram (g : ClosedMost G) (k : Fin 512) (off : Nat) (data : List Word) :
    G s (writeProgram k off data s).1 := by
  unfold Machine.writeProgram
  split
  · exact g.refl s
  · exact g.setProgram ..

theorem writeEvents (g : ClosedMost G) (off : Nat) (data : List Word) : G s (writeEvents off data s).1 := by
  unfold Machine.writeEvents
  dsimp only
  split
  · exact g.refl s
  · next h => exact g.storeEvents _ _ _ (by simpa using h)

theorem storeTimeout (g : ClosedMost G) (w : Word) : G s (storeTimeout (clampTimeout w) s) := by
  unfold Machine.storeTimeout
  dsimp only
  split
  · exact g.timeout ..
  · split
    · exact g.timeout ..
    · exact g.trans (g.timeout ..) g.restartTimer

theorem startRequest (g : ClosedMost G) (a b : BitVec 16) (ws : List Word) : G s (startRequest a b ws s).1 := by
  unfold Machine.startRequest
  repeat' split
  all_goals first
    | exact g.refl s
    | exact g.start ..

theorem stopRequest (g : ClosedMost G) (c a : BitVec 16) : G s (stopRequest c a s).1 := by
  unfold Machine.stopRequest
  repeat' split
  all_goals first
    | exact g.refl s
    | exact g.leave _ _ _ _ (by assumption)

theorem closeRequest (g : ClosedMost G) (a : BitVec 16) : G s (closeRequest a s).1 := by
  unfold Machine.closeRequest
  repeat' split
  all_goals first
    | exact g.refl s
    | exact g.close ..

theorem releaseOne (g : ClosedMost G) (i : Fin 32) : G s (releaseOne i s) := by
  have h := g.trans (g.trans (g.clearTp i { s.tp i with latch := false } s rfl)
    (g.setSh i { trim := 0, imbalance := 0 } _)) (g.toClosedBase.setDeviation i 0)
  exact g.toClosedBase.ite (g.trans h (g.toClosedBase.setTrimMarked ..)) h

theorem releaseAll (g : ClosedMost G) (c : BitVec 16) (is : List (Fin 32)) : G s (releaseAll c is s) :=
  g.trans (g.trans (g.toClosedBase.forEach (fun _ _ => g.releaseOne _) _) (g.setTripLine _)) (g.toClosed.toTrip.levelTrips ..)

theorem releaseRequest (g : ClosedMost G) (c a : BitVec 16) : G s (releaseRequest c a s).1 := by
  unfold Machine.releaseRequest
  repeat' split
  all_goals first
    | exact g.refl s
    | exact g.releaseAll ..

theorem tripRequest (g : ClosedMost G) (c a : BitVec 16) : G s (tripRequest c a s).1 := by
  unfold Machine.tripRequest
  repeat' split
  all_goals first
    | exact g.refl s
    | exact g.toClosed.toTrip.tripSection ..

/-- What holds of the elementary updates, and of a settling of the key, holds of the whole operations. -/
theorem toAllWith (g : ClosedMost G) (hi : ∀ b k s, G s (Machine.setKey (s.control.key.input b k) s))
    (hs : ∀ s, s.keyMoving = true → G s (Machine.settleKey s)) : ClosedAll G :=
  { g with
    restartTimer := fun _ => g.restartTimer
    expireTimer := fun k _ => g.expireTimer k
    storeTimeout := fun w _ => g.storeTimeout w
    noteTreated := fun i c s _ => g.noteTreated i c s
    captureEntry := fun a f _ => g.captureEntry a f
    bankReportClose := fun _ => g.bankReportClose
    bankReportFail := fun c _ => g.bankReportFail c
    inputKey := hi
    settleKey := hs
    inputWbrk := fun _ _ _ => g.setWbrk ..
    settleWbrk := fun _ => g.settleWbrk
    advanceRunner := fun ctx r _ => g.toAdvance.advanceRunner ctx r
    writeSection := fun c i off data _ hi => g.writeSection c i off data hi
    writeSet := fun k off data _ => g.writeSet k off data
    writeProgram := fun k off data _ => g.writeProgram k off data
    writeEvents := fun off data _ => g.writeEvents off data
    engageBridge := fun c _ h k => g.engageBridge c h k
    disengageBridge := fun c _ h => g.disengageBridge c h
    startRequest := fun a b ws _ => g.startRequest a b ws
    stopRequest := fun c a _ => g.stopRequest c a
    closeRequest := fun a _ => g.closeRequest a
    releaseRequest := fun c a _ => g.releaseRequest c a
    tripRequest := fun c a _ => g.tripRequest c a }

/-- What holds of the elementary updates and of every change of the key's filter holds of the whole operations. -/
theorem toAll (g : ClosedMost G) (hk : ∀ f s, G s (Machine.setKey f s)) : ClosedAll G :=
  g.toAllWith (fun _ _ _ => hk ..) (fun _ _ => g.settleKey_of hk)

end ClosedMost

namespace ClosedAll

variable {G : State → State → Prop}

theorem ite (_ : ClosedAll G) {c : Prop} [Decidable c] {u : State} (h : G s t) (k : G s u) :
    G s (if c then t else u) := by
  split
  · exact h
  · exact k

theorem forEach (g : ClosedAll G) {α : Type} {f : α → State → State} (h : ∀ a t, G t (f a t)) (l : List α) :
    G s (forEach l f s) := by
  induction l generalizing s with
  | nil => exact g.refl s
  | cons a l ih => exact g.trans (h a s) ih

/-! ### Requests -/

theorem readRequest (g : ClosedAll G) (region : BitVec 8) (record offset : BitVec 16) (n : Nat) :
    G s (readRequest region record offset n s).1 := by
  unfold Machine.readRequest
  repeat' split
  all_goals first
    | exact g.refl s
    | exact g.freeWords _ _ (by simp)

theorem guardWrite (g : ClosedAll G) {f : State → State × Reply} (region : BitVec 8) (record offset : BitVec 16)
    (data : List Word) (h : G s (f s).1) : G s (guardWrite region record offset data f s).1 := by
  unfold Machine.guardWrite
  split
  · exact g.refl s
  · split
    · exact g.refl s
    · exact h

theorem writeRequest (g : ClosedAll G) (c : BitVec 16) (region : BitVec 8) (record offset : BitVec 16)
    (data : List Word) (hi : s.inline = true) : G s (writeRequest c region record offset data s).1 := by
  refine g.guardWrite _ _ _ _ ?_
  repeat' split
  all_goals first
    | exact g.refl s
    | exact g.writeSection _ _ _ _ _ hi
    | exact g.writeSet ..
    | exact g.writeProgram ..
    | exact g.writeEvents ..
    | exact g.storeTimeout ..

theorem engageRequest (g : ClosedAll G) (c : BitVec 16) (hi : s.inline = true) : G s (engageRequest c s).1 := by
  unfold Machine.engageRequest
  split
  · exact g.refl s
  · next h => exact g.engageBridge _ _ hi h

theorem disengageRequest (g : ClosedAll G) (c : BitVec 16) : G s (disengageRequest c s).1 := by
  unfold Machine.disengageRequest
  split
  · next h => exact g.disengageBridge _ _ h
  · exact g.refl s

theorem signalRequest (g : ClosedAll G) (a : BitVec 16) (ws : List Word) : G s (signalRequest a ws s).1 := by
  unfold Machine.signalRequest
  split
  · exact g.setSyncMark ..
  · exact g.refl s

theorem clearItem (g : ClosedAll G) (w : Word) : G s (clearItem w s) := by
  unfold Machine.clearItem
  dsimp only
  split
  · exact g.emptyRing _
  · split
    · exact g.trans (g.clearFlags ..) (g.stuck ..)
    · exact g.clearFlags ..

theorem clearRequest (g : ClosedAll G) (ws : List Word) : G s (clearRequest ws s).1 := by
  unfold Machine.clearRequest
  split
  · exact g.refl s
  · exact g.forEach (fun _ _ => g.clearItem _) _

theorem protectRequest (g : ClosedAll G) (a : BitVec 16) (ws : List Word) : G s (protectRequest a ws s).1 := by
  unfold Machine.protectRequest
  repeat' split
  all_goals first
    | exact g.refl s
    | exact g.setProt ..

theorem requestOp (g : ClosedAll G) (c : BitVec 16) (q : Request) (hi : s.inline = true) : G s (requestOp c q s).1 := by
  unfold Machine.requestOp
  split
  · exact g.readRequest ..
  · exact g.writeRequest _ _ _ _ _ hi
  · exact g.engageRequest _ hi
  · exact g.disengageRequest _
  · exact g.startRequest ..
  · exact g.stopRequest ..
  · exact g.closeRequest ..
  · exact g.releaseRequest ..
  · exact g.tripRequest ..
  · exact g.signalRequest ..
  · exact g.clearRequest _
  · exact g.protectRequest ..
  · exact g.refl s

theorem serve (g : ClosedAll G) (tag kind : BitVec 8) (op : State → State × Reply)
    (h : s.inline = true → G s (op s).1) : G s (serve tag kind op s) := by
  unfold Machine.serve
  split
  · next hi =>
    split
    · exact g.raise ..
    · exact g.trans (h hi) (g.setSlot ..)
  · exact g.refl s

/-! ### The link -/

theorem queueAbort (g : ClosedAll G) (p : Port) : G s (queueAbort p s) := by
  unfold Machine.queueAbort
  split
  · next h => exact g.push h
  · exact g.owe ..

theorem forwardWords (g : ClosedAll G) (p : Port) (ws : List LinkWord) : G s (forwardWords p ws s).1 := by
  induction ws generalizing s with
  | nil => exact g.refl s
  | cons w ws ih =>
    rw [Machine.forwardWords]
    split
    · exact g.refl s
    · next h => exact g.trans (g.trans (g.push h) (g.setReceiver ..)) ih

theorem setRx (g : ClosedAll G) (p : Port) (x : RxState) : G s (setRx p x s) := g.setReceiver ..

theorem frameFailed (g : ClosedAll G) (p : Port) : G s (frameFailed p s) := by
  cases p
  · exact g.trans (g.reqBuf ..) (g.dropTreated _)
  · exact g.bankReportFail ..

theorem failFrame (g : ClosedAll G) (p : Port) (e : Event) : G s (failFrame p e s) :=
  g.trans (g.trans (g.trans (g.raise ..) (g.queueAbort _)) (g.setReceiver ..)) (g.frameFailed _)

theorem orFail (g : ClosedAll G) (p : Port) {out : State × Bool} (h : G s out.1) : G s (orFail p out) :=
  g.ite h (g.trans h (g.failFrame ..))

theorem forwardOrFail (g : ClosedAll G) (p : Port) (ws : List LinkWord) (h : G s t) :
    G s (Machine.orFail p (Machine.forwardWords p ws t)) := g.orFail p (g.trans h (g.forwardWords ..))

theorem referenceAddress (g : ClosedAll G) (w : LinkWord) : G s (referenceAddress w s) := by
  have h : G s (if s.link.rxC.repeats w then Machine.raise .dupNode s
      else if addressCounts w then noteAddress .c w s else s) :=
    g.ite (g.raise ..) (g.ite (g.setReceiver ..) (g.refl s))
  unfold Machine.referenceAddress
  dsimp only
  split
  · exact g.forwardOrFail _ _ h
  · exact g.trans h (g.setReceiver ..)

theorem releaseHeld (g : ClosedAll G) (i : Fin 32) : G s (releaseHeld i s) := by
  have h := g.setReceiver .c { s.link.rxC with hold := none, holdPass := false } s
  unfold Machine.releaseHeld
  dsimp only
  split
  · next hc =>
    have e : ∀ ws, (Machine.forwardWords .c ws
        (Machine.setReceiver .c { s.link.rxC with hold := none, holdPass := false } s)).1.engaged = true := fun ws => by
      have hf : SameExcept [.link] s (Machine.forwardWords .c ws
          (Machine.setReceiver .c { s.link.rxC with hold := none, holdPass := false } s)).1 :=
        (setReceiver_frame ..).trans (forwardWords_frame ..)
      simp only [Bool.and_eq_true] at hc
      rw [State.engaged, show _ = _ from hf.same .control (by decide)]
      exact hc.1
    split
    · split
      · exact g.trans (g.trans (g.trans h (g.forwardWords ..)) (g.raise ..)) (g.noteTreated _ _ _ (e _))
      · exact g.trans (g.trans h (g.forwardWords ..)) (g.noteTreated _ _ _ (e _))
    · exact g.trans (g.trans h (g.forwardWords ..)) (g.failFrame ..)
  · exact g.forwardOrFail _ _ h

theorem cycleWord (g : ClosedAll G) (pl : Place) (w : LinkWord) : G s (cycleWord pl w s) := by
  unfold Machine.cycleWord
  split
  · exact g.ite (g.forwardOrFail _ _ (g.reqBuf ..)) (g.forwardOrFail _ _ (g.refl s))
  · exact g.referenceAddress _
  · split
    · exact g.forwardOrFail _ _ (g.refl s)
    · exact g.ite (g.releaseHeld _) (g.refl s)
  · exact g.ite (g.reqBuf ..) (g.forwardOrFail _ _ (g.refl s))
  · exact g.refl s
  · exact g.forwardOrFail _ _ (g.refl s)

theorem insertEntry (g : ClosedAll G) : G s (insertEntry s) := g.forwardOrFail _ _ (g.refl s)

theorem decideAppend (g : ClosedAll G) (w : LinkWord) : G s (decideAppend w s) := by
  unfold Machine.decideAppend
  exact g.ite (g.trans (g.setReceiver ..) (g.raise ..)) (g.setReceiver ..)

theorem answerSource (g : ClosedAll G) (w : LinkWord) : G s (answerSource w s) := by
  unfold Machine.answerSource
  dsimp only
  have h := g.decideAppend (s := s) w
  split
  · exact g.ite (g.trans (g.trans h (g.forwardWords ..)) g.insertEntry) (g.trans h (g.forwardWords ..))
  · exact g.trans (g.trans h (g.forwardWords ..)) (g.failFrame ..)

theorem takeStatus (g : ClosedAll G) (a : LinkWord) : G s (takeStatus a s) := by
  have h : G s (if !s.link.rxD.repeats a && addressCounts a then noteAddress .d a s else s) :=
    g.ite (g.setReceiver ..) (g.refl s)
  exact g.trans h (g.captureEntry ..)

theorem raiseIf (g : ClosedAll G) (b : Bool) (e : Event) : G s (raiseIf b e s) := g.ite (g.raise ..) (g.refl s)

theorem insertAfter (g : ClosedAll G) (dup : Bool) : G s (insertAfter dup s) :=
  g.ite (g.ite (g.raise ..)
    (g.ite (g.trans (g.trans (g.takeChoice s) (g.raise ..)) g.insertEntry)
      (g.trans (g.trans (g.takeChoice s) g.insertEntry) (g.raise ..))))
    g.insertEntry

theorem statusEntryDone (g : ClosedAll G) (k : Nat) : G s (statusEntryDone k s) := by
  have h : G s (Machine.takeStatus (s.link.rxD.entry.getD 0 0) s) := g.takeStatus _
  exact g.ite (g.trans h (g.insertAfter _)) (g.trans h (g.raiseIf ..))

theorem reportWord (g : ClosedAll G) (pl : Place) (w : LinkWord) : G s (reportWord pl w s) := by
  unfold Machine.reportWord
  split
  · exact g.forwardOrFail _ _ (g.refl s)
  · exact g.answerSource _
  · dsimp only
    split
    · exact g.trans (g.forwardWords ..) (g.statusEntryDone _)
    · exact g.trans (g.trans (g.forwardWords ..) (g.raiseIf ..)) (g.failFrame ..)
  · exact g.refl s
  · exact g.forwardOrFail _ _ (g.refl s)

theorem frameWord (g : ClosedAll G) (p : Port) (w : LinkWord) : G s (frameWord p w s) := by
  unfold Machine.frameWord
  dsimp only
  split
  · exact g.failFrame ..
  · cases p
    · exact g.trans (g.setReceiver ..) (g.cycleWord ..)
    · exact g.trans (g.setReceiver ..) (g.reportWord ..)

theorem advanceAll (g : ClosedAll G) (ctx : CloseCtx) : G s (advanceAll ctx s) :=
  g.forEach (fun _ _ => g.advanceRunner ..) _

theorem serveAt (g : ClosedAll G) (a : TakenAt) (c : BitVec 16) (q : Option Request) : G s (serveAt a c q s) := by
  unfold Machine.serveAt
  split
  · exact g.ite (g.serve _ _ _ fun hi => g.requestOp _ _ hi) (g.refl s)
  · exact g.refl s

theorem expireIfUp (g : ClosedAll G) : G s (expireIfUp s) := by
  unfold Machine.expireIfUp
  split
  · exact g.ite (g.expireTimer ..) (g.refl s)
  · exact g.refl s

theorem closeAct (g : ClosedAll G) (c : BitVec 16) (q : Option Request) (a : CloseAct) : G s (closeAct c q a s) := by
  cases a
  · exact g.restartTimer _
  · exact g.storePeriod _
  · exact g.storeCycle ..
  · exact g.commitFrame _
  · exact g.ite (g.bankReportFail ..) (g.refl s)
  · exact g.trans (g.trans (g.serveAt ..) (g.advanceAll _)) (g.serveAt ..)
  · exact g.serveAt ..
  · exact g.expireIfUp

theorem consumeAnswer (g : ClosedAll G) : G s (consumeAnswer s) := by
  unfold Machine.consumeAnswer
  exact g.ite (g.setSlot ..) (g.refl s)

theorem frameClosed (g : ClosedAll G) (p : Port) (order : List CloseAct) : G s (frameClosed p order s) := by
  cases p
  · exact g.trans (g.reqBuf ..) (g.forEach (fun _ _ => g.closeAct ..) _)
  · exact g.trans g.consumeAnswer (g.bankReportClose _)

theorem seeEdge (g : ClosedAll G) (p : Port) : G s (seeEdge p s) := g.setReceiver ..

theorem wakeReceiver (g : ClosedAll G) (p : Port) : G s (wakeReceiver p s) :=
  g.ite (g.trans (g.seeEdge _) (g.setRx ..)) (g.seeEdge _)

theorem beginFrame (g : ClosedAll G) (p : Port) : G s (beginFrame p s) := by
  unfold Machine.beginFrame
  dsimp only
  have h : G s
      (match p with
      | .c => Machine.takeSnapshot
          (Machine.setReceiver p { Receiver.afterReset with lastEdge := (s.receiver p).lastEdge } s)
      | .d => Machine.setReceiver p { Receiver.afterReset with lastEdge := (s.receiver p).lastEdge } s) := by
    cases p
    · exact g.trans (g.setReceiver ..) (g.takeSnapshot _)
    · exact g.setReceiver ..
  split
  · next e => exact g.trans h (g.push e)
  · exact g.trans h (g.failFrame ..)

theorem sendCheck (g : ClosedAll G) (p : Port) (good : Bool) : G s (sendCheck p good s).1 := by
  unfold Machine.sendCheck
  dsimp only
  split
  · exact g.refl s
  · next h =>
    split
    · exact g.push h
    · next h2 => exact g.trans (g.push h) (g.push h2)

theorem endAfterCheck (g : ClosedAll G) (p : Port) (good : Bool) (order : List CloseAct) :
    G s (endAfterCheck p good order s) := by
  unfold Machine.endAfterCheck
  dsimp only
  have h := g.sendCheck (s := s) p good
  refine g.ite (g.ite (g.trans (g.trans h (g.setRx ..)) (g.frameClosed ..)) ?_) ?_
  · exact g.trans (g.trans (g.trans (g.trans h (g.setRx ..)) (g.setReceiver ..)) (g.raise ..)) (g.frameFailed _)
  · exact g.trans (g.trans h (g.failFrame ..)) (g.setRx ..)

theorem endMarkAt (g : ClosedAll G) (p : Port) (order : List CloseAct) : G s (endMarkAt p order s) := by
  unfold Machine.endMarkAt
  dsimp only
  split
  · split
    · exact g.setRx ..
    · split
      · exact g.endAfterCheck ..
      · exact g.trans (g.failFrame ..) (g.setRx ..)
  · exact g.raise ..

theorem stickReceiver (g : ClosedAll G) (p : Port) : G s (stickReceiver p s) := by
  unfold Machine.stickReceiver
  dsimp only
  have h := g.trans (g.stuck (s.link.stuck.add p) s) (g.raise .lineStuck _)
  exact g.ite (g.trans (g.trans h (g.failFrame ..)) (g.setRx ..)) (g.trans h (g.setRx ..))

theorem passiveAt (g : ClosedAll G) (p : Port) (sym : Symbol) : G s (passiveAt p sym s) :=
  g.ite (g.relay ..) (g.trans (g.trans (g.seeEdge _) (g.setRx ..)) (g.relay ..))

theorem symbolAt (g : ClosedAll G) (p : Port) (sym : Symbol) {f : State → State} (h : ∀ t, G t (f t)) :
    G s (symbolAt p sym f s) := g.ite (g.trans (g.wakeReceiver _) (h _)) (g.passiveAt ..)

theorem startMarkAt (g : ClosedAll G) (p : Port) : G s (startMarkAt p s) :=
  g.ite (g.trans (g.failFrame ..) (g.beginFrame _)) (g.beginFrame _)

theorem dataWordAt (g : ClosedAll G) (p : Port) (w : LinkWord) : G s (dataWordAt p w s) :=
  g.ite (g.ite (g.refl s) (g.frameWord ..)) (g.raise ..)

theorem abortMarkAt (g : ClosedAll G) (p : Port) : G s (abortMarkAt p s) :=
  g.ite (g.ite (g.setRx ..) (g.trans (g.failFrame ..) (g.setRx ..))) (g.queueAbort _)

theorem idleAt (g : ClosedAll G) (p : Port) : G s (idleAt p s) :=
  g.ite (g.ite (g.setRx ..) (g.trans (g.failFrame ..) (g.setRx ..))) (g.refl s)

theorem lineStuckAt (g : ClosedAll G) (p : Port) : G s (lineStuckAt p s) := by
  unfold Machine.lineStuckAt
  dsimp only
  exact g.ite (g.refl s) (g.ite (g.trans (g.advanceTo ..) (g.stickReceiver _))
    (g.trans (g.advanceTo ..) (g.setRx ..)))

theorem timeoutAt (g : ClosedAll G) : G s (timeoutAt s) := by
  unfold Machine.timeoutAt
  split
  · exact g.ite (g.expireTimer ..) (g.refl s)
  · exact g.refl s

/-! ### Every command and every step -/

theorem ofIf (g : ClosedAll G) {c : Prop} [Decidable c] (h : c → G s t) : G s (if c then t else s) := by
  split
  · next hc => exact h hc
  · exact g.refl s

/-- The next state that a command answers. -/
theorem exec (g : ClosedAll G) (c : Instr) (h : exec c s = .next t) : G s t := by
  cases c <;> cases h
  case hardwareReset.refl straps => exact g.hardwareReset ..
  case resetEnd.refl straps => exact g.ofIf fun h => g.endReset _ _ h
  case switchIn.refl => exact g.ofIf fun h => g.switchIn _ h
  case passiveSymbol.refl p sym => exact g.ite (g.refl s) (g.passiveAt ..)
  case keyInputChange.refl b => exact g.inputKey ..
  case keyChange.refl => exact g.ofIf fun h => g.settleKey _ h
  case wbrkInputChange.refl b => exact g.inputWbrk ..
  case breakOnset.refl => exact g.ite (g.settleWbrk _) (g.refl s)
  case breakEnd.refl => exact g.ite (g.settleWbrk _) (g.refl s)
  case startMark.refl p => exact g.symbolAt _ _ fun _ => g.startMarkAt _
  case dataWord.refl p w => exact g.symbolAt _ _ fun _ => g.dataWordAt ..
  case abortMark.refl p => exact g.symbolAt _ _ fun _ => g.abortMarkAt _
  case idleSymbol.refl p => exact g.symbolAt _ _ fun _ => g.idleAt _
  case transmitSymbol.refl p => exact g.ite (g.send ..) (g.refl s)
  case cycleClose.refl order => exact g.ite (g.trans (g.seeEdge _) (g.endMarkAt ..)) (g.refl s)
  case cycleFail.refl => exact g.ite (g.trans (g.seeEdge _) (g.endMarkAt ..)) (g.refl s)
  case reportClose.refl => exact g.ite (g.trans (g.seeEdge _) (g.endMarkAt ..)) (g.refl s)
  case reportFail.refl => exact g.ite (g.trans (g.seeEdge _) (g.endMarkAt ..)) (g.refl s)
  case lineStuck.refl p => exact g.lineStuckAt _
  case lineRecovery.refl p => exact g.ite (g.trans (g.seeEdge _) (g.setRx ..)) (g.refl s)
  case cycleTimeout.refl => exact g.timeoutAt
  case rampComplete.refl r => exact g.ite (g.advanceRunner ..) (g.refl s)
  case dwellExpiry.refl r => exact g.ite (g.advanceRunner ..) (g.refl s)
  case waitTimeout.refl r => exact g.ite (g.advanceRunner ..) (g.refl s)
  case read.refl => exact g.serve _ _ _ fun _ => g.readRequest ..
  case ringStreamRead.refl => exact g.serve _ _ _ fun _ => g.readRequest ..
  case write.refl => exact g.serve _ _ _ fun hi => g.writeRequest _ _ _ _ _ hi
  case sectionWrite.refl => exact g.serve _ _ _ fun hi => g.writeRequest _ _ _ _ _ hi
  case setWrite.refl => exact g.serve _ _ _ fun hi => g.writeRequest _ _ _ _ _ hi
  case programWrite.refl => exact g.serve _ _ _ fun hi => g.writeRequest _ _ _ _ _ hi
  case eventsWrite.refl => exact g.serve _ _ _ fun hi => g.writeRequest _ _ _ _ _ hi
  case bridgeWrite.refl => exact g.serve _ _ _ fun hi => g.writeRequest _ _ _ _ _ hi
  case engage.refl => exact g.serve _ _ _ fun hi => g.engageRequest _ hi
  case disengage.refl => exact g.serve _ _ _ fun _ => g.disengageRequest _
  case start.refl => exact g.serve _ _ _ fun _ => g.startRequest ..
  case stop.refl => exact g.serve _ _ _ fun _ => g.stopRequest ..
  case close.refl => exact g.serve _ _ _ fun _ => g.closeRequest ..
  case release.refl => exact g.serve _ _ _ fun _ => g.releaseRequest ..
  case trip.refl => exact g.serve _ _ _ fun _ => g.tripRequest ..
  case signal.refl => exact g.serve _ _ _ fun _ => g.signalRequest ..
  case clear.refl => exact g.serve _ _ _ fun _ => g.clearRequest _
  case protect.refl => exact g.serve _ _ _ fun _ => g.protectRequest ..
  case badRequest.refl => exact g.serve _ _ _ fun _ => g.refl s
  case endMark.refl p order => exact g.symbolAt _ _ fun _ => g.endMarkAt ..

theorem takeDue (g : ClosedAll G) (e : DueEvent) (h : e = .switchIn → s.canSwitchIn = true)
    (hk : e = .key → s.keyMoving = true) : G s (takeDue e s) := by
  cases e
  · exact g.switchIn _ (h rfl)
  · exact g.settleKey _ (hk rfl)
  · exact (g.settleWbrk _)
  · exact g.timeoutAt
  · exact g.lineStuckAt _

end ClosedAll

/-- Switch-in is due only when it can be made. -/
theorem mem_dueEvents_switchIn (h : DueEvent.switchIn ∈ s.dueEvents) : s.canSwitchIn = true := by
  by_contra hc
  simp [State.dueEvents, hc] at h

/-- The key is due only while its interval runs. -/
theorem mem_dueEvents_key (h : DueEvent.key ∈ s.dueEvents) : s.keyMoving = true := by
  by_contra hc
  simp [State.dueEvents, State.keyDue, hc] at h

theorem ClosedAll.tick {G : State → State → Prop} (g : ClosedAll G) : G s (tick s) := by
  unfold Machine.tick
  split
  · exact g.passTick s
  · next e h =>
    exact g.takeDue e (fun he => mem_dueEvents_switchIn (by rw [h, he]; simp))
      (fun he => mem_dueEvents_key (by rw [h, he]; simp))
  · next e es _ h =>
    have hl : (Machine.takeChoice s).1 % (es.length + 1) < (e :: es).length := by
      simpa using Nat.mod_lt _ (Nat.succ_pos es.length)
    have hm : (e :: es).getD ((Machine.takeChoice s).1 % (es.length + 1)) e ∈ s.dueEvents := by
      rw [h, List.getD_eq_getElem?_getD, List.getElem?_eq_getElem hl]
      exact List.getElem_mem hl
    refine g.trans (g.takeChoice s) (g.takeDue _ (fun he => ?_) fun he => ?_)
    · exact mem_dueEvents_switchIn (by rwa [he] at hm)
    · exact mem_dueEvents_key (by rwa [he] at hm)

/-- Every step, once the relation holds of taking a command off the queue. -/
theorem ClosedAll.step {G : State → State → Prop} (g : ClosedAll G) (hp : ∀ s l, G s (s.setPending l))
    (h : step s = .next t) : G s t := by
  unfold Machine.step at h
  split at h
  · cases h; exact g.tick
  · exact g.trans (hp s _) (g.exec _ h)

end Sys2Proof.Machine
end

