-- ==== Sys2Proof/Laws/Table.lean ====
section
/-! SUPPORT. The read-after-write laws of the record stores, and the small facts of the shared arithmetic. -/

namespace Sys2Proof

variable {α : Type} {n : Nat}

/-- Reading a table is reading its list. -/
theorem Table.get_eq (t : Table α n) (i : Fin n) :
    t.get i = t.toList[i.val]'(by rw [t.size_eq]; exact i.isLt) := rfl

@[simp] theorem Table.get_set_self (t : Table α n) (i : Fin n) (a : α) : (t.set i a).get i = a :=
  List.getElem_set_self ..

theorem Table.get_set_ne (t : Table α n) {i j : Fin n} (h : j ≠ i) (a : α) : (t.set i a).get j = t.get j :=
  List.getElem_set_ne (fun e => h (Fin.ext e.symm)) ..

theorem Table.get_set (t : Table α n) (i j : Fin n) (a : α) :
    (t.set i a).get j = if j = i then a else t.get j := by
  split
  · next h => subst h; simp
  · next h => exact Table.get_set_ne t h a

@[simp] theorem Table.get_map (t : Table α n) (f : α → α) (i : Fin n) : (t.map f).get i = f (t.get i) :=
  List.getElem_map ..

@[simp] theorem Table.get_replicate (a : α) (i : Fin n) : (Table.replicate n a).get i = a :=
  List.getElem_replicate ..

@[simp] theorem Table.get_ofFn (f : Fin n → α) (i : Fin n) : (Table.ofFn f).get i = f i :=
  List.getElem_ofFn ..

/-- Two tables with the same record at every index are equal. -/
theorem Table.ext_get {t u : Table α n} (h : ∀ i, t.get i = u.get i) : t = u := by
  obtain ⟨l, hl⟩ := t
  obtain ⟨m, hm⟩ := u
  have : l = m := by
    apply List.ext_getElem (by omega)
    intro k h1 h2
    simpa [Table.get] using h ⟨k, by omega⟩
  subst this
  rfl

@[simp] theorem Table.set_get_self (t : Table α n) (i : Fin n) : t.set i (t.get i) = t :=
  Table.ext_get fun j => by rw [Table.get_set]; split <;> simp_all

namespace Machine

theorem index?_some {n k : Nat} {i : Fin n} : index? n k = some i ↔ i.val = k := by
  unfold index?
  split
  · constructor
    · intro h; cases h; rfl
    · intro h; subst h; rfl
  · constructor
    · intro h; cases h
    · intro h; omega

@[simp] theorem index?_val {n : Nat} (i : Fin n) : index? n i.val = some i := index?_some.2 rfl

theorem index?_none {n k : Nat} : index? n k = none ↔ n ≤ k := by
  unfold index?
  split
  · simp; omega
  · simp; omega

/-- A clamp keeps a value between its bounds. -/
theorem clampInt_bounds {lo hi : Int} (h : lo ≤ hi) (x : Int) : lo ≤ clampInt lo hi x ∧ clampInt lo hi x ≤ hi := by
  unfold clampInt
  split
  · omega
  · split <;> omega

/-- A clamp leaves a value that is already between its bounds. -/
theorem clampInt_of_within {lo hi x : Int} (h1 : lo ≤ x) (h2 : x ≤ hi) : clampInt lo hi x = x := by
  unfold clampInt
  split
  · omega
  · split <;> omega

/-- "Rounded": twice the distance from the exact quotient is at most the divisor. -/
theorem roundDiv_near (a : Int) {b : Nat} (h : 0 < b) : 2 * (roundDiv a b * b - a) ≤ b ∧ -b ≤ 2 * (roundDiv a b * b - a) := by
  have hb : (0 : Int) < 2 * b := by omega
  unfold roundDiv
  split
  · have h1 := Int.mul_ediv_add_emod (2 * a + b) (2 * b)
    have h2 := Int.emod_nonneg (2 * a + b) (by omega : (2 * (b : Int)) ≠ 0)
    have h3 := Int.emod_lt_of_pos (2 * a + b) hb
    have h4 : (2 * (b : Int)) * ((2 * a + b) / (2 * b)) = 2 * ((2 * a + b) / (2 * b) * b) := by ring
    omega
  · have h1 := Int.mul_ediv_add_emod (2 * (-a) + b) (2 * b)
    have h2 := Int.emod_nonneg (2 * (-a) + b) (by omega : (2 * (b : Int)) ≠ 0)
    have h3 := Int.emod_lt_of_pos (2 * (-a) + b) hb
    have h4 : (2 * (b : Int)) * ((2 * (-a) + b) / (2 * b)) = 2 * ((2 * (-a) + b) / (2 * b) * b) := by ring
    have h5 : -((2 * (-a) + b) / (2 * (b : Int))) * b = -((2 * (-a) + b) / (2 * b) * b) := by ring
    omega

/-- A signed value that fits 32 bits reads back as it was stored. -/
theorem s32_toInt {x : Int} (h1 : -2147483648 ≤ x) (h2 : x < 2147483648) : (s32 x).toInt = x := by
  unfold s32
  rw [BitVec.toInt_ofInt]
  exact Int.bmod_eq_of_le (by simpa using h1) (by simpa using h2)

@[simp] theorem s32_of_toInt (w : Word) : s32 w.toInt = w := by simp [s32]

end Machine

end Sys2Proof
end

