-- ==== Sys2Proof/Laws/Trips.lean ====
section
/-! SUPPORT. What a trip does to the latches, the records and the runners (R90, R91, R143, R145): one lemma per
operation that says all of it. -/

namespace Sys2Proof.Machine

variable {s t : State}

/-! ### Reading through setters -/

@[simp] theorem setTp_tp (i j : Fin 32) (x : TripStatus) : (setTp i x s).tp j = if j = i then x else s.tp j := by
  simp [setTp, State.tp, Table.get_set]

@[simp] theorem setRunner_runner (r q : Fin 4) (c : Runner) :
    (setRunner r c s).runner q = if q = r then c else s.runner q := by
  simp [setRunner, State.runner, Table.get_set]

@[simp] theorem setRw_rw (i j : Fin 32) (x : RewriteStatus) : (setRw i x s).rw j = if j = i then x else s.rw j := by
  simp [setRw, State.rw, Table.get_set]

@[simp] theorem setSh_sh (i j : Fin 32) (x : ShareStatus) : (setSh i x s).sh j = if j = i then x else s.sh j := by
  simp [setSh, State.sh, Table.get_set]

@[simp] theorem setCounts_counts (i j : Fin 32) (x : FeedbackCounts) :
    (setCounts i x s).counts j = if j = i then x else s.counts j := by
  simp [setCounts, State.counts, Table.get_set]

@[simp] theorem setSetStatus_setStat (k l : Fin 8) (x : SetStatus) :
    (setSetStatus k x s).setStat l = if l = k then x else s.setStat l := by
  simp [setSetStatus, State.setStat, Table.get_set]

theorem tp_of_trips (h : t.trips = s.trips) (i : Fin 32) : t.tp i = s.tp i := by rw [State.tp, h]; rfl

theorem runner_of_runners (h : t.runners = s.runners) (r : Fin 4) : t.runner r = s.runner r := by
  rw [State.runner, h]; rfl

@[simp] theorem setTripLine_tp (i : Fin 32) : (setTripLine s).tp i = s.tp i := rfl

/-! ### Latches and records -/

/-- The trip latch that PEER reaching one section leaves. -/
theorem peerTrip_tripped (i j : Fin 32) : (peerTrip i s).tripped j = (s.tripped j || decide (j = i)) := by
  unfold peerTrip
  split
  · next h =>
    simp only [addLaterCause, State.tripped, setTp_tp]
    split
    · next e => subst e; simp [State.tripped] at h; simp [h]
    · simp [*]
  · simp only [latchTrip, State.tripped, setTp_tp]
    split <;> simp [*]

theorem peerTrip_tp_other {i j : Fin 32} (h : j ≠ i) : (peerTrip i s).tp j = s.tp j := by
  unfold peerTrip
  split <;> simp [addLaterCause, latchTrip, h]

/-- A TRIPPED section has a record after PEER reaches a section, when every TRIPPED one had one before. -/
theorem peerTrip_record (i j : Fin 32) (h : s.tripped j = true → (s.tp j).record.isSome = true) :
    (peerTrip i s).tripped j = true → ((peerTrip i s).tp j).record.isSome = true := by
  unfold peerTrip
  split
  · intro ht
    simp only [addLaterCause, State.tripped, setTp_tp] at *
    split at ht <;> simp_all
  · intro ht
    simp only [latchTrip, State.tripped, setTp_tp] at *
    split at ht <;> simp_all

theorem forEach_peerTrip_tripped (l : List (Fin 32)) (j : Fin 32) :
    (forEach l peerTrip s).tripped j = (s.tripped j || decide (j ∈ l)) := by
  induction l generalizing s with
  | nil => simp [forEach]
  | cons i l ih =>
    show (forEach l peerTrip (peerTrip i s)).tripped j = _
    rw [ih, peerTrip_tripped]
    by_cases e : j = i <;> simp [e]

theorem forEach_peerTrip_tp {l : List (Fin 32)} {j : Fin 32} (h : j ∉ l) : (forEach l peerTrip s).tp j = s.tp j := by
  induction l generalizing s with
  | nil => rfl
  | cons i l ih =>
    show (forEach l peerTrip (peerTrip i s)).tp j = _
    rw [ih fun hm => h (List.mem_cons_of_mem _ hm)]
    exact peerTrip_tp_other fun e => h (by simp [e])

theorem forEach_peerTrip_record (l : List (Fin 32)) (j : Fin 32)
    (h : s.tripped j = true → (s.tp j).record.isSome = true) :
    (forEach l peerTrip s).tripped j = true → ((forEach l peerTrip s).tp j).record.isSome = true := by
  induction l generalizing s with
  | nil => exact h
  | cons i l ih => exact ih (peerTrip_record i j h)

/-- R90: after the propagation nothing more of a trip action changes a latch or a record. -/
theorem tripAction_tp (c : BitVec 16) (cause : TripCause) (i j : Fin 32) :
    (tripAction c cause i s).tp j = (forEach (s.peersOf i) peerTrip (latchTrip cause i s)).tp j := by
  unfold tripAction
  generalize forEach (s.peersOf i) peerTrip (latchTrip cause i s) = u
  have h : SameExcept [.rewriter, .banks, .share, .runners, .ring, .events] u
      (handOff c (s.movedBy i) (raise .trip (haltSetOf i (forEach (s.movedBy i) cutBack u)))) :=
    (((SameExcept.forEach (fun _ _ => (cutBack_frame _).mono) _).step (haltSetOf_frame _)).step (raise_frame _)).step
      (handOff_frame ..)
  rw [setTripLine_tp]
  exact tp_of_trips (h.same .trips (by decide)) j

theorem not_mem_peersOf (i : Fin 32) : i ∉ s.peersOf i := by
  unfold State.peersOf
  split <;> simp

/-- R90 part 1: the record of the section a trip reaches. -/
theorem tripAction_own (c : BitVec 16) (cause : TripCause) (i : Fin 32) :
    (tripAction c cause i s).tp i = { latch := true
                                      record := some { cause := cause, cycle := s.link.lastCycle
                                                       speed := (s.rw i).lastOut.map (·.speed), later := 0 } } := by
  rw [tripAction_tp, forEach_peerTrip_tp (not_mem_peersOf i)]
  simp [latchTrip]

/-- R90: a section that is neither the one reached nor one of its peers keeps its latch and record. -/
theorem tripAction_other (c : BitVec 16) (cause : TripCause) {i j : Fin 32} (h : j ≠ i) (hp : j ∉ s.peersOf i) :
    (tripAction c cause i s).tp j = s.tp j := by
  rw [tripAction_tp, forEach_peerTrip_tp hp]
  simp [latchTrip, h]

/-- R90, R91: the latches after a trip reaches a section. -/
theorem tripSection_tripped (c : BitVec 16) (cause : TripCause) (i j : Fin 32) :
    (tripSection c cause i s).tripped j =
      (s.tripped j || (!s.tripped i && (decide (j = i) || decide (j ∈ s.peersOf i)))) := by
  unfold tripSection
  split
  · next h =>
    simp only [h, Bool.not_true, Bool.false_and, Bool.or_false]
    simp only [addLaterCause, State.tripped, setTp_tp]
    split
    · next e => rw [e]
    · rfl
  · next h =>
    have : (tripAction c cause i s).tripped j = (forEach (s.peersOf i) peerTrip (latchTrip cause i s)).tripped j := by
      simp only [State.tripped, tripAction_tp]
    rw [this, forEach_peerTrip_tripped]
    simp only [latchTrip, State.tripped, setTp_tp] at *
    by_cases e : j = i <;> simp [e, h]

/-- R91: a trip that reaches a TRIPPED section changes the later causes of that section alone. -/
theorem tripSection_later (c : BitVec 16) (cause : TripCause) (i : Fin 32) (h : s.tripped i = true) :
    tripSection c cause i s = addLaterCause cause i s := if_pos h

/-- A TRIPPED section has a record after any trip, when every TRIPPED one had one before. -/
theorem tripSection_record (c : BitVec 16) (cause : TripCause) (i j : Fin 32)
    (h : s.tripped j = true → (s.tp j).record.isSome = true) :
    (tripSection c cause i s).tripped j = true → ((tripSection c cause i s).tp j).record.isSome = true := by
  unfold tripSection
  split
  · intro ht
    simp only [addLaterCause, State.tripped, setTp_tp] at *
    split at ht <;> simp_all
  · intro ht
    simp only [State.tripped, tripAction_tp] at *
    refine forEach_peerTrip_record (s := latchTrip cause i s) _ j (fun hl => ?_) ht
    simp only [latchTrip, State.tripped, setTp_tp] at *
    split at hl <;> simp_all

/-! ### What no trip changes -/

/-- The relation "a projection of the state is the same" is closed under trips when it is under their updates. -/
theorem same_closed {α : Type} (f : State → α) (he : ∀ e s, f (raise e s) = f s)
    (hp : ∀ ws s, f (produceRecord ws s) = f s) (hc : ∀ s, f (takeChoice s).2 = f s)
    (hl : ∀ c r how s, f (leaveRunner c r how s) = f s) (hr : ∀ i x s, f (setRw i x s) = f s)
    (hs : ∀ i x s, f (setSh i x s) = f s) (hn : ∀ i x s, f (setCounts i x s) = f s)
    (hk : ∀ k x s, f (setSetStatus k x s) = f s) (ht : ∀ i x s, f (setTp i x s) = f s)
    (hi : ∀ s, f (setTripLine s) = f s) : Closed fun s t => f t = f s where
  refl _ := rfl
  trans h k := k.trans h
  raise e s := he e s
  produce ws s := hp ws s
  takeChoice s := hc s
  leave c r how s _ := hl c r how s
  setRw i x s := hr i x s
  setSh i x s := hs i x s
  setCounts i x s := hn i x s
  setSetStatus k x s := hk k x s
  setTp i x s _ := ht i x s
  setTripLine s := hi s

theorem produceRecord_same {α : Type} (f : State → α) (h : ∀ g e s, f ((s.setRing g).setEvents e) = f s)
    (k : ∀ g s, f (s.setRing g) = f s) (ws : List Word) (s : State) : f (produceRecord ws s) = f s := by
  unfold produceRecord
  split
  · exact k ..
  · exact h ..

/-- R66: no trip, share computation or supervision changes a set record's settings. -/
theorem sets_closed : Closed fun s t => t.share.sets = s.share.sets :=
  same_closed (fun s => s.share.sets) (fun _ _ => rfl)
    (fun ws s => congrArg (·.sets) ((produceRecord_frame ws).same .share (by decide))) (fun _ => rfl)
    (fun c r how s => congrArg (·.sets) ((leaveRunner_frame c r how).same .share (by decide)))
    (fun _ _ _ => rfl) (fun _ _ _ => rfl) (fun _ _ _ => rfl) (fun _ _ _ => rfl) (fun _ _ _ => rfl) (fun _ => rfl)

/-- R93: no trip, share computation or supervision changes the web-break filter. -/
theorem wbrk_closed : Closed fun s t => t.trips.wbrk = s.trips.wbrk :=
  same_closed (fun s => s.trips.wbrk) (fun _ _ => rfl)
    (fun ws s => congrArg (·.wbrk) ((produceRecord_frame ws).same .trips (by decide))) (fun _ => rfl)
    (fun c r how s => congrArg (·.wbrk) ((leaveRunner_frame c r how).same .trips (by decide)))
    (fun _ _ _ => rfl) (fun _ _ _ => rfl) (fun _ _ _ => rfl) (fun _ _ _ => rfl) (fun _ _ _ => rfl) (fun _ => rfl)

/-- R47: no trip, share computation or supervision changes a feedback record. -/
theorem feedback_closed : Closed fun s t => (t.banks.fill, t.banks.held) = (s.banks.fill, s.banks.held) :=
  same_closed (fun s => (s.banks.fill, s.banks.held)) (fun _ _ => rfl)
    (fun ws s => congrArg (fun x : Banks => (x.fill, x.held)) ((produceRecord_frame ws).same .banks (by decide)))
    (fun _ => rfl)
    (fun c r how s => congrArg (fun x : Banks => (x.fill, x.held)) ((leaveRunner_frame c r how).same .banks (by decide)))
    (fun _ _ _ => rfl) (fun _ _ _ => rfl) (fun _ _ _ => rfl) (fun _ _ _ => rfl) (fun _ _ _ => rfl) (fun _ => rfl)

/-! ### Runners -/

/-- R143: how a context can come out of operations that only make runners leave: as it stood, or left, when it was
RUNNING or WAITING. -/
def Runner.leftFrom (old new : Runner) : Prop := new = old ∨ (old.isLive = true ∧ ∃ how, new = old.left how)

theorem left_not_live (c : Runner) (how : Leaving) : (c.left how).isLive = false := by cases how <;> rfl

theorem leftFrom_trans {a b c : Runner} (h : Runner.leftFrom a b) (k : Runner.leftFrom b c) : Runner.leftFrom a c := by
  rcases h with rfl | ⟨h, how, rfl⟩
  · exact k
  · rcases k with rfl | ⟨k, _⟩
    · exact .inr ⟨h, how, rfl⟩
    · rw [left_not_live] at k; cases k

/-- R143: a leaving changes the context of one runner. -/
theorem leaveRunner_runner (c : BitVec 16) (r q : Fin 4) (how : Leaving) :
    (leaveRunner c r how s).runner q = if q = r then (s.runner r).left how else s.runner q := by
  have h : (leaveRunner c r how s).runner q =
      (setRunner r ((s.runner r).left how)
        (produceIf (s.runner r).recording (endRecord r (s.runner r) how c) s)).runner q := rfl
  rw [h, setRunner_runner, produceIf_runner]

/-- R90, R143, R145: what trips, share computations and supervision do to the runners. -/
theorem runners_closed : Closed fun s t => ∀ r, Runner.leftFrom (s.runner r) (t.runner r) where
  refl _ _ := .inl rfl
  trans h k r := leftFrom_trans (h r) (k r)
  raise _ _ _ := .inl rfl
  produce ws s r := .inl (runner_of_runners ((produceRecord_frame ws).same .runners (by decide)) r)
  takeChoice _ _ := .inl rfl
  leave c r how s h q := by
    rw [leaveRunner_runner]
    split
    · next e => subst e; exact .inr ⟨h, how, rfl⟩
    · exact .inl rfl
  setRw _ _ _ _ := .inl rfl
  setSh _ _ _ _ := .inl rfl
  setCounts _ _ _ _ := .inl rfl
  setSetStatus _ _ _ _ := .inl rfl
  setTp _ _ _ _ _ := .inl rfl
  setTripLine _ _ := .inl rfl

/-- R90: the TRIP flag is set by a trip action, and no trip clears a flag. -/
theorem setBit16_self (f : BitVec 16) {n : Nat} (h : n < 16) : (setBit16 f n).getLsbD n = true := by
  simp [setBit16, h]

theorem setBit16_mono (f : BitVec 16) (m n : Nat) (h : f.getLsbD n = true) : (setBit16 f m).getLsbD n = true := by
  simp [setBit16, h]

end Sys2Proof.Machine
end

