-- ==== Sys2Proof/Tests/Slice0.lean ====
section
/-! SUPPORT. The author's own tests: the smoke test of WellFormed, single steps against the spec's worked cases, and a
witness for the hypotheses of every statement. -/

namespace Sys2Proof.Tests

-- One test after another: elaborated side by side they ask for more threads than check.sh's memory limit grants.
set_option Elab.async false

open Sys2Proof Sys2Proof.Machine

/-! ### WellFormed refuses an ill-formed term of each kind -/

/-- Nine data words, one more than a block carries (R168). -/
def nine : List Word := List.replicate 9 0

theorem test_illFormed_data :
    Instr.wellFormed (.write 0 4 0 0 nine) = false ∧ Instr.wellFormed (.sectionWrite 0 0 0 nine) = false ∧
    Instr.wellFormed (.setWrite 0 0 0 nine) = false ∧ Instr.wellFormed (.programWrite 0 0 0 nine) = false ∧
    Instr.wellFormed (.eventsWrite 0 0 0 nine) = false ∧ Instr.wellFormed (.bridgeWrite 0 0 0 nine) = false ∧
    Instr.wellFormed (.start 0 0 0 nine) = false ∧ Instr.wellFormed (.signal 0 0 nine) = false ∧
    Instr.wellFormed (.clear 0 nine) = false ∧ Instr.wellFormed (.protect 0 0 nine) = false := by decide

theorem test_illFormed_count :
    Instr.wellFormed (.read 0 1 0 0 9) = false ∧ Instr.wellFormed (.ringStreamRead 0 9) = false := by decide

theorem test_illFormed_row :
    Instr.wellFormed (.read 0 6 0 0 1) = false ∧ Instr.wellFormed (.write 0 1 0 0 []) = false ∧
    Instr.wellFormed (.write 0 2 0 0 []) = false ∧ Instr.wellFormed (.write 0 3 0 0 []) = false ∧
    Instr.wellFormed (.write 0 8 0 0 []) = false ∧ Instr.wellFormed (.write 0 9 0 0 []) = false ∧
    Instr.wellFormed (.badRequest 0 1) = false ∧ Instr.wellFormed (.badRequest 0 12) = false := by decide

theorem test_wellFormed :
    Instr.wellFormed (.read 0 6 1 0 8) = true ∧ Instr.wellFormed (.write 0 4 0 0 [1]) = true ∧
    Instr.wellFormed (.badRequest 0 13) = true ∧ Instr.wellFormed (.clear 0 [0, 256]) = true := by decide

/-! ### Single steps and operations against the spec's worked cases -/

/-- The state a command leaves. -/
def after (c : Instr) (s : State) : State :=
  match exec c s with
  | .next t => t
  | _ => s

/-- A bridge inline in STANDBY at strap address 5, the key ON, both receivers BETWEEN. -/
def stand : State :=
  { State.reset with
    control := { mode := .standby, relay := .opened, resetHeld := false, strap := 5
                 key := { raw := true, filtered := true, changedAt := 0 } }
    link := { State.reset.link with
      rxC := { Receiver.afterReset with rx := .between }, rxD := { Receiver.afterReset with rx := .between } } }

/-- The same bridge ENGAGED, its cycle timer RUNNING. -/
def eng : State :=
  { stand with
    control := { stand.control with mode := .engaged }, link := { stand.link with timer := .running 40000 } }

/-- An ACTIVE section record with a trim limit. -/
def active (a : BitVec 6) : SectionSettings :=
  { SectionSettings.afterReset with valid := true, node := a, mode := .active, trimLimit := 5000 }

/-- The snapshot of the section of 1.7.1. -/
def snap171 : SnapEntry :=
  { SnapEntry.afterReset with
    valid := true, node := 9, mode := .active, draw := BitVec.ofInt 32 (-850), share := BitVec.ofInt 32 (-120)
    inject := 500, trimLimit := 5000, slewLimit := 300, trimPrev := BitVec.ofInt 32 (-200), vMin := 0
    vMax := 2000000 }

/-- spec/01, 1.7.1: frame k gives T = −500 and 1,234,067, frame k+1 T = −669. -/
theorem test_trim_worked_case :
    snap171.trimFor 1234567 = -500 ∧ snap171.outputSpeed 1234567 = 1234067 ∧
    SnapEntry.trimFor { snap171 with trimPrev := BitVec.ofInt 32 (-500) } 1234567 = -669 := by decide

/-- spec/01, 1.7.2: ties away from zero. The table's last three rows are a thousandth of their own formula's value
(log 29). -/
theorem test_drawTerm_worked_cases :
    drawTerm 1000001 500 = 500 ∧ drawTerm 3000 500 = 2 ∧ drawTerm (-3000) 500 = -2 ∧
    drawTerm 2147483647 50000 = 107374182 ∧ drawTerm (-2147483648) 50000 = -107374182 := by decide

/-- spec/01, 1.7.4: the window clamps the output and not the trim. -/
theorem test_window_worked_case :
    let e := { snap171 with draw := 0, share := 400, inject := 0, trimPrev := 400 }
    e.outputSpeed 1999800 = 2000000 ∧ e.trimFor 1999800 = 400 ∧ e.windowHit ⟨1999800, 0, 0⟩ = true ∧
    e.outputSpeed 1999000 = 1999400 := by decide

/-- spec/01, 1.7.5: flags 0, 3, 5 under mask 3, 4 and value 4 leave as 0, 4, 5 (REPLACE) and 0, 3, 4, 5 (XOR). -/
theorem test_command_worked_case :
    let e := { snap171 with overrideMask := 0x0018, overrideValue := 0x0010, torqueCap := 2500 }
    (e.sentFields ⟨0, 0x0029, 3500⟩).command = 0x0031 ∧ (e.sentFields ⟨0, 0x0029, 3500⟩).torque = 2500 ∧
    (SnapEntry.sentFields { e with overrideFn := .xor } ⟨0, 0x0029, 4500⟩).command = 0x0039 := by decide

/-- spec/07, 6.9.1: ramps are truncated toward their origin. -/
theorem test_ramp_worked_case :
    rampValue 0 (-1000) 1 3 = -333 ∧ rampValue 0 (-1000) 2 3 = -666 ∧ rampValue 0 (-1000) 3 3 = -1000 ∧
    rampValue 500 (-500) 1 4 = 250 ∧ rampValue 500 (-500) 3 4 = -250 := by decide

/-- CRC-16 with generator 1021h and FFFFh first (R197), over the bytes 31h to 38h: A12Bh, worked out by hand apart from
the model. -/
theorem test_check_word : crcWords crcInit [0x3132, 0x3334, 0x3536, 0x3738] = 0xA12B := by decide +kernel

/-- Table 11-11 and R155: step records of kind 10 (CUT), and an index past the table. -/
theorem test_step_check :
    StepRecord.read ⟨0x0000000A, 0, 0, 0⟩ 1 = some (.cut 0) ∧ StepRecord.read ⟨0x0000010A, 0, 0, 0⟩ 1 = none ∧
    StepRecord.read ⟨3, 0, 0, 0⟩ 1 = none ∧ StepRecord.read ⟨7, 0, 0, 0x00000200⟩ 1 = none := by decide

/-- R26: after reset no switch-in is possible; R184: a bridge in a common gap goes inline. -/
theorem test_switchIn :
    (after .switchIn State.reset).control.mode = .relayed ∧
    (after .switchIn { stand with control := { stand.control with mode := .relayed } }).control.mode = .standby := by
  decide +kernel

/-- R27, R28: a start mark, and a wrong kind word, at Port C. -/
theorem test_wrong_kind :
    let s := after (.startMark .c) stand
    s.link.txD.queue = [.startMark] ∧ (after (.dataWord .c 0x00A6) s).link.txD.queue = [.startMark, .abortMark] ∧
    (after (.dataWord .c 0x00C3) s).link.txD.queue = [.startMark, .word 0x00C3] := by decide +kernel

/-- R98, R102: a TRIP asserts the trip line; R166: a second request while the slot is full is discarded. -/
theorem test_trip :
    let s := storeSettings 3 (active 7) eng
    (after (.trip 1 3) s).trips.line = true ∧ (after (.trip 1 4) s).service.slot = some (plainAnswer 1 9 .noEntry) ∧
    (after (.engage 2) (after (.trip 1 4) s)).flag .serviceOverrun = true := by decide +kernel

/-- R174: a trim limit above its range is stored clamped and answered CLAMPED with the stored word. -/
theorem test_clamped_write :
    (after (.sectionWrite 4 2 3 [300001]) stand).service.slot =
      some { tag := 4, kind := 2, code := .clamped, data := [300000], firstHeader := none } := by decide +kernel

/-! ### Witnesses: states and operands that meet the hypotheses of each statement -/

/-- The bridge of `stand` with the reset still asserted. -/
def inReset : State := { stand with control := { stand.control with mode := .relayed, relay := .closed, resetHeld := true } }

/-- The bridge of `stand` in RELAYED, with a strap address. -/
def relayed (strap : BitVec 6) : State :=
  { stand with control := { stand.control with mode := .relayed, relay := .closed, strap := strap } }

/-- ENGAGED with ACTIVE sections at indexes 0 (break response yes) and 1. -/
def eng2 : State := storeSettings 0 { active 1 with breakResponse := true } (storeSettings 1 (active 2) eng)

/-- The bridge of `eng2` with section 0 TRIPPED with MANUAL. -/
def eng2t : State := setTp 0 { latch := true, record := some { cause := .manual, cycle := 0, speed := none, later := 0 } } eng2

/-- A receiver that has begun a frame. -/
def rx0 : Receiver := Receiver.afterReset

/-- A receiver that has taken a whole frame with a good, or bad, check word. -/
def rxDone (good : Bool) : Receiver := { rx0 with pos := 5, count := 1, checkGood := some good }

/-- A forwarding queue that holds `n` symbols. -/
def fill (n : Nat) (p : Port) (s : State) : State :=
  setTransmitter p { queue := List.replicate n .idle, abortsOwed := 0, line := .idle } s

/-- Set 2 of spec/04 4.8 over sections 0 and 1: gain 64, deadband 10, threshold 30, persistence 3, limit 40. -/
def set48 : SetSettings :=
  { SetSettings.afterReset with
    valid := true, memberCount := 2, members := ⟨[0, 1, 0, 0, 0, 0], rfl⟩, gain := 64, deadband := 10
    imbThreshold := 30, imbPersist := 3, shareLimit := 40 }

/-- That set with its two sections in STANDBY. -/
def standS : State := storeSet 2 set48 (storeSettings 0 (active 1) (storeSettings 1 (active 2) stand))

theorem witness_canServe : stand.canServe ∧ eng.canServe := ⟨⟨rfl, rfl⟩, ⟨rfl, rfl⟩⟩

theorem witness_EmptyQueuePassesTime :
    (stand.pending = [] ∧ stand.dueEvents = []) ∧
    (let s := { eng with clock := { now := 40000, choices := 0 }, link := { eng.link with
      rxC := { eng.link.rxC with lastEdge := 40000 }, rxD := { eng.link.rxD with lastEdge := 40000 } } }
     s.pending = [] ∧ s.dueEvents = [.timeout]) := by decide +kernel

theorem witness_SettingsChangeOnlyByWrites :
    exec .switchIn stand = .next stand ∧ (∀ straps, Instr.switchIn ≠ .hardwareReset straps) ∧
    (∀ tag g r o d, Instr.switchIn ≠ .write tag g r o d) ∧ (∀ tag r o d, Instr.switchIn ≠ .sectionWrite tag r o d) ∧
    (∀ tag r o d, Instr.switchIn ≠ .setWrite tag r o d) ∧ (∀ tag r o d, Instr.switchIn ≠ .programWrite tag r o d) ∧
    (∀ tag r o d, Instr.switchIn ≠ .eventsWrite tag r o d) ∧ (∀ tag g d, Instr.switchIn ≠ .protect tag g d) := by
  refine ⟨rfl, ?_, ?_, ?_, ?_, ?_, ?_, ?_⟩ <;> intros <;> exact Instr.noConfusion

/-- A cycle frame for the bridge of `stand` that carries a service block, its end mark to come. -/
def carrying (block : List LinkWord) (s : State) : State :=
  setReceiver .c { Receiver.afterReset with pos := 9, count := 1, target := 5, blockLen := 4, checkGood := some true }
    (s.setLink { s.link with reqBuf := block })

/-- What `closesWith` asks: a frame's end without a block for the bridge, with one of kind 9. -/
theorem witness_closesWith :
    closesWith (.cycleClose []) [9] (carrying [0x0109, 0, 3, 0] stand) ∧
    ¬ closesWith (.cycleClose []) [2] (carrying [0x0109, 0, 3, 0] stand) ∧
    ¬ closesWith (.endMark .c []) [2, 8, 11, 12] stand :=
  ⟨⟨.inl ⟨[], rfl⟩, by decide +kernel, by decide +kernel⟩, fun h => absurd h.2.2 (by decide +kernel),
    fun h => absurd h.2.1 (by decide +kernel)⟩

theorem witness_LatchesFlagsAndRingWordsStay :
    exec .switchIn (raise .trip eng2t) = .next (raise .trip eng2t) ∧ (raise .trip eng2t).tripped 0 = true ∧
    (raise .trip eng2t).flag .trip = true ∧ (∀ tag i, Instr.switchIn ≠ .release tag i) ∧
    (∀ tag items, Instr.switchIn ≠ .clear tag items) ∧ (∀ tag n, Instr.switchIn ≠ .ringStreamRead tag n) ∧
    (∀ tag g r o n, Instr.switchIn ≠ .read tag g r o n) := by
  refine ⟨rfl, by decide +kernel, by decide +kernel, ?_, ?_, ?_, ?_⟩ <;> intros <;> exact Instr.noConfusion

theorem witness_ResetEndAndInputFilters_reset :
    inReset.control.resetHeld = true ∧ stand.control.resetHeld = false ∧
    (∀ n ∈ [1, 62], let s := relayed (BitVec.ofNat 6 n)
      s.control.resetHeld = false ∧ s.control.mode = .relayed ∧ 1 ≤ s.control.strap.toNat ∧
      s.control.strap.toNat ≤ 62 ∧ s.link.rxC.rx = .between ∧ s.link.rxD.rx = .between) ∧
    (relayed 0).control.strap.toNat = 0 ∧ (relayed 63).control.strap.toNat = 63 ∧
    State.reset.link.rxC.rx ≠ .between ∧ State.reset.link.rxD.rx ≠ .between := by decide +kernel

theorem witness_ResetEndAndInputFilters_inputs :
    false ≠ stand.control.key.raw ∧ true ≠ stand.trips.wbrk.raw ∧ stand.control.resetHeld = false ∧
    (let s := setKey ⟨true, false, 0⟩ eng
     s.control.key.raw ≠ s.control.key.filtered ∧ s.control.key.raw = true) ∧
    (let s := setKey ⟨false, true, 0⟩ stand
     s.control.key.raw ≠ s.control.key.filtered ∧ s.control.mode ≠ .engaged) ∧
    (let s := setWbrk ⟨true, false, 0⟩ stand
     s.trips.wbrk.raw = true ∧ s.trips.wbrk.filtered = false ∧ s.control.mode ≠ .engaged) ∧
    (let s := setWbrk ⟨false, true, 0⟩ eng
     s.trips.wbrk.raw = false ∧ s.trips.wbrk.filtered = true ∧ s.control.resetHeld = false) := by decide +kernel

theorem witness_Disengage :
    (eng.canServe ∧ eng.control.mode = .engaged) ∧ (stand.canServe ∧ stand.control.mode ≠ .engaged) ∧
    (let s := setKey ⟨false, true, 0⟩ eng
     s.control.resetHeld = false ∧ s.control.key.raw = false ∧ s.control.key.filtered = true ∧
     s.control.mode = .engaged) := ⟨⟨⟨rfl, rfl⟩, rfl⟩, ⟨⟨rfl, rfl⟩, by decide⟩, rfl, rfl, rfl, rfl⟩

/-- STANDBY with the cycle timer RUNNING. -/
def standT : State := { stand with link := { stand.link with timer := .running 1 } }

theorem witness_Engage :
    eng.control.mode = .engaged ∧
    (let s := setKey ⟨true, false, 0⟩ stand
     s.control.mode ≠ .engaged ∧ s.control.key.filtered = false) ∧
    (stand.control.mode ≠ .engaged ∧ stand.control.key.filtered = true ∧ stand.link.timer = .expired) ∧
    (let s := setTp 31 { latch := true, record := none } standT
     s.control.mode ≠ .engaged ∧ s.control.key.filtered = true ∧ s.link.timer ≠ .expired ∧ s.tripped 31 = true) ∧
    (standT.control.mode ≠ .engaged ∧ standT.control.key.filtered = true ∧ standT.link.timer ≠ .expired ∧
      (∀ i, standT.tripped i = false) ∧ standT.trips.wbrk.filtered = false) := by decide +kernel

theorem witness_BreakTrips :
    (let s := setWbrk ⟨true, false, 0⟩ eng2
     s.control.resetHeld = false ∧ s.trips.wbrk.raw = true ∧ s.trips.wbrk.filtered = false ∧
     s.control.mode = .engaged ∧ (s.settings 0).valid = true ∧ (s.settings 0).mode = .active ∧
     (s.settings 0).breakResponse = true ∧ s.tripped 0 = false) ∧
    (let s := setWbrk ⟨true, false, 0⟩ eng2t
     s.tripped 0 = true ∧ (s.settings 0).valid = true ∧ (s.settings 0).breakResponse = true ∧
     (s.tp 0).record = some { cause := .manual, cycle := 0, speed := none, later := 0 }) ∧
    (let s := storeSettings 0 { active 1 with breakResponse := true } (setWbrk ⟨true, true, 0⟩ standT)
     s.control.mode ≠ .engaged ∧ s.control.key.filtered = true ∧ s.link.timer ≠ .expired ∧
     (∀ i, s.tripped i = false) ∧ s.trips.wbrk.filtered = true ∧ (s.settings 0).valid = true ∧
     (s.settings 0).mode = .active ∧ (s.settings 0).breakResponse = true) := by decide +kernel

theorem witness_PassiveTap :
    (relayed 5).control.resetHeld = false ∧ (relayed 5).control.mode = .relayed := by decide +kernel

theorem witness_BetweenFramesAndTransmit_between :
    ∀ p, stand.inline = true ∧ (stand.receiver p).rx = .between ∧
      ((fill 255 (otherPort p) stand).receiver p).rx = .between ∧
      ((fill 255 (otherPort p) stand).transmitter (otherPort p)).queue.length < 256 ∧
      ((fill 255 (otherPort p) stand).transmitter (otherPort p)).abortsOwed = 0 := by
  intro p; cases p <;> decide +kernel

theorem witness_StartMark :
    (let s := fill 254 .d stand
     s.inline = true ∧ s.link.txD.abortsOwed = 0 ∧ s.link.txD.queue.length + 2 ≤ 256) ∧
    (let s := setReceiver .c rx0 (fill 254 .d eng)
     s.inline = true ∧ s.link.rxC.rx = .inFrame ∧ s.link.rxC.failed = false ∧ s.link.txD.queue.length + 2 ≤ 256) := by
  decide +kernel

theorem witness_CycleFrameWords :
    (let s := setReceiver .c { rx0 with pos := 4, count := 1, seen := [1] } (fill 255 .d stand)
     s.control.mode = .standby ∧ s.inline = true ∧ s.link.rxC.parsing = true ∧ s.link.rxC.place = .entry 0 0 ∧
     s.link.rxC.hold = none ∧ s.link.txD.queue.length < 256 ∧ s.link.txD.abortsOwed = 0 ∧
     (1 : LinkWord) ∈ s.link.rxC.seen) ∧
    (let s := setReceiver .c { rx0 with pos := 8, count := 1 } eng
     s.link.rxC.parsing = true ∧ s.link.rxC.place = .entry 0 4 ∧ s.link.rxC.hold = none ∧
     ∀ i, (s.rewriter.snap.get i).valid = true → (s.rewriter.snap.get i).node.toNat ≠ (62 : LinkWord).toNat) ∧
    (let s := setReceiver .c { rx0 with pos := 4, count := 1 } (takeSnapshot eng2)
     s.control.mode = .engaged ∧ s.link.rxC.parsing = true ∧ s.link.rxC.place = .entry 0 0 ∧
     (2 : LinkWord) ∉ s.link.rxC.seen ∧ (s.rewriter.snap.get 1).valid = true ∧
     (s.rewriter.snap.get 1).node.toNat = (2 : LinkWord).toNat ∧
     (∀ j < (1 : Fin 32), (s.rewriter.snap.get j).valid = true →
       (s.rewriter.snap.get j).node.toNat ≠ (2 : LinkWord).toNat)) ∧
    (∀ n ∈ [5, 7], let s := setReceiver .c { rx0 with pos := n, count := 1, hold := some 1 } eng2
     s.inline = true ∧ s.link.rxC.parsing = true ∧ s.link.rxC.place = .entry 0 (n - 4) ∧
     s.link.rxC.hold = some 1) ∧
    (let s := setReceiver .c { rx0 with pos := 3, count := 1 } stand
     s.inline = true ∧ s.link.rxC.parsing = true ∧ s.link.rxC.place = .target ∧ (62 : LinkWord).toNat ≤ 62 ∧
     (5 : LinkWord).toNat = s.control.strap.toNat ∧ s.link.txD.queue.length < 256) ∧
    (∀ n ∈ [5, 62], let s := setReceiver .c { rx0 with pos := 10, count := 1, target := BitVec.ofNat 16 n } stand
     s.inline = true ∧ s.link.rxC.parsing = true ∧ s.link.rxC.place = .block 1 ∧ (0xFF08 : LinkWord).toNat % 256 ≤ 8 ∧
     s.link.rxC.target ≠ 0 ∧ (s.link.rxC.target.toNat = s.control.strap.toNat ↔ n = 5) ∧
     s.link.txD.queue.length < 256 ∧ s.link.txD.abortsOwed = 0) := by decide +kernel

theorem witness_ReportHeader :
    (∀ n ∈ [1, 46, 47, 48],
      (let s := setReceiver .d { rx0 with pos := 3, count := BitVec.ofNat 16 n } stand
       s.inline = true ∧ s.link.rxD.parsing = true ∧ s.link.rxD.place = .target ∧ (62 : LinkWord).toNat ≤ 62 ∧
       1 ≤ s.link.rxD.count.toNat ∧ s.link.rxD.count.toNat ≤ 48 ∧ s.link.txC.queue.length < 256 ∧
       s.link.txC.abortsOwed = 0)) ∧
    (let s := setReceiver .d { rx0 with pos := 1 } (fill 255 .c stand)
     s.inline = true ∧ s.link.rxD.parsing = true ∧ s.link.rxD.place = .count ∧ (48 : LinkWord).toNat ≤ 48 ∧
     s.link.txC.queue.length < 256 ∧ s.link.txC.abortsOwed = 0) ∧
    (let s := setReceiver .d { rx0 with pos := 3 } (fill 248 .c (stand.answered (plainAnswer 1 9 .ok)))
     s.inline = true ∧ s.link.rxD.parsing = true ∧ s.link.rxD.place = .target ∧ s.link.rxD.count = 0 ∧
     (∀ n, (s.events.classes.get n).toNat ≤ 3) ∧ s.service.slot.isSome ∧
     s.link.txC.queue.length + 6 + s.answerCarried.length = 256 ∧ s.link.txC.abortsOwed = 0) := by decide +kernel

/-- R39, R40, R202: a report frame of no entries through `stand` with cycle 7 last and TRIP set: the bridge entry of
address 5, STANDBY, key ON, attention class 0, with the answer block after it. -/
theorem test_bridge_entry :
    let s := setReceiver .d { rx0 with pos := 3 } (raise .trip (storeCycle 7 (stand.answered (plainAnswer 1 9 .ok))))
    (after (.dataWord .d 0) s).link.txC.queue =
      [5, 5, 0x0085, 7, 0, 0, 0x0109, 0].map fun n : LinkWord => Symbol.word n := by decide +kernel

/-- A report frame at the last word of its second status entry, of address `a`, with one queue place free. -/
def statusEntry (a : LinkWord) (count : Nat) (free : Nat) : State :=
  setReceiver .d { rx0 with pos := 13, count := BitVec.ofNat 16 count, entry := [a, 2, 3, 4], seen := [1], append := .entry }
    (fill (256 - free) .c standS)

theorem witness_StatusEntry :
    (∀ s ∈ [statusEntry 1 2 6, statusEntry 1 3 6, statusEntry 2 2 6, statusEntry 63 3 6],
     s.inline = true ∧ s.link.rxD.parsing = true ∧ s.link.rxD.place = .entry 1 4 ∧
     (∀ n, (s.events.classes.get n).toNat ≤ 3) ∧
     s.link.txC.queue.length + 6 + s.answerCarried.length = 256 ∧ s.link.txC.abortsOwed = 0 ∧
     s.link.rxD.append ≠ .nothing) ∧
    (statusEntry 1 2 6).link.rxD.entry = [1, 2, 3, 4] ∧ (1 : LinkWord) ∈ (statusEntry 1 2 6).link.rxD.seen := by
  decide +kernel

theorem witness_StatusEntry_addresses (a : LinkWord) (n k : Nat) : AddressesOk (statusEntry a n k) := by
  have hc : (statusEntry a n k).control = standS.control := rfl
  have ht : ∀ i, (statusEntry a n k).settings i = standS.settings i := fun _ => rfl
  simp only [AddressesOk, hc, ht]
  decide +kernel

/-- R31, R49: the last word of a repeated address finds the queue full: DUP_NODE and FORMAT_BAD are both raised. -/
theorem test_dupNode_full_queue :
    let t := after (.dataWord .d 9) (statusEntry 1 3 0)
    t.flag .dupNode = true ∧ t.flag .formatBad = true ∧ t.link.txC.abortsOwed = 1 ∧ t.banks.fill.get 0 = none ∧
    (after (.dataWord .d 9) (statusEntry 2 3 0)).flag .dupNode = false := by decide +kernel

theorem witness_TreatedEntry :
    let s := setReceiver .c { rx0 with pos := 8, count := 1, hold := some 0, entry := [1, 2, 3, 4] } (fill 251 .d eng2)
    s.control.mode = .engaged ∧ s.link.rxC.parsing = true ∧ s.link.rxC.place = .entry 0 4 ∧
    s.link.rxC.hold = some 0 ∧ s.link.rxC.holdPass = false ∧ s.link.rxC.entry = [1, 2, 3, 4] ∧
    s.link.txD.queue.length + 5 ≤ 256 ∧ s.link.txD.abortsOwed = 0 := by decide +kernel

theorem witness_TreatedEntry_pass :
    ∀ s ∈ [stand, eng2],
    let u := setReceiver .c
      { rx0 with pos := 8, count := 1, hold := some 0, holdPass := true, entry := [1, 2, 3, 4] } (fill 251 .d s)
    u.inline = true ∧ u.link.rxC.parsing = true ∧ u.link.rxC.place = .entry 0 4 ∧ u.link.rxC.hold = some 0 ∧
    u.link.rxC.holdPass = true ∧ u.link.rxC.entry = [1, 2, 3, 4] ∧ u.link.txD.queue.length + 5 ≤ 256 ∧
    u.link.txD.abortsOwed = 0 := by decide +kernel

/-- R10: an entry held at a disengage leaves with the words it came with. -/
theorem test_held_pass :
    (after (.dataWord .c 5) (setReceiver .c
      { rx0 with pos := 8, count := 1, hold := some 0, entry := [1, 2, 3, 4] } stand)).link.txD.queue =
      [1, 2, 3, 4, 5].map Symbol.word := by decide +kernel

/-- The three branches of TrimStep: the wanted trim within the limit, below it and above it. -/
theorem witness_DrawTermAndTrimStep_step :
    (let w := drawTerm 1234567 snap171.draw.toInt + snap171.share.toInt + snap171.inject.toInt
     w ≤ snap171.trimLimit.toNat ∧ -(snap171.trimLimit.toNat : Int) ≤ w ∧ snap171.trimFor 1234567 ≠ w) ∧
    (let e := { snap171 with share := BitVec.ofInt 32 (-9000) }
     drawTerm 0 e.draw.toInt + e.share.toInt + e.inject.toInt < -(e.trimLimit.toNat : Int)) ∧
    (let e := { snap171 with share := 9000 }
     (e.trimLimit.toNat : Int) < drawTerm 0 e.draw.toInt + e.share.toInt + e.inject.toInt) ∧
    (-(snap171.trimLimit.toNat : Int) ≤ snap171.trimPrev.toInt ∧
      snap171.trimPrev.toInt ≤ snap171.trimLimit.toNat) := by decide +kernel

theorem witness_DrawTermAndTrimStep_draw :
    (0 : Int) ≤ 3000 * 500 ∧ (-3000 : Int) * 500 < 0 ∧ -2147483648 ≤ (-2147483648 : Int) ∧
    (2147483647 : Int) ≤ 2147483647 ∧ -50000 ≤ (-50000 : Int) ∧ (50000 : Int) ≤ 50000 := by decide

theorem witness_SentFields :
    (let e := { SnapEntry.afterReset with tripped := false }
     e.tripped = false ∧ e.mode = .pass) ∧
    (∀ c ∈ [Cutoff.hold, .strip, .stop, .ignore],
      (let e := { snap171 with tripped := true, cutoff := c, lastOut := none }
       e.tripped = true ∧ e.cutoff = c ∧ e.lastOut = none ∧ e.mode = .active ∧ e.vMin.toInt ≤ e.vMax.toInt)) ∧
    (let e := { snap171 with tripped := true, cutoff := .hold, lastOut := some ⟨1, 2, 3⟩ }
     e.tripped = true ∧ e.cutoff = .hold ∧ e.lastOut = some ⟨1, 2, 3⟩) ∧
    (let e := { SnapEntry.afterReset with tripped := true, cutoff := .ignore }
     e.tripped = true ∧ e.cutoff = .ignore ∧ e.mode = .pass) := by decide +kernel

theorem witness_FrameGivenUp :
    ∀ p, (let s := setReceiver p rx0 (fill 255 (otherPort p) stand)
      s.inline = true ∧ (s.receiver p).parsing = true ∧
      (s.transmitter (otherPort p)).queue.length < 256 ∧ (s.transmitter (otherPort p)).abortsOwed = 0 ∧
      wordMalformed p (s.receiver p) 0 = true ∧ (s.receiver p).checkGood = none) := by
  intro p; cases p <;> decide +kernel

/-- Each place of a frame at a boundary position: the last entry word, the check, and both ends of an answer block. -/
theorem witness_FrameGivenUp_places :
    (∀ q ∈ [(8, Place.entry 0 4), (9, .check), (10, .after)],
      Receiver.place { rx0 with pos := q.1, count := 1 } = q.2) ∧
    (∀ q ∈ [(9, Place.block 0), (10, .block 1), (11, .block 2), (12, .check), (13, .after)],
      Receiver.place { rx0 with pos := q.1, count := 1, target := 7, blockLen := 3 } = q.2) ∧
    (∀ p, (let s := setReceiver p { rx0 with failed := true } stand
       s.inline = true ∧ (s.receiver p).rx = .inFrame ∧ (s.receiver p).failed = true) ∧
      (let s := setReceiver p { rx0 with pos := 9, count := 1 } stand
       s.inline = true ∧ (s.receiver p).parsing = true ∧ (s.receiver p).place = .check)) := by
  refine ⟨by decide, by decide, ?_⟩
  intro p; cases p <;> decide +kernel

theorem witness_EndMarkOutcomes :
    (∀ p, (setReceiver p (rxDone true) stand).closes p = true ∧ (setReceiver p (rxDone false) stand).fails p = true ∧
      (setReceiver p rx0 stand).fails p = true) ∧
    (∀ p, (let s := setReceiver p { rx0 with failed := true } stand
      s.inline = true ∧ (s.receiver p).rx = .inFrame ∧ (s.receiver p).failed = true)) := by
  constructor <;> intro p <;> cases p <;> decide +kernel

theorem witness_BetweenFramesAndTransmit_transmit :
    ∀ p, (stand.inline = true ∧ (stand.transmitter p).queue = []) ∧
      (((fill 1 p stand).transmitter p).queue = [.idle] ∧ ((fill 1 p stand).transmitter p).abortsOwed = 0) ∧
      (let s := setTransmitter p { queue := [.idle], abortsOwed := 1, line := .idle } stand
       (s.transmitter p).queue = [.idle] ∧ (s.transmitter p).abortsOwed = 0 + 1) := by
  intro p; cases p <;> decide +kernel

theorem witness_LineStuckAndRecovery :
    ∀ p, (stand.inline = true ∧ stand.control.resetHeld = false ∧ (stand.receiver p).rx ≠ .stuck ∧
        (stand.receiver p).parsing = false) ∧
      (let s := setReceiver p rx0 (fill 255 (otherPort p) stand)
       (s.receiver p).rx ≠ .stuck ∧ (s.receiver p).parsing = true ∧
       (s.transmitter (otherPort p)).queue.length < 256 ∧ (s.transmitter (otherPort p)).abortsOwed = 0) ∧
      ((relayed 5).control.mode = .relayed ∧ ((relayed 5).receiver p).rx ≠ .stuck) ∧
      ((setReceiver p { rx0 with rx := .stuck } stand).receiver p).rx = .stuck := by
  intro p; cases p <;> decide +kernel

theorem witness_CycleTimeout :
    (standT.control.mode = .standby ∧ standT.link.timer = .running 1) ∧
    (eng2.control.mode = .engaged ∧ eng2.link.timer = .running 40000 ∧ (eng2.settings 1).valid = true ∧
      (eng2.settings 1).mode = .active ∧ eng2.tripped 1 = false) ∧ stand.link.timer = .expired := by decide +kernel

/-- ENGAGED, a frame to be closed at the instant at which the cycle timer's time is up, runner 0 about to take a CUT of
section 0. -/
def closingUp : State :=
  setRunner 0 { Runner.afterReset with state := .running, step := 10, slots := [0] }
    (setReceiver .c (rxDone true) (setTimer (.running 0) (eng2.setProgram (eng2.program.set 10 ⟨10, 0, 0, 0⟩))))

theorem witness_CycleTimeout_close :
    closingUp.closes .c = true ∧ closingUp.control.mode = .engaged ∧ closingUp.link.timer = .running 0 ∧
    0 ≤ closingUp.clock.now ∧ CloseAct.restart ∉ [CloseAct.runners] ∧ closingUp.link.txD.queue.length + 2 ≤ 256 ∧
    closingUp.link.txD.abortsOwed = 0 ∧ closingUp.link.rxC.target = 0 ∧ (closingUp.settings 1).valid = true ∧
    (closingUp.settings 1).mode = .active := by decide +kernel

/-- R92, R149: CUT first and LINK second at one close; LINK first; and the restart first, which leaves no expiry. -/
theorem test_expiry_at_close :
    (let t := after (.cycleClose [.runners, .expiry]) closingUp
     (t.tp 0).record.map (fun x => (x.cause, x.later)) = some (.program, 0x0004) ∧
     (t.tp 1).record.map (·.cause) = some .link ∧ t.link.timer = .running 40000) ∧
    ((after (.cycleClose [.expiry]) closingUp).tp 0).record.map (·.cause) = some .link ∧
    (let t := after (.cycleClose [.restart, .expiry]) closingUp
     t.flag .cycleTimeout = false ∧ t.tripped 1 = false) := by decide +kernel

/-- ENGAGED, with a cycle frame and a report frame whole and their end marks to come. -/
def closing : State := setReceiver .c (rxDone true) (setReceiver .d (rxDone true) (fill 254 .c (fill 254 .d eng2)))

theorem witness_CycleCloseStores :
    closing.closes .c = true ∧ closing.link.txD.queue.length + 2 ≤ 256 ∧ closing.link.txD.abortsOwed = 0 ∧
    closing.link.lastClose = none ∧
    ({ closing with link := { closing.link with lastClose := some 0 } } : State).link.lastClose = some 0 := by
  decide +kernel

theorem witness_CycleCloseCommits :
    let s := noteTreated 0 { trim := some 7, sent := ⟨1, 2, 3⟩, inbound := ⟨4, 5, 6⟩ } closing
    s.closes .c = true ∧ s.link.txD.queue.length + 2 ≤ 256 ∧ s.link.txD.abortsOwed = 0 ∧ s.link.rxC.target = 0 ∧
    s.link.rxD.rx ≠ .stuck ∧ (∀ r, (s.runner r).isLive = false) ∧ s.link.timer = .running 40000 ∧
    s.clock.now < 40000 ∧
    s.rewriter.treated.get 0 = some { trim := some 7, sent := ⟨1, 2, 3⟩, inbound := ⟨4, 5, 6⟩ } ∧
    (s.rw 0).mark = false ∧ s.rewriter.treated.get 1 = none := by decide +kernel

/-- A frame to be closed while runner 0 waits at a DWELL of index 10, whose last close this is, before a SET and an END,
and runner 1 at a SYNC on the mark 3. -/
def twoRunners : State :=
  setRunner 0 { Runner.afterReset with state := .waiting, step := 10, slots := [0], wait := 1 }
    (setRunner 1 { Runner.afterReset with state := .waiting, step := 20, slots := [1] }
      (closing.setProgram ((((closing.program.set 10 ⟨3, 0, 5, 0⟩).set 11 ⟨0x00010306, 0, 0, 0⟩).set 12 ⟨0, 7, 0, 0⟩).set 20
        ⟨0x00000305, 0, 0, 0x0000FFFF⟩)))

theorem witness_CycleCloseCommits_runners :
    twoRunners.closes .c = true ∧ twoRunners.link.txD.queue.length + 2 ≤ 256 ∧ twoRunners.link.txD.abortsOwed = 0 ∧
    twoRunners.link.rxC.target = 0 ∧ twoRunners.link.rxD.rx ≠ .stuck ∧ (twoRunners.runner 0).isLive = true ∧
    (twoRunners.runner 1).isLive = true := by decide +kernel

/-- R124, R137: runner 0 ends and sets the mark, and runner 1 finds it set at the same close. -/
theorem test_close_advances :
    let t := after (.cycleClose []) twoRunners
    (t.runner 0).state = .done ∧ (t.runner 0).endCode = 7 ∧ (t.runner 1).step = 21 := by decide +kernel

theorem witness_CarriedRequestExecuted :
    let s := carrying [0x0109, 0, 3, 0] (fill 254 .d eng2)
    s.closes .c = true ∧ s.link.txD.queue.length + 2 ≤ 256 ∧ s.link.txD.abortsOwed = 0 ∧ s.link.rxC.target ≠ 0 ∧
    s.link.rxC.target.toNat = s.control.strap.toNat ∧ s.service.slot = none ∧
    (s.answered (plainAnswer 1 9 .ok)).service.slot ≠ none ∧
    (Request.ofBlock s.link.reqBuf).data.length ≤ 8 ∧ s.link.rxD.rx ≠ .stuck ∧
    (∀ r, (s.runner r).isLive = false) := by decide +kernel

/-- R38, R98: a TRIP of section 0 carried in a frame is answered with the frame's tag. -/
theorem test_carried_trip :
    let t := after (.cycleClose []) (carrying [0x0109, 0, 0, 0] eng2)
    t.service.slot = some (plainAnswer 1 9 .ok) ∧ t.tripped 0 = true := by decide +kernel

/-- R188: an ENGAGE carried in the first frame after a gap. -/
theorem witness_Engage_carried :
    let s := carrying [0x0103, 0, 0, 0] (fill 254 .d stand)
    s.closes .c = true ∧ s.link.txD.queue.length + 2 ≤ 256 ∧ s.link.txD.abortsOwed = 0 ∧ s.link.rxC.target ≠ 0 ∧
    s.link.rxC.target.toNat = s.control.strap.toNat ∧ s.service.slot = none ∧ s.control.mode = .standby ∧
    s.control.key.filtered = true ∧ (∀ i, s.tripped i = false) ∧ (∀ r, (s.runner r).isLive = false) ∧
    (Request.ofBlock s.link.reqBuf).kind = 3 ∧ s.link.timer = .expired := by decide +kernel

theorem test_engage_carried :
    let s := carrying [0x0103, 0, 0, 0] stand
    (after (.cycleClose [.restart]) s).service.slot = some (plainAnswer 1 3 .ok) ∧
    (after (.cycleClose [.request]) s).service.slot = some (plainAnswer 1 3 .link) := by decide +kernel

theorem witness_CycleFail :
    (let s := setReceiver .c (rxDone false) closing
     s.fails .c = true ∧ s.link.rxC.checkGood = some false ∧ s.link.txD.queue.length + 2 ≤ 256 ∧
     s.link.txD.abortsOwed = 0) ∧
    (let s := setReceiver .c rx0 (fill 255 .d closing)
     s.fails .c = true ∧ s.link.rxC.checkGood = none ∧ s.link.txD.queue.length < 256) := by decide +kernel

theorem witness_ReportCloseStandby :
    let s := setReceiver .d { rxDone true with append := .entryAndAnswer } (fill 254 .c stand)
    s.closes .d = true ∧ s.control.mode = .standby ∧ s.link.txC.queue.length + 2 ≤ 256 ∧
    s.link.txC.abortsOwed = 0 := by decide +kernel

/-- The bridge of `closing` with the drive of section 0 reporting its fault. -/
def faulty : State :=
  storeSettings 0 { active 1 with faultCare := 0x0080, faultValue := 0x0080 }
    (closing.setBanks { closing.banks with fill := closing.banks.fill.set 0 (some ⟨0x0080, 0, 0, 0⟩) })

theorem witness_DriveFaultTrips :
    faulty.closes .d = true ∧ faulty.control.mode = .engaged ∧ faulty.link.txC.queue.length + 2 ≤ 256 ∧
    faulty.link.txC.abortsOwed = 0 ∧ (faulty.settings 0).valid = true ∧ (faulty.settings 0).mode = .active ∧
    faulty.tripped 0 = false ∧
    (∀ k, (faulty.share.sets.get k).valid = true → 0 ∉ (faulty.share.sets.get k).memberList) ∧
    faulty.banks.fill.get 0 = some ⟨0x0080, 0, 0, 0⟩ ∧ (faulty.settings 0).faultCare ≠ 0 ∧
    (0x0080 : LinkWord) &&& (faulty.settings 0).faultCare =
      (faulty.settings 0).faultValue &&& (faulty.settings 0).faultCare := by decide +kernel

/-- The bridge of `closing` with section 0 reported 2,001 away from its last output of 0, under a limit of 2,000. -/
def deviating (persist count : BitVec 8) : State :=
  setRw 0 { trim := 0, lastIn := ⟨0, 0, 0⟩, lastOut := some ⟨0, 0, 0⟩, mark := false }
    (setCounts 0 { missing := 0, deviation := count }
      (storeSettings 0 { active 1 with devLimit := 2000, devPersist := persist }
        (closing.setBanks { closing.banks with fill := closing.banks.fill.set 0 (some ⟨0, 2001, 0, 0⟩) })))

theorem witness_DriveFaultTrips_deviation :
    ∀ s ∈ [deviating 3 1, deviating 3 2, deviating 255 255],
    s.closes .d = true ∧ s.control.mode = .engaged ∧ s.link.txC.queue.length + 2 ≤ 256 ∧ s.link.txC.abortsOwed = 0 ∧
    (s.settings 0).valid = true ∧ (s.settings 0).mode = .active ∧ s.tripped 0 = false ∧
    (∀ k, (s.share.sets.get k).valid = true → 0 ∉ (s.share.sets.get k).memberList) ∧
    s.banks.fill.get 0 = some ⟨0, 2001, 0, 0⟩ ∧ (s.rw 0).lastOut = some ⟨0, 0, 0⟩ ∧
    1 ≤ (s.settings 0).fbLimit.toNat ∧ (s.settings 0).faultCare = 0 ∧ s.banks.fill.get 1 = none := by decide +kernel

theorem witness_DriveFaultTrips_feedback :
    ∀ n ∈ [0, 2, 255], let s := setCounts 1 { missing := BitVec.ofNat 8 n, deviation := 5 } closing
    s.closes .d = true ∧ s.control.mode = .engaged ∧ s.link.txC.queue.length + 2 ≤ 256 ∧ s.link.txC.abortsOwed = 0 ∧
    (s.settings 1).valid = true ∧ (s.settings 1).mode = .active ∧ s.tripped 1 = false ∧
    (∀ k, (s.share.sets.get k).valid = true → 1 ∉ (s.share.sets.get k).memberList) ∧
    s.banks.fill.get 1 = none ∧
    ((s.settings 1).fbLimit.toNat ≤ min 255 ((s.counts 1).missing.toNat + 1) ↔ n ≠ 0) := by decide +kernel

/-- R58: the third report without an entry trips with FEEDBACK under a limit of 3. -/
theorem test_feedback_close :
    let t := after .reportClose (setCounts 1 { missing := 2, deviation := 0 } closing)
    (t.tp 1).record.map (·.cause) = some .feedback ∧ (t.counts 1).missing = 3 ∧ t.tripped 0 = false := by decide +kernel

/-- spec/03, 3.5.1: persistence 3: the second report counts, the third trips with DEVIATION. -/
theorem test_deviation :
    (let t := after .reportClose (deviating 3 1)
     t.tripped 0 = false ∧ (t.counts 0).deviation = 2) ∧
    (let t := after .reportClose (deviating 3 2)
     (t.tp 0).record.map (fun x => (x.cause, x.later)) = some (.deviation, 0) ∧ (t.counts 0).deviation = 0) := by
  decide +kernel

theorem witness_ReportFail :
    let s := setReceiver .d (rxDone false) (setCounts 1 { missing := 2, deviation := 0 } closing)
    s.fails .d = true ∧ s.link.rxD.checkGood = some false ∧ s.link.txC.queue.length + 2 ≤ 256 ∧
    s.link.txC.abortsOwed = 0 ∧ s.control.mode = .engaged ∧ (s.settings 1).valid = true ∧
    (s.settings 1).mode = .active ∧ s.tripped 1 = false ∧
    (∀ k, (s.share.sets.get k).valid = true → 1 ∉ (s.share.sets.get k).memberList) ∧
    (s.settings 1).fbLimit.toNat ≤ min 255 ((s.counts 1).missing.toNat + 1) ∧
    ¬ (s.settings 0).fbLimit.toNat ≤ min 255 ((s.counts 0).missing.toNat + 1) := by decide +kernel

/-- ENGAGED, Port D STUCK, a cycle frame to be closed, section 1 one report short of its limit. -/
def portDStuck : State :=
  setReceiver .d { rx0 with rx := .stuck } (setCounts 1 { missing := 2, deviation := 0 } (fill 254 .d closing))

theorem witness_ReportFail_stuck :
    portDStuck.closes .c = true ∧ portDStuck.link.txD.queue.length + 2 ≤ 256 ∧ portDStuck.link.txD.abortsOwed = 0 ∧
    portDStuck.link.rxC.target = 0 ∧ portDStuck.link.rxD.rx = .stuck ∧ portDStuck.control.mode = .engaged ∧
    (portDStuck.settings 1).valid = true ∧ (portDStuck.settings 1).mode = .active ∧ portDStuck.tripped 1 = false ∧
    (∀ k, (portDStuck.share.sets.get k).valid = true → 1 ∉ (portDStuck.share.sets.get k).memberList) ∧
    (portDStuck.settings 1).fbLimit.toNat ≤ min 255 ((portDStuck.counts 1).missing.toNat + 1) ∧
    (setReceiver .d { rx0 with rx := .stuck } (carrying [] stand)).control.mode = .standby ∧
    (∀ r, (stand.runner r).isLive = false) := by decide +kernel

/-- R36: the report fail of a close with Port D STUCK. -/
theorem test_stuck_close :
    let t := after (.cycleClose []) portDStuck
    t.tripped 1 = true ∧ t.tripped 0 = false ∧ (t.counts 0).missing = 1 ∧ t.flag .formatBad = false := by decide +kernel

/-- The torques of 4.8.2 held for sections 0 and 1 of set 2. -/
def sharing : State :=
  storeSet 2 set48 (eng2.setBanks { eng2.banks with
    held := (eng2.banks.held.set 0 (some ⟨0, 0, 455, 0⟩)).set 1 (some ⟨0, 0, 398, 0⟩) })

/-- spec/04, 4.8.2: the reference torque 427, and the correction of a follower with error −29: +7. -/
theorem test_share_worked_case :
    ((shareSet 2 sharing).setStat 2).lastRef = 427 ∧ ((shareSet 2 sharing).sh 1).trim = 7 ∧
    ((shareSet 2 sharing).sh 0).trim = 0 := by decide +kernel

theorem witness_ShareComputation :
    let cfg := sharing.share.sets.get 2
    let inMean := cfg.positions.filter fun m => (sharing.heldRec m.2).isSome
    cfg.valid = true ∧ cfg.shareLimit.toNat ≤ 100000 ∧ cfg.memberList.Nodup ∧
    (∀ i ∈ cfg.memberList, sharing.tripped i = false) ∧ 2 ≤ inMean.length ∧
    (∀ m ∈ inMean, (sharing.settings m.2).mode = .active →
      mag (sharing.torqueOf m.2 - sharing.meanTorque inMean - (cfg.bias.get m.1).toInt) ≤
        (cfg.imbThreshold.toNat : Int)) := by decide +kernel

/-- The torques of 4.8.2 in the fill bank, with a report frame to be closed. -/
def sharingReport : State :=
  storeSet 2 set48 (closing.setBanks { closing.banks with
    fill := (closing.banks.fill.set 0 (some ⟨0, 0, 455, 0⟩)).set 1 (some ⟨0, 0, 398, 0⟩) })

theorem witness_ShareComputation_close :
    sharingReport.closes .d = true ∧ sharingReport.control.mode = .engaged ∧
    sharingReport.link.txC.queue.length + 2 ≤ 256 ∧ sharingReport.link.txC.abortsOwed = 0 ∧
    (sharingReport.share.sets.get 2).valid = true ∧
    (∀ j, (sharingReport.share.sets.get j).valid = true → j = 2) := by decide +kernel

/-- spec/04, 4.8.2: the same computation at a report close. -/
theorem test_share_at_close :
    let t := after .reportClose sharingReport
    (t.setStat 2).lastRef = 427 ∧ (t.sh 1).trim = 7 ∧ (t.setStat 2).state = .sharing := by decide +kernel

/-- The set of `sharing` with every member TRIPPED. -/
def tripBoth (s : State) : State := setTp 0 { latch := true, record := none } (setTp 1 { latch := true, record := none } s)

/-- The set of `sharing` with a threshold of 27, both members one count below the persistence. -/
def imbalanced : State :=
  setImbalance 0 2 (setImbalance 1 2 (storeSet 2 { set48 with imbThreshold := 27 } sharing))

theorem witness_SetDegradedHaltedTripped :
    (∀ s ∈ [sharing, standS, imbalanced, tripBoth sharing], (s.share.sets.get 2).valid = true ∧
      2 ≤ (s.share.sets.get 2).memberCount.toNat ∧ (s.share.sets.get 2).memberList.Nodup) ∧
    ((∀ i ∈ (standS.share.sets.get 2).memberList, standS.tripped i = false) ∧
      ((standS.share.sets.get 2).positions.filter fun m => (standS.heldRec m.2).isSome).length < 2) ∧
    (∀ i ∈ (sharing.share.sets.get 2).memberList, (tripBoth sharing).tripped i = true) ∧
    (∀ i ∈ (imbalanced.share.sets.get 2).memberList, imbalanced.tripped i = false ∧ imbalanced.setOf i = some 2) ∧
    2 ≤ ((imbalanced.share.sets.get 2).positions.filter fun m => (imbalanced.heldRec m.2).isSome).length := by
  decide +kernel

/-- R80: both members reach the persistence: the first in list order trips with IMBALANCE, the other with PEER and
IMBALANCE among its later causes. -/
theorem test_imbalance_trip :
    let t := shareSet 2 imbalanced
    (t.tp 0).record.map (fun x => (x.cause, x.later)) = some (.imbalance, 0) ∧
    (t.tp 1).record.map (fun x => (x.cause, x.later)) = some (.peer, 0x0040) ∧ (t.setStat 2).state = .halted := by
  decide +kernel

/-- Runner 0 WAITING at step 10 in a bridge whose program holds a step there, at 11 and at 20. -/
def waiting (at10 at11 at20 : StepRecord) (c : Runner) : State :=
  setRunner 0 { c with state := .waiting, step := 10, slots := [0] }
    (eng2.setProgram (((eng2.program.set 10 at10).set 11 at11).set 20 at20))

theorem witness_HoldsEnd_ramp_dwell :
    (let s := waiting ⟨2, BitVec.ofInt 32 (-1000), 3, 0⟩ ⟨3, 0, 5, 0⟩ ⟨0, 0, 0, 0⟩
      { Runner.afterReset with rampProgress := 2 }
     let c := s.runner 0
     c.state = .waiting ∧ c.recording = false ∧ s.stepOf 0 = some (.ramp (-1000) 3) ∧ c.rampProgress.toNat + 1 = 3 ∧
     (setRunner 0 { c with step := c.step + 1 } s).stepOf 0 = some (.dwell 5)) ∧
    (let s := waiting ⟨3, 0, 5, 0⟩ ⟨0, 7, 0, 0⟩ ⟨0, 0, 0, 0⟩ { Runner.afterReset with wait := 1 }
     let c := s.runner 0
     c.state = .waiting ∧ c.recording = false ∧ s.stepOf 0 = some (.dwell 5) ∧ c.wait = 1 ∧
     (setRunner 0 { c with step := c.step + 1 } s).stepOf 0 = some (.finish 7)) := by decide +kernel

theorem witness_HoldsEnd_timeout :
    (let s := waiting ⟨0x00000305, 0, 0, 0x0004FFFF⟩ ⟨0, 0, 0, 0⟩ ⟨0, 0, 0, 0⟩ { Runner.afterReset with wait := 1 }
     let c := s.runner 0
     c.state = .waiting ∧ c.recording = false ∧ c.wait = 1 ∧ s.stepOf 0 = some (.sync 3 4 none) ∧
     s.syncMark 3 = false) ∧
    (let s := waiting ⟨0x00050004, 0, 0, 0x00040014⟩ ⟨0, 0, 0, 0⟩ ⟨0, 6, 0, 0⟩ { Runner.afterReset with wait := 1 }
     let c := s.runner 0
     s.stepOf 0 = some (.await 0 .settled 4 (some 20)) ∧ s.slotCondition 0 0 .settled = false ∧ c.wait = 1 ∧
     (setRunner 0 { c with step := 20 } s).stepOf 0 = some (.finish 6)) := by decide +kernel

theorem witness_HoldsEnd_resumed :
    (let s := waiting ⟨2, BitVec.ofInt 32 (-1000), 3, 0⟩ ⟨0, 0, 0, 0⟩ ⟨0, 0, 0, 0⟩
      { Runner.afterReset with rampProgress := 1 }
     (s.runner 0).state = .waiting ∧ (s.runner 0).recording = false ∧ s.stepOf 0 = some (.ramp (-1000) 3) ∧
     (s.runner 0).rampProgress.toNat + 1 < 3) ∧
    (let s := waiting ⟨3, 0, 5, 0⟩ ⟨0, 0, 0, 0⟩ ⟨0, 0, 0, 0⟩ { Runner.afterReset with wait := 2 }
     s.stepOf 0 = some (.dwell 5) ∧ 2 ≤ (s.runner 0).wait.toNat) ∧
    (∀ q ∈ [(0x0000FFFF, 0), (0x0004FFFF, 4)],
      (waiting ⟨0x00000305, 0, 0, q.1⟩ ⟨0, 0, 0, 0⟩ ⟨0, 0, 0, 0⟩ Runner.afterReset).stepOf 0 =
        some (.sync 3 q.2 none)) ∧
    (let s := waiting ⟨0x00050004, 0, 0, 0x00040014⟩ ⟨0, 0, 0, 0⟩ ⟨0, 0, 0, 0⟩ { Runner.afterReset with wait := 2 }
     s.stepOf 0 = some (.await 0 .settled 4 (some 20)) ∧ s.slotCondition 0 0 .settled = false) := by decide +kernel

/-- spec/07, 6.9.1: the second close of a RAMP from 0 to −1,000 in 3 injects −666. -/
theorem test_ramp_resumed :
    ((advanceRunner ⟨0, true⟩ 0 (waiting ⟨2, BitVec.ofInt 32 (-1000), 3, 0⟩ ⟨0, 0, 0, 0⟩ ⟨0, 0, 0, 0⟩
      { Runner.afterReset with rampProgress := 1 })).runner 0).injection = BitVec.ofInt 32 (-666) := by decide +kernel

/-- Sixteen SET steps from index 10, the last a DWELL when `hold`, after a DWELL at 10 when `first`. -/
def sets (c : Runner) (first hold : Bool) : State :=
  setRunner 0 { c with step := 10, slots := [0] }
    (eng2.setProgram ((List.finRange 16).foldl (fun p k =>
      p.set ⟨10 + k.val, by omega⟩
        (if (first && k.val == 0) || (hold && k.val == 15) then ⟨3, 0, 5, 0⟩ else ⟨1, BitVec.ofNat 32 k.val, 0, 0⟩))
      eng2.program))

theorem witness_StepBudget :
    (let at_ := fun (s : State) (k : Nat) => (setRunner 0 { s.runner 0 with step := (s.runner 0).step + k } s).stepOf 0
     (let s := sets { Runner.afterReset with state := .running } false false
      (s.runner 0).recording = false ∧ (s.runner 0).state = .running ∧ ∀ k < 16, at_ s k = some (.set k)) ∧
     (let s := sets { Runner.afterReset with state := .running } false true
      (∀ k < 15, at_ s k = some (.set k)) ∧ at_ s 15 = some (.dwell 5)) ∧
     (let s := sets { Runner.afterReset with state := .waiting, wait := 1 } true false
      (s.runner 0).state = .waiting ∧ (s.runner 0).wait = 1 ∧ at_ s 0 = some (.dwell 5) ∧
      ∀ k < 16, 1 ≤ k → at_ s k = some (.set k))) ∧ (eng2.runner 0).state = .idle := by decide +kernel

/-- R139: the seventeenth step faults with BUDGET at its index; the sixteenth may hold. -/
theorem test_step_budget :
    (let c := (advanceRunner ⟨0, true⟩ 0 (sets { Runner.afterReset with state := .running } false false)).runner 0
     c.fault = some .budget ∧ c.faultStep = 26 ∧ c.injection = 0) ∧
    (let c := (advanceRunner ⟨0, true⟩ 0 (sets { Runner.afterReset with state := .running } false true)).runner 0
     c.state = .waiting ∧ c.step = 25 ∧ c.injection = 14) := by decide +kernel

/-- Runner 0 RUNNING at step 10 with a given record there. -/
def reaching (w : StepRecord) (c : Runner) (s : State) : State :=
  setRunner 0 { c with state := .running, step := 10, slots := [0] } (s.setProgram (s.program.set 10 w))

theorem witness_StepKinds :
    (reaching ⟨1, 1500, 0, 0⟩ Runner.afterReset eng2).stepOf 0 = some (.set 1500) ∧
    (reaching ⟨0x00010306, 0, 0, 0⟩ Runner.afterReset eng2).stepOf 0 = some (.signal 3 true) ∧
    (reaching ⟨7, 0, 0, 511⟩ Runner.afterReset eng2).stepOf 0 = some (.jump 511 0) ∧
    (let s := reaching ⟨7, 0, 0, 0xFFFF0003⟩ { Runner.afterReset with loop := some ⟨10, 1⟩ } eng2
     s.stepOf 0 = some (.jump 3 65535) ∧ (s.runner 0).loop = some ⟨10, 1⟩) ∧
    (reaching ⟨0x00010008, 0, 255, 0⟩ Runner.afterReset eng2).stepOf 0 = some (.recordOn 255) ∧
    (reaching ⟨8, 0, 0, 0⟩ Runner.afterReset eng2).stepOf 0 = some .recordOff ∧
    (reaching ⟨9, 0xFFFF, 0, 0⟩ Runner.afterReset eng2).stepOf 0 = some (.mark 0xFFFF) ∧
    (reaching ⟨11, 0, 0, 0⟩ Runner.afterReset eng2).stepOf 0 = none ∧
    (setRunner 0 { Runner.afterReset with step := 512 } eng2).stepOf 0 = none ∧
    (let s := reaching ⟨10, 0, 0, 0⟩ Runner.afterReset eng2
     s.stepOf 0 = some (.cut 0) ∧ (s.runner 0).slots[0]? = some 0 ∧ (s.runner 0).state = .running ∧
     (s.runner 0).recording = false ∧ s.tripped 0 = false ∧ (s.settings 0).cutoff ≠ .ignore ∧
     (∀ k, (s.share.sets.get k).valid = true → 0 ∉ (s.share.sets.get k).memberList) ∧
     (∀ q, q ≠ 0 → 0 ∉ (s.runner q).slots)) := by decide +kernel

theorem witness_StepKinds_holding :
    (reaching ⟨2, 300000, 65535, 0⟩ Runner.afterReset eng2).stepOf 0 = some (.ramp 300000 65535) ∧
    (reaching ⟨3, 0, 1, 0⟩ Runner.afterReset eng2).stepOf 0 = some (.dwell 1) ∧
    (let s := reaching ⟨0x00000004, 0xF, 0x3, 0x000701FF⟩ Runner.afterReset eng2
     s.stepOf 0 = some (.await 0 (.status 0xF 0x3) 7 (some 511)) ∧ (s.runner 0).slots[0]? = some 0) ∧
    (reaching ⟨0x00000705, 0, 0, 0x0000FFFF⟩ Runner.afterReset eng2).stepOf 0 = some (.sync 7 0 none) ∧
    (reaching ⟨0, 255, 0, 0⟩ Runner.afterReset eng2).stepOf 0 = some (.finish 255) ∧
    (let s := reaching ⟨10, 0, 0, 0⟩ Runner.afterReset (storeSettings 0 { active 1 with cutoff := .ignore } eng2t)
     s.stepOf 0 = some (.cut 0) ∧ (s.runner 0).slots[0]? = some 0 ∧ (s.runner 0).state = .running ∧
     s.tripped 0 = true ∧ (s.tp 0).record = some { cause := .manual, cycle := 0, speed := none, later := 0 }) := by
  decide +kernel

/-- Table 11-9 and R121 at the ends of their ranges. -/
theorem test_step_reading :
    StepRecord.read ⟨0x00010004, 3000000, 0, 0x000501FF⟩ 1 = some (.await 0 (.speedAtLeast 3000000) 5 (some 511)) ∧
    StepRecord.read ⟨0x00030304, BitVec.ofInt 32 (-4000), 0, 0x0000FFFF⟩ 4 =
      some (.await 3 (.torqueAtLeast (-4000)) 0 none) ∧
    StepRecord.read ⟨0x00030304, BitVec.ofInt 32 (-4001), 0, 0x0000FFFF⟩ 4 = none ∧
    StepRecord.read ⟨0x00010706, 0, 0, 0⟩ 1 = some (.signal 7 true) ∧
    StepRecord.read ⟨7, 0, 0, 0xFFFF01FF⟩ 1 = some (.jump 511 65535) := by decide

theorem test_conditions :
    let s := eng2.setBanks { eng2.banks with held := eng2.banks.held.set 0 (some ⟨0x0083, 1500, 0xFFFF, 0⟩) }
    s.conditionHolds 0 (.status 0x0081 0x00FF) = true ∧ s.conditionHolds 0 (.status 0x0004 0x0004) = false ∧
    s.conditionHolds 0 (.speedAtLeast 1500) = true ∧ s.conditionHolds 0 (.speedAtMost 1499) = false ∧
    s.conditionHolds 0 (.torqueAtMost (-1)) = true ∧ s.conditionHolds 1 (.speedAtLeast 0) = false := by decide +kernel

/-- A recording runner WAITING at a DWELL, bound to section 0 under a cutoff action. -/
def recording (cut : Cutoff) (phase : BitVec 8) : State :=
  setRunner 0 { Runner.afterReset with
      state := .waiting, step := 10, slots := [0], wait := 2, recording := true, decimation := 2, phase := phase }
    (storeSettings 0 { active 1 with cutoff := cut } (eng2.setProgram (eng2.program.set 10 ⟨3, 0, 5, 0⟩)))

theorem witness_RunnerRecords :
    (∀ p ∈ [(0 : BitVec 8), 1], let s := recording .hold p
     (s.runner 0).state = .waiting ∧ (s.runner 0).recording = true ∧ s.stepOf 0 = some (.dwell 5) ∧
     2 ≤ (s.runner 0).wait.toNat ∧ (s.runner 0).slots.length ≤ 4 ∧
     ((s.runner 0).phase + 1 = (s.runner 0).decimation ↔ p = 1)) ∧
    (recording .hold 0).canServe ∧ ((recording .hold 0).runner 0).isLive = true ∧
    ((recording .hold 0).runner 0).step ≤ 512 ∧ RunnersOk (recording .hold 0) ∧
    (∀ c ∈ [Cutoff.hold, .ignore], let s := recording c 0
     s.control.mode = .engaged ∧ (s.settings 0).valid = true ∧ s.tripped 0 = false ∧
     (∀ k, (s.share.sets.get k).valid = true → 0 ∉ (s.share.sets.get k).memberList) ∧
     (s.runner 0).slots[0]? = some 0 ∧ s.ring.words.length + 4 ≤ 8192) :=
  ⟨by decide +kernel, ⟨rfl, rfl⟩, by decide +kernel, by decide +kernel,
    ⟨by decide +kernel, by decide +kernel, by decide +kernel, by decide +kernel, by decide +kernel, by decide +kernel⟩,
    by decide +kernel⟩

/-- R145, R155: a TRIP of a section of a recording runner, under HOLD: the TRIP record, then the END record. -/
theorem test_trip_record :
    ((after (.trip 1 0) (recording .hold 0)).ring.words.map (·.word)) =
      [0x30000000, 0x00070000, 0x4000000C, 0x000A0000] ∧
    ((after (.trip 1 0) (recording .ignore 0)).ring.words.map (·.word)) = [0x30000000, 0x00070000] := by
  decide +kernel

theorem witness_RequestsTurnedAway_notTaken :
    isRequest (.engage 0) = true ∧ (relayed 5).control.mode = .relayed ∧
    (let s := { eng with service := { eng.service with slot := some (plainAnswer 0 3 .mode) } }
     s.control.mode ≠ .relayed ∧ s.service.slot ≠ none) := by decide +kernel

theorem witness_ReadRecord :
    9 < (10 : BitVec 8).toNat ∧ (regionRecords 9 = some 1 ∧ 1 ≤ (1 : BitVec 16).toNat) ∧
    (regionRecords 6 = some 2 ∧ (1 : BitVec 16).toNat < 2 ∧
      ¬ (((6 : BitVec 8) = 6 ∨ (6 : BitVec 8) = 7) ∧ (1 : BitVec 16) = 0) ∧ (8 : BitVec 8).toNat ≤ 8) := by decide

/-- The hypotheses of the record clauses: a section bound to runner 0 and one to none, both kinds of trip record, and the
ring. -/
theorem witness_ReadRecord_words :
    RunnersOk (recording .hold 0) ∧ RingOk (recording .hold 0) ∧ 0 ∈ ((recording .hold 0).runner 0).slots ∧
    (∀ r, 1 ∉ ((recording .hold 0).runner r).slots) ∧ (eng2t.tp 0).record ≠ none ∧
    (eng2t.tp 1).record = none ∧ eng2t.tripped 1 = false :=
  ⟨⟨by decide +kernel, by decide +kernel, by decide +kernel, by decide +kernel, by decide +kernel, by decide +kernel⟩,
    ⟨by decide +kernel, by decide +kernel⟩, by decide +kernel, by decide +kernel, by decide +kernel,
    by decide +kernel, by decide +kernel⟩

/-- Tables 11-7, 11-10, 11-12 and 11-13, by hand. -/
theorem test_record_words :
    ((eng2t.recordWords 1 0).drop 13).take 2 = [0x000000F1, 0] ∧
    (recording .hold 1).recordWords 4 0 = [0x01000002, 10, 0, 0, 2, 0, 0x00010102, 0xFFFFFF00, 0] ∧
    eng2t.recordWords 5 0 = [0x00000703, 0, 0, 0] ∧
    stand.recordWords 8 0 = [0, 0, 0x22211000, 0x32122213, 0] ∧
    stand.recordWords 6 1 = [0, 8192, 0, 0xFFFFFFFF] := by decide +kernel

theorem witness_RingRecordsAndReads :
    stand.ring.words.length + [(1 : Word), 2].length ≤ 8192 ∧
    (let s := stand.setRing { stand.ring with words := List.replicate 8191 { word := 0, first := true } }
     s.ring.words.length ≤ 8192 ∧ 8192 < s.ring.words.length + [(1 : Word), 2].length) ∧
    (8 : BitVec 8).toNat ≤ 8 := by
  refine ⟨by decide +kernel, ?_, by decide⟩
  simp only [State.setRing, List.length_replicate]
  decide

theorem witness_RequestsTurnedAway_refused :
    (∀ n ∈ [0, 4, 5, 6, 7, 10], let g := BitVec.ofNat 8 n
      g ≠ 1 ∧ g ≠ 2 ∧ g ≠ 3 ∧ g ≠ 8 ∧ g ≠ 9) ∧ (0 : BitVec 8).toNat = 0 ∧
    12 < (13 : BitVec 8).toNat := by decide

theorem witness_settingsOk : SettingsOk standS ∧ TripLineOk standS := by
  simp only [SettingsOk, SectionSettings.inRange, SetSettings.inRange, TripLineOk]
  decide +kernel

theorem witness_SectionLiveWrites_draw :
    standS.canServe ∧ (31 : BitVec 16).toNat = (31 : Fin 32).val ∧ standS.service.prot.tuning = false ∧
    standS.control.key.filtered = true ∧ (setKey ⟨false, false, 0⟩ standS).control.key.filtered = false :=
  ⟨⟨rfl, rfl⟩, rfl, rfl, rfl, rfl⟩

theorem witness_SectionLiveWrites_engaged :
    (let s := eng2
     s.canServe ∧ (0 : BitVec 16).toNat = (0 : Fin 32).val ∧ s.service.prot.tuning = false ∧
     s.service.prot.limits = false ∧ s.control.key.filtered = true ∧ s.control.mode = .engaged ∧
     (s.settings 0).mode = .active ∧ (2 : Word).toNat % 2 = 0 ∧
     Cutoff.ofCode ((0x00010000 : Word).extractLsb' 16 2) ≠ (s.settings 0).cutoff ∧
     (4999 : Word).toNat < (s.settings 0).trimLimit.toNat ∧ (s.settings 0).trimLimit.toNat ≤ (5000 : Word).toNat) ∧
    (let s := storeSettings 0 { active 1 with vMax := 5 } eng2
     (s.settings 0).vMax.toInt < min 3000000 (6 : Word).toInt) ∧ SettingsOk eng2 ∧ TripLineOk eng2 := by
  refine ⟨⟨⟨rfl, rfl⟩, by decide +kernel⟩, by decide +kernel, ?_⟩
  · simp only [SettingsOk, SectionSettings.inRange, SetSettings.inRange, TripLineOk]
    decide +kernel

theorem witness_SectionMadeValid :
    standS.canServe ∧ standS.control.mode = .standby ∧ (31 : BitVec 16).toNat = (31 : Fin 32).val ∧
    (standS.settings 31).valid = false ∧ standS.control.key.filtered = true ∧ standS.service.prot.limits = false ∧
    standS.control.strap = 5 ∧ ((standS.settings 0).valid = true ∧ (standS.settings 0).node = 1) ∧
    (∀ n ∈ [3, 62], let a := BitVec.ofNat 6 n
      a ≠ 63 ∧ a ≠ 0 ∧ a ≠ standS.control.strap ∧
      ∀ j, (standS.settings j).valid = true → (standS.settings j).node ≠ a) :=
  ⟨⟨rfl, rfl⟩, by decide +kernel⟩

/-- ENGAGED, the web-break line asserted, or the timer EXPIRED, with a section 0. -/
def levels (brk lnk : Bool) (r : SectionSettings) : State :=
  let s := setWbrk ⟨brk, brk, 0⟩ (storeSettings 0 r eng2)
  if lnk then setTimer .expired s else s

theorem witness_SectionMadeValid_level :
    (∀ r ∈ [{ active 1 with valid := false, breakResponse := true }, { active 1 with mode := .pass },
        { active 1 with breakResponse := true, mode := .pass }, active 1],
      let s := levels true true r
      s.control.mode = .engaged ∧ s.control.key.filtered = true ∧ s.service.prot.limits = false ∧
      s.service.prot.tuning = false ∧ s.tripped 0 = false ∧ s.trips.wbrk.filtered = true ∧ s.link.timer = .expired ∧
      (∀ k, (s.share.sets.get k).valid = true → 0 ∉ (s.share.sets.get k).memberList) ∧
      (∀ j, j ≠ 0 → (s.settings j).valid = true → (s.settings j).node ≠ 62)) ∧
    (1 : Word).toNat % 2 = 1 ∧ (0x01000FFF : Word).getLsbD 24 = true ∧
    Cutoff.ofCode ((0x01000FFF : Word).extractLsb' 16 2) = (active 1).cutoff := by decide +kernel

theorem witness_SectionMadeValid_settings :
    SettingsOk (levels true true { active 1 with mode := .pass }) := by
  simp only [SettingsOk, SectionSettings.inRange, SetSettings.inRange]
  decide +kernel

/-- R95, R96: a WRITE that makes a section ACTIVE, and one that makes it respond to breaks. -/
theorem test_level_write :
    (let t := after (.sectionWrite 1 0 1 [1]) (levels false true { active 1 with mode := .pass })
     (t.tp 0).record.map (fun x => (x.cause, x.later)) = some (.link, 0)) ∧
    (let t := after (.sectionWrite 1 0 8 [0x01000FFF]) (levels true true (active 1))
     (t.tp 0).record.map (fun x => (x.cause, x.later)) = some (.brk, 0)) ∧
    (after (.sectionWrite 1 0 8 [0x01000FFF]) (levels false true (active 1))).tripped 0 = false := by decide +kernel

theorem witness_ValidSectionRestructured :
    (let s := setTp 31 { latch := true, record := none } (storeSettings 31 (active 31) standS)
     (s.settings 31).valid = true ∧ s.tripped 31 = true) ∧
    ((standS.settings 0).valid = true ∧ standS.tripped 0 = false ∧ (standS.share.sets.get 2).valid = true ∧
      0 ∈ (standS.share.sets.get 2).memberList ∧ standS.control.key.filtered = true ∧
      standS.service.prot.limits = false) ∧
    (∀ s ∈ [eng2, storeSettings 0 { active 1 with mode := .pass } eng2, storeSettings 0 (active 1) stand],
      (s.settings 0).valid = true ∧ s.tripped 0 = false ∧
      (∀ k, (s.share.sets.get k).valid = true → 0 ∉ (s.share.sets.get k).memberList) ∧
      (∀ r, 0 ∉ (s.runner r).slots) ∧ (62 : BitVec 6) ≠ (s.settings 0).node ∧ (62 : BitVec 6) ≠ s.control.strap ∧
      ∀ j, j ≠ 0 → (s.settings j).valid = true → (s.settings j).node ≠ 62) ∧
    (eng2.control.mode = .engaged ∧ (eng2.settings 0).mode = .active ∧ stand.control.mode ≠ .engaged) := by
  decide +kernel

theorem witness_ShareLimitLowered :
    standS.canServe ∧ (2 : BitVec 16).toNat = (2 : Fin 8).val ∧ standS.control.key.filtered = true ∧
    standS.service.prot.sets = false ∧ (standS.share.sets.get 2).valid = true ∧
    (39 : Word).toNat < (standS.share.sets.get 2).shareLimit.toNat := ⟨⟨rfl, rfl⟩, by decide +kernel⟩

/-- The bridge of `standS` with its set invalid. -/
def setInvalid (s : State) : State := storeSet 2 { set48 with valid := false } s

theorem witness_SetStructure :
    (∀ s ∈ [setInvalid standS, setInvalid eng2], (2 : BitVec 16).toNat = (2 : Fin 8).val ∧
      s.control.key.filtered = true ∧ s.service.prot.sets = false ∧ (s.share.sets.get 2).valid = false) ∧
    (let ms := fun (s : State) (n : BitVec 3) => ((List.finRange 6).take n.toNat).map (s.share.sets.get 2).members.get
     (ms (setInvalid standS) 2).Nodup ∧ ¬ (ms (setInvalid standS) 3).Nodup ∧
     (∀ i ∈ ms (setInvalid standS) 2, (standS.settings i).valid = true) ∧
     (∃ i ∈ ms (setInvalid stand) 2, (stand.settings i).valid = false) ∧
     (let s := storeSet 5 set48 (setInvalid standS)
      (s.share.sets.get 5).valid = true ∧ ∃ i ∈ ms s 2, i ∈ (s.share.sets.get 5).memberList) ∧
     (let s := setTp 0 { latch := true, record := none } (setInvalid standS)
      (∃ i ∈ ms s 2, s.tripped i = true) ∧ ∃ i ∈ ms s 2, s.tripped i = false) ∧
     (∀ j, (( setInvalid standS).share.sets.get j).valid = false)) ∧
    (standS.share.sets.get 2).valid = true ∧ (sharing.share.sets.get 2).valid = true ∧
    31 < (0x20000000 : Word).toNat / 256 ^ (3 : Fin 4).val % 256 := by decide +kernel

theorem witness_ProgramWrite :
    (511 : BitVec 16).toNat = (511 : Fin 512).val ∧ stand.service.prot.program = false ∧
    stand.control.key.filtered = true ∧ (∀ r, (stand.runner r).isLive = false) ∧
    ((waiting ⟨0, 0, 0, 0⟩ ⟨0, 0, 0, 0⟩ ⟨0, 0, 0, 0⟩ Runner.afterReset).runner 0).isLive = true := by decide +kernel

theorem witness_EventsAndBridgeWrite :
    (∀ n, (stand.events.classes.get n).toNat ≤ 3) ∧ 3 < ((0x40000000 : Word).toNat / 16 ^ (7 : Fin 8).val) % 16 ∧
    (∀ n : Fin 8, (0x33333333 : Word).toNat / 16 ^ n.val % 16 ≤ 3) ∧
    stand.control.key.filtered = true ∧ stand.service.prot.limits = false := by decide +kernel

/-- R193: the second class word gives events 8 to 15 their classes and keeps the first eight. -/
theorem test_class_write :
    let t := after (.eventsWrite 1 0 3 [0x30000002]) stand
    t.events.classes.toList = [0, 0, 0, 1, 1, 2, 2, 2, 2, 0, 0, 0, 0, 0, 0, 3] ∧
    t.service.slot = some { tag := 1, kind := 2, code := .ok, data := [0x30000002], firstHeader := none } := by
  decide +kernel

theorem witness_Start :
    eng2.canServe ∧ 4 ≤ (4 : BitVec 16).toNat ∧ (3 : BitVec 16).toNat = (3 : Fin 4).val ∧
    eng2.control.mode = .engaged ∧ stand.control.mode ≠ .engaged ∧ (eng2.runner 3).state = .idle ∧
    ((waiting ⟨0, 0, 0, 0⟩ ⟨0, 0, 0, 0⟩ ⟨0, 0, 0, 0⟩ Runner.afterReset).runner 0).state ≠ .idle ∧
    511 < (512 : BitVec 16).toNat ∧ (511 : BitVec 16).toNat ≤ 511 ∧ (eng2.settings 5).valid = false ∧
    (∀ i ∈ [(0 : Fin 32), 1], (eng2.settings i).valid = true ∧ (eng2.settings i).mode = .active ∧
      (∀ q, i ∉ (eng2.runner q).slots) ∧ eng2.tripped i = false) ∧ eng2t.tripped 0 = true ∧
    (0 : Fin 32) ∈ ((waiting ⟨0, 0, 0, 0⟩ ⟨0, 0, 0, 0⟩ ⟨0, 0, 0, 0⟩ Runner.afterReset).runner 0).slots :=
  ⟨⟨rfl, rfl⟩, by decide +kernel⟩

theorem witness_StopCloseAndSignal_runner :
    (stand.runner 3).state = .idle ∧
    (let s := waiting ⟨0, 0, 0, 0⟩ ⟨0, 0, 0, 0⟩ ⟨0, 0, 0, 0⟩ Runner.afterReset
     (s.runner 0).state = .waiting ∧ (s.runner 0).recording = false) ∧
    ((setRunner 0 { Runner.afterReset with state := .done, slots := [0] } eng2).runner 0).state = .done := by
  decide +kernel

/-- The bridge of `eng2t` with a last output, whose gap to the last inbound speed is the given value. -/
def held (gap : Word) : State :=
  setRw 0 { trim := 0, lastIn := ⟨0, 0, 0⟩, lastOut := some ⟨gap, 0, 0⟩, mark := false } eng2t

theorem witness_Release :
    32 ≤ (32 : BitVec 16).toNat ∧ (eng2.settings 31).valid = false ∧
    ((eng2.settings 0).valid = true ∧ eng2.tripped 0 = false) ∧
    ((eng2t.settings 0).valid = true ∧ eng2t.tripped 0 = true ∧
      (∀ k, (eng2t.share.sets.get k).valid = true → 0 ∉ (eng2t.share.sets.get k).memberList) ∧
      (eng2t.tp 0).record = some { cause := .manual, cycle := 0, speed := none, later := 0 } ∧
      eng2t.causePresent 0 .manual = false) ∧
    (setWbrk ⟨true, true, 0⟩ eng2t).causePresent 0 .brk = true ∧
    (∀ n ∈ [5000, 5001], let s := held (BitVec.ofNat 32 n)
      s.control.mode = .engaged ∧ (s.rw 0).lastOut = some ⟨BitVec.ofNat 32 n, 0, 0⟩ ∧
      (s.settings 0).mode = .active ∧ (s.settings 0).cutoff = .hold ∧
      s.trips.wbrk.filtered = false ∧ s.link.timer ≠ .expired) ∧
    ((held 5001).settings 0).trimLimit.toNat < mag ((5001 : Word).toInt - ((held 5001).rw 0).lastIn.speed.toInt) ∧
    mag ((5000 : Word).toInt - ((held 5000).rw 0).lastIn.speed.toInt) ≤ ((held 5000).settings 0).trimLimit.toNat := by
  decide +kernel

/-- R106 in STANDBY: section 0 TRIPPED, in no set, its cause not present. -/
theorem witness_Release_standby :
    let s := setTp 0 { latch := true, record := some { cause := .manual, cycle := 0, speed := none, later := 0 } }
      (storeSettings 0 (active 1) stand)
    s.control.mode = .standby ∧ (s.settings 0).valid = true ∧ s.tripped 0 = true ∧
    (∀ k, (s.share.sets.get k).valid = true → 0 ∉ (s.share.sets.get k).memberList) ∧
    s.causePresent 0 .manual = false ∧ TripLineOk s := by
  simp only [TripLineOk]
  decide +kernel

theorem witness_Release_level :
    (∀ s ∈ [setWbrk ⟨true, true, 0⟩ (held 5000), setTimer .expired (held 5000),
        setTimer .expired (setWbrk ⟨true, true, 0⟩ (held 5000))],
      s.canServe ∧ s.control.mode = .engaged ∧ (s.settings 0).valid = true ∧ (s.settings 0).mode = .active ∧
      s.tripped 0 = true ∧ (∀ k, (s.share.sets.get k).valid = true → 0 ∉ (s.share.sets.get k).memberList) ∧
      (s.tp 0).record = some { cause := .manual, cycle := 0, speed := none, later := 0 } ∧
      s.causePresent 0 .manual = false ∧ (s.rw 0).lastOut = some ⟨5000, 0, 0⟩ ∧ (s.rw 0).lastIn = ⟨0, 0, 0⟩ ∧
      (s.settings 0).trimLimit = 5000 ∧
      ((s.trips.wbrk.filtered = true ∧ (s.settings 0).breakResponse = true) ∨ s.link.timer = .expired)) := by
  simp only [State.canServe]
  decide +kernel

/-- The bridge of `sharing` with both members of its set TRIPPED, the lead for a manual trip; ENGAGED, or in STANDBY. -/
def setTripped (s : State) : State :=
  setTp 0 { latch := true, record := some { cause := .manual, cycle := 0, speed := none, later := 0 } }
    (setTp 1 { latch := true, record := some { cause := .peer, cycle := 0, speed := none, later := 0 } } s)

theorem witness_Release_set :
    ∀ s ∈ [sharing, standS], let u := setTripped s
    (u.share.sets.get 2).valid = true ∧ (u.share.sets.get 2).memberList = [0, 1] ∧ u.tripped 1 = true ∧
    (u.tp 1).record = some { cause := .peer, cycle := 0, speed := none, later := 0 } ∧
    u.causePresent 0 .manual = false ∧ (u.rw 0).lastOut = none ∧ (u.rw 1).lastOut = none ∧
    (u.control.mode = .standby ∨ (u.trips.wbrk.filtered = false ∧ u.link.timer ≠ .expired)) := by decide +kernel

theorem witness_Release_set_tripsOk : TripsOk (setTripped sharing) ∧ (setTripped sharing).canServe :=
  ⟨⟨by decide +kernel, by decide +kernel, by decide +kernel, by decide +kernel⟩, rfl, rfl⟩

/-- The second member's check fails: its gap of 5,001 is refused, one of 5,000 is released with the whole set. -/
theorem test_release_set :
    let u := fun gap : Word => setRw 1 { trim := 0, lastIn := ⟨0, 0, 0⟩, lastOut := some ⟨gap, 0, 0⟩, mark := false }
      (setTripped sharing)
    (after (.release 1 0) (u 5001)).service.slot = some (plainAnswer 1 8 .gap) ∧
    (after (.release 1 0) (u 5001)).tripped 0 = true ∧
    (let t := after (.release 1 0) (u 5000)
     t.tripped 0 = false ∧ t.tripped 1 = false ∧ (t.rw 1).trim = 5000 ∧ (t.rw 0).trim = 0) := by decide +kernel

/-- R95, R96: a section released while the break, or the silence, lasts trips again under a new record. -/
theorem test_level_release :
    (let t := after (.release 1 0) (setWbrk ⟨true, true, 0⟩ (held 5000))
     t.service.slot = some (plainAnswer 1 8 .ok) ∧ (t.rw 0).trim = 0 ∧
     (t.tp 0).record = some { cause := .brk, cycle := 0, speed := some 5000, later := 0 }) ∧
    ((after (.release 1 0) (setTimer .expired (held 5000))).tp 0).record.map (·.cause) = some .link := by decide +kernel

theorem witness_Trip :
    32 ≤ (32 : BitVec 16).toNat ∧ (eng2.settings 31).valid = false ∧
    ((standS.settings 0).valid = true ∧ standS.control.mode ≠ .engaged) ∧
    ((eng2t.settings 0).valid = true ∧ eng2t.control.mode = .engaged ∧ eng2t.tripped 0 = true) ∧
    ((sharing.settings 0).valid = true ∧ sharing.control.mode = .engaged ∧ sharing.tripped 0 = false ∧
      sharing.setOf 0 = some 2) ∧
    (let s := waiting ⟨0, 0, 0, 0⟩ ⟨0, 0, 0, 0⟩ ⟨0, 0, 0, 0⟩ Runner.afterReset
     (s.runner 0).isLive = true ∧ 0 ∈ (s.runner 0).slots ∧ (s.settings 0).cutoff ≠ .ignore ∧
     s.tripped 0 = false) := by decide +kernel

theorem witness_StopCloseAndSignal_mark :
    7 < (8 : BitVec 16).toNat ∧ 1 < (2 : Word).toNat ∧ (7 : BitVec 16).toNat = (7 : Fin 8).val ∧
    (1 : Word).toNat ≤ 1 := by decide

theorem witness_Protect :
    3 < (4 : BitVec 16).toNat ∧ 1 < (2 : Word).toNat ∧ (3 : BitVec 16).toNat ≤ 3 ∧ (0 : Word).toNat = 0 ∧
    (1 : Word).toNat = 1 ∧ (setKey ⟨false, false, 0⟩ stand).control.key.filtered = false ∧
    stand.control.key.filtered = true := by decide +kernel

theorem witness_Clear :
    (∀ n ∈ [16, 255, 257], 15 < (BitVec.ofNat 32 n).toNat ∧ (BitVec.ofNat 32 n).toNat ≠ 256) ∧
    (∀ n ∈ [0, 15, 256], (BitVec.ofNat 32 n).toNat ≤ 15 ∨ (BitVec.ofNat 32 n).toNat = 256) := by decide

theorem witness_BlocksAndRecordsRoundTrip :
    (List.replicate 8 (0xFFFFFFFF : Word)).length ≤ 8 := by decide

/-- Table 11-4: the answer to a READ of one word, with its first-header position, and one to an ENGAGE. -/
theorem test_answer_block :
    Answer.block { tag := 9, kind := 1, code := .ok, data := [0x00020003], firstHeader := some 7 } =
      [0x0901, 0x0001, 7, 2, 3] ∧
    (plainAnswer 9 3 .keyOff).block = [0x0903, 0x0F00] := by decide

/-- A state that meets every invariant, with a step from it. -/
theorem witness_invariants_kept :
    RingOk standS ∧ QueuesOk standS ∧ ModeOk standS ∧ AddressesOk standS ∧ TripsOk standS ∧ TrimsOk standS ∧
    (match step standS with | .next _ => true | _ => false) = true := by
  refine ⟨?_, ?_, ?_, ?_, ?_, ?_, rfl⟩
  · simp only [RingOk]; decide +kernel
  · intro p; cases p <;> decide +kernel
  · simp only [ModeOk]; decide +kernel
  · simp only [AddressesOk]; decide +kernel
  · refine ⟨?_, ?_, ?_, ?_⟩ <;> decide +kernel
  · simp only [TrimsOk]; decide +kernel

/-- The same for the runners. -/
theorem witness_runnersOk : RunnersOk standS := by
  refine ⟨?_, ?_, ?_, ?_, ?_, ?_⟩ <;> decide +kernel

end Sys2Proof.Tests
end

