-- ==== Sys2Proof/Proofs/TripEffects.lean ====
section
/-! PROOFS. What a trip action writes, field by field (R90), and what it writes for a section in no valid set. -/

namespace Sys2Proof.Machine.ReportClose

variable {s t u : State} {i j : Fin 32} {k : Fin 8}

/-! ### Reading blocks through a frame -/

theorem settings_of_frame {bs : List Block} (h : SameExcept bs s t) (hb : Block.table ∉ bs) (i : Fin 32) :
    t.settings i = s.settings i := congrArg (·.get i) (h.same .table hb)

theorem rw_of_frame {bs : List Block} (h : SameExcept bs s t) (hb : Block.rewriter ∉ bs) (i : Fin 32) :
    t.rw i = s.rw i := congrArg (·.sec.get i) (h.same .rewriter hb)

theorem sh_of_frame {bs : List Block} (h : SameExcept bs s t) (hb : Block.share ∉ bs) (i : Fin 32) :
    t.sh i = s.sh i := congrArg (·.sec.get i) (h.same .share hb)

theorem counts_of_frame {bs : List Block} (h : SameExcept bs s t) (hb : Block.banks ∉ bs) (i : Fin 32) :
    t.counts i = s.counts i := congrArg (·.cnt.get i) (h.same .banks hb)

/-- What one operation keeps for every item is kept by the operation over a list. -/
theorem forEach_same {α β : Type} {f : α → State → State} (g : State → β) (h : ∀ a s, g (f a s) = g s) (l : List α)
    (s : State) : g (forEach l f s) = g s := by
  induction l generalizing s with
  | nil => rfl
  | cons a l ih => exact (ih (f a s)).trans (h a s)

/-! ### Set membership -/

/-- The section is a member of no valid set. -/
def Alone (i : Fin 32) (s : State) : Prop :=
  ∀ k, (s.share.sets.get k).valid = true → i ∉ (s.share.sets.get k).memberList

theorem Alone.of_sets (h : Alone i s) (hs : t.share.sets = s.share.sets) : Alone i t := by
  unfold Alone
  rw [hs]
  exact h

theorem setOf_of_sets (h : t.share.sets = s.share.sets) (i : Fin 32) : t.setOf i = s.setOf i := by
  simp only [State.setOf, h]

/-- A section's set is valid and holds it. -/
theorem setOf_some (h : s.setOf i = some k) :
    (s.share.sets.get k).valid = true ∧ i ∈ (s.share.sets.get k).memberList := by
  simpa using List.find?_some h

theorem Alone.setOf (h : Alone i s) : s.setOf i = none := by
  cases hk : s.setOf i with
  | none => rfl
  | some k =>
    obtain ⟨hv, hm⟩ := setOf_some hk
    exact absurd hm (h k hv)

theorem movedBy_of_no_set (h : s.setOf i = none) : s.movedBy i = [i] := by simp [State.movedBy, State.peersOf, h]

/-- A trip of another section does not reach a section in no valid set. -/
theorem Alone.not_mem_peersOf (h : Alone i s) (j : Fin 32) : i ∉ s.peersOf j := by
  unfold State.peersOf
  split
  · exact List.not_mem_nil
  · next k hk =>
    obtain ⟨hv, -⟩ := setOf_some hk
    exact fun hm => h k hv (List.mem_filter.1 hm).1

theorem Alone.not_mem_movedBy (h : Alone i s) (hj : j ≠ i) : i ∉ s.movedBy j := by
  intro hm
  rcases List.mem_cons.1 hm with e | hm
  · exact hj e.symm
  · exact h.not_mem_peersOf j (List.mem_filter.1 hm).1

/-! ### Cutting back (R90 parts 3 and 4) -/

/-- What a trip action reads and writes of one section outside the trip unit. -/
structure SectionRow where
  cutoff : Cutoff
  rewrite : RewriteStatus
  share : ShareStatus
  counts : FeedbackCounts

/-- The row of a section. -/
def row (j : Fin 32) (s : State) : SectionRow :=
  { cutoff := (s.settings j).cutoff, rewrite := s.rw j, share := s.sh j, counts := s.counts j }

/-- R90 parts 3 and 4: T and L are 0 unless the cutoff action is IGNORE, and both persistence counts are 0. -/
def SectionRow.cut (x : SectionRow) : SectionRow :=
  { x with
    rewrite := if x.cutoff = .ignore then x.rewrite else { x.rewrite with trim := 0, mark := true }
    share := { trim := if x.cutoff = .ignore then x.share.trim else 0, imbalance := 0 }
    counts := { x.counts with deviation := 0 } }

theorem SectionRow.cut_cut (x : SectionRow) : x.cut.cut = x.cut := by
  by_cases h : x.cutoff = .ignore <;> simp [SectionRow.cut, h]

theorem rw_eq_row (j : Fin 32) (s : State) : s.rw j = (row j s).rewrite := rfl
theorem sh_eq_row (j : Fin 32) (s : State) : s.sh j = (row j s).share := rfl
theorem counts_eq_row (j : Fin 32) (s : State) : s.counts j = (row j s).counts := rfl

theorem row_of_frame {bs : List Block} (h : SameExcept bs s t)
    (hb : Block.table ∉ bs ∧ Block.rewriter ∉ bs ∧ Block.share ∉ bs ∧ Block.banks ∉ bs) (j : Fin 32) :
    row j t = row j s := by
  obtain ⟨h1, h2, h3, h4⟩ := hb
  simp only [row, settings_of_frame h h1, rw_of_frame h h2, sh_of_frame h h3, counts_of_frame h h4]

@[simp] theorem row_setTrimMarked (x : Word) : row j (setTrimMarked i x s) =
    if j = i then { row j s with rewrite := { (row j s).rewrite with trim := x, mark := true } } else row j s := by
  split
  · next e => subst e; simp only [row, setTrimMarked, setRw_rw]; rfl
  · next e => simp only [row, setTrimMarked, setRw_rw, e]; rfl

@[simp] theorem row_setShareTrim (x : Word) : row j (setShareTrim i x s) =
    if j = i then { row j s with share := { (row j s).share with trim := x } } else row j s := by
  split
  · next e => subst e; simp only [row, setShareTrim, setSh_sh]; rfl
  · next e => simp only [row, setShareTrim, setSh_sh, e]; rfl

@[simp] theorem row_setImbalance (n : BitVec 8) : row j (setImbalance i n s) =
    if j = i then { row j s with share := { (row j s).share with imbalance := n } } else row j s := by
  split
  · next e => subst e; simp only [row, setImbalance, setSh_sh]; rfl
  · next e => simp only [row, setImbalance, setSh_sh, e]; rfl

@[simp] theorem row_setDeviation (n : BitVec 8) : row j (setDeviation i n s) =
    if j = i then { row j s with counts := { (row j s).counts with deviation := n } } else row j s := by
  split
  · next e => subst e; simp only [row, setDeviation, setCounts_counts]; rfl
  · next e => simp only [row, setDeviation, setCounts_counts, e]; rfl

@[simp] theorem setDeviation_counts (n : BitVec 8) :
    (setDeviation i n s).counts j = if j = i then { s.counts i with deviation := n } else s.counts j := by
  simp [setDeviation]

theorem cutBack_row : row j (cutBack i s) = if j = i then (row j s).cut else row j s := by
  unfold cutBack
  by_cases e : j = i
  · subst e
    have hc : (s.settings j).cutoff = (row j s).cutoff := rfl
    split
    · next h => rw [hc] at h; simp [h, SectionRow.cut]
    · next h => rw [hc] at h; simp [h, SectionRow.cut]
  · split <;> simp [e]

/-- Of every item of the list that an idempotent write is taken for, it is done once. -/
theorem forEach_at {β : Type} {f : Fin 32 → State → State} (g : State → β) (w : β → β) (hw : ∀ x, w (w x) = w x)
    (h : ∀ i s, g (f i s) = if j = i then w (g s) else g s) (l : List (Fin 32)) (s : State) :
    g (forEach l f s) = if j ∈ l then w (g s) else g s := by
  induction l generalizing s with
  | nil => simp [forEach]
  | cons i l ih =>
    show g (forEach l f (f i s)) = _
    rw [ih, h]
    by_cases e : j = i <;> by_cases hl : j ∈ l <;> simp [e, hl, hw]

theorem cutBack_stat : (cutBack i s).share.stat = s.share.stat := by
  unfold cutBack
  split <;> rfl

theorem cutBack_sets : (cutBack i s).share.sets = s.share.sets := by
  unfold cutBack
  split <;> rfl

/-! ### Halting the set (R83) -/

theorem haltSetOf_setStat : (haltSetOf i s).setStat k =
    if s.setOf i = some k then { s.setStat k with state := .halted, settled := false } else s.setStat k := by
  unfold haltSetOf
  split
  · next h => simp [h]
  · next l h =>
    simp only [setSetStatus_setStat, h, Option.some.injEq]
    by_cases e : k = l
    · simp [e]
    · simp [e, Ne.symm e]

theorem haltSetOf_row : row j (haltSetOf i s) = row j s := by
  unfold haltSetOf
  split <;> rfl

/-! ### The whole trip action (R90) -/

/-- R90: the parts of a trip action in their order, by the blocks each can change. -/
theorem tripAction_stages (c : BitVec 16) (cause : TripCause) (i : Fin 32) (s : State) :
    ∃ u, SameExcept [.trips] s u ∧
      SameExcept [.trips, .runners, .ring, .events] (haltSetOf i (forEach (s.movedBy i) cutBack u))
        (tripAction c cause i s) :=
  ⟨forEach (s.peersOf i) peerTrip (latchTrip cause i s),
    (latchTrip_frame ..).trans (.forEach (fun _ _ => peerTrip_frame _) _),
    ((SameExcept.refl.step (raise_frame _)).step (handOff_frame ..)).step setTripLine_frame⟩

variable (c : BitVec 16) (cause : TripCause)

theorem tripAction_row : row j (tripAction c cause i s) =
    if j ∈ s.movedBy i then (row j s).cut else row j s := by
  obtain ⟨u, hu, ht⟩ := tripAction_stages c cause i s
  rw [row_of_frame ht (by decide), haltSetOf_row,
    forEach_at (row j) SectionRow.cut SectionRow.cut_cut (fun _ _ => cutBack_row), row_of_frame hu (by decide)]

/-- R83: of the sets' read-only fields a trip changes the state and the settled field of the section's own set. -/
theorem tripAction_setStat : (tripAction c cause i s).setStat k =
    if s.setOf i = some k then { s.setStat k with state := .halted, settled := false } else s.setStat k := by
  obtain ⟨u, hu, ht⟩ := tripAction_stages c cause i s
  have hsets : (forEach (s.movedBy i) cutBack u).share.sets = s.share.sets :=
    (forEach_same (·.share.sets) (fun _ _ => cutBack_sets) _ u).trans (congrArg (·.sets) (hu.same .share (by decide)))
  have hstat : (forEach (s.movedBy i) cutBack u).setStat k = s.setStat k :=
    congrArg (·.get k) ((forEach_same (·.share.stat) (fun _ _ => cutBack_stat) _ u).trans
      (congrArg (·.stat) (hu.same .share (by decide))))
  have hfin : (tripAction c cause i s).setStat k = (haltSetOf i (forEach (s.movedBy i) cutBack u)).setStat k :=
    congrArg (·.stat.get k) (ht.same .share (by decide))
  rw [hfin, haltSetOf_setStat, setOf_of_sets hsets, hstat]

theorem tripAction_sets : (tripAction c cause i s).share.sets = s.share.sets := sets_closed.tripAction c cause i

/-- R90: a trip keeps every latch that is TRIPPED. -/
theorem tripAction_tripped_mono (hi : s.tripped i = false) (h : s.tripped j = true) :
    (tripAction c cause i s).tripped j = true := by
  have ht := tripSection_tripped (s := s) c cause i j
  rw [tripSection, if_neg (by simp [hi]), h, Bool.true_or] at ht
  exact ht

theorem tripAction_tripped_self : (tripAction c cause i s).tripped i = true := by
  rw [State.tripped, tripAction_own]

/-! ### Flags -/

/-- R192: every flag that is set stays set. -/
def FlagsKept (s t : State) : Prop := ∀ e, s.flag e = true → t.flag e = true

theorem FlagsKept.of_events (h : t.events = s.events) : FlagsKept s t := fun e he => by
  rw [State.flag, h]
  exact he

theorem FlagsKept.trans (h : FlagsKept s t) (k : FlagsKept t u) : FlagsKept s u := fun e he => k e (h e he)

theorem FlagsKept.raise (e : Event) (s : State) : FlagsKept s (raise e s) := fun _ h => setBit16_mono _ _ _ h

theorem FlagsKept.produceRecord (ws : List Word) (s : State) : FlagsKept s (produceRecord ws s) := by
  unfold Machine.produceRecord
  split
  · exact .of_events rfl
  · exact .trans (.of_events rfl) (.raise _ _)

/-- No trip, share computation or supervision clears an event flag. -/
theorem flags_closed : Closed FlagsKept where
  refl _ := .of_events rfl
  trans := .trans
  raise := .raise
  produce := .produceRecord
  takeChoice _ := .of_events rfl
  leave c r how s _ := leave_of .trans .raise (fun _ => .of_events rfl) .produceRecord
    (fun _ _ _ _ => .of_events rfl) c r how s
  setRw _ _ _ := .of_events rfl
  setSh _ _ _ := .of_events rfl
  setCounts _ _ _ := .of_events rfl
  setSetStatus _ _ _ := .of_events rfl
  setTp _ _ _ _ := .of_events rfl
  setTripLine _ := .of_events rfl

theorem tripAction_flag : (tripAction c cause i s).flag .trip = true := by
  refine flags_closed.setTripLine _ .trip (flags_closed.toClosedRun.handOff c (s.movedBy i) .trip ?_)
  exact setBit16_self _ (by decide)

/-! ### A trip of a section in no valid set -/

/-- R90 parts 3 and 4: T and L of the section from `s` to `t`, by its cutoff action. -/
def CutBackAt (i : Fin 32) (s t : State) : Prop :=
  ((s.settings i).cutoff ≠ .ignore → (t.rw i).trim = 0 ∧ (t.rw i).mark = true ∧ (t.sh i).trim = 0) ∧
  ((s.settings i).cutoff = .ignore → t.rw i = s.rw i ∧ (t.sh i).trim = (s.sh i).trim)

/-- R89, R90: in `t` the section has been tripped by `cause` from `s`, with these later causes. -/
structure AloneTrip (i : Fin 32) (cause : TripCause) (later : BitVec 16) (s t : State) : Prop where
  tp : t.tp i = { latch := true, record := some { cause := cause, cycle := s.link.lastCycle
                                                  speed := (s.rw i).lastOut.map (·.speed), later := later } }
  counts : t.counts i = { missing := (s.counts i).missing, deviation := 0 }
  flag : t.flag .trip = true
  cut : CutBackAt i s t

/-- The row of a section after its cut says what R90 asks of T and L. -/
theorem cutBackAt_of_row (h : row i t = (row i s).cut) : CutBackAt i s t := by
  unfold CutBackAt
  rw [rw_eq_row, sh_eq_row, h]
  constructor <;> intro hc <;> simp [row, SectionRow.cut, hc]

theorem tripAction_alone (h : Alone i s) : AloneTrip i cause 0 s (tripAction c cause i s) := by
  have hrow : row i (tripAction c cause i s) = (row i s).cut := by simp [tripAction_row, movedBy_of_no_set h.setOf]
  exact { tp := tripAction_own ..
          counts := by rw [counts_eq_row, hrow]; rfl
          flag := tripAction_flag ..
          cut := cutBackAt_of_row hrow }

variable {cause}

/-- R57: the count that was stored just before the trip leaves no trace. -/
theorem AloneTrip.of_setDeviation {later : BitVec 16} {n : BitVec 8}
    (h : AloneTrip i cause later (setDeviation i n s) t) : AloneTrip i cause later s t where
  tp := h.tp
  counts := h.counts.trans (by simp [setDeviation])
  flag := h.flag
  cut := h.cut

/-- R91: DEVIATION entered after another cause. -/
theorem AloneTrip.later_deviation (h : AloneTrip i cause 0 s t) (hc : cause ≠ .deviation) :
    AloneTrip i cause 0x0010 s (addLaterCause .deviation i t) where
  tp := by
    have hl : ∀ r : TripRecord, r.cause = cause → r.later = 0 → r.addLater .deviation = { r with later := 0x0010 } := by
      rintro r rfl hr
      rw [TripRecord.addLater, if_neg (Ne.symm hc), hr]
      rfl
    simp [addLaterCause, h.tp, hl]
  counts := h.counts
  flag := h.flag
  cut := h.cut

end Sys2Proof.Machine.ReportClose
end

