-- ==== Sys2Proof/Proofs/ReportClose.lean ====
section
/-! PROOFS. The phases of a report close (R52): the exchanged banks, the work of the sets, and the turns of the
sections. One induction for a set's work and one for a section's turn, for relations that hold of their parts for the
sections concerned. -/

namespace Sys2Proof.Machine.ReportClose

variable {s t u : State} {i j : Fin 32} {k : Fin 8} {P : Fin 32 → Prop} {G : State → State → Prop}

/-! ### The work of a section's turn and of a set, for some of the sections -/

/-- A relation that is closed under what the supervision does for a section with `P`. -/
structure ClosedTurn (P : Fin 32 → Prop) (G : State → State → Prop) : Prop where
  refl : ∀ s, G s s
  trans : ∀ {s t u}, G s t → G t u → G s u
  setDeviation : ∀ i n s, P i → G s (setDeviation i n s)
  addLaterCause : ∀ c i s, P i → G s (addLaterCause c i s)
  tripAction : ∀ c cause i s, P i → s.tripped i = false → G s (tripAction c cause i s)

/-- A relation that is closed under what a set's work does when its members have `P`. -/
structure ClosedShare (P : Fin 32 → Prop) (G : State → State → Prop) : Prop extends ClosedTurn P G where
  raise : ∀ e s, G s (raise e s)
  setSetStatus : ∀ k x s, G s (setSetStatus k x s)
  setSh : ∀ i x s, P i → G s (setSh i x s)

theorem ite_rel {p : Prop} [Decidable p] (h : G s t) (k : G s u) : G s (if p then t else u) := by
  split
  · exact h
  · exact k

namespace ClosedTurn

variable (g : ClosedTurn P G)
include g

theorem of_forEach {α : Type} {f : α → State → State} {l : List α} (h : ∀ a ∈ l, ∀ t, G t (f a t)) (s : State) :
    G s (forEach l f s) := by
  induction l generalizing s with
  | nil => exact g.refl s
  | cons a l ih => exact g.trans (h a (List.mem_cons_self ..) s) (ih (fun b hb => h b (List.mem_cons_of_mem _ hb)) _)

theorem of_tripSection (c : BitVec 16) (cause : TripCause) (hi : P i) (s : State) :
    G s (tripSection c cause i s) := by
  unfold Machine.tripSection
  split
  · exact g.addLaterCause _ _ _ hi
  · next h => exact g.tripAction _ _ _ _ hi (by simpa using h)

/-- R55 to R59: a section's turn. -/
theorem of_superviseClose (c : BitVec 16) (hi : P i) (s : State) : G s (superviseClose c i s) := by
  have hd := g.setDeviation i (s.deviationCount i) s hi
  have ht := fun cause => g.trans hd (g.of_tripSection c cause hi _)
  unfold Machine.superviseClose Machine.feedbackTest
  exact ite_rel
    (ite_rel (ite_rel (g.trans (ht _) (g.addLaterCause _ _ _ hi)) (ht _)) (ite_rel (ht _) (ite_rel (ht _) hd)))
    (g.setDeviation _ _ _ hi)

end ClosedTurn

/-- A member with its position is a member. -/
theorem mem_memberList {cfg : SetSettings} {m : Fin 6 × Fin 32} (h : m ∈ cfg.positions) : m.2 ∈ cfg.memberList :=
  List.mem_map_of_mem h

/-- R80: only members reach the imbalance persistence. -/
theorem mem_of_imbalanceReached {cfg : SetSettings} {ref : Int} (h : i ∈ s.imbalanceReached cfg ref cfg.positions) :
    i ∈ cfg.memberList := by
  obtain ⟨m, hm, rfl⟩ := List.mem_map.1 h
  exact mem_memberList (List.mem_filter.1 hm).1

/-- R70 to R80: the work of a set. -/
theorem ClosedShare.of_shareSet (g : ClosedShare P G)
    (h : (s.share.sets.get k).valid = true → ∀ i ∈ (s.share.sets.get k).memberList, P i) : G s (shareSet k s) := by
  unfold Machine.shareSet
  by_cases hv : (s.share.sets.get k).valid = true
  · have hP := h hv
    have hdeg : G s (shareDegraded k s) := by
      have h2 := fun x => g.trans (g.setSetStatus k x s)
        (g.of_forEach (f := fun i s' => setImbalance i 0 s') (fun i hi t => g.setSh i _ t (hP i hi)) _)
      exact ite_rel (g.trans (h2 _) (g.raise ..)) (h2 _)
    have hshare : G s (shareSharing k s) := by
      unfold Machine.shareSharing
      refine g.trans (g.trans (g.trans (g.trans (g.setSetStatus ..) (g.of_forEach ?_ _)) (g.of_forEach ?_ _))
        (g.of_forEach ?_ _)) (g.setSetStatus ..)
      · exact fun m hm t => ite_rel (g.setSh _ _ _ (hP _ (mem_memberList (List.mem_filter.1 hm).1))) (g.refl t)
      · exact fun m hm t => g.setSh _ _ _ (hP _ (mem_memberList hm))
      · exact fun i hi t => g.of_tripSection _ _ (hP i (mem_of_imbalanceReached hi)) t
    exact ite_rel (ite_rel (ite_rel (g.setSetStatus ..) (g.setSetStatus ..))
      (ite_rel (g.refl s) (ite_rel hdeg hshare))) (g.refl s)
  · rw [if_neg hv]
    exact g.refl s

/-! ### What is kept around the sections -/

/-- What every set's work and every section's turn keep: the blocks that no trip reaches, the settings of the sets, the
feedback records, and the event flags that are set. -/
structure Surroundings (s t : State) : Prop where
  frame : SameExcept tripBlocks s t
  sets : t.share.sets = s.share.sets
  records : (t.banks.fill, t.banks.held) = (s.banks.fill, s.banks.held)
  flags : FlagsKept s t

theorem Surroundings.refl (s : State) : Surroundings s s := ⟨.refl, rfl, rfl, .of_events rfl⟩

theorem Surroundings.trans (h : Surroundings s t) (k : Surroundings t u) : Surroundings s u :=
  ⟨h.frame.trans k.frame, k.sets.trans h.sets, k.records.trans h.records, h.flags.trans k.flags⟩

theorem Surroundings.of_forEach {α : Type} {f : α → State → State} (h : ∀ a t, Surroundings t (f a t)) (l : List α)
    (s : State) : Surroundings s (forEach l f s) := by
  induction l generalizing s with
  | nil => exact .refl s
  | cons a l ih => exact (h a s).trans (ih _)

theorem Surroundings.heldRec (h : Surroundings s t) (i : Fin 32) : t.heldRec i = s.heldRec i :=
  congrArg (·.2.get i) h.records

theorem Surroundings.settings (h : Surroundings s t) (i : Fin 32) : t.settings i = s.settings i :=
  settings_of_frame h.frame (by decide) i

theorem superviseClose_surroundings (c : BitVec 16) (i : Fin 32) (s : State) :
    Surroundings s (superviseClose c i s) where
  frame := superviseClose_frame c i
  sets := sets_closed.toTrip.superviseClose c i
  records := feedback_closed.toTrip.superviseClose c i
  flags := flags_closed.toTrip.superviseClose c i

theorem shareReportClose_surroundings (s : State) : Surroundings s (shareReportClose s) where
  frame := shareReportClose_frame
  sets := sets_closed.toTrip.shareReportClose
  records := feedback_closed.toTrip.shareReportClose
  flags := flags_closed.toTrip.shareReportClose

/-- R70: a relation closed under the sets' work holds of the whole of it, for sections that keep `P`. -/
theorem ClosedShare.of_shareReportClose (g : ClosedShare P G)
    (h : ∀ k, (s.share.sets.get k).valid = true → ∀ i ∈ (s.share.sets.get k).memberList, P i) :
    G s (shareReportClose s) := by
  suffices hl : ∀ (l : List (Fin 8)) (t : State), t.share.sets = s.share.sets → G t (forEach l shareSet t) from
    ite_rel (hl _ s rfl) (g.refl s)
  intro l
  induction l with
  | nil => exact fun t _ => g.refl t
  | cons k l ih =>
    intro t ht
    exact g.trans (g.of_shareSet (by rw [ht]; exact h k)) (ih _ ((sets_closed.toTrip.shareSet k).trans ht))

/-! ### A section in no valid set -/

/-- Of a section in no valid set everything is kept, and so are the sets. -/
structure KeptAt (i : Fin 32) (s t : State) : Prop where
  tp : t.tp i = s.tp i
  row : row i t = row i s
  sets : t.share.sets = s.share.sets

theorem KeptAt.rw (h : KeptAt i s t) : t.rw i = s.rw i := congrArg (·.rewrite) h.row
theorem KeptAt.sh (h : KeptAt i s t) : t.sh i = s.sh i := congrArg (·.share) h.row
theorem KeptAt.counts (h : KeptAt i s t) : t.counts i = s.counts i := congrArg (·.counts) h.row

/-- What is done for the other sections keeps everything of a section in no valid set. -/
theorem keptAt_closed (i : Fin 32) : ClosedShare (· ≠ i) fun s t => Alone i s → KeptAt i s t where
  refl _ _ := ⟨rfl, rfl, rfl⟩
  trans h k ha :=
    have hst := h ha
    have htu := k (ha.of_sets hst.sets)
    ⟨htu.tp.trans hst.tp, htu.row.trans hst.row, htu.sets.trans hst.sets⟩
  setDeviation j n s hj _ := ⟨rfl, by rw [row_setDeviation, if_neg (Ne.symm hj)], rfl⟩
  addLaterCause c j s hj _ := ⟨by rw [Machine.addLaterCause, setTp_tp, if_neg (Ne.symm hj)], rfl, rfl⟩
  tripAction c cause j s hj _ ha :=
    ⟨tripAction_other c cause (Ne.symm hj) (ha.not_mem_peersOf j),
      by rw [tripAction_row, if_neg (ha.not_mem_movedBy hj)], tripAction_sets ..⟩
  raise _ _ _ := ⟨rfl, rfl, rfl⟩
  setSetStatus _ _ _ _ := ⟨rfl, rfl, rfl⟩
  setSh j x s hj _ := ⟨rfl, by simp only [ReportClose.row, setSh_sh, if_neg (Ne.symm hj)]; rfl, rfl⟩

/-! ### What every section keeps -/

/-- R19, R90: no work of a report close changes a last output. -/
theorem lastOut_closed (i : Fin 32) :
    ClosedShare (fun _ => True) fun s t => (t.rw i).lastOut = (s.rw i).lastOut where
  refl _ := rfl
  trans h k := k.trans h
  setDeviation _ _ _ _ := rfl
  addLaterCause _ _ _ _ := rfl
  tripAction c cause j s _ _ := by
    rw [rw_eq_row, tripAction_row]
    split
    · unfold SectionRow.cut
      dsimp only
      split <;> rfl
    · rfl
  raise _ _ := rfl
  setSetStatus _ _ _ := rfl
  setSh _ _ _ _ := rfl

/-- R60, R90: a deviation count of 0 stays 0 in the turns of the other sections. -/
theorem deviation_closed (i : Fin 32) :
    ClosedTurn (· ≠ i) fun s t => (s.counts i).deviation = 0 → (t.counts i).deviation = 0 where
  refl _ h := h
  trans h k h0 := k (h h0)
  setDeviation j n s hj h := by rw [setDeviation_counts, if_neg (Ne.symm hj)]; exact h
  addLaterCause _ _ _ _ h := h
  tripAction c cause j s _ _ h := by
    rw [counts_eq_row, tripAction_row]
    split
    · rfl
    · exact h

/-! ### The turn of a section (R55 to R59) -/

/-- The sections' pass comes to a section once: the turns before it, its own, and those after it. -/
theorem sections_split (i : Fin 32) (f : Fin 32 → State → State) :
    ∃ l₁ l₂ : List (Fin 32), (∀ j ∈ l₁, j ≠ i) ∧ (∀ j ∈ l₂, j ≠ i) ∧
      ∀ s, forEach sections f s = forEach l₂ f (f i (forEach l₁ f s)) := by
  obtain ⟨l₁, l₂, hl⟩ := List.append_of_mem (List.mem_finRange i)
  have hn := hl ▸ List.nodup_finRange 32
  obtain ⟨-, hn₂, hn₁⟩ := List.nodup_append.1 hn
  refine ⟨l₁, l₂, fun j hj => hn₁ j hj i (List.mem_cons_self ..), fun j hj e => ?_, fun s => ?_⟩
  · exact (List.nodup_cons.1 hn₂).1 (e ▸ hj)
  · simp only [forEach, sections, hl, List.foldl_append, List.foldl_cons]

variable {c : BitVec 16}

/-- R55: a section that is not supervised only has its deviation count cleared. -/
theorem superviseClose_unsupervised (h : s.supervised i = false) : superviseClose c i s = setDeviation i 0 s := by
  rw [superviseClose, if_neg (by simp [h])]

theorem tripped_of_supervised (h : s.supervised i = true) : s.tripped i = false := by
  simp only [State.supervised, Bool.and_eq_true, Bool.not_eq_true'] at h
  exact h.2

/-- A trip in the turn of a supervised section is the trip action of a CLEAR one. -/
theorem tripSection_supervised {cause : TripCause} {n : BitVec 8} (h : s.supervised i = true) :
    tripSection c cause i (setDeviation i n s) = tripAction c cause i (setDeviation i n s) :=
  if_neg (Bool.eq_false_iff.1 (tripped_of_supervised h))

theorem AloneTrip.of_turn {cause : TripCause} {n : BitVec 8} (hs : s.supervised i = true) (ha : Alone i s) :
    AloneTrip i cause 0 s (tripSection c cause i (setDeviation i n s)) := by
  rw [tripSection_supervised hs]
  exact (tripAction_alone c cause (s := setDeviation i n s) ha).of_setDeviation

theorem setDeviation_feedbackLost (n : BitVec 8) : (setDeviation i n s).feedbackLost i = s.feedbackLost i := by
  have h : (setDeviation i n s).settings i = s.settings i := rfl
  simp [State.feedbackLost, h]

/-- R56, R59: a drive fault trips first, with DEVIATION entered after it when that is due as well. -/
theorem superviseClose_drive (hs : s.supervised i = true) (ha : Alone i s) (hd : s.driveFault i = true) :
    AloneTrip i .drive (if s.deviationDue i = true then 0x0010 else 0) s (superviseClose c i s) := by
  rw [superviseClose, if_pos hs]
  dsimp only
  rw [if_pos hd]
  split
  · exact (AloneTrip.of_turn (cause := .drive) hs ha).later_deviation (by decide)
  · exact .of_turn hs ha

/-- R57: a deviation that is due trips when there is no drive fault. -/
theorem superviseClose_deviation (hs : s.supervised i = true) (ha : Alone i s) (hd : s.driveFault i = false)
    (hdue : s.deviationDue i = true) : AloneTrip i .deviation 0 s (superviseClose c i s) := by
  rw [superviseClose, if_pos hs]
  dsimp only
  rw [hd, if_neg Bool.false_ne_true, if_pos hdue]
  exact .of_turn hs ha

/-- R58: the feedback test comes when neither of the others trips. -/
theorem superviseClose_feedback (hs : s.supervised i = true) (ha : Alone i s) (hd : s.driveFault i = false)
    (hdue : s.deviationDue i = false) (hf : s.feedbackLost i = true) :
    AloneTrip i .feedback 0 s (superviseClose c i s) := by
  have hf' : ∀ n, (setDeviation i n s).feedbackLost i = true := fun n => by rw [setDeviation_feedbackLost, hf]
  rw [superviseClose, if_pos hs]
  dsimp only
  rw [hd, if_neg Bool.false_ne_true, hdue, if_neg Bool.false_ne_true, feedbackTest, if_pos (hf' _)]
  exact .of_turn hs ha

/-- R57: a turn in which no test trips stores the deviation count and nothing else. -/
theorem superviseClose_quiet (hs : s.supervised i = true) (hd : s.driveFault i = false)
    (hdue : s.deviationDue i = false) (hf : s.feedbackLost i = false) :
    superviseClose c i s = setDeviation i (s.deviationCount i) s := by
  have hf' : ∀ n, (setDeviation i n s).feedbackLost i = false := fun n => by rw [setDeviation_feedbackLost, hf]
  rw [superviseClose, if_pos hs]
  dsimp only
  rw [hd, if_neg Bool.false_ne_true, hdue, if_neg Bool.false_ne_true, feedbackTest, hf',
    if_neg Bool.false_ne_true]

theorem deviationCount_of_not_deviates (h : s.deviates i = false) : s.deviationCount i = 0 := by
  rw [State.deviationCount, h, if_neg Bool.false_ne_true]

theorem deviationDue_of_not_deviates (h : s.deviates i = false) : s.deviationDue i = false := by
  rw [State.deviationDue, h, Bool.false_and]

/-- R57, R60: without a deviation a section's turn leaves its deviation count 0. -/
theorem superviseClose_counts_of_not_deviates (h : s.deviates i = false) :
    ((superviseClose c i s).counts i).deviation = 0 := by
  have hdue := deviationDue_of_not_deviates h
  have hn := deviationCount_of_not_deviates h
  have h0 : ((setDeviation i 0 s).counts i).deviation = 0 := by simp
  by_cases hs : s.supervised i = true
  · have ht : ∀ cause, ((tripSection c cause i (setDeviation i 0 s)).counts i).deviation = 0 := fun cause => by
      rw [tripSection_supervised hs, counts_eq_row, tripAction_row]
      split
      · rfl
      · exact h0
    rw [superviseClose, if_pos hs]
    dsimp only
    rw [hdue, hn, if_neg Bool.false_ne_true, if_neg Bool.false_ne_true, feedbackTest]
    split
    · exact ht _
    · split
      · exact ht _
      · exact h0
  · rw [superviseClose_unsupervised (by simpa using hs)]
    exact h0

/-! ### The command (R30, R41, R52) -/

/-- R31: a symbol enters the queue of Port C while there is room in it. -/
theorem pushSymbol_c {sym : Symbol} (hroom : s.link.txC.queue.length < 256) (habort : s.link.txC.abortsOwed = 0) :
    pushSymbol .c sym s =
      some (setTransmitter .c { s.link.txC with queue := s.link.txC.queue ++ [sym] } s) :=
  if_pos ⟨hroom, habort⟩

/-- R29: with room for two symbols the check word and the end mark of a report frame are queued. -/
theorem sendCheck_d (hroom : s.link.txC.queue.length + 2 ≤ 256) (habort : s.link.txC.abortsOwed = 0) :
    ∃ t, sendCheck .d true s = (t, true) ∧ SameExcept [.link] s t ∧ t.link.lastCycle = s.link.lastCycle := by
  unfold sendCheck
  simp only [otherPort]
  rw [pushSymbol_c (by omega) habort]
  dsimp only
  rw [pushSymbol_c (by simp [setTransmitter]; omega) (by exact habort)]
  exact ⟨_, rfl, (setTransmitter_frame ..).trans (setTransmitter_frame ..), rfl⟩

/-- R41, R47, R52, R54: `u` is `s` at a report close with the banks exchanged and the missing counts updated, before
the sets' work. -/
structure Banked (s u : State) : Prop where
  frame : SameExcept [.link, .banks, .service] s u
  cycle : u.link.lastCycle = s.link.lastCycle
  held : u.banks.held = s.banks.fill
  fill : ∀ i, u.banks.fill.get i = none
  counts : ∀ i, u.counts i =
    if (s.settings i).valid then
      { s.counts i with missing := if (s.banks.fill.get i).isSome then 0 else satInc (s.counts i).missing }
    else s.counts i

theorem banked_of_link (h : SameExcept [.link, .service] s t) (hc : t.link.lastCycle = s.link.lastCycle) :
    Banked s (countMissingClose (exchangeBanks t)) where
  frame := (h.mono (by decide)).step ((exchangeBanks_frame).trans countMissingClose_frame)
  cycle := hc
  held := congrArg (·.fill) (h.same .banks (by decide))
  fill i := Table.get_replicate ..
  counts i := by
    have hb : t.banks = s.banks := h.same .banks (by decide)
    have hs : (exchangeBanks t).settings i = s.settings i := settings_of_frame h (by decide) i
    have hn : (exchangeBanks t).counts i = s.counts i := counts_of_frame h (by decide) i
    have hh : (exchangeBanks t).heldRec i = s.banks.fill.get i := by rw [← hb]; rfl
    have hu : (countMissingClose (exchangeBanks t)).counts i = _ := Table.get_ofFn ..
    rw [hu, hs, hn, hh]

/-- R30, R41, R52: what REPORT_CLOSE does to a frame that closes, phase by phase. -/
theorem exec_reportClose (hclose : s.closes .d = true) (hroom : s.link.txC.queue.length + 2 ≤ 256)
    (habort : s.link.txC.abortsOwed = 0) :
    ∃ u, Banked s u ∧
      exec .reportClose s = .next (forEach sections (superviseClose s.link.lastCycle) (shareReportClose u)) := by
  obtain ⟨v, hv, hframe, hcycle⟩ := sendCheck_d (s := seeEdge .d s) hroom habort
  have hlink : SameExcept [.link, .service] s (consumeAnswer (setRx .d .between v)) :=
    ((((seeEdge_frame .d).trans hframe).trans (setRx_frame ..)).mono).step consumeAnswer_frame
  have hlast : (consumeAnswer (setRx .d .between v)).link.lastCycle = s.link.lastCycle := by
    unfold consumeAnswer
    split <;> exact hcycle
  refine ⟨_, banked_of_link hlink hlast, ?_⟩
  have hc := hclose
  simp only [State.closes, Receiver.parsing, Bool.and_eq_true, beq_iff_eq, Bool.not_eq_true'] at hc
  obtain ⟨⟨-, hrx, hfailed⟩, hgood⟩ := hc
  have hexec : exec .reportClose s = .next (if s.closes .d then endMarkAt .d [] (seeEdge .d s) else s) := rfl
  have hmark : endMarkAt .d [] (seeEdge .d s) = endAfterCheck .d true [] (seeEdge .d s) := by
    unfold endMarkAt
    have h1 : ((seeEdge .d s).receiver .d).rx = .inFrame := hrx
    have h2 : ((seeEdge .d s).receiver .d).failed = false := hfailed
    have h3 : ((seeEdge .d s).receiver .d).checkGood = some true := hgood
    simp only [h1, h2, h3, if_true, Bool.false_eq_true, if_false]
  have hend : endAfterCheck .d true [] (seeEdge .d s) = closeReport (setRx .d .between v) := by
    unfold endAfterCheck
    rw [hv]
    rfl
  rw [hexec, if_pos hclose, hmark, hend, closeReport, bankReportClose, hlast]

end Sys2Proof.Machine.ReportClose
end

