-- ==== Sys2Proof/Proofs/Supervision.lean ====
section
/-! PROOFS. The supervision of one section at a report close (R54 to R60): the state in which its turn comes, and what
that turn leaves to the end of the close. Settles O29. -/

namespace Sys2Proof.Machine.ReportClose

variable {s t w x : State} {i : Fin 32} {f : Feedback} {o : RefFields}

/-! ### The tests in the words of the rules -/

theorem satInc_toNat (n : BitVec 8) : (satInc n).toNat = min 255 (n.toNat + 1) := by
  unfold satInc
  split
  · next h => subst h; rfl
  · next h =>
    have : n.toNat ≠ 255 := fun e => h (BitVec.eq_of_toNat_eq e)
    have := n.isLt
    rw [BitVec.toNat_add]
    simp
    omega

theorem satInc_eq_ofNat (n : BitVec 8) : satInc n = BitVec.ofNat 8 (min 255 (n.toNat + 1)) := by
  rw [← satInc_toNat, BitVec.ofNat_toNat, BitVec.setWidth_eq]

theorem satInc_eq_ite (n : BitVec 8) : satInc n = if n = 255 then 255 else n + 1 :=
  ite_congr rfl (fun h => h) fun _ => rfl

theorem mag_eq_abs (x : Int) : mag x = |x| := by
  unfold mag
  split
  · next h => exact (abs_of_nonneg h).symm
  · next h => exact (abs_of_neg (by omega)).symm

theorem driveFault_iff (hf : s.heldRec i = some f) : s.driveFault i = true ↔ (s.settings i).faultCare ≠ 0 ∧
    f.status &&& (s.settings i).faultCare = (s.settings i).faultValue &&& (s.settings i).faultCare := by
  simp [State.driveFault, hf]

theorem driveFault_of_absent (hf : s.heldRec i = none) : s.driveFault i = false := by simp [State.driveFault, hf]

/-- R57: the actual speed is further than the limit from the last output, under a limit other than 0. -/
theorem deviates_iff (hf : s.heldRec i = some f) (ho : (s.rw i).lastOut = some o) :
    s.deviates i = true ↔ (s.settings i).devLimit ≠ 0 ∧
      ((s.settings i).devLimit.toNat : Int) < |f.speed.toInt - o.speed.toInt| := by
  simp [State.deviates, hf, ho, mag_eq_abs]

theorem deviates_of_absent (h : s.heldRec i = none ∨ (s.rw i).lastOut = none) : s.deviates i = false := by
  unfold State.deviates
  rcases h with h | h
  · rw [h]
  · rw [h]
    cases s.heldRec i <;> rfl

theorem deviationCount_of_deviates (h : s.deviates i = true) :
    s.deviationCount i = satInc (s.counts i).deviation := if_pos h

theorem deviationDue_iff : s.deviationDue i = true ↔ s.deviates i = true ∧
    (s.settings i).devPersist.toNat ≤ min 255 ((s.counts i).deviation.toNat + 1) := by
  rw [State.deviationDue, Bool.and_eq_true, decide_eq_true_iff]
  refine and_congr_right fun h => ?_
  rw [deviationCount_of_deviates h, satInc_toNat]

theorem feedbackLost_iff :
    s.feedbackLost i = true ↔ (s.settings i).fbLimit.toNat ≤ (s.counts i).missing.toNat := decide_eq_true_iff

/-! ### The state in which a section's turn comes -/

/-- R52: `w` is the state in which section `i` has its turn at a report close of `s`. -/
structure BeforeTurn (i : Fin 32) (s w : State) : Prop where
  settings : w.settings i = s.settings i
  control : w.control = s.control
  cycle : w.link.lastCycle = s.link.lastCycle
  held : w.heldRec i = s.banks.fill.get i
  lastOut : (w.rw i).lastOut = (s.rw i).lastOut

/-- The same of a section in no valid set: nothing has been done to it but the update of its missing count. -/
structure AloneBeforeTurn (i : Fin 32) (s w : State) : Prop extends BeforeTurn i s w where
  alone : Alone i w
  tp : w.tp i = s.tp i
  rw : w.rw i = s.rw i
  sh : w.sh i = s.sh i
  counts : w.counts i = if (s.settings i).valid then
      { s.counts i with missing :=
          if (s.banks.fill.get i).isSome then 0 else satInc (s.counts i).missing }
    else s.counts i

section
variable (hclose : s.closes .d = true) (hroom : s.link.txC.queue.length + 2 ≤ 256)
  (habort : s.link.txC.abortsOwed = 0)
include hclose hroom habort

/-- R52, R59: a report close comes to a section's turn once, and the turns after it are of other sections. -/
theorem exec_reportClose_turn (i : Fin 32) :
    ∃ (w : State) (l : List (Fin 32)), BeforeTurn i s w ∧ (Alone i s → AloneBeforeTurn i s w) ∧ (∀ j ∈ l, j ≠ i) ∧
      exec .reportClose s = .next
        (forEach l (superviseClose s.link.lastCycle) (superviseClose s.link.lastCycle i w)) := by
  obtain ⟨u, hu, hexec⟩ := exec_reportClose hclose hroom habort
  obtain ⟨l₁, l₂, hl₁, hl₂, hsplit⟩ := sections_split i (superviseClose s.link.lastCycle)
  have hw := (shareReportClose_surroundings u).trans
    (Surroundings.of_forEach (superviseClose_surroundings s.link.lastCycle) l₁ _)
  have hout := (lastOut_closed i).trans ((lastOut_closed i).of_shareReportClose (s := u) fun _ _ _ _ => trivial)
    ((lastOut_closed i).of_forEach (l := l₁) (fun j _ t => (lastOut_closed i).of_superviseClose s.link.lastCycle
      (i := j) trivial t) _)
  have hturn : BeforeTurn i s (forEach l₁ (superviseClose s.link.lastCycle) (shareReportClose u)) :=
    { settings := (hw.settings i).trans (settings_of_frame hu.frame (by decide) i)
      control := (hw.frame.same .control (by decide)).trans (hu.frame.same .control (by decide))
      cycle := (congrArg (·.lastCycle) (hw.frame.same .link (by decide))).trans hu.cycle
      held := (hw.heldRec i).trans (congrArg (·.get i) hu.held)
      lastOut := by rw [hout, rw_of_frame hu.frame (by decide)] }
  refine ⟨_, l₂, hturn, fun ha => ?_, hl₂, hexec.trans (congrArg Host.Outcome.next (hsplit _))⟩
  have hau : Alone i u := ha.of_sets (congrArg (·.sets) (hu.frame.same .share (by decide)))
  have g := keptAt_closed i
  have hk := g.trans (g.of_shareReportClose (s := u) fun k hv j hj e => hau k hv (e ▸ hj))
    (g.of_forEach (fun j hj t => g.of_superviseClose s.link.lastCycle (hl₁ j hj) t) _) hau
  exact { hturn with
          alone := hau.of_sets hk.sets
          tp := hk.tp.trans (tp_of_trips (hu.frame.same .trips (by decide)) i)
          rw := hk.rw.trans (rw_of_frame hu.frame (by decide) i)
          sh := hk.sh.trans (sh_of_frame hu.frame (by decide) i)
          counts := hk.counts.trans (hu.counts i) }

/-- The same for a section in no valid set: the turns after its own keep what that turn has left. -/
theorem exec_reportClose_alone (ha : Alone i s) :
    ∃ w t, exec .reportClose s = .next t ∧ AloneBeforeTurn i s w ∧
      KeptAt i (superviseClose s.link.lastCycle i w) t ∧ FlagsKept (superviseClose s.link.lastCycle i w) t := by
  obtain ⟨w, l, -, hw, hl, hexec⟩ := exec_reportClose_turn hclose hroom habort i
  have hx : Alone i (superviseClose s.link.lastCycle i w) :=
    (hw ha).alone.of_sets (superviseClose_surroundings _ _ _).sets
  exact ⟨w, _, hexec, hw ha,
    (keptAt_closed i).of_forEach (fun j hj t => (keptAt_closed i).of_superviseClose _ (hl j hj) t) _ hx,
    (Surroundings.of_forEach (superviseClose_surroundings _) l _).flags⟩

/-- R57, R60: a section without a held record or a last output has a deviation count of 0 after a report close. -/
theorem reportClose_clears_deviation (h : s.banks.fill.get i = none ∨ (s.rw i).lastOut = none) :
    ∃ t, exec .reportClose s = .next t ∧ (t.counts i).deviation = 0 := by
  obtain ⟨w, l, hw, -, hl, hexec⟩ := exec_reportClose_turn hclose hroom habort i
  have hd : w.deviates i = false := deviates_of_absent (by rwa [hw.held, hw.lastOut])
  exact ⟨_, hexec, (deviation_closed i).of_forEach
    (fun j hj t => (deviation_closed i).of_superviseClose _ (hl j hj) t) _ (superviseClose_counts_of_not_deviates hd)⟩

end

/-! ### What the turn of a supervised section leaves at the end -/

section
variable (hw : AloneBeforeTurn i s w) (hv : (s.settings i).valid = true)
include hw

theorem AloneBeforeTurn.supervised (hmode : s.control.mode = .engaged) (hv : (s.settings i).valid = true)
    (hact : (s.settings i).mode = .active) (ht : s.tripped i = false) : w.supervised i = true := by
  have ht' : w.tripped i = false := by rw [State.tripped, hw.tp]; exact ht
  simp [State.supervised, State.engaged, State.validActive, hw.control, hw.settings, hmode, hv, hact, ht']

include hv

theorem AloneBeforeTurn.counts_present (hf : s.banks.fill.get i = some f) :
    w.counts i = { missing := 0, deviation := (s.counts i).deviation } := by
  simp [hw.counts, hv, hf]

theorem AloneBeforeTurn.counts_absent (hf : s.banks.fill.get i = none) :
    w.counts i = { missing := satInc (s.counts i).missing, deviation := (s.counts i).deviation } := by
  simp [hw.counts, hv, hf]

end

/-- R89, R90: a trip in the section's turn stands at the end of the close as it was made. -/
theorem AloneBeforeTurn.trip_stands {cause : TripCause} {later : BitVec 16} (hw : AloneBeforeTurn i s w)
    (hx : AloneTrip i cause later w x) (hk : KeptAt i x t) (hflags : FlagsKept x t) :
    t.tp i = { latch := true, record := some { cause := cause, cycle := s.link.lastCycle
                                               speed := (s.rw i).lastOut.map (·.speed), later := later } } ∧
    t.counts i = { missing := (w.counts i).missing, deviation := 0 } ∧ t.flag .trip = true ∧ CutBackAt i s t := by
  refine ⟨?_, hk.counts.trans hx.counts, hflags _ hx.flag, ?_⟩
  · rw [hk.tp, hx.tp, hw.cycle, hw.rw]
  · have hc := hx.cut
    unfold CutBackAt at hc ⊢
    rwa [hw.settings, hw.rw, hw.sh, ← hk.rw, ← hk.sh] at hc

/-- A turn without a trip leaves the section's latch and trims as they were, and its counts stand to the end. -/
theorem AloneBeforeTurn.quiet_stands {c : BitVec 16} (hw : AloneBeforeTurn i s w) (hs : w.supervised i = true)
    (hd : w.driveFault i = false) (hdue : w.deviationDue i = false) (hf : w.feedbackLost i = false)
    (hk : KeptAt i (superviseClose c i w) t) :
    t.tp i = s.tp i ∧ t.rw i = s.rw i ∧
      t.counts i = { missing := (w.counts i).missing, deviation := w.deviationCount i } := by
  rw [superviseClose_quiet hs hd hdue hf] at hk
  exact ⟨hk.tp.trans hw.tp, hk.rw.trans hw.rw, hk.counts.trans (by simp)⟩

/-! ### O29 -/

/-- Settles O29: the turn of a section in no valid set is found in the pass of the close, and each of its tests is read
in the state in which that turn comes. -/
theorem driveFaultTrips : Obligations.DriveFaultTrips := by
  refine ⟨?drive, ?deviation, ?absent, ?feedback⟩
  case drive =>
    intro i f s hclose hmode hroom habort hv hact htrip halone hf hcare hmatch
    obtain ⟨w, t, hexec, hw, hk, hflags⟩ := exec_reportClose_alone hclose hroom habort halone
    have hs := hw.supervised hmode hv hact htrip
    have hd : w.driveFault i = true := (driveFault_iff (hw.held.trans hf)).2 (by rw [hw.settings]; exact ⟨hcare, hmatch⟩)
    obtain ⟨htp, hcounts, hflag, hcut⟩ := hw.trip_stands (superviseClose_drive hs hw.alone hd) hk hflags
    refine ⟨t, _, hexec, by rw [State.tripped, htp], by rw [htp], rfl, rfl, rfl, fun o ho => ?_,
      by rw [hcounts, hw.counts_present hv hf], hflag, hcut⟩
    refine if_congr ?_ rfl rfl
    rw [deviationDue_iff, deviates_iff (hw.held.trans hf) (hw.lastOut.trans ho), hw.settings,
      hw.counts_present hv hf, lt_abs, neg_sub, and_assoc]
  case deviation =>
    intro i f o s hclose hmode hroom habort hv hact htrip halone hf ho hlimit hno deviates n
    obtain ⟨w, t, hexec, hw, hk, hflags⟩ := exec_reportClose_alone hclose hroom habort halone
    have hs := hw.supervised hmode hv hact htrip
    have hcw := hw.counts_present hv hf
    have hd : w.driveFault i = false := by
      rw [Bool.eq_false_iff, Ne, driveFault_iff (hw.held.trans hf), hw.settings]
      exact fun h => hno.elim h.1 (fun hn => hn h.2)
    have hdev : w.deviates i = true ↔ deviates := by
      rw [deviates_iff (hw.held.trans hf) (hw.lastOut.trans ho), hw.settings]
    have hdue : w.deviationDue i = true ↔ deviates ∧ (s.settings i).devPersist.toNat ≤ n := by
      rw [deviationDue_iff, hdev, hw.settings, hcw]
    have hlost : w.feedbackLost i = false := by
      rw [Bool.eq_false_iff, Ne, feedbackLost_iff, hw.settings, hcw]
      exact Nat.not_le.2 hlimit
    refine ⟨t, hexec, fun h1 h2 => ?_, fun h1 h2 => ?_, fun h1 => ?_⟩
    · obtain ⟨htp, hcounts, hflag, hcut⟩ :=
        hw.trip_stands (superviseClose_deviation hs hw.alone hd (hdue.2 ⟨h1, h2⟩)) hk hflags
      exact ⟨by rw [htp, ho]; rfl, by rw [hcounts, hcw], hflag, hcut⟩
    · have hnot : w.deviationDue i = false := by
        rw [Bool.eq_false_iff, Ne, hdue]
        exact fun h => Nat.not_le.2 h2 h.2
      obtain ⟨htp, hrw, hcounts⟩ := hw.quiet_stands hs hd hnot hlost hk
      exact ⟨htp, hrw, by rw [hcounts, deviationCount_of_deviates (hdev.2 h1), hcw, satInc_eq_ofNat]⟩
    · have hnodev : w.deviates i = false := by rwa [Bool.eq_false_iff, Ne, hdev]
      have hnot := deviationDue_of_not_deviates hnodev
      obtain ⟨htp, hrw, hcounts⟩ := hw.quiet_stands hs hd hnot hlost hk
      exact ⟨htp, hrw, by rw [hcounts, hcw, deviationCount_of_not_deviates hnodev]⟩
  case absent =>
    intro i s hclose hroom habort h
    exact reportClose_clears_deviation hclose hroom habort h
  case feedback =>
    intro i s hclose hmode hroom habort hv hact htrip halone hf n
    obtain ⟨w, t, hexec, hw, hk, hflags⟩ := exec_reportClose_alone hclose hroom habort halone
    have hs := hw.supervised hmode hv hact htrip
    have hcw := hw.counts_absent hv hf
    have hd : w.driveFault i = false := driveFault_of_absent (hw.held.trans hf)
    have hnodev : w.deviates i = false := deviates_of_absent (.inl (hw.held.trans hf))
    have hnot := deviationDue_of_not_deviates hnodev
    have hlost : w.feedbackLost i = true ↔ (s.settings i).fbLimit.toNat ≤ n := by
      rw [feedbackLost_iff, hw.settings, hcw, satInc_toNat]
    by_cases hn : (s.settings i).fbLimit.toNat ≤ n
    · obtain ⟨htp, hcounts, hflag, hcut⟩ :=
        hw.trip_stands (superviseClose_feedback hs hw.alone hd hnot (hlost.2 hn)) hk hflags
      exact ⟨t, hexec, by rw [hcounts, hcw, satInc_eq_ofNat], fun _ => ⟨htp, hflag, hcut⟩,
        fun h => absurd hn (Nat.not_le.2 h)⟩
    · obtain ⟨htp, hrw, hcounts⟩ :=
        hw.quiet_stands hs hd hnot (by rwa [Bool.eq_false_iff, Ne, hlost]) hk
      refine ⟨t, hexec, ?_, fun h => absurd h hn, fun _ => ⟨htp, hrw⟩⟩
      rw [hcounts, hcw, satInc_eq_ofNat, deviationCount_of_not_deviates hnodev]

end Sys2Proof.Machine.ReportClose
end

