-- ==== Sys2Proof/Proofs/ShareComputation.lean ====
section
/-! PROOFS. The load-share computation of a SHARING set (R73 to R82), and the sets at a report close. Settles O31. -/

namespace Sys2Proof.Machine.ReportClose

variable {s t u : State} {i j : Fin 32} {k : Fin 8} {cfg : SetSettings} {ref : Int} {m : Fin 6 × Fin 32}
  {l : List (Fin 6 × Fin 32)}

/-! ### The arithmetic (R73 to R75) -/

theorem clampInt_eq_max_min {lo hi : Int} (h : lo ≤ hi) (x : Int) : clampInt lo hi x = max lo (min hi x) := by
  unfold clampInt
  omega

theorem shareCorrection_eq (e : Int) : shareCorrection cfg e =
    if |e| ≤ (cfg.deadband.toNat : Int) then 0 else -(roundDiv (e * cfg.gain.toNat) 256) := by
  rw [shareCorrection, mag_eq_abs]

/-- R75: a clamped trim fits its 32 bits. -/
theorem newShareTrim_stored (h : cfg.shareLimit.toNat ≤ 100000) (e x : Int) : (s32 (newShareTrim cfg e x)).toInt =
    max (-(cfg.shareLimit.toNat : Int)) (min (cfg.shareLimit.toNat : Int) (x +
      if |e| ≤ (cfg.deadband.toNat : Int) then 0 else -(roundDiv (e * cfg.gain.toNat) 256))) := by
  have hb := clampInt_bounds (lo := -(cfg.shareLimit.toNat : Int)) (hi := cfg.shareLimit.toNat) (by omega)
    (x + shareCorrection cfg e)
  rw [← shareCorrection_eq, ← clampInt_eq_max_min (by omega)]
  exact s32_toInt (by unfold newShareTrim; omega) (by unfold newShareTrim; omega)

theorem torqueOf_bounds (s : State) (i : Fin 32) : -32768 ≤ s.torqueOf i ∧ s.torqueOf i ≤ 32767 := by
  unfold State.torqueOf
  split
  · next f _ => exact ⟨BitVec.le_toInt f.torque, Int.le_of_lt_add_one (BitVec.toInt_lt (x := f.torque))⟩
  · omega

theorem torqueSum_bounds (s : State) (l : List (Fin 6 × Fin 32)) :
    -32768 * (l.length : Int) ≤ (l.map fun m => s.torqueOf m.2).sum ∧
      (l.map fun m => s.torqueOf m.2).sum ≤ 32767 * (l.length : Int) := by
  induction l with
  | nil => simp
  | cons m l ih =>
    have := torqueOf_bounds s m.2
    simp only [List.map_cons, List.sum_cons, List.length_cons, Nat.cast_add, Nat.cast_one]
    omega

/-- R73: a reference torque fits its 32 bits. -/
theorem meanTorque_stored (hl : 0 < l.length) : (s32 (s.meanTorque l)).toInt = s.meanTorque l := by
  obtain ⟨hsum1, hsum2⟩ := torqueSum_bounds s l
  obtain ⟨hnear1, hnear2⟩ := roundDiv_near (l.map fun m => s.torqueOf m.2).sum hl
  have hpos : (0 : Int) < l.length := by exact_mod_cast hl
  have h1 : s.meanTorque l * l.length ≤ 32768 * l.length := by unfold State.meanTorque; omega
  have h2 : -32769 * l.length ≤ s.meanTorque l * l.length := by unfold State.meanTorque; omega
  have h3 := le_of_mul_le_mul_right h1 hpos
  have h4 := le_of_mul_le_mul_right h2 hpos
  exact s32_toInt (by omega) (by omega)

/-! ### Members and positions (R65) -/

/-- A position of the member list is below the member count, and names its member. -/
theorem mem_positions_iff : m ∈ cfg.positions ↔ m.1.val < cfg.memberCount.toNat ∧ m.2 = cfg.members.get m.1 := by
  obtain ⟨p, i⟩ := m
  simp only [SetSettings.positions, List.mem_map, Prod.mk.injEq, List.mem_take_iff_getElem, List.getElem_finRange]
  constructor
  · rintro ⟨_, ⟨n, hn, rfl⟩, rfl, rfl⟩
    exact ⟨by simp at hn ⊢; omega, rfl⟩
  · rintro ⟨hp, rfl⟩
    exact ⟨p, ⟨p.val, by simp; omega, Fin.ext rfl⟩, rfl, rfl⟩

/-- R73: the last error of a member: its error when it enters the mean, absent otherwise. -/
theorem shareErrors_get (h : m ∈ cfg.positions) (old : Table (Option Word) 6) : (s.shareErrors cfg ref old).get m.1 =
    if s.observed m.2 then some (s32 (s.shareError cfg ref m)) else none := by
  obtain ⟨hp, hm⟩ := mem_positions_iff.1 h
  rw [State.shareErrors, Table.get_ofFn, if_pos hp, ← hm]

/-! ### The members' trims and counts (R75, R79) -/

/-- What the computation reads of a member lies outside the share unit. -/
theorem corrected_of_frame (h : SameExcept [.share] s t) : t.corrected m = s.corrected m := by
  rw [State.corrected, State.corrected, settings_of_frame h (by decide)]

theorem heldRec_of_frame {bs : List Block} (h : SameExcept bs s t) (hb : Block.banks ∉ bs) (i : Fin 32) :
    t.heldRec i = s.heldRec i := congrArg (·.held.get i) (h.same .banks hb)

theorem shareError_of_frame (h : SameExcept [.share] s t) : t.shareError cfg ref m = s.shareError cfg ref m := by
  rw [State.shareError, State.shareError, State.torqueOf, State.torqueOf, heldRec_of_frame h (by decide)]

theorem overThreshold_of_frame (h : SameExcept [.share] s t) :
    t.overThreshold cfg ref m = s.overThreshold cfg ref m := by
  rw [State.overThreshold, State.overThreshold, State.observed, State.observed, heldRec_of_frame h (by decide),
    settings_of_frame h (by decide), shareError_of_frame h]

/-- R75: the load-share status of a member after its own correction. -/
def correctedSh (s : State) (cfg : SetSettings) (ref : Int) (m : Fin 6 × Fin 32) : ShareStatus :=
  if s.corrected m then
    { s.sh m.2 with trim := s32 (newShareTrim cfg (s.shareError cfg ref m) (s.sh m.2).trim.toInt) }
  else s.sh m.2

theorem correctMember_sh : (correctMember cfg ref m s).sh j =
    if j = m.2 then correctedSh s cfg ref m else s.sh j := by
  unfold correctMember correctedSh
  by_cases e : j = m.2 <;> split <;> simp [setShareTrim, e]

theorem forEach_correctMember_other (h : j ∉ l.map (·.2)) : (forEach l (correctMember cfg ref) s).sh j = s.sh j := by
  induction l generalizing s with
  | nil => rfl
  | cons m l ih =>
    rw [List.map_cons, List.mem_cons, not_or] at h
    exact (ih h.2).trans (by rw [correctMember_sh, if_neg h.1])

/-- R75: in a list that names no section twice each member's trim is moved once, from what it was before. -/
theorem forEach_correctMember_member (hn : (l.map (·.2)).Nodup) (hm : m ∈ l) :
    (forEach l (correctMember cfg ref) s).sh m.2 = correctedSh s cfg ref m := by
  induction l generalizing s with
  | nil => simp at hm
  | cons a l ih =>
    rw [List.map_cons, List.nodup_cons] at hn
    rcases List.mem_cons.1 hm with rfl | hm
    · exact (forEach_correctMember_other hn.1).trans (by rw [correctMember_sh, if_pos rfl])
    · have hne : m.2 ≠ a.2 := fun e => hn.1 (e ▸ List.mem_map_of_mem hm)
      have hf : SameExcept [.share] s (correctMember cfg ref a s) := correctMember_frame cfg ref a
      refine (ih hn.2 hm).trans ?_
      rw [correctedSh, correctedSh, corrected_of_frame hf, shareError_of_frame hf, correctMember_sh, if_neg hne]

/-- R79: with no member over the threshold every member's imbalance count is 0, and nothing else changes. -/
theorem forEach_countImbalance (h : ∀ m ∈ l, s.overThreshold cfg ref m = false) :
    (forEach l (countImbalance cfg ref) s).sh j =
      if j ∈ l.map (·.2) then { s.sh j with imbalance := 0 } else s.sh j := by
  induction l generalizing s with
  | nil => simp [forEach]
  | cons a l ih =>
    have hf : SameExcept [.share] s (countImbalance cfg ref a s) := setImbalance_frame ..
    have ha : (countImbalance cfg ref a s).sh j = if j = a.2 then { s.sh j with imbalance := 0 } else s.sh j := by
      rw [countImbalance, h a (List.mem_cons_self ..), if_neg Bool.false_ne_true, setImbalance, setSh_sh]
      split
      · next e => rw [e]
      · rfl
    show (forEach l (countImbalance cfg ref) (countImbalance cfg ref a s)).sh j = _
    rw [ih fun m hm => (overThreshold_of_frame hf).trans (h m (List.mem_cons_of_mem _ hm)), ha]
    by_cases e : j = a.2 <;> by_cases hl : j ∈ l.map (·.2) <;> simp [e, hl]

theorem correctMember_stat : (correctMember cfg ref m s).share.stat = s.share.stat := by
  unfold correctMember
  split <;> rfl

/-! ### The computation of a SHARING set -/

/-- R72: the members that enter the mean, with their positions. -/
def inMean (cfg : SetSettings) (s : State) : List (Fin 6 × Fin 32) := cfg.positions.filter fun m => s.observed m.2

/-- R73: the reference torque of a set. -/
def refTorque (cfg : SetSettings) (s : State) : Int := s.meanTorque (inMean cfg s)

theorem mem_inMean_iff : m ∈ inMean cfg s ↔ m ∈ cfg.positions ∧ s.observed m.2 = true := List.mem_filter

theorem inMean_sublist : ((inMean cfg s).map (·.2)).Sublist cfg.memberList := List.filter_sublist.map _

/-- R71: a set with no member TRIPPED and two members observed is SHARING. -/
theorem shareSet_sharing (hcfg : s.share.sets.get k = cfg) (hv : cfg.valid = true)
    (ht : ∀ i ∈ cfg.memberList, s.tripped i = false) (h2 : 2 ≤ (inMean cfg s).length) :
    shareSet k s = shareSharing k s := by
  have hobs : (cfg.memberList.filter s.observed).length = (inMean cfg s).length := by
    rw [SetSettings.memberList, List.filter_map, List.length_map]
    rfl
  obtain ⟨m, hm⟩ := List.exists_mem_of_length_pos (by omega : 0 < (inMean cfg s).length)
  have hmem := mem_memberList (mem_inMean_iff.1 hm).1
  have hall : cfg.memberList.all s.tripped = false := List.all_eq_false.2 ⟨m.2, hmem, by simp [ht m.2 hmem]⟩
  have hany : cfg.memberList.any s.tripped = false := List.any_eq_false.2 fun i hi => by simp [ht i hi]
  unfold shareSet
  rw [hcfg]
  dsimp only
  rw [if_pos hv, hall, if_neg Bool.false_ne_true, hany, if_neg Bool.false_ne_true, hobs, if_neg (by omega)]

/-- R73: the computation's first stage: the set's status with the observations of this close. -/
def observedStage (k : Fin 8) (cfg : SetSettings) (s : State) : State :=
  setSetStatus k { s.setStat k with
    state := .sharing, contributing := (inMean cfg s).length, lastRef := s32 (refTorque cfg s)
    lastErr := s.shareErrors cfg (refTorque cfg s) (s.setStat k).lastErr } s

/-- R75: its second stage: the members' trims corrected. -/
def correctedStage (k : Fin 8) (cfg : SetSettings) (s : State) : State :=
  forEach (inMean cfg s) (correctMember cfg (refTorque cfg s)) (observedStage k cfg s)

/-- R79: its third stage: the imbalance counts updated. -/
def countedStage (k : Fin 8) (cfg : SetSettings) (s : State) : State :=
  forEach cfg.positions (countImbalance cfg (refTorque cfg s)) (correctedStage k cfg s)

/-- R82: every error of the computation is within the deadband. -/
def withinDeadband (cfg : SetSettings) (s : State) : Bool :=
  (inMean cfg s).all fun m => decide (mag (s.shareError cfg (refTorque cfg s) m) ≤ (cfg.deadband.toNat : Int))

/-- R73 to R75, R79, R80, R82: the computation by its stages. -/
theorem shareSharing_stages (hcfg : s.share.sets.get k = cfg) :
    let u := tripAll s.link.lastCycle .imbalance
      ((countedStage k cfg s).imbalanceReached cfg (refTorque cfg s) cfg.positions) (countedStage k cfg s)
    shareSharing k s = setSettled k ((u.setStat k).state == .sharing && withinDeadband cfg s) u := by
  subst hcfg
  rfl

theorem observedStage_frame : SameExcept [.share] s (observedStage k cfg s) := setSetStatus_frame ..

theorem correctedStage_frame : SameExcept [.share] s (correctedStage k cfg s) :=
  observedStage_frame.trans (.forEach (fun _ _ => correctMember_frame ..) _)

theorem countedStage_frame : SameExcept [.share] s (countedStage k cfg s) :=
  correctedStage_frame.trans (.forEach (fun _ _ => setImbalance_frame ..) _)

theorem countedStage_setStat : (countedStage k cfg s).setStat k = (observedStage k cfg s).setStat k := by
  have h : (countedStage k cfg s).share.stat = (observedStage k cfg s).share.stat :=
    (forEach_same (f := countImbalance cfg (refTorque cfg s)) (·.share.stat) (fun _ _ => rfl) _ _).trans
      (forEach_same (·.share.stat) (fun _ _ => correctMember_stat) _ _)
  exact congrArg (·.get k) h

/-- R75: the load-share status of a section outside the mean is not touched by the corrections. -/
theorem correctedStage_other (h : i ∉ (inMean cfg s).map (·.2)) : (correctedStage k cfg s).sh i = s.sh i :=
  forEach_correctMember_other h

theorem correctedStage_member (hn : cfg.memberList.Nodup) (hm : m ∈ inMean cfg s) :
    (correctedStage k cfg s).sh m.2 = correctedSh s cfg (refTorque cfg s) m := by
  refine (forEach_correctMember_member (hn.sublist inMean_sublist) hm).trans ?_
  rw [correctedSh, correctedSh, corrected_of_frame observedStage_frame, shareError_of_frame observedStage_frame]
  rfl

/-- R79: the counts of a computation with no member over the threshold. -/
theorem countedStage_sh (hover : ∀ m ∈ cfg.positions, s.overThreshold cfg (refTorque cfg s) m = false) :
    (countedStage k cfg s).sh i =
      if i ∈ cfg.memberList then { (correctedStage k cfg s).sh i with imbalance := 0 }
      else (correctedStage k cfg s).sh i :=
  forEach_countImbalance fun m hm => (overThreshold_of_frame correctedStage_frame).trans (hover m hm)

/-- R80: with no member over the threshold the computation trips none. -/
theorem imbalanceReached_of_none_over
    (hover : ∀ m ∈ cfg.positions, s.overThreshold cfg (refTorque cfg s) m = false) :
    (countedStage k cfg s).imbalanceReached cfg (refTorque cfg s) cfg.positions = [] := by
  rw [State.imbalanceReached, List.map_eq_nil_iff, List.filter_eq_nil_iff]
  intro m hm
  rw [overThreshold_of_frame countedStage_frame, hover m hm, Bool.false_and]
  exact Bool.false_ne_true

/-- In a list that names no section twice a position is told by its section. -/
theorem mem_inMean_of_snd (hn : cfg.memberList.Nodup) (hm : m ∈ cfg.positions)
    (h : m.2 ∈ (inMean cfg s).map (·.2)) : m ∈ inMean cfg s := by
  obtain ⟨a, ha, he⟩ := List.mem_map.1 h
  rwa [← List.inj_on_of_nodup_map hn (mem_inMean_iff.1 ha).1 hm he]

/-- R73 to R75, R79, R82: `t` is what the computation of set `k` leaves from `s` when no member is over the
threshold. -/
structure SharedQuietly (k : Fin 8) (cfg : SetSettings) (s t : State) : Prop where
  stat : t.setStat k =
    { state := .sharing, contributing := (inMean cfg s).length, lastRef := s32 (refTorque cfg s)
      lastErr := s.shareErrors cfg (refTorque cfg s) (s.setStat k).lastErr, settled := withinDeadband cfg s }
  corrected : ∀ m ∈ inMean cfg s, t.sh m.2 = { correctedSh s cfg (refTorque cfg s) m with imbalance := 0 }
  counted : ∀ m ∈ cfg.positions, m ∉ inMean cfg s → t.sh m.2 = { s.sh m.2 with imbalance := 0 }
  others : ∀ i, i ∉ cfg.memberList → t.sh i = s.sh i
  frame : SameExcept [.share] s t

theorem shareSharing_quiet (hcfg : s.share.sets.get k = cfg) (hn : cfg.memberList.Nodup)
    (hover : ∀ m ∈ cfg.positions, s.overThreshold cfg (refTorque cfg s) m = false) :
    SharedQuietly k cfg s (shareSharing k s) := by
  have hend : shareSharing k s = setSettled k
      (((countedStage k cfg s).setStat k).state == .sharing && withinDeadband cfg s) (countedStage k cfg s) := by
    rw [shareSharing_stages hcfg, imbalanceReached_of_none_over hover]
    rfl
  have hsh : ∀ i, (shareSharing k s).sh i = (countedStage k cfg s).sh i := fun i => by rw [hend]; rfl
  constructor
  · rw [hend, setSettled, setSetStatus_setStat, if_pos rfl, countedStage_setStat, observedStage, setSetStatus_setStat,
      if_pos rfl]
    rfl
  · intro m hm
    rw [hsh, countedStage_sh hover, if_pos (mem_memberList (mem_inMean_iff.1 hm).1), correctedStage_member hn hm]
  · intro m hm hnot
    rw [hsh, countedStage_sh hover, if_pos (mem_memberList hm),
      correctedStage_other fun h => hnot (mem_inMean_of_snd hn hm h)]
  · intro i hi
    rw [hsh, countedStage_sh hover, if_neg hi, correctedStage_other fun h => hi (inMean_sublist.subset h)]
  · rw [hend]
    exact countedStage_frame.trans (setSetStatus_frame ..)

/-! ### The sets at a report close (R70) -/

/-- R70: with one valid set the sets' work is the work of that set. -/
theorem forEach_shareSet_of_only (hk : (s.share.sets.get k).valid = true)
    (honly : ∀ j, (s.share.sets.get j).valid = true → j = k) (l : List (Fin 8)) (hn : l.Nodup) :
    forEach l shareSet s = if k ∈ l then shareSet k s else s := by
  have hskip : ∀ j, j ≠ k → ∀ t : State, t.share.sets = s.share.sets → shareSet j t = t := fun j hj t ht => by
    unfold shareSet
    rw [ht]
    exact if_neg fun hv => hj (honly j hv)
  have hrest : ∀ l : List (Fin 8), k ∉ l → ∀ t : State, t.share.sets = s.share.sets → forEach l shareSet t = t := by
    intro l
    induction l with
    | nil => exact fun _ _ _ => rfl
    | cons j l ih =>
      intro hkl t ht
      rw [List.mem_cons, not_or] at hkl
      show forEach l shareSet (shareSet j t) = t
      rw [hskip j (Ne.symm hkl.1) t ht, ih hkl.2 t ht]
  induction l with
  | nil => rfl
  | cons j l ih =>
    rw [List.nodup_cons] at hn
    show forEach l shareSet (shareSet j s) = _
    by_cases e : j = k
    · subst e
      rw [hrest l hn.1 _ (sets_closed.toTrip.shareSet j), if_pos (List.mem_cons_self ..)]
    · rw [hskip j e s rfl, ih hn.2]
      simp [Ne.symm e]

/-- What the supervision does to set `k`, the only valid one, from `s` to `t`: the observations of its status stay, and
its status and its members' load-share status stay too, unless a member has been tripped. -/
structure SetSupervised (k : Fin 8) (s t : State) : Prop where
  sets : t.share.sets = s.share.sets
  latches : ∀ i, s.tripped i = true → t.tripped i = true
  contributing : (t.setStat k).contributing = (s.setStat k).contributing
  lastRef : (t.setStat k).lastRef = (s.setStat k).lastRef
  lastErr : (t.setStat k).lastErr = (s.setStat k).lastErr
  kept : (t.setStat k = s.setStat k ∧ ∀ i ∈ (s.share.sets.get k).memberList, t.sh i = s.sh i) ∨
    ∃ i ∈ (s.share.sets.get k).memberList, s.tripped i = false ∧ t.tripped i = true

theorem SetSupervised.of_same (hs : t.share = s.share) (ht : ∀ i, t.tripped i = s.tripped i) :
    SetSupervised k s t := by
  have hstat : t.setStat k = s.setStat k := congrArg (·.stat.get k) hs
  exact { sets := by rw [hs]
          latches := fun i hi => (ht i).trans hi
          contributing := by rw [hstat]
          lastRef := by rw [hstat]
          lastErr := by rw [hstat]
          kept := .inl ⟨hstat, fun i _ => congrArg (·.sec.get i) hs⟩ }

theorem SetSupervised.trans (h : SetSupervised k s t) (h' : SetSupervised k t u) : SetSupervised k s u where
  sets := h'.sets.trans h.sets
  latches i hi := h'.latches i (h.latches i hi)
  contributing := h'.contributing.trans h.contributing
  lastRef := h'.lastRef.trans h.lastRef
  lastErr := h'.lastErr.trans h.lastErr
  kept := by
    have hkept' := h'.kept
    rw [h.sets] at hkept'
    rcases h.kept with ⟨hstat, hsh⟩ | ⟨i, hi, hclear, htrip⟩
    · rcases hkept' with ⟨hstat', hsh'⟩ | ⟨i, hi, hclear, htrip⟩
      · exact .inl ⟨hstat'.trans hstat, fun i hi => (hsh' i hi).trans (hsh i hi)⟩
      · refine .inr ⟨i, hi, ?_, htrip⟩
        rw [Bool.eq_false_iff] at hclear ⊢
        exact fun hs => hclear (h.latches i hs)
    · exact .inr ⟨i, hi, hclear, h'.latches i htrip⟩

/-- R83, R90: a trip of a member trips the set, and that of any other section leaves it alone. -/
theorem tripAction_setSupervised (honly : ∀ j, (s.share.sets.get j).valid = true → j = k) (c : BitVec 16)
    (cause : TripCause) (hi : s.tripped i = false) : SetSupervised k s (tripAction c cause i s) where
  sets := tripAction_sets ..
  latches j hj := tripAction_tripped_mono c cause hi hj
  contributing := by rw [tripAction_setStat]; split <;> rfl
  lastRef := by rw [tripAction_setStat]; split <;> rfl
  lastErr := by rw [tripAction_setStat]; split <;> rfl
  kept := by
    by_cases hm : i ∈ (s.share.sets.get k).memberList
    · exact .inr ⟨i, hm, hi, tripAction_tripped_self c cause⟩
    · have hnone : s.setOf i = none := by
        cases hset : s.setOf i with
        | none => rfl
        | some l =>
          obtain ⟨hv, hmem⟩ := setOf_some hset
          rw [honly l hv] at hmem
          exact absurd hmem hm
      refine .inl ⟨by simp [tripAction_setStat, hnone], fun j hj => ?_⟩
      have hne : j ≠ i := fun e => hm (e ▸ hj)
      rw [sh_eq_row, tripAction_row, movedBy_of_no_set hnone, if_neg (by simpa using hne), ← sh_eq_row]

theorem setSupervised_closed (k : Fin 8) : ClosedTurn (fun _ => True) fun s t =>
    (∀ j, (s.share.sets.get j).valid = true → j = k) → SetSupervised k s t where
  refl _ _ := .of_same rfl fun _ => rfl
  trans h h' honly := (h honly).trans (h' (by rw [(h honly).sets]; exact honly))
  setDeviation _ _ _ _ _ := .of_same rfl fun _ => rfl
  addLaterCause c i s _ _ := .of_same rfl fun j => by
    simp only [State.tripped, Machine.addLaterCause, setTp_tp]
    split
    · next e => rw [e]
    · rfl
  tripAction c cause _ _ _ hi honly := tripAction_setSupervised honly c cause hi

/-! ### O31 -/

/-- R79: a set's work is quiet when every ACTIVE member in the mean is within the threshold. -/
theorem shareSet_quiet (hcfg : s.share.sets.get k = cfg) (hv : cfg.valid = true) (hn : cfg.memberList.Nodup)
    (ht : ∀ i ∈ cfg.memberList, s.tripped i = false) (h2 : 2 ≤ (inMean cfg s).length)
    (hquiet : ∀ m ∈ inMean cfg s, (s.settings m.2).mode = .active →
      |s.shareError cfg (refTorque cfg s) m| ≤ (cfg.imbThreshold.toNat : Int)) :
    SharedQuietly k cfg s (shareSet k s) := by
  rw [shareSet_sharing hcfg hv ht h2]
  refine shareSharing_quiet hcfg hn fun m hm => ?_
  rw [Bool.eq_false_iff]
  intro hover
  simp only [State.overThreshold, Bool.and_eq_true, beq_iff_eq, decide_eq_true_iff, mag_eq_abs] at hover
  obtain ⟨⟨hobs, hact⟩, hgt⟩ := hover
  exact absurd (hquiet m (mem_inMean_iff.2 ⟨hm, hobs⟩) hact) (not_le.2 hgt)

/-- R52, R70: the phases of a report close while ENGAGED, and what they leave of the only valid set. -/
theorem shareComputation_close (s : State) (hclose : s.closes .d = true) (hmode : s.control.mode = .engaged)
    (hroom : s.link.txC.queue.length + 2 ≤ 256) (habort : s.link.txC.abortsOwed = 0) :
    ∃ u, Banked s u ∧ exec .reportClose s = .next
        (forEach sections (superviseClose s.link.lastCycle) (forEach (List.finRange 8) shareSet u)) ∧
      ∀ k, (s.share.sets.get k).valid = true → (∀ j, (s.share.sets.get j).valid = true → j = k) →
        SetSupervised k (shareSet k u)
          (forEach sections (superviseClose s.link.lastCycle) (forEach (List.finRange 8) shareSet u)) := by
  obtain ⟨u, hu, hexec⟩ := exec_reportClose hclose hroom habort
  have heng : u.engaged = true := by
    rw [State.engaged, hu.frame.same .control (by decide), hmode]
    rfl
  have hshare : shareReportClose u = forEach (List.finRange 8) shareSet u := by
    rw [shareReportClose, if_pos heng]
    rfl
  have hsets : u.share.sets = s.share.sets := congrArg (·.sets) (hu.frame.same .share (by decide))
  refine ⟨u, hu, hexec.trans (by rw [hshare]), fun k hk honly => ?_⟩
  have hone : forEach (List.finRange 8) shareSet u = shareSet k u := by
    rw [forEach_shareSet_of_only (k := k) (by rw [hsets]; exact hk) (by rw [hsets]; exact honly) _
      (List.nodup_finRange 8), if_pos (List.mem_finRange k)]
  rw [hone]
  have g := setSupervised_closed k
  refine g.of_forEach (fun i _ t => g.of_superviseClose _ trivial t) _ ?_
  rw [sets_closed.toTrip.shareSet k, hsets]
  exact honly

/-- Settles O31: the computation with no member over the threshold, and the close as the sets' work followed by the
supervision, which changes a set only by tripping one of its members. -/
theorem shareComputation : Obligations.ShareComputation := by
  refine ⟨?sharing, ?close⟩
  case sharing =>
    intro k s cfg seen ref err hv hlimit hn ht h2 hquiet t
    have h : SharedQuietly k cfg s t := shareSet_quiet rfl hv hn ht h2 hquiet
    have hpos : 0 < seen.length := by omega
    obtain ⟨hnear1, hnear2⟩ := roundDiv_near (seen.map fun m => s.torqueOf m.2).sum hpos
    refine ⟨hnear1, hnear2, by rw [h.stat], by rw [h.stat]; rfl, by rw [h.stat]; exact meanTorque_stored hpos,
      ?settled, fun m hm => ⟨?imbalance, ?moved, ?kept, ?lastErr⟩, h.others, h.frame⟩
    case settled =>
      rw [h.stat]
      simp only [withinDeadband, List.all_eq_true, decide_eq_true_iff, mag_eq_abs]
      exact Iff.rfl
    case imbalance =>
      by_cases hin : m ∈ inMean cfg s
      · rw [h.corrected m hin]
      · rw [h.counted m hm hin]
    case moved =>
      intro hobs hlead hact
      have hc : s.corrected m = true := by simp [State.corrected, hlead, hact]
      rw [h.corrected m (mem_inMean_iff.2 ⟨hm, hobs⟩), correctedSh, if_pos hc]
      exact newShareTrim_stored hlimit _ _
    case kept =>
      intro hcase
      by_cases hin : m ∈ inMean cfg s
      · have hc : s.corrected m = false := by
          rcases hcase with hobs | hlead | hpass
          · exact absurd ((mem_inMean_iff.1 hin).2.symm.trans hobs) (by decide)
          · simp [State.corrected, hlead]
          · simp [State.corrected, hpass]
        rw [h.corrected m hin, correctedSh, hc, if_neg Bool.false_ne_true]
      · rw [h.counted m hm hin]
    case lastErr =>
      rw [h.stat]
      exact shareErrors_get hm _
  case close =>
    intro s hclose hmode hroom habort
    obtain ⟨u, hu, hexec, hset⟩ := shareComputation_close s hclose hmode hroom habort
    refine ⟨u, _, hu.frame, hu.held, fun i => ⟨hu.fill i, ?_, ?_⟩, hexec, rfl, fun k hk honly => ?_⟩
    · rw [hu.counts i]
      split <;> rfl
    · rw [hu.counts i, ← satInc_eq_ite]
      split <;> rfl
    · have h := hset k hk honly
      have hmembers : (shareSet k u).share.sets = s.share.sets :=
        (sets_closed.toTrip.shareSet k).trans (congrArg (·.sets) (hu.frame.same .share (by decide)))
      have hkept := h.kept
      rw [hmembers] at hkept
      refine ⟨h.contributing, h.lastRef, h.lastErr, fun hlatch => ?_⟩
      rcases hkept with hkept | ⟨i, hi, hclear, htrip⟩
      · exact hkept
      · rw [hlatch i hi, hclear] at htrip
        cases htrip

end Sys2Proof.Machine.ReportClose
end

