-- ==== Sys2Proof/Proofs/SetStates.lean ====
section
/-! PROOFS. The work of a DEGRADED and of a HALTED set at a report close (R76, R77), and the IMBALANCE trips of a
SHARING set (R79, R80, R83, R91). Settles O32. -/

namespace Sys2Proof.Machine.ReportClose

variable {s t u : State} {i j : Fin 32} {k : Fin 8} {cfg : SetSettings} {ref : Int} {m : Fin 6 × Fin 32}
  {l : List (Fin 6 × Fin 32)} {is : List (Fin 32)} {k' : Fin 8}

/-! ### Which work a set gets (R71) -/

/-- R72: the observed members, counted with their positions. -/
theorem observed_length : (cfg.memberList.filter s.observed).length = (inMean cfg s).length := by
  rw [SetSettings.memberList, List.filter_map, List.length_map]
  rfl

/-- R65: a set that counts a member has its lead in its list. -/
theorem lead_mem (h : 0 < cfg.memberCount.toNat) : cfg.members.get 0 ∈ cfg.memberList :=
  mem_memberList (m := (0, cfg.members.get 0)) (mem_positions_iff.2 ⟨h, rfl⟩)

/-- R71: a set with no member TRIPPED and fewer than two observed is DEGRADED. -/
theorem shareSet_degraded (hcfg : s.share.sets.get k = cfg) (hv : cfg.valid = true) (hc : 0 < cfg.memberCount.toNat)
    (ht : ∀ i ∈ cfg.memberList, s.tripped i = false) (h2 : (inMean cfg s).length < 2) :
    shareSet k s = shareDegraded k s := by
  have hall : cfg.memberList.all s.tripped = false :=
    List.all_eq_false.2 ⟨_, lead_mem hc, by simp [ht _ (lead_mem hc)]⟩
  have hany : cfg.memberList.any s.tripped = false := List.any_eq_false.2 fun i hi => by simp [ht i hi]
  unfold shareSet
  rw [hcfg]
  dsimp only
  rw [if_pos hv, hall, if_neg Bool.false_ne_true, hany, if_neg Bool.false_ne_true, observed_length, if_pos h2]

/-- R71: a set with every member TRIPPED is HALTED. -/
theorem shareSet_halted (hcfg : s.share.sets.get k = cfg) (hv : cfg.valid = true)
    (ht : ∀ i ∈ cfg.memberList, s.tripped i = true) : shareSet k s = shareHalted k s := by
  unfold shareSet
  rw [hcfg]
  exact (if_pos hv).trans (if_pos (List.all_eq_true.2 ht))

/-! ### A DEGRADED set (R76) -/

theorem setImbalance_sh (n : BitVec 8) : (setImbalance i n s).sh j =
    if j = i then { s.sh j with imbalance := n } else s.sh j := by
  rw [setImbalance, setSh_sh]
  split
  · next e => rw [e]
  · rfl

/-- R192: raising an event sets its own flag and no other. -/
theorem raise_setDegraded_flag (e : Event) :
    (raise .setDegraded s).flag e = (s.flag e || decide (e = .setDegraded)) := by
  cases e <;> simp [raise, State.flag, setBit16, Event.number]

/-- R69, R76, R82: the read-only fields of a DEGRADED set. -/
def degradedStatus (cfg : SetSettings) (s : State) : SetStatus :=
  { state := .degraded, contributing := (inMean cfg s).length, lastRef := 0
    lastErr := Table.replicate 6 none, settled := false }

/-- R76, R79: a DEGRADED set's work but for its event. -/
def degradedStage (k : Fin 8) (cfg : SetSettings) (s : State) : State :=
  forEach cfg.memberList (fun i s' => setImbalance i 0 s') (setSetStatus k (degradedStatus cfg s) s)

theorem shareDegraded_eq (hcfg : s.share.sets.get k = cfg) : shareDegraded k s =
    if (s.setStat k).state != .degraded then raise .setDegraded (degradedStage k cfg s)
    else degradedStage k cfg s := by
  subst hcfg
  rfl

theorem degradedStage_sets : (degradedStage k cfg s).share.sets = s.share.sets :=
  forEach_same (f := fun i s' => setImbalance i 0 s') (·.share.sets) (fun _ _ => rfl) ..

/-- R76, R82: what the work of a DEGRADED set leaves. -/
structure Degraded (k : Fin 8) (cfg : SetSettings) (s t : State) : Prop where
  frame : SameExcept [.share, .events] s t
  sets : t.share.sets = s.share.sets
  stat : ∀ j, t.setStat j = if j = k then degradedStatus cfg s else s.setStat j
  sh : ∀ i, t.sh i = if i ∈ cfg.memberList then { s.sh i with imbalance := 0 } else s.sh i
  flag : ∀ e, t.flag e = (s.flag e || decide (e = .setDegraded ∧ (s.setStat k).state ≠ .degraded))

theorem degradedStage_frame : SameExcept [.share] s (degradedStage k cfg s) :=
  (setSetStatus_frame ..).trans (.forEach (fun _ _ => setImbalance_frame ..) _)

theorem degradedStage_setStat : (degradedStage k cfg s).setStat k' =
    if k' = k then degradedStatus cfg s else s.setStat k' := by
  have h : (degradedStage k cfg s).share.stat = (setSetStatus k (degradedStatus cfg s) s).share.stat :=
    forEach_same (f := fun i s' => setImbalance i 0 s') (·.share.stat) (fun _ _ => rfl) ..
  exact (congrArg (·.get k') h).trans (setSetStatus_setStat ..)

theorem degradedStage_sh : (degradedStage k cfg s).sh i =
    if i ∈ cfg.memberList then { s.sh i with imbalance := 0 } else s.sh i :=
  forEach_at (·.sh i) (fun x => { x with imbalance := 0 }) (fun _ => rfl) (fun _ _ => setImbalance_sh 0) _ _

theorem shareDegraded_degraded (hcfg : s.share.sets.get k = cfg) : Degraded k cfg s (shareDegraded k s) := by
  have hflag : ∀ e, (degradedStage k cfg s).flag e = s.flag e := fun e => by
    rw [State.flag, degradedStage_frame.same .events (by decide)]
    rfl
  rw [shareDegraded_eq hcfg]
  by_cases hin : (s.setStat k).state = .degraded
  · rw [if_neg (by simp [hin])]
    exact { frame := degradedStage_frame.mono
            sets := degradedStage_sets
            stat := fun _ => degradedStage_setStat
            sh := fun _ => degradedStage_sh
            flag := fun e => by simp [hflag, hin] }
  · rw [if_pos (by simp [hin])]
    exact { frame := (degradedStage_frame.mono).step (raise_frame _)
            sets := degradedStage_sets
            stat := fun _ => degradedStage_setStat
            sh := fun _ => degradedStage_sh
            flag := fun e => by simp [raise_setDegraded_flag, hflag, hin] }

/-! ### A HALTED set (R77) -/

/-- R77: the read-only fields of a HALTED set. -/
def haltedStatus (k : Fin 8) (cfg : SetSettings) (s : State) : SetStatus :=
  if 2 ≤ (inMean cfg s).length then
    { state := .halted, contributing := (inMean cfg s).length, lastRef := s32 (refTorque cfg s)
      lastErr := s.shareErrors cfg (refTorque cfg s) (s.setStat k).lastErr, settled := false }
  else
    { state := .halted, contributing := 0, lastRef := 0, lastErr := Table.replicate 6 none, settled := false }

/-- R77: the work of a HALTED set writes its read-only fields. -/
theorem shareHalted_eq (hcfg : s.share.sets.get k = cfg) :
    shareHalted k s = setSetStatus k (haltedStatus k cfg s) s := by
  subst hcfg
  exact (apply_ite (setSetStatus k · s) ..).symm

/-! ### The members that reach the persistence (R79, R80) -/

theorem correctMember_sets : (correctMember cfg ref m s).share.sets = s.share.sets := by
  unfold correctMember
  split <;> rfl

theorem countImbalance_sh : (countImbalance cfg ref m s).sh j =
    if j = m.2 then { s.sh j with imbalance := if s.overThreshold cfg ref m then satInc (s.sh j).imbalance else 0 }
    else s.sh j := by
  rw [countImbalance, setImbalance_sh]
  split
  · next e => rw [e]
  · rfl

theorem forEach_countImbalance_other (h : j ∉ l.map (·.2)) : (forEach l (countImbalance cfg ref) s).sh j = s.sh j := by
  induction l generalizing s with
  | nil => rfl
  | cons a l ih =>
    rw [List.map_cons, List.mem_cons, not_or] at h
    exact (ih h.2).trans (by rw [countImbalance_sh, if_neg h.1])

/-- R79: in a list that names no section twice each member is counted once. -/
theorem forEach_countImbalance_member (hn : (l.map (·.2)).Nodup) (hm : m ∈ l) :
    ((forEach l (countImbalance cfg ref) s).sh m.2).imbalance =
      if s.overThreshold cfg ref m then satInc (s.sh m.2).imbalance else 0 := by
  induction l generalizing s with
  | nil => simp at hm
  | cons a l ih =>
    rw [List.map_cons, List.nodup_cons] at hn
    show ((forEach l (countImbalance cfg ref) (countImbalance cfg ref a s)).sh m.2).imbalance = _
    rcases List.mem_cons.1 hm with rfl | hm
    · rw [forEach_countImbalance_other hn.1, countImbalance_sh, if_pos rfl]
    · have hne : m.2 ≠ a.2 := fun e => hn.1 (e ▸ List.mem_map_of_mem hm)
      have hf : SameExcept [.share] s (countImbalance cfg ref a s) := setImbalance_frame ..
      rw [ih hn.2 hm, overThreshold_of_frame hf, countImbalance_sh, if_neg hne]

/-- R75: the corrections leave the imbalance counts. -/
theorem correctMember_imbalance : ((correctMember cfg ref m s).sh j).imbalance = (s.sh j).imbalance := by
  rw [correctMember_sh]
  split
  · next e =>
    subst e
    unfold correctedSh
    split <;> rfl
  · rfl

theorem countedStage_imbalance (hn : cfg.memberList.Nodup) (hm : m ∈ cfg.positions) :
    ((countedStage k cfg s).sh m.2).imbalance =
      if s.overThreshold cfg (refTorque cfg s) m then satInc (s.sh m.2).imbalance else 0 := by
  have hkept : ((correctedStage k cfg s).sh m.2).imbalance = (s.sh m.2).imbalance :=
    forEach_same (fun t => (t.sh m.2).imbalance) (fun _ _ => correctMember_imbalance) _ (observedStage k cfg s)
  rw [countedStage, forEach_countImbalance_member hn hm, overThreshold_of_frame correctedStage_frame, hkept]

/-- R79, R80: a member over the threshold whose count, increased, is at least the persistence. -/
def reaches (cfg : SetSettings) (s : State) (m : Fin 6 × Fin 32) : Bool :=
  s.overThreshold cfg (refTorque cfg s) m &&
    decide (cfg.imbPersist.toNat ≤ min 255 ((s.sh m.2).imbalance.toNat + 1))

/-- R80: the members that have reached the persistence, in list order. -/
def reachedMembers (cfg : SetSettings) (s : State) : List (Fin 32) := (cfg.positions.filter (reaches cfg s)).map (·.2)

theorem imbalanceReached_countedStage (hn : cfg.memberList.Nodup) :
    (countedStage k cfg s).imbalanceReached cfg (refTorque cfg s) cfg.positions = reachedMembers cfg s := by
  refine congrArg (List.map _) (List.filter_congr fun m hm => ?_)
  rw [overThreshold_of_frame countedStage_frame, countedStage_imbalance hn hm, reaches]
  cases s.overThreshold cfg (refTorque cfg s) m with
  | false => rfl
  | true => rw [if_pos rfl, satInc_toNat]

theorem reachedMembers_sublist : (reachedMembers cfg s).Sublist cfg.memberList := List.filter_sublist.map _

/-! ### The first trip, and the later causes (R90, R91) -/

/-- R89, R90 part 1: the latch and record of a section at its trip. -/
def trippedBy (cause : TripCause) (s : State) (i : Fin 32) : TripStatus :=
  { latch := true
    record := some { cause := cause, cycle := s.link.lastCycle, speed := (s.rw i).lastOut.map (·.speed), later := 0 } }

/-- R90 part 2: in a list that names no section twice PEER trips each CLEAR one. -/
theorem forEach_peerTrip_member (hn : is.Nodup) (hj : j ∈ is) (hc : s.tripped j = false) :
    (forEach is peerTrip s).tp j = trippedBy .peer s j := by
  induction is generalizing s with
  | nil => simp at hj
  | cons i is ih =>
    rw [List.nodup_cons] at hn
    show (forEach is peerTrip (peerTrip i s)).tp j = _
    rcases List.mem_cons.1 hj with rfl | hj
    · rw [forEach_peerTrip_tp hn.1, peerTrip, if_neg (by simp [hc]), latchTrip, setTp_tp, if_pos rfl]
      rfl
    · have hne : j ≠ i := fun e => hn.1 (e ▸ hj)
      have hf : SameExcept [.trips] s (peerTrip i s) := peerTrip_frame i
      rw [ih hn.2 hj (by rw [peerTrip_tripped, hc]; simpa using hne), trippedBy, trippedBy, rw_of_frame hf (by decide),
        hf.same .link (by decide)]

/-- R90 part 2: the record of a CLEAR peer. -/
theorem tripAction_peer (c : BitVec 16) (cause : TripCause) (hn : (s.peersOf i).Nodup) (hj : j ∈ s.peersOf i)
    (hc : s.tripped j = false) : (tripAction c cause i s).tp j = trippedBy .peer s j := by
  have hne : j ≠ i := fun e => not_mem_peersOf i (e ▸ hj)
  rw [tripAction_tp, forEach_peerTrip_member hn hj (by rw [State.tripped, latchTrip, setTp_tp, if_neg hne]; exact hc)]
  rfl

/-- R91: a cause entered into the record of a TRIPPED section. -/
def withLater (cause : TripCause) (x : TripStatus) : TripStatus :=
  { x with record := x.record.map fun r => r.addLater cause }

theorem addLater_addLater (cause : TripCause) (r : TripRecord) :
    (r.addLater cause).addLater cause = r.addLater cause := by
  by_cases h : cause = r.cause <;> simp [TripRecord.addLater, h, setBit16, BitVec.or_assoc]

theorem withLater_withLater (cause : TripCause) (x : TripStatus) :
    withLater cause (withLater cause x) = withLater cause x := by
  simp [withLater, Function.comp_def, addLater_addLater]

theorem addLaterCause_tp (cause : TripCause) : (addLaterCause cause i s).tp j =
    if j = i then withLater cause (s.tp j) else s.tp j := by
  rw [addLaterCause, setTp_tp]
  split
  · next e => rw [e]; rfl
  · rfl

theorem tripAll_cons (c : BitVec 16) (cause : TripCause) :
    tripAll c cause (i :: is) s = tripAll c cause is (tripSection c cause i s) := rfl

/-- R91: a trip of sections that are all TRIPPED enters its cause into their records. -/
theorem tripAll_of_tripped (c : BitVec 16) (cause : TripCause) (h : ∀ i ∈ is, s.tripped i = true) :
    tripAll c cause is s = forEach is (addLaterCause cause) s := by
  induction is generalizing s with
  | nil => rfl
  | cons i is ih =>
    have hi := tripSection_later c cause i (h i (List.mem_cons_self ..))
    refine (ih (s := tripSection c cause i s) fun j hj => ?_).trans (congrArg (forEach is _) hi)
    rw [tripSection_tripped, h j (List.mem_cons_of_mem _ hj), Bool.true_or]

theorem forEach_addLaterCause_tp (cause : TripCause) : (forEach is (addLaterCause cause) s).tp j =
    if j ∈ is then withLater cause (s.tp j) else s.tp j :=
  forEach_at (·.tp j) (withLater cause) (withLater_withLater cause) (fun _ _ => addLaterCause_tp cause) ..

/-- R91: IMBALANCE entered into a record of PEER is among its later causes. -/
theorem withLater_trippedBy_peer : ∃ x, (withLater .imbalance (trippedBy .peer s j)).record = some x ∧
    x.cause = .peer ∧ x.later.getLsbD 6 = true := ⟨_, rfl, rfl, setBit16_self _ (by decide)⟩

/-! ### The IMBALANCE trips of a set (R80, R83) -/

theorem mem_peersOf (h : s.setOf i = some k) :
    j ∈ s.peersOf i ↔ j ∈ (s.share.sets.get k).memberList ∧ j ≠ i := by
  simp [State.peersOf, h]

theorem peersOf_nodup (h : s.setOf i = some k) (hn : (s.share.sets.get k).memberList.Nodup) : (s.peersOf i).Nodup := by
  simp only [State.peersOf, h]
  exact hn.filter _

/-- R83, R90: `t` is what the trips of set `k` for IMBALANCE leave, `i` the first member reached and `rest` the
others. -/
structure Imbalanced (k : Fin 8) (cfg : SetSettings) (i : Fin 32) (rest : List (Fin 32)) (t : State) : Prop where
  halted : (t.setStat k).state = .halted
  unsettled : (t.setStat k).settled = false
  flag : t.flag .trip = true
  latch : ∀ j ∈ cfg.memberList, t.tripped j = true
  count : ∀ j ∈ cfg.memberList, (t.sh j).imbalance = 0
  record : ∀ j ∈ cfg.memberList, ∃ x, (t.tp j).record = some x ∧ x.cause = (if j = i then .imbalance else .peer) ∧
    (x.later.getLsbD 6 = true ↔ j ∈ rest)

/-- R82: the settled field of a set that is not SHARING stays no. -/
theorem Imbalanced.setSettled {rest : List (Fin 32)} {b : Bool} (h : Imbalanced k cfg i rest t) :
    Imbalanced k cfg i rest (setSettled k ((t.setStat k).state == .sharing && b) t) := by
  have hstat : (Machine.setSettled k ((t.setStat k).state == .sharing && b) t).setStat k =
      { t.setStat k with settled := false } := by
    rw [Machine.setSettled, setSetStatus_setStat, if_pos rfl, h.halted]
    rfl
  exact { halted := by rw [hstat]; exact h.halted
          unsettled := by rw [hstat]
          flag := h.flag
          latch := h.latch
          count := h.count
          record := h.record }

/-- R80, R83, R91: the first section trips its set, and the others only enter the cause into their records. -/
theorem tripAll_imbalanced (c : BitVec 16) (hcfg : s.share.sets.get k = cfg) (hn : cfg.memberList.Nodup)
    (hmem : ∀ j ∈ cfg.memberList, s.tripped j = false ∧ s.setOf j = some k)
    (hsub : (i :: is).Sublist cfg.memberList) : Imbalanced k cfg i is (tripAll c .imbalance (i :: is) s) := by
  subst hcfg
  have hi := hsub.subset (List.mem_cons_self ..)
  obtain ⟨hclear, hset⟩ := hmem i hi
  have hnot : i ∉ is := (List.nodup_cons.1 (hn.sublist hsub)).1
  have hpeer : ∀ j ∈ (s.share.sets.get k).memberList, j ≠ i → j ∈ s.peersOf i :=
    fun j hj hne => (mem_peersOf hset).2 ⟨hj, hne⟩
  have hlatch : ∀ j ∈ (s.share.sets.get k).memberList, (tripAction c .imbalance i s).tripped j = true := by
    intro j hj
    by_cases e : j = i
    · exact e ▸ tripAction_tripped_self c _
    · rw [State.tripped, tripAction_peer c _ (peersOf_nodup hset hn) (hpeer j hj e) (hmem j hj).1]
      rfl
  have hall : tripAll c .imbalance (i :: is) s =
      forEach is (addLaterCause .imbalance) (tripAction c .imbalance i s) := by
    rw [← tripAll_of_tripped c _ fun j hj => hlatch j (hsub.subset (List.mem_cons_of_mem _ hj))]
    rw [tripAll_cons, tripSection, if_neg (by simp [hclear])]
  have hf : SameExcept [.trips] (tripAction c .imbalance i s) (tripAll c .imbalance (i :: is) s) :=
    hall ▸ .forEach (fun _ _ => addLaterCause_frame ..) _
  have hstat : (tripAll c .imbalance (i :: is) s).setStat k =
      { s.setStat k with state := .halted, settled := false } := by
    refine (congrArg (·.stat.get k) (hf.same .share (by decide))).trans ?_
    exact (tripAction_setStat ..).trans (if_pos hset)
  have htp : ∀ j, (tripAll c .imbalance (i :: is) s).tp j =
      if j ∈ is then withLater .imbalance ((tripAction c .imbalance i s).tp j)
      else (tripAction c .imbalance i s).tp j := fun j => by
    rw [hall, forEach_addLaterCause_tp]
  refine ⟨by rw [hstat], by rw [hstat], ?flag, fun j hj => ?latch, fun j hj => ?count, fun j hj => ?record⟩
  case flag =>
    rw [State.flag, hf.same .events (by decide)]
    exact tripAction_flag ..
  case latch =>
    have hkept : ∀ x, (withLater .imbalance x).latch = x.latch := fun _ => rfl
    rw [State.tripped, htp, apply_ite TripStatus.latch, hkept, ite_self]
    exact hlatch j hj
  case count =>
    have hmoved : j ∈ s.movedBy i := by
      by_cases e : j = i
      · exact e ▸ List.mem_cons_self ..
      · exact List.mem_cons_of_mem _ (List.mem_filter.2 ⟨hpeer j hj e, by simp [(hmem j hj).1]⟩)
    rw [sh_of_frame hf (by decide), sh_eq_row, tripAction_row, if_pos hmoved]
    rfl
  case record =>
    by_cases e : j = i
    · subst e
      rw [htp, if_neg hnot, tripAction_own, if_pos rfl]
      exact ⟨_, rfl, rfl, by simp [hnot]⟩
    · rw [htp, tripAction_peer c _ (peersOf_nodup hset hn) (hpeer j hj e) (hmem j hj).1, if_neg e]
      by_cases hr : j ∈ is
      · obtain ⟨x, hx, hcause, hbit⟩ := withLater_trippedBy_peer (s := s) (j := j)
        exact ⟨x, by rw [if_pos hr, hx], hcause, by simp [hr, hbit]⟩
      · exact ⟨_, by rw [if_neg hr]; rfl, rfl, by simp [hr]⟩

/-- R80, R82: the computation of a SHARING set ends with its IMBALANCE trips, and the set is SHARING when none came. -/
theorem shareSharing_of_reached (hcfg : s.share.sets.get k = cfg) (hn : cfg.memberList.Nodup) : shareSharing k s =
    let u := tripAll s.link.lastCycle .imbalance (reachedMembers cfg s) (countedStage k cfg s)
    setSettled k ((u.setStat k).state == .sharing && withinDeadband cfg s) u := by
  rw [shareSharing_stages hcfg, imbalanceReached_countedStage hn]

theorem countedStage_sets : (countedStage k cfg s).share.sets = s.share.sets :=
  ((forEach_same (f := countImbalance cfg (refTorque cfg s)) (·.share.sets) (fun _ _ => rfl) ..).trans
    (forEach_same (·.share.sets) (fun _ _ => correctMember_sets) ..))

/-- R79 to R83: the work of a set with no member TRIPPED and two observed, by whether a member has reached the
persistence. -/
theorem shareSharing_imbalance (hcfg : s.share.sets.get k = cfg) (hn : cfg.memberList.Nodup)
    (hmem : ∀ i ∈ cfg.memberList, s.tripped i = false ∧ s.setOf i = some k) :
    (reachedMembers cfg s = [] →
      (shareSharing k s).trips = s.trips ∧ ((shareSharing k s).setStat k).state = .sharing) ∧
    ∀ i rest, reachedMembers cfg s = i :: rest → Imbalanced k cfg i rest (shareSharing k s) := by
  rw [shareSharing_of_reached hcfg hn]
  dsimp only
  constructor
  · intro hnone
    rw [hnone]
    refine ⟨countedStage_frame.same .trips (by decide), ?_⟩
    rw [setSettled, setSetStatus_setStat, if_pos rfl]
    show ((countedStage k cfg s).setStat k).state = _
    rw [countedStage_setStat, observedStage, setSetStatus_setStat, if_pos rfl]
  · intro i rest hreach
    rw [hreach]
    have hclear : ∀ j, (countedStage k cfg s).tripped j = s.tripped j :=
      fun j => congrArg (·.latch) (tp_of_trips (countedStage_frame.same .trips (by decide)) j)
    have h := tripAll_imbalanced (i := i) (is := rest) s.link.lastCycle
      ((congrArg (·.get k) countedStage_sets).trans hcfg) hn
      (fun j hj => by rw [hclear, setOf_of_sets countedStage_sets]; exact hmem j hj)
      (hreach ▸ reachedMembers_sublist)
    exact h.setSettled

/-! ### O32 -/

/-- Settles O32: a DEGRADED and a HALTED set by their work, and the IMBALANCE trips of a SHARING set by the first of
the members that have reached the persistence. -/
theorem setDegradedHaltedTripped : Obligations.SetDegradedHaltedTripped := by
  intro k s cfg seen ref err hv hcount hn t
  refine ⟨?degraded, ?halted, ?imbalance⟩
  case degraded =>
    intro ht hseen
    have h : Degraded k cfg s t := by
      rw [show t = shareDegraded k s from shareSet_degraded rfl hv (Nat.zero_lt_of_lt hcount) ht hseen]
      exact shareDegraded_degraded rfl
    exact ⟨h.frame, h.sets, (h.stat k).trans (if_pos rfl), fun j hj => (h.stat j).trans (if_neg hj), h.sh, h.flag⟩
  case halted =>
    intro ht
    have h : t = setSetStatus k (haltedStatus k cfg s) s := (shareSet_halted rfl hv ht).trans (shareHalted_eq rfl)
    have hstat : t.setStat k = haltedStatus k cfg s := by rw [h, setSetStatus_setStat, if_pos rfl]
    have hstate : (haltedStatus k cfg s).state = .halted ∧ (haltedStatus k cfg s).settled = false := by
      unfold haltedStatus
      split <;> exact ⟨rfl, rfl⟩
    refine ⟨h ▸ setSetStatus_frame .., by rw [h]; rfl, by rw [h]; rfl, hstat ▸ hstate.1, hstat ▸ hstate.2,
      fun j hj => by rw [h, setSetStatus_setStat, if_neg hj], fun hseen => ?observed, fun hseen => ?unobserved⟩
    case observed =>
      rw [hstat, haltedStatus, if_pos (show 2 ≤ (inMean cfg s).length from hseen)]
      exact ⟨rfl, meanTorque_stored (Nat.zero_lt_of_lt hseen), fun m hm => shareErrors_get hm _⟩
    case unobserved =>
      rw [hstat, haltedStatus, if_neg (show ¬ 2 ≤ (inMean cfg s).length by exact not_le.2 hseen)]
      exact ⟨rfl, rfl, fun p => Table.get_replicate ..⟩
  case imbalance =>
    intro hmem hseen reached
    have hreached : reached = reachedMembers cfg s := by
      refine congrArg (List.map _) (List.filter_congr fun m _ => ?_)
      rw [reaches, State.overThreshold, mag_eq_abs]
      rfl
    obtain ⟨hnone, hsome⟩ := shareSharing_imbalance rfl hn hmem
    rw [hreached, show t = shareSharing k s from shareSet_sharing rfl hv (fun i hi => (hmem i hi).1) hseen]
    refine ⟨hnone, fun i rest hr => ?_⟩
    have h := hsome i rest hr
    exact ⟨h.halted, h.unsettled, h.flag, fun j hj => ⟨h.latch j hj, h.count j hj, h.record j hj⟩⟩

end Sys2Proof.Machine.ReportClose
end

