-- ==== Sys2Proof/Proofs/SetWords.lean ====
section
/-! PROOFS. The setting words of a set record (R203, Table 11-8): the fields that are read back from them, their ranges
(R67), and the words that a WRITE of one word merges (R171). -/

namespace Sys2Proof.Machine.SetWrite

variable {n lo len : Nat} {r : SetSettings}

/-! ### Fields of a word -/

theorem field_or (a b : Word) : field (a ||| b) lo len = field a lo len ||| field b lo len := BitVec.extractLsb'_or

/-- A field is read back from where it was placed. -/
theorem field_place_self (x : BitVec len) (h : lo + len ≤ 32) : field (place x lo) lo len = x := by
  ext i hi
  simp [field, place, show lo + i < 32 by omega, BitVec.getLsbD_eq_getElem hi]

/-- A field placed elsewhere leaves nothing. -/
theorem field_place_disjoint {at' : Nat} (x : BitVec n) (h : at' + n ≤ lo ∨ lo + len ≤ at') :
    field (place x at') lo len = 0 := by
  ext i hi
  have hout : lo + i < at' ∨ x.getLsbD (lo + i - at') = false := by
    rcases h with h | h
    · exact .inr (BitVec.getLsbD_of_ge _ _ (by omega))
    · exact .inl (by omega)
  rcases hout with h | h <;> simp [field, place, h]

theorem field_flagAt (b : Bool) (h : lo + len ≤ n) : field (flagAt b n) lo len = 0 := by
  cases b with
  | false => simp [flagAt, field]
  | true =>
    ext i hi
    simp [flagAt, field, show lo + i < n by omega]

theorem hiHalf_halves (a b : LinkWord) : hiHalf (halves a b) = a :=
  BitVec.extractLsb'_append_eq_left

theorem loHalf_halves (a b : LinkWord) : loHalf (halves a b) = b :=
  BitVec.extractLsb'_append_eq_right

theorem memberOfField_ofNat (i : Fin 32) : memberOfField (BitVec.ofNat 8 i.val) = i := by
  ext
  simp [memberOfField]

theorem hiHalf_eq_field (w : Word) : hiHalf w = field w 16 16 := rfl
theorem loHalf_eq_field (w : Word) : loHalf w = field w 0 16 := rfl

/-! ### The fields of the setting words -/

theorem table_ext {α : Type} {t u : Table α n} (h : t.toList = u.toList) : t = u := by
  cases t
  cases u
  exact (Table.mk.injEq ..).mpr h

theorem toList_of_six {α : Type} (t : Table α 6) :
    t.toList = [t.get 0, t.get 1, t.get 2, t.get 3, t.get 4, t.get 5] := by
  obtain ⟨l, hl⟩ := t
  match l, hl with
  | [_, _, _, _, _, _], _ => rfl

theorem valid_words (r : SetSettings) : (r.words.getD 0 0).getLsbD 31 = r.valid := by
  cases h : r.valid <;> simp [SetSettings.words, flagAt, place, h]

theorem memberCount_words (r : SetSettings) : field (r.words.getD 0 0) 0 3 = r.memberCount := by
  simp [SetSettings.words, field_or, field_flagAt, field_place_self]

/-- R66: the member position fields hold the section indexes. -/
theorem setMemberFields_words (r : SetSettings) :
    setMemberFields r.words = r.members.toList.map fun i => BitVec.ofNat 8 i.val := by
  rw [toList_of_six]
  simp [setMemberFields, SetSettings.words, field_or, field_place_self, field_place_disjoint]

/-- R66: the structural fields of the words of a set record. -/
theorem setStructure_words (r : SetSettings) :
    setStructure r.words = (r.valid, r.memberCount, r.members.toList.map fun i => BitVec.ofNat 8 i.val) := by
  rw [setStructure, setMemberFields_words, valid_words, memberCount_words]

/-- R66 check 2: a section index never lies above 31. -/
theorem setOutOfRange_words (r : SetSettings) : setOutOfRange r.words = decide (6 < r.memberCount.toNat) := by
  rw [setOutOfRange, setMemberFields_words, memberCount_words, Bool.or_eq_left_iff_imp]
  simp
  omega

/-- R203: what is written into the words of a set record is read back from them. -/
theorem ofWords_words (r : SetSettings) : SetSettings.ofWords r.words = r := by
  have hmembers : (SetSettings.ofWords r.words).members = r.members := table_ext <| by
    show (setMemberFields r.words).map memberOfField = _
    rw [setMemberFields_words, List.map_map]
    exact (List.map_congr_left fun i _ => memberOfField_ofNat i).trans (List.map_id _)
  have hbias : (SetSettings.ofWords r.words).bias = r.bias := table_ext <| by
    simp [SetSettings.ofWords, SetSettings.words, hiHalf_halves, loHalf_halves, toList_of_six r.bias]
  have hgain : loHalf (r.words.getD 6 0) = r.gain ∧ hiHalf (r.words.getD 6 0) = r.deadband := by
    simp [SetSettings.words, hiHalf_eq_field, loHalf_eq_field, field_or, field_place_self, field_place_disjoint]
  have hthreshold : loHalf (r.words.getD 7 0) = r.imbThreshold ∧ field (r.words.getD 7 0) 16 8 = r.imbPersist := by
    simp [SetSettings.words, loHalf_eq_field, field_or, field_place_self, field_place_disjoint]
  obtain ⟨hgain, hdeadband⟩ := hgain
  obtain ⟨hthreshold, hpersist⟩ := hthreshold
  have hvalid := valid_words r
  have hcount := memberCount_words r
  cases r
  exact SetSettings.mk.injEq .. ▸ ⟨hvalid, hcount, hmembers, hbias, hgain, hdeadband, hthreshold, hpersist, rfl⟩

/-! ### Their ranges (R67) -/

theorem clampU_of_within {lo hi : Nat} {w : BitVec n} (h1 : lo ≤ w.toNat) (h2 : w.toNat ≤ hi) : clampU lo hi w = w := by
  rw [clampU, if_neg (by omega), if_neg (by omega), BitVec.ofNat_toNat, BitVec.setWidth_eq]

/-- R67: the clamp leaves fields that lie in their ranges. -/
theorem clamp_of_inRange (h : r.inRange) : r.clamp = r := by
  obtain ⟨hbias, hgain, hdeadband, hthr1, hthr2, hpersist, hlimit, -, -⟩ := h
  have hclamped : (r.bias.map fun b => BitVec.ofInt 16 (clampInt (-500) 500 b.toInt)) = r.bias :=
    Table.ext_get fun p => by
      obtain ⟨h1, h2⟩ := hbias p
      rw [Table.get_map, clampInt_of_within h1 h2, BitVec.ofInt_toInt]
  rw [SetSettings.clamp, hclamped, clampU_of_within (Nat.zero_le _) hgain, clampU_of_within (Nat.zero_le _) hdeadband,
    clampU_of_within hthr1 hthr2, clampU_of_within hpersist (by have := r.imbPersist.isLt; omega),
    clampU_of_within (Nat.zero_le _) hlimit]

/-! ### The words that a WRITE merges (R171) -/

/-- Table 11-8, word 0: the word of the valid flag and the member count. -/
def structureWord (v : Bool) (n : BitVec 3) : Word := flagAt v 31 ||| place n 0

theorem overlay_structureWord (r : SetSettings) (v : Bool) (n : BitVec 3) :
    overlay r.words 0 [structureWord v n] = { r with valid := v, memberCount := n }.words := rfl

theorem overlay_shareLimit (r : SetSettings) (w : Word) :
    overlay r.words 8 [w] = { r with shareLimit := w }.words := rfl

/-- Table 11-8, word 1: the first four member positions, 8 bits each. -/
theorem mem_setMemberFields_overlay (r : SetSettings) (w : Word) (b : Fin 4) :
    field w (8 * b.val) 8 ∈ setMemberFields (overlay r.words 1 [w]) := by
  have hfields : setMemberFields (overlay r.words 1 [w]) = [field w 0 8, field w 8 8, field w 16 8, field w 24 8,
    field (r.words.getD 2 0) 0 8, field (r.words.getD 2 0) 8 8] := rfl
  rw [hfields]
  match b with
  | 0 | 1 | 2 | 3 => simp

theorem field_byte_toNat (w : Word) (b : Nat) : (field w (8 * b) 8).toNat = w.toNat / 256 ^ b % 256 := by
  rw [field, BitVec.extractLsb'_toNat, Nat.shiftRight_eq_div_pow, Nat.pow_mul]

end Sys2Proof.Machine.SetWrite
end

