-- ==== Sys2Proof/Proofs/SetWrite.lean ====
section
/-! PROOFS. A WRITE of one word to a set record (R66 to R68, R171, R172, R174): the common checks, the structural
checks, and what an accepted write stores. Settles O43 and O44. -/

namespace Sys2Proof.Machine.SetWrite

open ReportClose

variable {s t : State} {tag : BitVec 8} {record offset : BitVec 16} {k : Fin 8} {w : Word} {r : SetSettings}
  {i : Fin 32}

/-! ### The common checks (R166, R171, R172) -/

/-- R165: the answer that carries a reply. -/
def answerOf (tag kind : BitVec 8) (x : Reply) : Answer :=
  { tag := tag, kind := kind, code := x.code, data := x.data, firstHeader := x.firstHeader }

/-- R166: a request that is served leaves its effect and its answer. -/
theorem serve_of_canServe (h : s.canServe) (tag kind : BitVec 8) (op : State → State × Reply) :
    serve tag kind op s = (op s).1.answered (answerOf tag kind (op s).2) := by
  obtain ⟨hinline, hslot⟩ := h
  unfold serve
  rw [if_pos hinline, hslot]
  rfl

/-- R172: with the key ON a run that begins in the setting words of a set record is refused exactly while SETS is
protected. -/
theorem writeRefusal_set (hr : record.toNat = k.val) (ho : offset.toNat ≤ 8) (hkey : s.control.key.filtered = true) :
    s.writeRefusal 2 record offset 1 = if s.service.prot.sets then some .protectedGroup else none := by
  have hprot : s.writeProtected 2 offset.toNat 1 = s.service.prot.sets := by
    simp [State.writeProtected, State.groupProtected, State.keyOn, hkey, runTouches, ho]
  have hlen : writableLength 2 = some 17 := rfl
  have hrec : regionRecords 2 = some 8 := rfl
  unfold State.writeRefusal
  rw [hlen, hrec, hprot]
  dsimp only
  rw [if_neg (by omega), if_neg (by omega), if_neg (by decide)]

/-- R171: SET_WRITE of one word is served as a WRITE of the SETS region. -/
theorem exec_setWrite (hs : s.canServe) : exec (.setWrite tag record offset [w]) s =
    .next ((writeRequest s.link.lastCycle 2 record offset [w] s).1.answered
      (answerOf tag 2 (writeRequest s.link.lastCycle 2 record offset [w] s).2)) :=
  congrArg Host.Outcome.next (serve_of_canServe hs ..)

theorem exec_setWrite_protected (hs : s.canServe) (hr : record.toNat = k.val) (ho : offset.toNat ≤ 8)
    (hkey : s.control.key.filtered = true) (hprot : s.service.prot.sets = true) :
    exec (.setWrite tag record offset [w]) s = .next (s.answered (plainAnswer tag 2 .protectedGroup)) := by
  rw [exec_setWrite hs, writeRequest, guardWrite, List.length_singleton, writeRefusal_set hr ho hkey, hprot]
  rfl

/-- A WRITE of one word that may reach the setting words of set `k`: the service unit executes it, the key is ON and
SETS is not protected. -/
structure Admitted (record offset : BitVec 16) (k : Fin 8) (s : State) : Prop where
  serve : s.canServe
  record : record.toNat = k.val
  offset : offset.toNat ≤ 8
  key : s.control.key.filtered = true
  prot : s.service.prot.sets = false

theorem Admitted.writeRequest (h : Admitted record offset k s) (c : BitVec 16) :
    writeRequest c 2 record offset [w] s = writeSet k offset.toNat [w] s := by
  rw [Machine.writeRequest, guardWrite, List.length_singleton, writeRefusal_set h.record h.offset h.key, h.prot]
  simp [h.record]

/-- R66: a WRITE that the structural checks refuse changes nothing. -/
theorem Admitted.exec_refused {c : AnswerCode} (h : Admitted record offset k s)
    (hc : s.setRefusal k (overlay (s.share.sets.get k).words offset.toNat [w]) = some c) :
    exec (.setWrite tag record offset [w]) s = .next (s.answered (plainAnswer tag 2 c)) := by
  have hset : writeSet k offset.toNat [w] s = refuse c s := by
    unfold writeSet
    dsimp only
    rw [hc]
  rw [exec_setWrite h.serve, h.writeRequest, hset]
  rfl

/-! ### What an accepted WRITE stores (R67, R68, R174) -/

/-- R66 to R68: the state with new settings of a set: stored, rebuilt when its structure changed, and its members'
trims clamped to a lowered limit. -/
def afterWrite (k : Fin 8) (r : SetSettings) (s : State) : State :=
  let u := if rebuildsSet (s.share.sets.get k) r then rebuildSet k (storeSet k r s) else storeSet k r s
  if r.valid ∧ r.shareLimit.toNat < (s.share.sets.get k).shareLimit.toNat then
    forEach r.memberList (clampShare r.shareLimit.toNat) u
  else u

theorem afterWrite_sets : (afterWrite k r s).share.sets = s.share.sets.set k r := by
  have hu : (if rebuildsSet (s.share.sets.get k) r then rebuildSet k (storeSet k r s)
      else storeSet k r s).share.sets = s.share.sets.set k r := by
    split <;> rfl
  unfold afterWrite
  dsimp only
  split
  · exact (forEach_same (f := clampShare r.shareLimit.toNat) (·.share.sets) (fun _ _ => rfl) ..).trans hu
  · exact hu

/-- R174: a WRITE whose merged words are those of settings in their ranges stores them, and answers OK with the word as
written. -/
theorem Admitted.exec_accepted (h : Admitted record offset k s)
    (hw : overlay (s.share.sets.get k).words offset.toNat [w] = r.words) (hclamp : r.clamp = r)
    (hone : ∀ ws, run (r.words ++ ws) offset.toNat 1 = [w]) (hc : s.setRefusal k r.words = none) :
    exec (.setWrite tag record offset [w]) s = .next ((afterWrite k r s).answered
      { tag := tag, kind := 2, code := .ok, data := [w], firstHeader := none }) := by
  have hdata : run ((afterWrite k r s).setWords k) offset.toNat 1 = [w] := by
    rw [State.setWords, afterWrite_sets, Table.get_set_self, hone]
  have hset : writeSet k offset.toNat [w] s = (afterWrite k r s, writeReply .ok [w] 0 1) := by
    unfold writeSet
    dsimp only
    rw [hw, hc, ofWords_words, hclamp]
    dsimp only
    refine Prod.ext rfl ?_
    show writeReply _ ((afterWrite k r s).setWords k) offset.toNat 1 = _
    rw [writeReply, hdata, clampCode, if_pos rfl]
    rfl
  rw [exec_setWrite h.serve, h.writeRequest, hset]
  rfl

/-! ### The structural checks (R66) -/

/-- R66 check 5: a member of another valid set. -/
abbrev SharesMember (k : Fin 8) (r : SetSettings) (s : State) : Prop :=
  ∃ j, j ≠ k ∧ (s.share.sets.get j).valid = true ∧ ∃ i ∈ r.memberList, i ∈ (s.share.sets.get j).memberList

/-- R66 check 6: members in different trip states. -/
abbrev MixesTrips (r : SetSettings) (s : State) : Prop :=
  (∃ i ∈ r.memberList, s.tripped i = true) ∧ ∃ i ∈ r.memberList, s.tripped i = false

/-- R66 checks 3 to 6: the checks of the members of a set that is to be valid. -/
def memberRefusal (k : Fin 8) (r : SetSettings) (s : State) : Option AnswerCode :=
  if r.memberCount.toNat < 2 ∨ ¬ r.memberList.Nodup then some .badValue
  else if ∃ i ∈ r.memberList, (s.settings i).valid = false then some .noEntry
  else if SharesMember k r s then some .conflict
  else if MixesTrips r s then some .conflict
  else none

/-- R66: no structural check is made when no structural field changes. -/
theorem setRefusal_same (h : setStructure r.words = setStructure (s.share.sets.get k).words) :
    s.setRefusal k r.words = none := if_pos h

/-- R66 check 1: a structural change is refused while the bridge is ENGAGED. -/
theorem setRefusal_engaged {ws : List Word} (h : setStructure ws ≠ setStructure (s.share.sets.get k).words)
    (he : s.engaged = true) : s.setRefusal k ws = some .engaged := (if_neg h).trans (if_pos he)

/-- R66 check 2: a member count or a member position out of range. -/
theorem setRefusal_outOfRange {ws : List Word} (h : setStructure ws ≠ setStructure (s.share.sets.get k).words)
    (he : s.engaged = false) (ho : setOutOfRange ws = true) : s.setRefusal k ws = some .badValue :=
  (if_neg h).trans ((if_neg (by simp [he])).trans (if_pos ho))

/-- R66: the checks of a set made invalid. -/
theorem setRefusal_invalid (h : setStructure r.words ≠ setStructure (s.share.sets.get k).words)
    (he : s.engaged = false) (hc : r.memberCount.toNat ≤ 6) (hv : r.valid = false) :
    s.setRefusal k r.words = none := by
  unfold State.setRefusal
  dsimp only
  rw [if_neg h, setOutOfRange_words, ofWords_words]
  simp [he, hv, hc]

/-- R66 checks 3 to 6: those of a set made valid. -/
theorem setRefusal_valid (h : setStructure r.words ≠ setStructure (s.share.sets.get k).words)
    (he : s.engaged = false) (hc : r.memberCount.toNat ≤ 6) (hv : r.valid = true) :
    s.setRefusal k r.words = memberRefusal k r s := by
  unfold State.setRefusal
  dsimp only
  rw [if_neg h, if_neg (by simp [he]), if_neg (by simp [setOutOfRange_words, hc]), ofWords_words, memberRefusal]
  simp only [hv, true_and]
  refine if_congr .rfl rfl (if_congr ?entry rfl (if_congr ?shared rfl (if_congr ?mixed rfl rfl)))
  case entry => simp
  case shared => simp [setIndexes, and_assoc]
  case mixed => simpa using and_comm

/-! ### A lowered share limit (R67) -/

/-- R67: the load-share status of a member after its trim is clamped to a limit. -/
def clampedSh (lmax : Nat) (x : ShareStatus) : ShareStatus :=
  { x with trim := s32 (clampInt (-(lmax : Int)) lmax x.trim.toInt) }

theorem clampShare_sh {lmax : Nat} {j : Fin 32} : (clampShare lmax i s).sh j =
    if j = i then clampedSh lmax (s.sh j) else s.sh j := by
  rw [clampShare, setShareTrim, setSh_sh]
  split
  · next e => rw [e]; rfl
  · rfl

theorem clampedSh_clampedSh {lmax : Nat} (h : lmax ≤ 100000) (x : ShareStatus) :
    clampedSh lmax (clampedSh lmax x) = clampedSh lmax x := by
  obtain ⟨h1, h2⟩ := clampInt_bounds (lo := -(lmax : Int)) (hi := lmax) (by omega) x.trim.toInt
  rw [clampedSh, clampedSh, s32_toInt (by omega) (by omega), clampInt_of_within h1 h2]

/-- R67: what a lowered share limit leaves. -/
structure LimitLowered (k : Fin 8) (r : SetSettings) (s t : State) : Prop where
  frame : SameExcept [.share] s t
  sets : t.share.sets = s.share.sets.set k r
  stat : t.share.stat = s.share.stat
  sh : ∀ i, t.sh i = if i ∈ r.memberList then clampedSh r.shareLimit.toNat (s.sh i) else s.sh i

theorem afterWrite_limitLowered {v : Word} (hv : (s.share.sets.get k).valid = true)
    (hlow : v.toNat < (s.share.sets.get k).shareLimit.toNat) (hmax : v.toNat ≤ 100000) :
    LimitLowered k { s.share.sets.get k with shareLimit := v } s
      (afterWrite k { s.share.sets.get k with shareLimit := v } s) := by
  have hkept : rebuildsSet (s.share.sets.get k) { s.share.sets.get k with shareLimit := v } = false := by
    simp [rebuildsSet, SetSettings.memberList, SetSettings.positions]
  have heq : afterWrite k { s.share.sets.get k with shareLimit := v } s =
      forEach (s.share.sets.get k).memberList (clampShare v.toNat)
        (storeSet k { s.share.sets.get k with shareLimit := v } s) := by
    rw [afterWrite, hkept]
    exact if_pos ⟨hv, hlow⟩
  refine ⟨?_, afterWrite_sets, ?_, fun i => ?_⟩
  · rw [heq]
    exact (storeSet_frame ..).trans (.forEach (fun _ _ => clampShare_frame ..) _)
  · rw [heq]
    exact forEach_same (f := clampShare v.toNat) (·.share.stat) (fun _ _ => rfl) ..
  · rw [heq]
    exact forEach_at (·.sh i) (clampedSh v.toNat) (clampedSh_clampedSh hmax) (fun _ _ => clampShare_sh) ..

/-- Settles O43: the common checks, and the stored limit with the members' trims clamped to it. -/
theorem shareLimitLowered : Obligations.ShareLimitLowered := by
  intro tag record k v s hs hok hr hkey cfg
  refine ⟨exec_setWrite_protected hs hr (by decide) hkey, fun hprot hv hlow => ?_⟩
  obtain ⟨-, hranges, -, -⟩ := hok
  obtain ⟨hbias, hgain, hdeadband, hthr1, hthr2, hpersist, hlimit, hmembers⟩ := hranges k
  have hmax : v.toNat ≤ 100000 := hlow.le.trans hlimit
  have hrange : { cfg with shareLimit := v }.inRange :=
    ⟨hbias, hgain, hdeadband, hthr1, hthr2, hpersist, hmax, hmembers⟩
  have hadmitted : Admitted record 8 k s := ⟨hs, hr, by decide, hkey, hprot⟩
  have hstructure : setStructure { cfg with shareLimit := v }.words = setStructure cfg.words := by
    rw [setStructure_words, setStructure_words]
  have h := afterWrite_limitLowered hv hlow hmax
  refine ⟨_, hadmitted.exec_accepted (overlay_shareLimit cfg v) (clamp_of_inRange hrange) (fun _ => rfl)
    (setRefusal_same hstructure), h.frame, h.sets, h.stat, fun i => ?_⟩
  rw [h.sh, clampedSh, clampInt_eq_max_min (by omega)]
  rfl

/-! ### A set made valid or invalid (R66, R68) -/

/-- R68: what making a set valid or invalid leaves. -/
structure Rebuilt (k : Fin 8) (r : SetSettings) (s t : State) : Prop where
  frame : SameExcept [.share] s t
  sets : t.share.sets = s.share.sets.set k r
  sec : t.share.sec = s.share.sec
  stat : ∀ j, t.setStat j =
    if j = k then { state := (s.setStat k).state, contributing := 0, lastRef := 0
                    lastErr := Table.replicate 6 none, settled := false }
    else s.setStat j

theorem afterWrite_rebuilt (hv : r.valid ≠ (s.share.sets.get k).valid)
    (hlimit : r.shareLimit = (s.share.sets.get k).shareLimit) : Rebuilt k r s (afterWrite k r s) := by
  have hrebuilds : rebuildsSet (s.share.sets.get k) r = true := by
    rw [rebuildsSet, bne_iff_ne.2 (Ne.symm hv), Bool.true_or]
  have heq : afterWrite k r s = rebuildSet k (storeSet k r s) := by
    rw [afterWrite, hrebuilds]
    exact if_neg fun h => by rw [hlimit] at h; exact lt_irrefl _ h.2
  rw [heq]
  exact { frame := (storeSet_frame ..).trans (rebuildSet_frame ..)
          sets := rfl
          sec := rfl
          stat := fun j => setSetStatus_setStat .. }

/-- A change of the valid flag is a structural change. -/
theorem setStructure_ne (hv : r.valid ≠ (s.share.sets.get k).valid) :
    setStructure r.words ≠ setStructure (s.share.sets.get k).words := by
  rw [setStructure_words, setStructure_words]
  exact fun h => hv (Prod.mk.inj h).1

/-- R66: a WRITE of the structure word that changes the valid flag is answered by the structural checks: refused with
their code, or applied. -/
theorem Admitted.exec_structure {n : BitVec 3} {v : Bool} (h : Admitted record 0 k s)
    (hrange : (s.share.sets.get k).inRange) (hv : v ≠ (s.share.sets.get k).valid) :
    let r := { s.share.sets.get k with valid := v, memberCount := n }
    (∀ c, s.setRefusal k r.words = some c →
      exec (.setWrite tag record 0 [structureWord v n]) s = .next (s.answered (plainAnswer tag 2 c))) ∧
    (s.setRefusal k r.words = none → Rebuilt k r s (afterWrite k r s) ∧
      exec (.setWrite tag record 0 [structureWord v n]) s = .next ((afterWrite k r s).answered
        { tag := tag, kind := 2, code := .ok, data := [structureWord v n], firstHeader := none })) := by
  intro r
  have hclamp : r.clamp = r :=
    congrArg (fun x : SetSettings => { x with valid := v, memberCount := n }) (clamp_of_inRange hrange)
  exact ⟨fun c hc => h.exec_refused hc, fun hc => ⟨afterWrite_rebuilt hv rfl,
    h.exec_accepted (overlay_structureWord _ v n) hclamp (fun _ => rfl) hc⟩⟩

/-- R66 check 2: a member position above 31 is out of range, and differs from the stored one. -/
theorem setRefusal_position (he : s.engaged = false) (b : Fin 4) (hw : 31 < w.toNat / 256 ^ b.val % 256) :
    s.setRefusal k (overlay (s.share.sets.get k).words 1 [w]) = some .badValue := by
  have hmem := mem_setMemberFields_overlay (s.share.sets.get k) w b
  rw [← field_byte_toNat] at hw
  refine setRefusal_outOfRange (fun h => ?_) he ?_
  · rw [setStructure, setStructure_words] at h
    have hfields : setMemberFields (overlay (s.share.sets.get k).words 1 [w]) =
        (s.share.sets.get k).members.toList.map fun i => BitVec.ofNat 8 i.val := congrArg (·.2.2) h
    rw [hfields] at hmem
    obtain ⟨i, -, hi⟩ := List.mem_map.1 hmem
    rw [← hi, BitVec.toNat_ofNat] at hw
    omega
  · rw [setOutOfRange, Bool.or_eq_true, List.any_eq_true]
    exact .inr ⟨_, hmem, decide_eq_true hw⟩

/-- Settles O44: a WRITE of the structure word by its checks in their order, and one of a member position. -/
theorem setStructure : Obligations.SetStructure := by
  intro tag record k n s hs hok hr hkey hprot cfg ms d refused applied
  obtain ⟨-, hranges, -, -⟩ := hok
  have hadmitted : ∀ o : BitVec 16, o.toNat ≤ 8 → Admitted record o k s := fun o ho => ⟨hs, hr, ho, hkey, hprot⟩
  have hstand : s.control.mode ≠ .engaged → s.engaged = false := fun h => by simp [State.engaged, h]
  have hengaged : s.control.mode = .engaged → s.engaged = true := fun h => by simp [State.engaged, h]
  have happlied : ∀ v, v ≠ cfg.valid → s.setRefusal k { cfg with valid := v, memberCount := n }.words = none →
      applied (structureWord v n) v := fun v hv hc => by
    obtain ⟨h, hexec⟩ := ((hadmitted 0 (by decide)).exec_structure (hranges k) hv).2 hc
    exact ⟨_, hexec, h.frame, h.sets, h.sec, fun j hj => (h.stat j).trans (if_neg hj), (h.stat k).trans (if_pos rfl)⟩
  have hrefused : ∀ v c, v ≠ cfg.valid → s.setRefusal k { cfg with valid := v, memberCount := n }.words = some c →
      refused (structureWord v n) c := fun v c hv hc =>
    ((hadmitted 0 (by decide)).exec_structure (hranges k) hv).1 c hc
  refine ⟨fun hinvalid => ?valid, fun hvalid h6 => ?invalid, fun w b hmode hw => ?position⟩
  case valid =>
    have hd : d = structureWord true n := by simp [d, structureWord, flagAt, place]
    have hms : SetSettings.memberList { cfg with valid := true, memberCount := n } = ms := List.map_map ..
    have hv : true ≠ cfg.valid := by simp [cfg, hinvalid]
    rw [hd]
    refine ⟨fun h => hrefused _ _ hv (setRefusal_engaged (setStructure_ne hv) (hengaged h)), fun h => ?_⟩
    have hchecks := fun h6 => setRefusal_valid (r := { cfg with valid := true, memberCount := n }) (setStructure_ne hv)
      (hstand h) h6 rfl
    simp only [memberRefusal, SharesMember, MixesTrips, hms] at hchecks
    refine ⟨fun hbad => hrefused _ _ hv ?_, fun h2 h6 hn => ?_⟩
    · by_cases h6 : n.toNat ≤ 6
      · rw [hchecks h6, if_pos (hbad.imp_right (·.resolve_left (by omega)))]
      · exact setRefusal_outOfRange (setStructure_ne hv) (hstand h) (by simpa [setOutOfRange_words] using h6)
    have hmembers := (hchecks h6).trans (if_neg (not_or.2 ⟨not_lt.2 h2, not_not.2 hn⟩))
    refine ⟨fun hinv => hrefused _ _ hv (hmembers.trans (if_pos hinv)), ?_⟩
    intro hentry shared mixed
    have hconflict := hmembers.trans (if_neg (by simpa using hentry))
    refine ⟨fun hc => hrefused _ _ hv ?_, fun hshared hmixed => happlied _ hv ?_⟩
    · by_cases hshared : shared
      · exact hconflict.trans (if_pos hshared)
      · exact hconflict.trans ((if_neg hshared).trans (if_pos (hc.resolve_left hshared)))
    · exact hconflict.trans ((if_neg hshared).trans (if_neg hmixed))
  case invalid =>
    have hd : n.setWidth 32 = structureWord false n := by simp [structureWord, flagAt, place]
    have hv : false ≠ cfg.valid := by simp [cfg, hvalid]
    rw [hd]
    exact ⟨fun h => hrefused _ _ hv (setRefusal_engaged (setStructure_ne hv) (hengaged h)),
      fun h => happlied _ hv (setRefusal_invalid (setStructure_ne hv) (hstand h) h6 rfl)⟩
  case position => exact (hadmitted 1 (by decide)).exec_refused (setRefusal_position (hstand hmode) b hw)

end Sys2Proof.Machine.SetWrite
end

