-- ==== Sys2Proof/Proofs/BreakTrips.lean ====
section
/-! PROOFS. The trips of a web break, at its onset and at an ENGAGE (R92, R94, R95): what the trips of the other
sections can do to a section before and after its own turn. Settles O10. -/

namespace Sys2Proof.Machine.BreakTrip

open ReportClose

variable {s t u : State} {i j : Fin 32} {r r₁ r₂ : TripRecord} {x y z : TripStatus} {c : BitVec 16}
  {cause : TripCause} {l : List (Fin 32)}

/-! ### What later trips do to a record (R91) -/

/-- R91: the first trip stands in the record, and every later cause that was entered is still there. -/
structure RecordKept (r₁ r₂ : TripRecord) : Prop where
  cause : r₂.cause = r₁.cause
  cycle : r₂.cycle = r₁.cycle
  speed : r₂.speed = r₁.speed
  later : ∀ n, r₁.later.getLsbD n = true → r₂.later.getLsbD n = true

theorem RecordKept.refl (r : TripRecord) : RecordKept r r := ⟨rfl, rfl, rfl, fun _ h => h⟩

theorem RecordKept.trans (h : RecordKept r r₁) (k : RecordKept r₁ r₂) : RecordKept r r₂ :=
  ⟨k.cause.trans h.cause, k.cycle.trans h.cycle, k.speed.trans h.speed, fun n hn => k.later n (h.later n hn)⟩

theorem addLater_kept (cause : TripCause) (r : TripRecord) : RecordKept r (r.addLater cause) := by
  unfold TripRecord.addLater
  split
  · exact .refl r
  · exact ⟨rfl, rfl, rfl, fun _ hn => setBit16_mono _ _ _ hn⟩

/-- R91: BREAK is in the record, as its first cause or among the later ones. -/
def HasBreak (r : TripRecord) : Prop := r.cause = .brk ∨ r.later.getLsbD 1 = true

theorem HasBreak.of_kept (h : HasBreak r₁) (k : RecordKept r₁ r₂) : HasBreak r₂ :=
  h.imp (fun hc => k.cause.trans hc) fun hl => k.later 1 hl

theorem hasBreak_addLater (r : TripRecord) : HasBreak (r.addLater .brk) := by
  unfold TripRecord.addLater
  split
  · next h => exact .inl h.symm
  · exact .inr (setBit16_self _ (by decide))

/-! ### What the trips of other sections do to a section (R90 part 2) -/

/-- What a section's latch and record can become in the trips of others: a TRIPPED one keeps its first trip, and a
CLEAR one is reached by PEER if at all. -/
structure Reached (c : BitVec 16) (x y : TripStatus) : Prop where
  kept : x.latch = true → y.latch = true ∧ ∀ r, x.record = some r → ∃ r', y.record = some r' ∧ RecordKept r r'
  peer : x.latch = false → y.latch = true → ∃ r, y.record = some r ∧ r.cause = .peer ∧ r.cycle = c

theorem Reached.refl (c : BitVec 16) (x : TripStatus) : Reached c x x where
  kept h := ⟨h, fun r hr => ⟨r, hr, .refl r⟩⟩
  peer h h' := by simp [h] at h'

theorem Reached.trans (h : Reached c x y) (k : Reached c y z) : Reached c x z where
  kept hx := by
    obtain ⟨hy, hxy⟩ := h.kept hx
    obtain ⟨hz, hyz⟩ := k.kept hy
    refine ⟨hz, fun r hr => ?_⟩
    obtain ⟨r₁, hr₁, h₁⟩ := hxy r hr
    obtain ⟨r₂, hr₂, h₂⟩ := hyz r₁ hr₁
    exact ⟨r₂, hr₂, h₁.trans h₂⟩
  peer hx hz := by
    cases hy : y.latch with
    | false => exact k.peer hy hz
    | true =>
      obtain ⟨r₁, hr₁, hcause, hcycle⟩ := h.peer hx hy
      obtain ⟨r₂, hr₂, h₂⟩ := (k.kept hy).2 r₁ hr₁
      exact ⟨r₂, hr₂, h₂.cause.trans hcause, h₂.cycle.trans hcycle⟩

/-- R91: a cause entered into the record of a TRIPPED section. -/
theorem Reached.withLater (c : BitVec 16) (cause : TripCause) (hx : x.latch = true) :
    Reached c x (withLater cause x) where
  kept h := ⟨h, fun r hr => ⟨r.addLater cause, by simp [ReportClose.withLater, hr], addLater_kept cause r⟩⟩
  peer h := by simp [hx] at h

/-- The relation of `Reached` for one section between two states, the last cycle number standing. -/
structure ReachedAt (i : Fin 32) (s t : State) : Prop where
  cycle : t.link.lastCycle = s.link.lastCycle
  reached : Reached s.link.lastCycle (s.tp i) (t.tp i)

theorem ReachedAt.refl (i : Fin 32) (s : State) : ReachedAt i s s := ⟨rfl, .refl ..⟩

theorem ReachedAt.trans (h : ReachedAt i s t) (k : ReachedAt i t u) : ReachedAt i s u :=
  ⟨k.cycle.trans h.cycle, h.reached.trans (h.cycle ▸ k.reached)⟩

theorem ReachedAt.of_tp (h : t.tp i = s.tp i) (hc : t.link.lastCycle = s.link.lastCycle) : ReachedAt i s t :=
  ⟨hc, h ▸ .refl ..⟩

theorem peerTrip_reachedAt (j i : Fin 32) (s : State) : ReachedAt i s (peerTrip j s) := by
  refine ⟨congrArg (·.lastCycle) ((peerTrip_frame j).same .link (by decide)), ?_⟩
  by_cases e : i = j
  · subst e
    unfold peerTrip
    split
    · next h =>
      rw [addLaterCause_tp, if_pos rfl]
      exact .withLater _ _ h
    · next h =>
      rw [latchTrip, setTp_tp, if_pos rfl]
      exact ⟨fun h' => absurd h' h, fun _ _ => ⟨_, rfl, rfl, rfl⟩⟩
  · rw [peerTrip_tp_other e]
    exact .refl ..

theorem forEach_peerTrip_reachedAt (l : List (Fin 32)) (i : Fin 32) (s : State) :
    ReachedAt i s (forEach l peerTrip s) := by
  induction l generalizing s with
  | nil => exact .refl i s
  | cons j l ih => exact (peerTrip_reachedAt j i s).trans (ih _)

theorem tripAction_lastCycle : (tripAction c cause j s).link.lastCycle = s.link.lastCycle :=
  congrArg (·.lastCycle) ((tripAction_frame c cause j).same .link (by decide))

/-- A trip of another section reaches a section as one of its peers, or not at all. -/
theorem reachedAt_closed (i : Fin 32) : ClosedTurn (· ≠ i) (ReachedAt i) where
  refl := .refl i
  trans := .trans
  setDeviation _ _ _ _ := .of_tp rfl rfl
  addLaterCause _ j s hj := .of_tp (by rw [addLaterCause_tp, if_neg (Ne.symm hj)]) rfl
  tripAction c cause j s hj _ := by
    have hlatch : ReachedAt i s (latchTrip cause j s) :=
      .of_tp (by rw [latchTrip, setTp_tp, if_neg (Ne.symm hj)]) rfl
    have hpeers := hlatch.trans (forEach_peerTrip_reachedAt (s.peersOf j) i _)
    exact ⟨tripAction_lastCycle, by rw [tripAction_tp]; exact hpeers.reached⟩

theorem tripAll_reachedAt (h : ∀ j ∈ l, j ≠ i) (s : State) : ReachedAt i s (tripAll c cause l s) :=
  (reachedAt_closed i).of_forEach (fun j hj t => (reachedAt_closed i).of_tripSection c cause (h j hj) t) s

/-! ### A break that takes a list of sections (R92, R94) -/

/-- R94: `t` is what a break leaves of a section it takes in `s`: one that was CLEAR has a record of this cycle with
first cause BREAK or PEER, one that was TRIPPED keeps its record, and either way BREAK is in it. -/
structure BrokenAt (i : Fin 32) (s t : State) : Prop where
  latch : t.tripped i = true
  clear : s.tripped i = false → ∃ r, (t.tp i).record = some r ∧ r.cycle = s.link.lastCycle ∧
    (r.cause = .brk ∨ r.cause = .peer) ∧ HasBreak r
  tripped : s.tripped i = true → ∀ r, (s.tp i).record = some r →
    ∃ r', (t.tp i).record = some r' ∧ RecordKept r r' ∧ HasBreak r'

/-- The section's own turn. -/
theorem tripSection_brokenAt (c : BitVec 16) (i : Fin 32) (s : State) : BrokenAt i s (tripSection c .brk i s) := by
  unfold tripSection
  split
  · next h =>
    have htp : (addLaterCause .brk i s).tp i = withLater .brk (s.tp i) := by rw [addLaterCause_tp, if_pos rfl]
    exact { latch := by rw [State.tripped, htp]; exact h
            clear := fun hc => by simp [hc] at h
            tripped := fun _ r hr => ⟨r.addLater .brk, by rw [htp, withLater, hr]; rfl, addLater_kept .brk r,
              hasBreak_addLater r⟩ }
  · next h =>
    have htp := tripAction_own (s := s) c .brk i
    exact { latch := tripAction_tripped_self c .brk
            clear := fun _ => ⟨_, congrArg (·.record) htp, rfl, .inl rfl, .inl rfl⟩
            tripped := fun ht => absurd ht h }

/-- What the other sections' trips do before the section's own turn. -/
theorem BrokenAt.of_before (h : ReachedAt i s t) (k : BrokenAt i t u) : BrokenAt i s u where
  latch := k.latch
  clear hc := by
    cases ht : t.tripped i with
    | false =>
      obtain ⟨r, hr, hcycle, hfirst⟩ := k.clear ht
      exact ⟨r, hr, hcycle.trans h.cycle, hfirst⟩
    | true =>
      obtain ⟨r, hr, hcause, hcycle⟩ := h.reached.peer hc ht
      obtain ⟨r', hr', hkept, hbreak⟩ := k.tripped ht r hr
      exact ⟨r', hr', hkept.cycle.trans hcycle, .inr (hkept.cause.trans hcause), hbreak⟩
  tripped hs r hr := by
    obtain ⟨ht, hst⟩ := h.reached.kept hs
    obtain ⟨r₁, hr₁, h₁⟩ := hst r hr
    obtain ⟨r₂, hr₂, h₂, hbreak⟩ := k.tripped ht r₁ hr₁
    exact ⟨r₂, hr₂, h₁.trans h₂, hbreak⟩

/-- What they do after it. -/
theorem BrokenAt.of_after (h : BrokenAt i s t) (k : ReachedAt i t u) : BrokenAt i s u := by
  obtain ⟨hlatch, hkept⟩ := k.reached.kept h.latch
  refine ⟨hlatch, fun hc => ?_, fun hs r hr => ?_⟩
  · obtain ⟨r, hr, hcycle, hfirst, hbreak⟩ := h.clear hc
    obtain ⟨r', hr', hrr⟩ := hkept r hr
    exact ⟨r', hr', hrr.cycle.trans hcycle, hfirst.imp hrr.cause.trans hrr.cause.trans, hbreak.of_kept hrr⟩
  · obtain ⟨r₁, hr₁, h₁, hbreak⟩ := h.tripped hs r hr
    obtain ⟨r₂, hr₂, h₂⟩ := hkept r₁ hr₁
    exact ⟨r₂, hr₂, h₁.trans h₂, hbreak.of_kept h₂⟩

/-- R92, R94: a break takes every section of the list, each once. -/
theorem tripAll_brokenAt (c : BitVec 16) (hn : l.Nodup) (hi : i ∈ l) (s : State) :
    BrokenAt i s (tripAll c .brk l s) := by
  obtain ⟨l₁, l₂, rfl⟩ := List.append_of_mem hi
  obtain ⟨-, hn₂, hdisj⟩ := List.nodup_append.1 hn
  have hbefore : ∀ j ∈ l₁, j ≠ i := fun j hj => hdisj j hj i (List.mem_cons_self ..)
  have hafter : ∀ j ∈ l₂, j ≠ i := fun j hj e => (List.nodup_cons.1 hn₂).1 (e ▸ hj)
  have hsplit : tripAll c .brk (l₁ ++ i :: l₂) s =
      tripAll c .brk l₂ (tripSection c .brk i (tripAll c .brk l₁ s)) := by
    simp only [tripAll, forEach, List.foldl_append, List.foldl_cons]
  rw [hsplit]
  exact (BrokenAt.of_before (tripAll_reachedAt hbefore s) (tripSection_brokenAt c i _)).of_after
    (tripAll_reachedAt hafter _)

/-- R90: a trip that takes some sections, all CLEAR, raises TRIP. -/
theorem tripAll_flag (c : BitVec 16) (cause : TripCause) (hi : i ∈ l) (hc : ∀ j ∈ l, s.tripped j = false) :
    (tripAll c cause l s).flag .trip = true := by
  cases l with
  | nil => simp at hi
  | cons j l =>
    have hfirst : tripSection c cause j s = tripAction c cause j s :=
      if_neg (by simp [hc j (List.mem_cons_self ..)])
    rw [tripAll_cons, hfirst]
    exact flags_closed.toTrip.toClosedRunTrip.tripAll c cause l .trip (tripAction_flag ..)

/-- R93: no trip changes the web-break filter. -/
theorem tripAll_wbrk (c : BitVec 16) (cause : TripCause) (l : List (Fin 32)) (s : State) :
    (tripAll c cause l s).trips.wbrk = s.trips.wbrk := wbrk_closed.toTrip.toClosedRunTrip.tripAll c cause l

/-! ### The two commands -/

theorem mem_breakSections : i ∈ s.breakSections ↔
    ((s.settings i).valid = true ∧ (s.settings i).mode = .active) ∧ (s.settings i).breakResponse = true := by
  simp [State.breakSections, State.validActive, sections]

theorem breakSections_nodup (s : State) : s.breakSections.Nodup := (List.nodup_finRange 32).filter _

/-- R93: the web-break state takes its raw level. -/
def settledWbrk (s : State) : State :=
  setWbrk s.trips.wbrk.settle (advanceTo (s.trips.wbrk.changedAt + wbrkInterval) s)

/-- R94: an onset while ENGAGED takes the sections with break response. -/
theorem exec_breakOnset (hreset : s.control.resetHeld = false) (hraw : s.trips.wbrk.raw = true)
    (hfiltered : s.trips.wbrk.filtered = false) (hmode : s.control.mode = .engaged) :
    exec .breakOnset s = .next (tripAll s.link.lastCycle .brk s.breakSections (settledWbrk s)) := by
  have hmoving : (s.wbrkMoving && s.trips.wbrk.raw) = true := by simp [State.wbrkMoving, hreset, hraw, hfiltered]
  have htrips : ((settledWbrk s).trips.wbrk.filtered && (settledWbrk s).engaged) = true := by
    have hf : (settledWbrk s).trips.wbrk.filtered = s.trips.wbrk.raw := rfl
    have he : (settledWbrk s).engaged = s.engaged := rfl
    rw [hf, he, hraw, State.engaged, hmode]
    rfl
  have hexec : exec .breakOnset s = .next (if s.wbrkMoving && s.trips.wbrk.raw then settleWbrk s else s) := rfl
  rw [hexec, if_pos hmoving]
  exact congrArg Host.Outcome.next (if_pos htrips)

/-- R189: the engage but for the break trips that end it. -/
def engagedState (s : State) : State :=
  setTripLine (zeroCounts (resetShare true (zeroTrims true (setMode .engaged s))))

theorem engageRefusal_none (hmode : s.control.mode ≠ .engaged) (hkey : s.control.key.filtered = true)
    (htimer : s.link.timer ≠ .expired) (hclear : ∀ i, s.tripped i = false) : s.engageRefusal = none := by
  simp [State.engageRefusal, State.engaged, State.keyOn, State.timerExpired, hmode, hkey, htimer, hclear]

/-- R95, R188, R189: an accepted ENGAGE with the web-break line asserted takes the sections with break response. -/
theorem exec_engage_break {tag : BitVec 8} (hs : s.canServe) (hacc : s.engageRefusal = none)
    (hclear : ∀ i, s.tripped i = false) (hbreak : s.trips.wbrk.filtered = true) :
    exec (.engage tag) s = .next
      ((tripAll s.link.lastCycle .brk s.breakSections (engagedState s)).answered (plainAnswer tag 3 .ok)) := by
  have hreq : ∀ c, engageRequest c s = (engageBridge c s, Reply.only .ok) := fun c => by
    unfold engageRequest
    rw [hacc]
  have htrips : ∀ c, engageBridge c s = tripAll c .brk s.breakSections (engagedState s) := fun c => by
    have hall : ((engagedState s).breakSections.filter fun i => !(engagedState s).tripped i) = s.breakSections :=
      List.filter_eq_self.2 fun i _ => congrArg (!·) (hclear i)
    exact (if_pos hbreak).trans (congrArg (tripAll c .brk · (engagedState s)) hall)
  have hexec : exec (.engage tag) s = .next (serve tag 3 (engageRequest s.link.lastCycle) s) := rfl
  rw [hexec, SetWrite.serve_of_canServe hs, hreq, htrips]
  rfl

/-! ### O10 -/

/-- Settles O10: the sections are taken in index order, and each is found in the list with the trips before and after
its own turn. -/
theorem breakTrips : Obligations.BreakTrips := by
  refine ⟨fun s hreset hraw hfiltered hmode => ?onset,
    fun tag s hs hmode hkey htimer hclear hbreak => ?engage⟩
  case onset =>
    refine ⟨_, exec_breakOnset hreset hraw hfiltered hmode, ?_,
      (tripAll_frame ..).same .control (by decide), fun i hvalid hactive hresponse => ?_⟩
    · rw [tripAll_wbrk]
      exact hraw
    · have h := tripAll_brokenAt s.link.lastCycle (breakSections_nodup s)
        (mem_breakSections.2 ⟨⟨hvalid, hactive⟩, hresponse⟩) (settledWbrk s)
      refine ⟨h.latch, fun hc => ?_, fun ht x hx => ?_⟩
      · obtain ⟨r, hr, hcycle, hfirst, hin⟩ := h.clear hc
        refine ⟨r, hr, hcycle, hfirst.imp_right fun hpeer => ⟨hpeer, hin.resolve_left ?_⟩⟩
        rw [hpeer]
        decide
      · obtain ⟨y, hy, hkept, hin⟩ := h.tripped ht x hx
        exact ⟨y, hy, hkept.cause, hkept.cycle, hkept.speed, hin.imp_left hkept.cause.symm.trans⟩
  case engage =>
    refine ⟨_, exec_engage_break hs (engageRefusal_none hmode hkey htimer hclear) hclear hbreak, ?_, rfl,
      fun i hvalid hactive hresponse => ?_⟩
    · exact congrArg (·.mode) ((tripAll_frame ..).same .control (by decide))
    · have hi := mem_breakSections.2 ⟨⟨hvalid, hactive⟩, hresponse⟩
      exact ⟨(tripAll_brokenAt _ (breakSections_nodup s) hi (engagedState s)).latch,
        tripAll_flag _ .brk hi fun j _ => hclear j⟩

end Sys2Proof.Machine.BreakTrip
end

