-- ==== Sys2Proof/Proofs/Release.lean ====
section
/-! PROOFS. RELEASE (R103 to R108): the checks of the covered sections in their order, what the release writes, and the
level rules that follow it (R95, R96). Settles O49. -/

namespace Sys2Proof.Machine.ReleaseRequest

open ReportClose

variable {s t u : State} {i j : Fin 32} {k : Fin 8} {is before rest : List (Fin 32)} {tag : BitVec 8}
  {sect : BitVec 16} {x r : TripRecord} {c : BitVec 16} {cause : TripCause} {code : AnswerCode}

/-! ### The checks (R104, R105) -/

theorem mem_all (cause : TripCause) : cause ∈ TripCause.all := by cases cause <;> decide

/-- R104: PEER is never present, so the check is of the other causes in the record. -/
theorem causeFails_iff : s.causeFails j = true ↔ ∃ x cause, (s.tp j).record = some x ∧ cause ≠ .peer ∧
    (x.cause = cause ∨ x.later.getLsbD cause.code = true) ∧ s.causePresent j cause = true := by
  have hpeer : ∀ cause, s.causePresent j cause = true → cause ≠ .peer := by
    rintro _ h rfl
    cases h
  unfold State.causeFails
  split
  · next h => simp [h]
  · next x h =>
    simp only [Bool.or_eq_true, List.any_eq_true, Bool.and_eq_true, h]
    constructor
    · rintro (hp | ⟨cause, -, hl, hp⟩)
      · exact ⟨x, _, rfl, hpeer _ hp, .inl rfl, hp⟩
      · exact ⟨x, _, rfl, hpeer _ hp, .inr hl, hp⟩
    · rintro ⟨_, cause, ⟨⟩, -, rfl | hl, hp⟩
      · exact .inl hp
      · exact .inr ⟨cause, mem_all cause, hl, hp⟩

theorem gapFails_iff : s.gapFails j = true ↔
    ((s.settings j).cutoff = .hold ∨ (s.settings j).cutoff = .stop) ∧ (s.rw j).lastOut ≠ none ∧
      ((s.settings j).trimLimit.toNat : Int) < |s.releaseGap j| := by
  simp [State.gapFails, mag_eq_abs, and_assoc, Option.isSome_iff_ne_none]

theorem releaseGap_of_lastOut {o : RefFields} (ho : (s.rw i).lastOut = some o) :
    s.releaseGap i = o.speed.toInt - (s.rw i).lastIn.speed.toInt := by
  rw [State.releaseGap, ho]

theorem engaged_iff : s.engaged = true ↔ s.control.mode = .engaged := by simp [State.engaged]

/-- R103 check 4 for one covered section. -/
def checkOf (s : State) (j : Fin 32) : Option AnswerCode :=
  if s.causeFails j then some .cause else if s.engaged && s.gapFails j then some .gap else none

/-- R103: the sections are checked in member order, and the first failure is the answer. -/
theorem releaseRefusal_eq : s.releaseRefusal i = (s.covered i).findSome? (checkOf s) := rfl

theorem checkOf_cause (h : s.causeFails j = true) : checkOf s j = some .cause := if_pos h

theorem checkOf_gap (h : ¬ s.causeFails j = true) (he : s.control.mode = .engaged) (hg : s.gapFails j = true) :
    checkOf s j = some .gap := (if_neg h).trans (if_pos (by rw [engaged_iff.2 he, hg]; rfl))

theorem checkOf_none (h : ¬ s.causeFails j = true) (hg : ¬ (s.control.mode = .engaged ∧ s.gapFails j = true)) :
    checkOf s j = none :=
  (if_neg h).trans (if_neg (by rwa [Bool.and_eq_true, engaged_iff]))

/-- R103: the sections before the failing one pass. -/
theorem releaseRefusal_first (hcov : s.covered i = before ++ j :: rest) (hpass : ∀ m ∈ before, checkOf s m = none)
    (hj : checkOf s j = some code) : s.releaseRefusal i = some code := by
  rw [releaseRefusal_eq, hcov, List.findSome?_append, List.findSome?_eq_none_iff.2 hpass, Option.none_or,
    List.findSome?_cons, hj]

theorem releaseRefusal_none (hpass : ∀ m ∈ s.covered i, checkOf s m = none) : s.releaseRefusal i = none :=
  List.findSome?_eq_none_iff.2 hpass

theorem covered_alone (h : Alone i s) : s.covered i = [i] := by rw [State.covered, h.setOf]

/-- R66: a member's set, when no section is in two valid sets. -/
theorem setOf_of_member (hok : TripsOk s) (hv : (s.share.sets.get k).valid = true)
    (hi : i ∈ (s.share.sets.get k).memberList) : s.setOf i = some k := by
  obtain ⟨-, hone, -, -⟩ := hok
  cases h : s.setOf i with
  | none => simpa [hv, hi] using List.find?_eq_none.1 h k (List.mem_finRange k)
  | some l =>
    obtain ⟨hl, hil⟩ := setOf_some h
    rw [hone l k i hl hv hil hi]

theorem covered_member (h : s.setOf i = some k) : s.covered i = (s.share.sets.get k).memberList := by
  rw [State.covered, h]

/-! ### The request (R103) -/

theorem exec_release (hs : s.canServe) : exec (.release tag sect) s =
    .next ((releaseRequest s.link.lastCycle sect s).1.answered
      (SetWrite.answerOf tag 8 (releaseRequest s.link.lastCycle sect s).2)) :=
  congrArg Host.Outcome.next (SetWrite.serve_of_canServe hs ..)

/-- R166: a refused RELEASE changes nothing but the answer slot. -/
theorem exec_of_refused (hs : s.canServe) (h : ∀ c, releaseRequest c sect s = refuse code s) :
    exec (.release tag sect) s = .next (s.answered (plainAnswer tag 8 code)) := by
  rw [exec_release hs, h]
  rfl

theorem releaseRequest_badValue (h : 32 ≤ sect.toNat) : releaseRequest c sect s = refuse .badValue s := by
  rw [releaseRequest, index?_none.2 h]

section
variable (hi : sect.toNat = i.val)
include hi

theorem releaseRequest_noEntry (hv : (s.settings i).valid = false) :
    releaseRequest c sect s = refuse .noEntry s := by
  rw [releaseRequest, index?_some.2 hi.symm]
  simp [hv]

theorem releaseRequest_notTripped (hv : (s.settings i).valid = true) (ht : s.tripped i = false) :
    releaseRequest c sect s = refuse .notTripped s := by
  rw [releaseRequest, index?_some.2 hi.symm]
  simp [hv, ht]

variable (hs : s.canServe) (hv : (s.settings i).valid = true) (ht : s.tripped i = true)
include hs hv ht

theorem exec_release_refused (h : s.releaseRefusal i = some code) :
    exec (.release tag sect) s = .next (s.answered (plainAnswer tag 8 code)) :=
  exec_of_refused hs fun _ => by
    rw [releaseRequest, index?_some.2 hi.symm]
    simp [hv, ht, h]

theorem exec_release_accepted (h : s.releaseRefusal i = none) :
    exec (.release tag sect) s =
      .next ((releaseAll s.link.lastCycle (s.covered i) s).answered (plainAnswer tag 8 .ok)) := by
  have hreq : releaseRequest s.link.lastCycle sect s =
      (releaseAll s.link.lastCycle (s.covered i) s, Reply.only .ok) := by
    rw [releaseRequest, index?_some.2 hi.symm]
    simp [hv, ht, h]
  rw [exec_release hs, hreq]
  rfl

end

/-! ### What the release of a section writes (R106, R107) -/

theorem releaseOne_trips : (releaseOne i s).trips =
    { s.trips with sec := s.trips.sec.set i { s.tp i with latch := false } } := by
  unfold releaseOne
  dsimp only
  split <;> rfl

theorem releaseOne_share : (releaseOne i s).share =
    { s.share with sec := s.share.sec.set i { trim := 0, imbalance := 0 } } := by
  unfold releaseOne
  dsimp only
  split <;> rfl

theorem releaseOne_banks : (releaseOne i s).banks =
    { s.banks with cnt := s.banks.cnt.set i { s.counts i with deviation := 0 } } := by
  unfold releaseOne
  dsimp only
  split <;> rfl

/-- R22, R107: while ENGAGED T becomes the seed, and the mark is set. -/
theorem releaseOne_rewriter : (releaseOne i s).rewriter = if s.engaged then
    { s.rewriter with sec := s.rewriter.sec.set i { s.rw i with trim := s32 (s.seed i), mark := true } }
    else s.rewriter := by
  unfold releaseOne
  dsimp only
  split <;> rfl

/-- What a release reads and writes of one section, with the mode it is made in. -/
structure ReleaseRow where
  mode : Mode
  settings : SectionSettings
  trip : TripStatus
  rewrite : RewriteStatus
  share : ShareStatus
  counts : FeedbackCounts

/-- The row of a section. -/
def releaseRow (j : Fin 32) (s : State) : ReleaseRow :=
  { mode := s.control.mode, settings := s.settings j, trip := s.tp j, rewrite := s.rw j, share := s.sh j
    counts := s.counts j }

/-- R107: the difference of the committed last output and the last inbound speed. -/
def gapOf (x : RewriteStatus) : Int :=
  match x.lastOut with
  | none => 0
  | some o => o.speed.toInt - x.lastIn.speed.toInt

/-- R107: the seed, between the trim limit and its negative, and 0 for a PASS section. -/
def seedOf (r : SectionSettings) (x : RewriteStatus) : Int :=
  if r.mode = .pass then 0 else max (-(r.trimLimit.toNat : Int)) (min r.trimLimit.toNat (gapOf x))

theorem seed_eq (i : Fin 32) (s : State) : s.seed i = seedOf (s.settings i) (s.rw i) := by
  unfold State.seed seedOf
  rw [clampInt_eq_max_min (by omega)]
  rfl

/-- R106, R107: the row of a released section. -/
def ReleaseRow.released (x : ReleaseRow) : ReleaseRow :=
  { x with
    trip := { x.trip with latch := false }
    share := { trim := 0, imbalance := 0 }
    counts := { x.counts with deviation := 0 }
    rewrite := if x.mode = .engaged then
        { x.rewrite with trim := s32 (seedOf x.settings x.rewrite), mark := true }
      else x.rewrite }

theorem ReleaseRow.released_released (x : ReleaseRow) : x.released.released = x.released := by
  by_cases h : x.mode = .engaged <;> simp [ReleaseRow.released, h, seedOf, gapOf]

theorem releaseOne_row : releaseRow j (releaseOne i s) =
    if j = i then (releaseRow j s).released else releaseRow j s := by
  have hcontrol : (releaseOne i s).control = s.control := (releaseOne_frame i).same .control (by decide)
  have hsettings := settings_of_frame (releaseOne_frame (s := s) i) (by decide) j
  simp only [releaseRow, hcontrol, hsettings, State.tp, State.rw, State.sh, State.counts, releaseOne_trips,
    releaseOne_share, releaseOne_banks, releaseOne_rewriter, engaged_iff, seed_eq, Table.get_set]
  by_cases e : j = i
  · subst e
    by_cases he : s.control.mode = .engaged <;> simp [he, ReleaseRow.released]
  · by_cases he : s.control.mode = .engaged <;> simp [he, e, Table.get_set]

/-- R106: the covered sections released, and the trip line set from what is left. -/
def releasedState (is : List (Fin 32)) (s : State) : State := setTripLine (forEach is releaseOne s)

theorem releasedState_frame (is : List (Fin 32)) (s : State) :
    SameExcept [.rewriter, .banks, .share, .trips] s (releasedState is s) :=
  (SameExcept.forEach (fun _ _ => releaseOne_frame _) is).step setTripLine_frame

theorem releasedState_control (is : List (Fin 32)) (s : State) : (releasedState is s).control = s.control :=
  (releasedState_frame is s).same .control (by decide)

theorem releasedState_row (is : List (Fin 32)) (s : State) (j : Fin 32) : releaseRow j (releasedState is s) =
    if j ∈ is then (releaseRow j s).released else releaseRow j s :=
  forEach_at (releaseRow j) ReleaseRow.released ReleaseRow.released_released (fun _ _ => releaseOne_row) is s

theorem releasedState_wbrk (is : List (Fin 32)) (s : State) :
    (releasedState is s).trips.wbrk = s.trips.wbrk :=
  forEach_same (f := releaseOne) (·.trips.wbrk) (fun _ _ => by rw [releaseOne_trips]) is s

theorem releasedState_sets (is : List (Fin 32)) (s : State) :
    (releasedState is s).share.sets = s.share.sets :=
  forEach_same (f := releaseOne) (·.share.sets) (fun _ _ => by rw [releaseOne_share]) is s

theorem releasedState_stat (is : List (Fin 32)) (s : State) :
    (releasedState is s).share.stat = s.share.stat :=
  forEach_same (f := releaseOne) (·.share.stat) (fun _ _ => by rw [releaseOne_share]) is s

/-- R102: the trip line as it is set from its inputs. -/
theorem setTripLine_line : (setTripLine s).trips.line = true ↔
    s.control.mode = .engaged ∧ ∃ i, s.tripped i = true ∧ (s.settings i).cutoff ≠ .ignore := by
  simp [setTripLine, State.lineLevel, sections, State.engaged]

theorem setTripLine_ok (s : State) : TripLineOk (setTripLine s) := setTripLine_line

theorem releasedState_line (is : List (Fin 32)) (s : State) : TripLineOk (releasedState is s) := setTripLine_ok _

/-! ### The level rules after a release (R95, R96) -/

/-- No level rule follows: the bridge is not ENGAGED, or neither condition stands. -/
def Unruled (s : State) : Prop :=
  s.control.mode = .standby ∨ (s.trips.wbrk.filtered = false ∧ s.link.timer ≠ .expired)

theorem levelTrips_of_unruled (h : Unruled s) (brk lnk : List (Fin 32)) : levelTrips c brk lnk s = s := by
  have hb : (s.engaged && s.trips.wbrk.filtered) = false := by
    rcases h with h | ⟨h, -⟩ <;> simp [State.engaged, h]
  have hl : (s.engaged && s.timerExpired) = false := by
    rcases h with h | ⟨-, h⟩ <;> simp [State.engaged, State.timerExpired, h]
  simp only [levelTrips, hb, hl, Bool.false_eq_true, if_false, if_true]
  rfl

theorem releaseAll_of_unruled (h : Unruled s) (is : List (Fin 32)) : releaseAll c is s = releasedState is s := by
  refine levelTrips_of_unruled ?_ ..
  have hf := releasedState_frame is s
  refine h.imp (congrArg (·.mode) (releasedState_control is s)).trans fun ⟨hb, hl⟩ => ⟨?_, ?_⟩
  · exact (congrArg (·.filtered) (releasedState_wbrk is s)).trans hb
  · exact fun e => hl ((congrArg (·.timer) (hf.same .link (by decide))).symm.trans e)

/-- R90, R91: `t` is what trips of section `i`, in no valid set, leave of `s` with the record `r`. -/
structure LoneTrip (i : Fin 32) (r : TripRecord) (s t : State) : Prop where
  own : t.tp i = { latch := true, record := some r }
  others : ∀ j, j ≠ i → t.tp j = s.tp j
  row : row i t = (row i s).cut
  flag : t.flag .trip = true
  line : (s.settings i).cutoff ≠ .ignore → t.trips.line = true
  control : t.control = s.control
  table : t.table = s.table

/-- R89: the record of a section's first trip. -/
def firstRecord (cause : TripCause) (i : Fin 32) (s : State) : TripRecord :=
  { cause := cause, cycle := s.link.lastCycle, speed := (s.rw i).lastOut.map (·.speed), later := 0 }

/-- R102: a trip action ends with the trip line set from its inputs. -/
theorem tripAction_line (he : s.control.mode = .engaged) (hc : (s.settings i).cutoff ≠ .ignore) :
    (tripAction c cause i s).trips.line = true := by
  have hframe := tripAction_frame (s := s) c cause i
  have hline : TripLineOk (tripAction c cause i s) := setTripLine_ok _
  exact hline.2 ⟨(congrArg (·.mode) (hframe.same .control (by decide))).trans he, i,
    tripAction_tripped_self c cause, by rwa [settings_of_frame hframe (by decide)]⟩

theorem loneTrip_first (c : BitVec 16) (cause : TripCause) (he : s.control.mode = .engaged) (ha : Alone i s)
    (hc : s.tripped i = false) : LoneTrip i (firstRecord cause i s) s (tripSection c cause i s) := by
  have hframe := tripAction_frame (s := s) c cause i
  have hnone : s.peersOf i = [] := by rw [State.peersOf, ha.setOf]
  rw [tripSection, if_neg (by simp [hc])]
  exact { own := tripAction_own ..
          others := fun j hj => tripAction_other c cause hj (by simp [hnone])
          row := by rw [tripAction_row, movedBy_of_no_set ha.setOf, if_pos (List.mem_singleton_self i)]
          flag := tripAction_flag ..
          line := tripAction_line he
          control := hframe.same .control (by decide)
          table := hframe.same .table (by decide) }

/-- R91: a second cause reaches the section that has just tripped. -/
theorem LoneTrip.later (h : LoneTrip i r s t) (c : BitVec 16) (hne : cause ≠ r.cause) :
    LoneTrip i { r with later := setBit16 r.later cause.code } s (tripSection c cause i t) := by
  have hadd : r.addLater cause = { r with later := setBit16 r.later cause.code } := if_neg hne
  rw [← hadd, tripSection_later c cause i (by rw [State.tripped, h.own])]
  exact { own := by rw [addLaterCause_tp, if_pos rfl, h.own]; rfl
          others := fun j hj => by rw [addLaterCause_tp, if_neg hj, h.others j hj]
          row := h.row
          flag := h.flag
          line := h.line
          control := h.control
          table := h.table }

/-- R95, R96: the record that the level rules give a section, by which of them reach it. -/
def LevelRecord (brk lnk : Prop) (r : TripRecord) : Prop :=
  (brk ∧ r.cause = .brk ∧ ((lnk ∧ r.later = 0x0004) ∨ (¬ lnk ∧ r.later = 0))) ∨
    (lnk ∧ r.cause = .link ∧ ((brk ∧ r.later = 0x0002) ∨ (¬ brk ∧ r.later = 0)))

theorem setBit16_link : setBit16 0 TripCause.link.code = 0x0004 := by decide

theorem setBit16_brk : setBit16 0 TripCause.brk.code = 0x0002 := by decide

/-- R92, R95, R96: the level rules take a CLEAR section in no valid set, with both causes in the order of the open
choice (log 8) when both conditions stand. -/
theorem levelTrips_lone {p : Bool} {brk lnk : Prop} [Decidable brk] [Decidable lnk]
    (he : s.control.mode = .engaged) (ha : Alone i s)
    (hc : s.tripped i = false) (hbrk : brk ↔ s.trips.wbrk.filtered = true ∧ p = true)
    (hlnk : lnk ↔ s.link.timer = .expired) (hany : brk ∨ lnk) :
    ∃ r, LoneTrip i r s (levelTrips c (if p then [i] else []) [i] s) ∧ LevelRecord brk lnk r ∧
      r.cycle = s.link.lastCycle ∧ r.speed = (s.rw i).lastOut.map (·.speed) := by
  have hfirst := fun cause => loneTrip_first c cause he ha hc
  have hchosen : ∀ cause, LoneTrip i (firstRecord cause i s) s (tripSection c cause i (takeChoice s).2) := fun cause =>
    have h := loneTrip_first (s := (takeChoice s).2) c cause he ha hc
    ⟨h.own, h.others, h.row, h.flag, h.line, h.control, h.table⟩
  have hb : (if s.engaged && s.trips.wbrk.filtered then (if p then [i] else []) else []) =
      if brk then [i] else [] := by
    rw [engaged_iff.2 he]
    by_cases hf : s.trips.wbrk.filtered = true <;> by_cases hp : p = true <;> simp [hbrk, hf, hp]
  have hl : (if s.engaged && s.timerExpired then [i] else []) = if lnk then [i] else [] := by
    rw [engaged_iff.2 he]
    simp [hlnk, State.timerExpired]
  unfold levelTrips
  rw [hb, hl]
  by_cases hB : brk <;> by_cases hL : lnk
  · rw [if_pos hB, if_pos hL]
    dsimp only
    rw [if_neg (List.cons_ne_nil i []), if_neg (List.cons_ne_nil i [])]
    split
    · exact ⟨_, (hchosen .brk).later (cause := .link) c (by simp [firstRecord]),
        .inl ⟨hB, rfl, .inl ⟨hL, setBit16_link⟩⟩, rfl, rfl⟩
    · exact ⟨_, (hchosen .link).later (cause := .brk) c (by simp [firstRecord]),
        .inr ⟨hL, rfl, .inl ⟨hB, setBit16_brk⟩⟩, rfl, rfl⟩
  · rw [if_pos hB, if_neg hL]
    exact ⟨_, hfirst .brk, .inl ⟨hB, rfl, .inr ⟨hL, rfl⟩⟩, rfl, rfl⟩
  · rw [if_neg hB, if_pos hL]
    exact ⟨_, hfirst .link, .inr ⟨hL, rfl, .inr ⟨hB, rfl⟩⟩, rfl, rfl⟩
  · exact absurd hany (not_or.2 ⟨hB, hL⟩)

/-- The level rules' sections after the release of one. -/
theorem filter_one (p : Fin 32 → Bool) (i : Fin 32) :
    (sections.filter fun j => decide (j ∈ [i]) && p j) = if p i then [i] else [] := by
  have h : (sections.filter fun j => decide (j ∈ [i])) = [i] := by
    simp only [List.mem_singleton]
    rw [sections, List.filter_eq, List.count_eq_one_of_mem (List.nodup_finRange 32) (List.mem_finRange i)]
    rfl
  have hand : (sections.filter fun j => decide (j ∈ [i]) && p j) =
      (sections.filter fun j => decide (j ∈ [i])).filter p := by
    rw [List.filter_filter]
    exact List.filter_congr fun _ _ => Bool.and_comm ..
  rw [hand, h, List.filter_singleton]
  cases p i <;> rfl

/-- R95, R96, R106: a section in no valid set that is ACTIVE is CLEAR after its release, and the level rules whose
conditions stand trip it again at once. -/
theorem releaseAll_levelTripped {brk lnk : Prop} (he : s.control.mode = .engaged)
    (hv : (s.settings i).valid = true) (hact : (s.settings i).mode = .active) (ha : Alone i s)
    (hbrk : brk ↔ s.trips.wbrk.filtered = true ∧ (s.settings i).breakResponse = true)
    (hlnk : lnk ↔ s.link.timer = .expired) (hany : brk ∨ lnk) :
    let t := releaseAll s.link.lastCycle [i] s
    t.control = s.control ∧ t.table = s.table ∧ (∀ j, j ≠ i → t.tp j = s.tp j) ∧
      LevelTripped brk lnk i s.link.lastCycle ((s.rw i).lastOut.map (·.speed)) t := by
  classical
  have hframe := releasedState_frame [i] s
  have hlink : (releasedState [i] s).link = s.link := hframe.same .link (by decide)
  have hrow := releasedState_row [i] s
  have hown : releaseRow i (releasedState [i] s) = (releaseRow i s).released :=
    (hrow i).trans (if_pos (List.mem_singleton_self i))
  have hset : (releasedState [i] s).settings i = s.settings i := settings_of_frame hframe (by decide) i
  have hclear : (releasedState [i] s).tripped i = false := congrArg (·.trip.latch) hown
  have hlastOut : ((releasedState [i] s).rw i).lastOut = (s.rw i).lastOut := by
    refine (congrArg (·.rewrite.lastOut) hown).trans ?_
    simp only [ReleaseRow.released]
    split <;> rfl
  have hlinkReady : (releasedState [i] s).linkReady i = true := by
    simp [State.linkReady, State.validActive, hset, hv, hact, hclear]
  have hbreakReady : (releasedState [i] s).breakReady i = (s.settings i).breakResponse := by
    rw [State.breakReady, hlinkReady, hset, Bool.true_and]
  obtain ⟨r, h, hr, hcycle, hspeed⟩ := levelTrips_lone (c := s.link.lastCycle) (p := (s.settings i).breakResponse)
    (by rw [releasedState_control, he]) (ha.of_sets (releasedState_sets ..)) hclear
    (by rwa [releasedState_wbrk]) (by rwa [hlink]) hany
  have hrel : releaseAll s.link.lastCycle [i] s =
      levelTrips s.link.lastCycle (if (s.settings i).breakResponse then [i] else []) [i] (releasedState [i] s) := by
    unfold releaseAll
    dsimp only
    rw [← releasedState, filter_one, filter_one, hbreakReady, hlinkReady, if_pos rfl]
  dsimp only
  rw [hrel]
  refine ⟨h.control.trans (releasedState_control ..), h.table.trans (hframe.same .table (by decide)),
    fun j hj => ?_, ?_⟩
  · rw [h.others j hj]
    exact congrArg (·.trip) ((hrow j).trans (if_neg (by simpa using hj)))
  · exact { latch := congrArg (·.latch) h.own
            record := ⟨r, congrArg (·.record) h.own, hcycle.trans (by rw [hlink]), hspeed.trans (by rw [hlastOut]), hr⟩
            event := h.flag
            counts := ⟨congrArg (·.counts.deviation) h.row, congrArg (·.share.imbalance) h.row⟩
            cut := fun hc => by
              have hc' : ((releasedState [i] s).settings i).cutoff ≠ .ignore := by
                rwa [State.settings, h.table] at hc
              obtain ⟨hcut, -⟩ := cutBackAt_of_row h.row
              obtain ⟨htrim, hmark, hshare⟩ := hcut hc'
              exact ⟨htrim, hmark, hshare, h.line hc'⟩ }

/-! ### A section in no valid set (R103 to R108) -/

theorem not_causeFails_of_record (hx : (s.tp i).record = some x)
    (h : ∀ cause, cause ≠ .peer → (x.cause = cause ∨ x.later.getLsbD cause.code = true) →
      s.causePresent i cause = false) : ¬ s.causeFails i = true := by
  rw [causeFails_iff]
  rintro ⟨y, cause, hy, hpeer, hin, hp⟩
  rw [hx, Option.some.injEq] at hy
  subst hy
  rw [h cause hpeer hin] at hp
  cases hp

/-- R103 check 4 of a section in no valid set is the check of the section itself. -/
theorem releaseRefusal_alone (ha : Alone i s) : s.releaseRefusal i = checkOf s i := by
  rw [releaseRefusal_eq, covered_alone ha, List.findSome?_singleton]

/-- R106: what the release of one section writes outside the rewriter and the trip line. -/
structure LoneRelease (i : Fin 32) (x : TripRecord) (s t : State) : Prop where
  latches : t.trips.sec = s.trips.sec.set i { latch := false, record := some x }
  wbrk : t.trips.wbrk = s.trips.wbrk
  share : t.share = { s.share with sec := s.share.sec.set i { trim := 0, imbalance := 0 } }
  banks : t.banks = { s.banks with cnt := s.banks.cnt.set i { s.counts i with deviation := 0 } }

theorem releasedState_lone (hx : (s.tp i).record = some x) : LoneRelease i x s (releasedState [i] s) where
  latches := by
    have h : (releasedState [i] s).trips.sec = (releaseOne i s).trips.sec := rfl
    rw [h, releaseOne_trips, ← hx]
  wbrk := releasedState_wbrk ..
  share := releaseOne_share
  banks := releaseOne_banks

/-- R102: the trip line is released while the bridge is not ENGAGED. -/
theorem line_of_standby (h : TripLineOk s) (hm : s.control.mode = .standby) : s.trips.line = false := by
  rw [Bool.eq_false_iff]
  intro hl
  obtain ⟨he, -⟩ := h.1 hl
  rw [hm] at he
  cases he

/-- R106: in STANDBY no seed is taken. -/
theorem releasedState_frame_standby (hm : s.control.mode = .standby) :
    SameExcept [.banks, .share, .trips] s (releasedState [i] s) := by
  refine ⟨fun b hb => ?_⟩
  by_cases hr : b = .rewriter
  · subst hr
    exact releaseOne_rewriter.trans (if_neg (by simp [State.engaged, hm]))
  · exact (releasedState_frame [i] s).same b (by simpa [hr] using hb)

theorem releasedState_trips_standby (hm : s.control.mode = .standby) (hline : TripLineOk s)
    (hx : (s.tp i).record = some x) : (releasedState [i] s).trips =
      { s.trips with sec := s.trips.sec.set i { latch := false, record := some x } } := by
  have h := releasedState_lone hx
  have hl : (releasedState [i] s).trips.line = s.trips.line := by
    rw [line_of_standby hline hm, line_of_standby (releasedState_line ..) (by rw [releasedState_control, hm])]
  have heta : (releasedState [i] s).trips = ⟨(releasedState [i] s).trips.sec, (releasedState [i] s).trips.wbrk,
      (releasedState [i] s).trips.line⟩ := rfl
  rw [heta, h.latches, h.wbrk, hl]

/-- R107: a gap within the trim limit is the seed of an ACTIVE section. -/
theorem seed_of_within {n : Int} (hact : (s.settings i).mode = .active) (hgap : s.releaseGap i = n)
    (h : |n| ≤ (s.settings i).trimLimit.toNat) : s.seed i = n := by
  obtain ⟨hlo, hhi⟩ := abs_le.1 h
  rw [State.seed, if_neg (by simp [hact]), hgap]
  exact clampInt_of_within hlo hhi

/-- R105: the GAP check of a section without a last output, or with the difference within its limit, passes. -/
theorem not_gapFails_of_within (h : (s.settings i).cutoff = .hold ∨ (s.settings i).cutoff = .stop →
    ∀ o, (s.rw i).lastOut = some o →
      |o.speed.toInt - (s.rw i).lastIn.speed.toInt| ≤ (s.settings i).trimLimit.toNat) : ¬ s.gapFails i = true := by
  rw [gapFails_iff]
  rintro ⟨hcut, ho, hlarge⟩
  obtain ⟨o, ho⟩ := Option.ne_none_iff_exists'.1 ho
  rw [releaseGap_of_lastOut ho] at hlarge
  exact not_lt.2 (h hcut o ho) hlarge

section
variable (hi : sect.toNat = i.val) (hs : s.canServe) (hv : (s.settings i).valid = true) (ht : s.tripped i = true)
include hi hs hv ht

theorem exec_release_alone_refused (ha : Alone i s) (h : checkOf s i = some code) :
    exec (.release tag sect) s = .next (s.answered (plainAnswer tag 8 code)) :=
  exec_release_refused hi hs hv ht ((releaseRefusal_alone ha).trans h)

theorem exec_release_alone (ha : Alone i s) (h : checkOf s i = none) : exec (.release tag sect) s =
    .next ((releaseAll s.link.lastCycle [i] s).answered (plainAnswer tag 8 .ok)) := by
  rw [exec_release_accepted hi hs hv ht ((releaseRefusal_alone ha).trans h), covered_alone ha]

/-! ### The members of a set (R103 to R107) -/

theorem exec_release_set (hok : TripsOk s) (hvk : (s.share.sets.get k).valid = true)
    (hik : i ∈ (s.share.sets.get k).memberList) (hq : Unruled s)
    (hpass : ∀ m ∈ (s.share.sets.get k).memberList, checkOf s m = none) : exec (.release tag sect) s =
      .next ((releasedState (s.share.sets.get k).memberList s).answered (plainAnswer tag 8 .ok)) := by
  have hcov := covered_member (setOf_of_member hok hvk hik)
  rw [exec_release_accepted hi hs hv ht (releaseRefusal_none (hcov ▸ hpass)), hcov, releaseAll_of_unruled hq]

theorem exec_release_set_refused (hok : TripsOk s) (hvk : (s.share.sets.get k).valid = true)
    (hik : i ∈ (s.share.sets.get k).memberList) (hms : (s.share.sets.get k).memberList = before ++ j :: rest)
    (hpass : ∀ m ∈ before, checkOf s m = none) (hj : checkOf s j = some code) :
    exec (.release tag sect) s = .next (s.answered (plainAnswer tag 8 code)) :=
  exec_release_refused hi hs hv ht
    (releaseRefusal_first ((covered_member (setOf_of_member hok hvk hik)).trans hms) hpass hj)

end

/-! ### O49 -/

/-- Settles O49: the checks by the sections that a release covers, the release of a section alone by the blocks it
writes and of a set by the rows of its members, and the level rules on the section just released. -/
theorem release : Obligations.Release := by
  refine ⟨fun tag sect s hs => ⟨fun h => ?badValue, fun i hi => ⟨fun hv => ?noEntry, fun hv ht => ?notTripped,
      fun hv ht ha x hx => ⟨fun ⟨cause, hpeer, hin, hp⟩ => ?present, fun hcause =>
        ⟨fun hm hline => ?standby, ?engaged⟩⟩⟩⟩, ?level, ?set⟩
  case badValue => exact exec_of_refused hs fun _ => releaseRequest_badValue h
  case noEntry => exact exec_of_refused hs fun _ => releaseRequest_noEntry hi hv
  case notTripped => exact exec_of_refused hs fun _ => releaseRequest_notTripped hi hv ht
  case present =>
    exact exec_release_alone_refused hi hs hv ht ha
      (checkOf_cause (causeFails_iff.2 ⟨x, cause, hx, hpeer, hin, hp⟩))
  case standby =>
    have hpass : checkOf s i = none := checkOf_none (not_causeFails_of_record hx hcause) fun ⟨he, _⟩ => by
      rw [hm] at he
      cases he
    have h := releasedState_lone hx
    refine ⟨_, ?_, releasedState_frame_standby hm, releasedState_trips_standby hm hline hx, h.share, h.banks⟩
    rw [exec_release_alone hi hs hv ht ha hpass, releaseAll_of_unruled (.inl hm)]
  case engaged =>
    intro he o ho hact hhold hbrk hlnk gap
    have hno := not_causeFails_of_record hx hcause
    have hgap : s.releaseGap i = gap := releaseGap_of_lastOut ho
    refine ⟨fun hlarge => ?_, fun hsmall => ?_⟩
    · have hfails : s.gapFails i = true := gapFails_iff.2 ⟨.inl hhold, by simp [ho], by rwa [hgap]⟩
      exact exec_release_alone_refused hi hs hv ht ha (checkOf_gap hno he hfails)
    · have hpass : checkOf s i = none := checkOf_none hno fun ⟨_, hg⟩ => by
        obtain ⟨-, -, hlarge⟩ := gapFails_iff.1 hg
        exact not_lt.2 hsmall (hgap ▸ hlarge)
      have h := releasedState_lone hx
      refine ⟨_, ?_, releasedState_frame .., ?_, h.latches, h.share, h.banks⟩
      · rw [exec_release_alone hi hs hv ht ha hpass, releaseAll_of_unruled (.inr ⟨hbrk, hlnk⟩)]
      · refine releaseOne_rewriter.trans ((if_pos (engaged_iff.2 he)).trans ?_)
        rw [seed_of_within hact hgap hsmall]
        rfl
  case level =>
    intro tag sect i x s hs hi he hv hact ht ha hx hcause hgap brk lnk hany
    have hpass : checkOf s i = none := checkOf_none (not_causeFails_of_record hx hcause) fun ⟨_, hg⟩ =>
      not_gapFails_of_within hgap hg
    exact ⟨_, exec_release_alone hi hs hv ht ha hpass, releaseAll_levelTripped he hv hact ha .rfl .rfl hany⟩
  case set =>
    intro tag sect i k s hs hok hi hvk hik hn ht ms limit gap causeFails gapFails
    have ⟨hmembers, _, _, _⟩ := hok
    have hv : (s.settings i).valid = true := hmembers k i hvk hik
    have hgapEq : ∀ j, s.releaseGap j = gap j := fun j => by
      unfold State.releaseGap
      simp only [gap]
      cases (s.rw j).lastOut <;> rfl
    have hcauseIff : ∀ j, s.causeFails j = true ↔ causeFails j := fun j => causeFails_iff
    have hgapIff : ∀ j, (s.control.mode = .engaged ∧ s.gapFails j = true) ↔ gapFails j := fun j => by
      rw [gapFails_iff, hgapEq]
    have hpasses : ∀ m, ¬ causeFails m ∧ ¬ gapFails m → checkOf s m = none := fun m ⟨hc, hg⟩ =>
      checkOf_none ((hcauseIff m).not.2 hc) ((hgapIff m).not.2 hg)
    refine ⟨fun before j rest hms hbefore => ?refused, fun hall hq => ?released⟩
    case refused =>
      have hfirst := fun code => exec_release_set_refused (tag := tag) (code := code) hi hs hv ht hok hvk hik hms
        fun m hm => hpasses m (hbefore m hm)
      refine ⟨fun hc => hfirst _ (checkOf_cause ((hcauseIff j).2 hc)), fun hc hg => ?_⟩
      obtain ⟨he, hg⟩ := (hgapIff j).2 hg
      exact hfirst _ (checkOf_gap ((hcauseIff j).not.2 hc) he hg)
    case released =>
      have hrow := releasedState_row ms s
      have hseed : ∀ j, seedOf (s.settings j) (s.rw j) =
          if (s.settings j).mode = .pass then 0 else max (-limit j) (min (limit j) (gap j)) := fun j => by
        rw [← hgapEq]
        rfl
      refine ⟨_, exec_release_set hi hs hv ht hok hvk hik hq fun m hm => hpasses m (hall m hm),
        releasedState_frame .., releasedState_line .., releasedState_wbrk .., releasedState_sets ..,
        releasedState_stat .., fun j hj => ?_, fun j hj => ?_⟩
      · have h := (hrow j).trans (if_pos hj)
        refine ⟨congrArg (·.trip) h, congrArg (·.share) h, congrArg (·.counts) h, (congrArg (·.rewrite) h).trans ?_⟩
        rw [← hseed]
        rfl
      · have h := (hrow j).trans (if_neg hj)
        exact ⟨congrArg (·.trip) h, congrArg (·.share) h, congrArg (·.counts) h, congrArg (·.rewrite) h⟩

end Sys2Proof.Machine.ReleaseRequest
end

