-- ==== Sys2Proof/Proofs/RunnerSteps.lean ====
section
/-! PROOFS. One runner's advance (R115, R138, R139, R143): the step that it stands at, where it goes on by what the step
leads to, and its context afterwards. -/

namespace Sys2Proof.Machine.RunnerStep

variable {s t : State} {r q : Fin 4} {c d : Runner} {ctx : CloseCtx} {op : StepOp} {k n : Nat} {m : Fin 8}

/-! ### The context of one runner -/

theorem setRunner_runner_self (r : Fin 4) (c : Runner) (s : State) : (setRunner r c s).runner r = c := by simp

theorem table_set_set {α : Type} {n : Nat} (x : Table α n) (i : Fin n) (a b : α) : (x.set i a).set i b = x.set i b :=
  Table.ext_get fun j => by
    simp only [Table.get_set]
    split <;> rfl

@[simp] theorem setRunner_setRunner (r : Fin 4) (c d : Runner) (s : State) :
    setRunner r d (setRunner r c s) = setRunner r d s := by
  simp [setRunner, State.setRunners, table_set_set]

@[simp] theorem setRunner_self (r : Fin 4) (s : State) : setRunner r (s.runner r) s = s := by
  simp [setRunner, State.setRunners, State.runner]

@[simp] theorem setStep_setRunner (r : Fin 4) (k : Nat) (c : Runner) (s : State) :
    setStep r k (setRunner r c s) = setRunner r { c with step := k } s := by
  simp [setStep]

@[simp] theorem setRunnerState_setRunner (r : Fin 4) (x : RunnerState) (c : Runner) (s : State) :
    setRunnerState r x (setRunner r c s) = setRunner r { c with state := x } s := by
  simp [setRunnerState]

/-! ### Sync marks (R141) -/

theorem setSyncMark_syncMark (m j : Fin 8) (b : Bool) (s : State) :
    (setSyncMark m b s).syncMark j = if j = m then b else s.syncMark j := by
  have hbit : ((1 : BitVec 8) <<< m.val).getLsbD j.val = decide (j = m) := by
    revert m j
    decide
  cases b with
  | true =>
    show (s.runners.marks ||| ((1 : BitVec 8) <<< m.val)).getLsbD j.val = _
    rw [BitVec.getLsbD_or, hbit]
    by_cases h : j = m <;> simp only [h, decide_true, decide_false, Bool.or_true, Bool.or_false, if_true, if_false,
      State.syncMark]
  | false =>
    show (s.runners.marks &&& ~~~((1 : BitVec 8) <<< m.val)).getLsbD j.val = _
    rw [BitVec.getLsbD_and, BitVec.getLsbD_not, hbit]
    by_cases h : j = m <;> simp only [h, decide_true, decide_false, Bool.not_true, Bool.not_false, Bool.and_true,
      Bool.and_false, j.isLt, if_true, if_false, State.syncMark]

/-! ### The step that a runner stands at (R114, R115) -/

/-- R114: the step at an index of program memory for a runner with a number of bound sections. -/
def stepAt (s : State) (k bound : Nat) : Option StepOp :=
  match index? 512 k with
  | none => none
  | some k => (s.program.get k).read bound

theorem stepOf_eq (s : State) (r : Fin 4) :
    s.stepOf r = stepAt s (s.runner r).step (s.runner r).slots.length := rfl

theorem stepAt_setRunner (c : Runner) (k bound : Nat) : stepAt (setRunner r c s) k bound = stepAt s k bound := rfl

/-- A runner's step depends on its context by the index and the list alone. -/
theorem stepOf_setRunner (r : Fin 4) (c : Runner) (s : State) :
    (setRunner r c s).stepOf r = stepAt s c.step c.slots.length := by
  rw [stepOf_eq, setRunner_runner_self, stepAt_setRunner]

/-- R115: no step stands at index 512. -/
theorem stepOf_end (h : (s.runner r).step = 512) : s.stepOf r = none := by
  rw [stepOf_eq, stepAt, h]
  rfl

theorem stepOf_program {k : Fin 512} (h : (s.runner r).step = k.val) :
    s.stepOf r = (s.program.get k).read (s.runner r).slots.length := by
  rw [stepOf_eq, stepAt, h, index?_val]

/-! ### Leaving with the recording off (R143) -/

theorem leaveRunner_unrecorded (h : (s.runner r).recording = false) (cycle : BitVec 16) (how : Leaving) :
    leaveRunner cycle r how s = raise how.event (setRunner r ((s.runner r).left how) s) := by
  rw [leaveRunner, h]
  rfl

/-- R143, R144: the context that a fault leaves. -/
theorem faultRunner_unrecorded (h : (s.runner r).recording = false) (ctx : CloseCtx) (f : RunnerFault) :
    faultRunner ctx r f s = raise .runnerFault (setRunner r
      { s.runner r with state := .faulted, fault := some f, faultStep := (s.runner r).step, endCode := 0
                        injection := 0, recording := false, phase := 0 } s) :=
  leaveRunner_unrecorded h ..

/-! ### Where a runner goes on (R115, R138, R139) -/

/-- Where a runner goes on when a step has led to a result, with a number of steps still allowed. -/
def goOn (ctx : CloseCtx) (r : Fin 4) (n : Nat) : State × StepResult → State
  | (t, .next) => runSteps ctx r n (setStep r ((t.runner r).step + 1) t)
  | (t, .goto k) => runSteps ctx r n (setStep r k t)
  | (t, .hold) => setRunnerState r .waiting t
  | (t, .left) => t

theorem runSteps_of_step (h : s.stepOf r = some op) :
    runSteps ctx r (n + 1) s = goOn ctx r n (reachStep ctx r op s) := by
  rw [runSteps, h]
  rfl

/-- R139: a resumed step is the first of the sixteen. -/
theorem resumeRunner_of_step (h : s.stepOf r = some op) :
    resumeRunner ctx r s = goOn ctx r 15 (resumeStep ctx r op s) := by
  rw [resumeRunner, h]
  rfl

theorem goOn_next : goOn ctx r n (setRunner r c s, .next) =
    runSteps ctx r n (setRunner r { c with step := c.step + 1 } s) := by
  rw [goOn, setStep_setRunner, setRunner_runner_self]

theorem goOn_goto : goOn ctx r n (setRunner r c s, .goto k) =
    runSteps ctx r n (setRunner r { c with step := k } s) := by
  rw [goOn, setStep_setRunner]

theorem goOn_hold : goOn ctx r n (setRunner r c s, .hold) = setRunner r { c with state := .waiting } s := by
  rw [goOn, setRunnerState_setRunner]

/-- R114, R144: BADSTEP. -/
theorem runSteps_bad (h : s.stepOf r = none) : runSteps ctx r (n + 1) s = faultRunner ctx r .badStep s := by
  rw [runSteps, h]

/-! ### The kinds of step when reached (R117 to R131) -/

theorem runSteps_set {v : Int} (h : s.stepOf r = some (.set v)) : runSteps ctx r (n + 1) s =
    runSteps ctx r n (setRunner r
      { s.runner r with injection := BitVec.ofInt 32 v, step := (s.runner r).step + 1 } s) :=
  (runSteps_of_step h).trans goOn_next

theorem runSteps_ramp {target : Int} (h : s.stepOf r = some (.ramp target k)) : runSteps ctx r (n + 1) s =
    setRunner r { s.runner r with state := .waiting, rampOrigin := (s.runner r).injection, rampProgress := 0 } s :=
  (runSteps_of_step h).trans goOn_hold

theorem runSteps_dwell (h : s.stepOf r = some (.dwell k)) : runSteps ctx r (n + 1) s =
    setRunner r { s.runner r with state := .waiting, wait := BitVec.ofNat 16 k } s :=
  (runSteps_of_step h).trans goOn_hold

/-- R121, R123: the step of an AWAIT or SYNC is tested first. -/
theorem goOn_tested {met : Bool} : goOn ctx r n
      (if met then (s, .next) else (setRunner r { s.runner r with wait := BitVec.ofNat 16 k } s, .hold)) =
    if met then runSteps ctx r n (setRunner r { s.runner r with step := (s.runner r).step + 1 } s)
    else setRunner r { s.runner r with state := .waiting, wait := BitVec.ofNat 16 k } s := by
  cases met with
  | true => rfl
  | false => exact goOn_hold

theorem runSteps_await {slot : Nat} {cond : WaitCondition} {alt : Option Nat}
    (h : s.stepOf r = some (.await slot cond k alt)) : runSteps ctx r (n + 1) s =
      if s.slotCondition r slot cond then
        runSteps ctx r n (setRunner r { s.runner r with step := (s.runner r).step + 1 } s)
      else setRunner r { s.runner r with state := .waiting, wait := BitVec.ofNat 16 k } s :=
  (runSteps_of_step h).trans goOn_tested

theorem runSteps_sync {alt : Option Nat} (h : s.stepOf r = some (.sync m k alt)) : runSteps ctx r (n + 1) s =
    if s.syncMark m then runSteps ctx r n (setRunner r { s.runner r with step := (s.runner r).step + 1 } s)
    else setRunner r { s.runner r with state := .waiting, wait := BitVec.ofNat 16 k } s :=
  (runSteps_of_step h).trans goOn_tested

theorem runSteps_signal {on : Bool} (h : s.stepOf r = some (.signal m on)) : runSteps ctx r (n + 1) s =
    runSteps ctx r n (setRunner r { s.runner r with step := (s.runner r).step + 1 } (setSyncMark m on s)) :=
  runSteps_of_step h

theorem runSteps_recordOn {x : BitVec 8} (h : s.stepOf r = some (.recordOn x)) : runSteps ctx r (n + 1) s =
    runSteps ctx r n (setRunner r
      { s.runner r with recording := true, decimation := x, phase := 0, step := (s.runner r).step + 1 } s) :=
  (runSteps_of_step h).trans goOn_next

theorem runSteps_recordOff (h : s.stepOf r = some .recordOff) : runSteps ctx r (n + 1) s =
    runSteps ctx r n (setRunner r { s.runner r with recording := false, step := (s.runner r).step + 1 } s) :=
  (runSteps_of_step h).trans goOn_next

/-- R131, R143: END with the recording off. -/
theorem runSteps_finish {code : BitVec 8} (h : s.stepOf r = some (.finish code))
    (hrec : (s.runner r).recording = false) : runSteps ctx r (n + 1) s = raise .runnerEnd (setRunner r
      { s.runner r with state := .done, outcome := some .ended, endCode := code, injection := 0, recording := false
                        phase := 0 } s) :=
  (runSteps_of_step h).trans (leaveRunner_unrecorded hrec ..)

/-! ### JUMP (R125 to R127) -/

theorem runSteps_plainJump (h : s.stepOf r = some (.jump k 0)) : runSteps ctx r (n + 1) s =
    runSteps ctx r n (setRunner r { s.runner r with step := k } s) :=
  runSteps_of_step h

/-- R126: the count that a counted JUMP meets at a runner: loaded when no counter is, kept when it is its own. -/
def CountAt (c : Runner) (count : Nat) (x : BitVec 16) : Prop :=
  (c.loop = none ∧ x = BitVec.ofNat 16 count) ∨ ∃ l, c.loop = some l ∧ l.owner = c.step ∧ x = l.remaining

theorem countedJump_of_countAt {target count : Nat} {x : BitVec 16} (h : CountAt (s.runner r) count x) :
    countedJump ctx r target count s =
      if x - 1 = 0 then (setRunner r { s.runner r with loop := none } s, .next)
      else (setRunner r { s.runner r with loop := some { owner := (s.runner r).step, remaining := x - 1 } } s,
        .goto target) := by
  rcases h with ⟨hl, rfl⟩ | ⟨l, hl, howner, rfl⟩
  · rw [countedJump, hl]
    rfl
  · rw [countedJump, hl]
    simp [howner]

section
variable {target count : Nat} (h : s.stepOf r = some (.jump target count)) (hcount : count ≠ 0)
include h hcount

theorem runSteps_countedJump : runSteps ctx r (n + 1) s = goOn ctx r n (countedJump ctx r target count s) :=
  (runSteps_of_step h).trans (congrArg _ (if_neg hcount))

/-- R127: a counted JUMP that meets the counter of another step. -/
theorem runSteps_jump_nesting {l : LoopCounter} (hl : (s.runner r).loop = some l)
    (howner : l.owner ≠ (s.runner r).step) : runSteps ctx r (n + 1) s = faultRunner ctx r .nesting s := by
  rw [runSteps_countedJump h hcount, countedJump, hl]
  simp [howner, goOn]

/-- R126: the count runs out. -/
theorem runSteps_jump_last {x : BitVec 16} (hx : CountAt (s.runner r) count x) (hone : x.toNat = 1) :
    runSteps ctx r (n + 1) s =
      runSteps ctx r n (setRunner r { s.runner r with loop := none, step := (s.runner r).step + 1 } s) := by
  have hzero : x - 1 = 0 := by bv_omega
  rw [runSteps_countedJump h hcount, countedJump_of_countAt hx, if_pos hzero, goOn_next]

/-- R126: the jump is taken while the count is above 0. -/
theorem runSteps_jump_taken {x : BitVec 16} (hx : CountAt (s.runner r) count x) (htwo : 2 ≤ x.toNat) :
    runSteps ctx r (n + 1) s = runSteps ctx r n (setRunner r
      { s.runner r with loop := some { owner := (s.runner r).step, remaining := x - 1 }, step := target } s) := by
  have hzero : x - 1 ≠ 0 := by bv_omega
  rw [runSteps_countedJump h hcount, countedJump_of_countAt hx, if_neg hzero, goOn_goto]

end

/-! ### The advance (R138) -/

theorem takeSample_unrecorded (h : (s.runner r).recording = false) : takeSample ctx r s = s := by
  rw [takeSample, h]
  rfl

theorem advanceRunner_running (hs : (s.runner r).state = .running) (hrec : (s.runner r).recording = false) :
    advanceRunner ctx r s = runSteps ctx r 16 s := by
  rw [advanceRunner, hs, takeSample_unrecorded hrec]
  rfl

theorem advanceRunner_waiting (hs : (s.runner r).state = .waiting) (hrec : (s.runner r).recording = false) :
    advanceRunner ctx r s = resumeRunner ctx r (setRunner r { s.runner r with state := .running } s) := by
  rw [advanceRunner, hs, takeSample_unrecorded hrec]
  rfl

/-- R138: a runner that is neither RUNNING nor WAITING is not advanced. -/
theorem advanceRunner_idle (h : (s.runner r).isLive = false) : advanceRunner ctx r s = s := by
  unfold advanceRunner
  split
  · next hs => simp [Runner.isLive, hs] at h
  · next hs => simp [Runner.isLive, hs] at h
  · rfl

end Sys2Proof.Machine.RunnerStep
end

