-- ==== Sys2Proof/Proofs/RunnerHolds.lean ====
section
/-! PROOFS. The advance of a runner that holds at a RAMP, DWELL, AWAIT or SYNC (R118, R120, R122, R123), and the sixteen
steps of one advance (R139). Settles O33 and O34. -/

namespace Sys2Proof.Machine.RunnerStep

variable {s : State} {r : Fin 4} {c : Runner} {ctx : CloseCtx} {m n k : Nat} {target : Int} {alt : Option Nat}
  {met : Bool} {code : BitVec 8} {v : Nat → Int} {op : StepOp}

/-! ### Holding steps that are resumed -/

/-- R118: at progress n the value of a ramp is its target. -/
theorem rampValue_self (origin target : Int) (hn : n ≠ 0) : rampValue origin target n n = target := by
  rw [rampValue, truncDiv, Int.mul_tdiv_cancel _ (by exact_mod_cast hn)]
  omega

/-- R118: the context of a runner at the next progress of its RAMP. -/
def ramped (c : Runner) (target : Int) (n : Nat) : Runner :=
  { c with
    rampProgress := BitVec.ofNat 16 (c.rampProgress.toNat + 1)
    injection := s32 (rampValue c.rampOrigin.toInt target (c.rampProgress.toNat + 1) n) }

/-- R120, R122: the context of a runner with its wait counted down by one. -/
def waited (c : Runner) : Runner := { c with wait := c.wait - 1 }

theorem resumeStep_ramp : resumeStep ctx r (.ramp target n) (setRunner r c s) =
    (setRunner r (ramped c target n) s, if n ≤ c.rampProgress.toNat + 1 then .next else .hold) := by
  simp [resumeStep, ramped]

theorem resumeStep_dwell : resumeStep ctx r (.dwell n) (setRunner r c s) =
    (setRunner r (waited c) s, if c.wait.toNat ≤ 1 then .next else .hold) := by
  simp [resumeStep, waited]

theorem resumeWait_of_wait (hn : n ≠ 0) (hw : 2 ≤ c.wait.toNat) :
    resumeWait ctx r false n alt (setRunner r c s) = (setRunner r (waited c) s, .hold) := by
  simp [resumeWait, waited, hn, show ¬ c.wait.toNat ≤ 1 by omega]

theorem resumeWait_timeout (hn : n ≠ 0) (hw : c.wait.toNat ≤ 1) : resumeWait ctx r false n none (setRunner r c s) =
    (faultRunner ctx r .timeout (setRunner r (waited c) s), .left) := by
  simp [resumeWait, waited, hn, hw]

theorem resumeWait_alternate (hn : n ≠ 0) (hw : c.wait.toNat ≤ 1) :
    resumeWait ctx r false n (some k) (setRunner r c s) = (setRunner r (waited c) s, .goto k) := by
  simp [resumeWait, waited, hn, hw]

/-- The runner stands at an AWAIT or SYNC with this timeout and alternate, met or not. -/
def WaitsFor (s : State) (r : Fin 4) (n : Nat) (alt : Option Nat) (met : Bool) : Prop :=
  (∃ m, s.stepOf r = some (.sync m n alt) ∧ met = s.syncMark m) ∨
    ∃ slot cond, s.stepOf r = some (.await slot cond n alt) ∧ met = s.slotCondition r slot cond

/-- R121: a condition is tested on the section bound in the slot, whatever else the context holds. -/
theorem slotCondition_setRunner (h : c.slots = (s.runner r).slots) (slot : Nat) (cond : WaitCondition) :
    (setRunner r c s).slotCondition r slot cond = s.slotCondition r slot cond := by
  unfold State.slotCondition
  rw [setRunner_runner_self, h]
  rfl

/-! ### A step reached with a known context -/

theorem faultRunner_at (hrec : c.recording = false) (f : RunnerFault) : faultRunner ctx r f (setRunner r c s) =
    raise .runnerFault (setRunner r
      { c with state := .faulted, fault := some f, faultStep := c.step, endCode := 0, injection := 0
               recording := false, phase := 0 } s) := by
  rw [faultRunner_unrecorded (by rw [setRunner_runner_self]; exact hrec), setRunner_setRunner, setRunner_runner_self]

theorem runSteps_dwell_at (h : stepAt s c.step c.slots.length = some (.dwell k)) :
    runSteps ctx r (n + 1) (setRunner r c s) =
      setRunner r { c with state := .waiting, wait := BitVec.ofNat 16 k } s := by
  rw [runSteps_dwell ((stepOf_setRunner r c s).trans h), setRunner_setRunner, setRunner_runner_self]

theorem runSteps_finish_at (hrec : c.recording = false) (h : stepAt s c.step c.slots.length = some (.finish code)) :
    runSteps ctx r (n + 1) (setRunner r c s) = raise .runnerEnd (setRunner r
      { c with state := .done, outcome := some .ended, endCode := code, injection := 0, recording := false
               phase := 0 } s) := by
  rw [runSteps_finish ((stepOf_setRunner r c s).trans h) (by rw [setRunner_runner_self]; exact hrec),
    setRunner_setRunner, setRunner_runner_self]

/-! ### The advance of a waiting runner (R138) -/

section
variable (hs : (s.runner r).state = .waiting) (hrec : (s.runner r).recording = false)
include hs hrec

theorem advanceRunner_resumes (h : s.stepOf r = some op) : advanceRunner ctx r s =
    goOn ctx r 15 (resumeStep ctx r op (setRunner r { s.runner r with state := .running } s)) := by
  rw [advanceRunner_waiting hs hrec, resumeRunner_of_step]
  rw [stepOf_setRunner]
  exact h

theorem advanceRunner_ramp_reached (h : s.stepOf r = some (.ramp target n))
    (hn : (s.runner r).rampProgress.toNat + 1 = n) : advanceRunner ctx r s =
      runSteps ctx r 15 (setRunner r
        { s.runner r with state := .running, step := (s.runner r).step + 1, rampProgress := BitVec.ofNat 16 n
                          injection := BitVec.ofInt 32 target } s) := by
  have hn0 : n ≠ 0 := by omega
  rw [advanceRunner_resumes hs hrec h, resumeStep_ramp, if_pos hn.ge, goOn_next]
  simp only [ramped, hn, rampValue_self _ _ hn0]
  rfl

theorem advanceRunner_ramp_holds (h : s.stepOf r = some (.ramp target n))
    (hn : (s.runner r).rampProgress.toNat + 1 < n) :
    advanceRunner ctx r s = setRunner r (ramped (s.runner r) target n) s := by
  rw [advanceRunner_resumes hs hrec h, resumeStep_ramp, if_neg (not_le.2 hn), goOn_hold]
  simp only [ramped, ← hs]

theorem advanceRunner_dwell_over (h : s.stepOf r = some (.dwell n)) (hw : (s.runner r).wait.toNat ≤ 1) :
    advanceRunner ctx r s = runSteps ctx r 15 (setRunner r
      { waited (s.runner r) with state := .running, step := (s.runner r).step + 1 } s) := by
  rw [advanceRunner_resumes hs hrec h, resumeStep_dwell, if_pos hw, goOn_next]
  rfl

theorem advanceRunner_dwell_holds (h : s.stepOf r = some (.dwell n)) (hw : 2 ≤ (s.runner r).wait.toNat) :
    advanceRunner ctx r s = setRunner r (waited (s.runner r)) s := by
  rw [advanceRunner_resumes hs hrec h, resumeStep_dwell, if_neg (by dsimp only; omega), goOn_hold]
  simp only [waited, ← hs]

theorem advanceRunner_waits (h : WaitsFor s r n alt met) : advanceRunner ctx r s =
    goOn ctx r 15 (resumeWait ctx r met n alt (setRunner r { s.runner r with state := .running } s)) := by
  rcases h with ⟨m, h, rfl⟩ | ⟨slot, cond, h, rfl⟩
  · exact advanceRunner_resumes hs hrec h
  · rw [advanceRunner_resumes hs hrec h, resumeStep, slotCondition_setRunner]
    rfl

theorem advanceRunner_met (h : WaitsFor s r n alt true) : advanceRunner ctx r s =
    runSteps ctx r 15 (setRunner r { s.runner r with state := .running, step := (s.runner r).step + 1 } s) := by
  rw [advanceRunner_waits hs hrec h]
  exact goOn_next

theorem advanceRunner_unlimited (h : WaitsFor s r 0 alt false) : advanceRunner ctx r s = s := by
  have hself : { s.runner r with state := .waiting } = s.runner r := by rw [← hs]
  rw [advanceRunner_waits hs hrec h]
  exact goOn_hold.trans (hself ▸ setRunner_self r s)

section
variable (hn : n ≠ 0)
include hn

theorem advanceRunner_wait_holds (h : WaitsFor s r n alt false) (hw : 2 ≤ (s.runner r).wait.toNat) :
    advanceRunner ctx r s = setRunner r (waited (s.runner r)) s := by
  rw [advanceRunner_waits hs hrec h, resumeWait_of_wait hn, goOn_hold]
  · simp only [waited, ← hs]
  · exact hw

theorem advanceRunner_timeout (h : WaitsFor s r n none false) (hw : (s.runner r).wait.toNat ≤ 1) :
    advanceRunner ctx r s = raise .runnerFault (setRunner r
      { waited (s.runner r) with
        state := .faulted, fault := some .timeout, faultStep := (s.runner r).step, endCode := 0, injection := 0
        recording := false, phase := 0 } s) := by
  rw [advanceRunner_waits hs hrec h, resumeWait_timeout hn, goOn, faultRunner_at]
  · rfl
  · exact hrec
  · exact hw

theorem advanceRunner_alternate (h : WaitsFor s r n (some k) false) (hw : (s.runner r).wait.toNat ≤ 1) :
    advanceRunner ctx r s =
      runSteps ctx r 15 (setRunner r { waited (s.runner r) with state := .running, step := k } s) := by
  rw [advanceRunner_waits hs hrec h, resumeWait_alternate hn, goOn_goto]
  · rfl
  · exact hw

end

/-! ### The moments that the runner commands name (log 7) -/

omit hrec in
theorem exec_rampComplete (h : s.stepOf r = some (.ramp target n)) (hn : n ≤ (s.runner r).rampProgress.toNat + 1) :
    exec (.rampComplete r) s = .next (advanceAlone r s) :=
  congrArg Host.Outcome.next (if_pos (by simp [State.rampDue, hs, h, hn]))

omit hrec in
theorem exec_dwellExpiry (h : s.stepOf r = some (.dwell n)) (hw : (s.runner r).wait.toNat ≤ 1) :
    exec (.dwellExpiry r) s = .next (advanceAlone r s) :=
  congrArg Host.Outcome.next (if_pos (by simp [State.dwellDue, hs, h, hw]))

omit hrec in
theorem exec_waitTimeout (h : WaitsFor s r n alt false) (hn : n ≠ 0) (hw : (s.runner r).wait.toNat ≤ 1) :
    exec (.waitTimeout r) s = .next (advanceAlone r s) := by
  have hdue : s.waitDue r = true := by
    rcases h with ⟨m, h, hmet⟩ | ⟨slot, cond, h, hmet⟩ <;> simp [State.waitDue, hs, h, hn, hw, ← hmet]
  exact congrArg Host.Outcome.next (if_pos hdue)

end

/-- Settles O33: the advance resumes the holding step, and the runner goes on into the next one or holds. -/
theorem holdsEnd : Obligations.HoldsEnd := by
  unfold Obligations.HoldsEnd
  refine ⟨?ramp, ?dwell, ?wait, ?earlier⟩
  case ramp =>
    intro r target n m s c hs hrec hop hn hnext
    rw [stepOf_setRunner] at hnext
    rw [exec_rampComplete hs hop hn.ge, advanceAlone, advanceRunner_ramp_reached hs hrec hop hn,
      runSteps_dwell_at (k := m)]
    exact hnext
  case dwell =>
    intro r n code s c hs hrec hop hw hnext
    rw [stepOf_setRunner] at hnext
    have hle : (s.runner r).wait.toNat ≤ 1 := by rw [show (s.runner r).wait = 1 from hw]; decide
    have hzero : (waited c).wait = 0 := by rw [waited, hw]; rfl
    rw [exec_dwellExpiry hs hop hle, advanceAlone, advanceRunner_dwell_over hs hrec hop hle,
      runSteps_finish_at (code := code), ← hzero]
    · rfl
    · exact hrec
    · exact hnext
  case wait =>
    intro r n alt s c hs hrec hw hn hwaits
    have hwaits : WaitsFor s r n alt false := by simpa only [WaitsFor, eq_comm (a := false)] using hwaits
    have hle : (s.runner r).wait.toNat ≤ 1 := by rw [show (s.runner r).wait = 1 from hw]; decide
    have hzero : (waited c).wait = 0 := by rw [waited, hw]; rfl
    refine ⟨?_, fun k code => ?_⟩
    · rintro rfl
      rw [exec_waitTimeout hs hwaits hn hle, advanceAlone, advanceRunner_timeout hs hrec hn hwaits hle, ← hzero]
      rfl
    · rintro rfl hnext
      rw [stepOf_setRunner] at hnext
      rw [exec_waitTimeout hs hwaits hn hle, advanceAlone, advanceRunner_alternate hs hrec hn hwaits hle,
        runSteps_finish_at (code := code), ← hzero]
      · rfl
      · exact hrec
      · exact hnext
  case earlier =>
    intro ctx r s c hs hrec
    refine ⟨fun target n hop hn => advanceRunner_ramp_holds hs hrec hop hn,
      fun n hop hw => advanceRunner_dwell_holds hs hrec hop hw, fun n alt met hwaits => ⟨?_, ?_, ?_⟩⟩
    · rintro rfl
      exact advanceRunner_met hs hrec hwaits
    · rintro rfl rfl
      exact advanceRunner_unlimited hs hrec hwaits
    · rintro rfl hn hw
      exact advanceRunner_wait_holds hs hrec hn hwaits hw

/-! ### Sixteen steps in one advance (R139) -/

/-- The context of a runner after a number of SET steps in a row. -/
def afterSets (c : Runner) (v : Nat → Int) : Nat → Runner
  | 0 => c
  | n + 1 => { c with step := c.step + (n + 1), injection := BitVec.ofInt 32 (v n) }

theorem afterSets_step : (afterSets c v n).step = c.step + n := by cases n <;> rfl
theorem afterSets_slots : (afterSets c v n).slots = c.slots := by cases n <;> rfl

theorem afterSets_succ : { afterSets c v n with
    injection := BitVec.ofInt 32 (v n), step := (afterSets c v n).step + 1 } = afterSets c v (n + 1) := by
  rw [afterSets_step]
  cases n <;> rfl

/-- SET steps in a row, each one of the steps allowed. -/
theorem runSteps_sets (h : ∀ k < n, stepAt s (c.step + k) c.slots.length = some (.set (v k))) :
    runSteps ctx r (m + n) (setRunner r c s) = runSteps ctx r m (setRunner r (afterSets c v n) s) := by
  induction n generalizing m with
  | zero => rfl
  | succ n ih =>
    have hset : (setRunner r (afterSets c v n) s).stepOf r = some (.set (v n)) := by
      rw [stepOf_setRunner, afterSets_step, afterSets_slots]
      exact h n n.lt_succ_self
    calc runSteps ctx r (m + (n + 1)) (setRunner r c s)
        = runSteps ctx r ((m + 1) + n) (setRunner r c s) := by rw [Nat.add_right_comm, Nat.add_assoc]
      _ = runSteps ctx r (m + 1) (setRunner r (afterSets c v n) s) := ih fun k hk => h k (by omega)
      _ = runSteps ctx r m (setRunner r (afterSets c v (n + 1)) s) := by
        rw [runSteps_set hset, setRunner_setRunner, setRunner_runner_self, afterSets_succ]

/-- R139, R144: BUDGET at the step that no more is allowed for. -/
theorem runSteps_sets_budget (hrec : c.recording = false)
    (h : ∀ k < n + 1, stepAt s (c.step + k) c.slots.length = some (.set (v k))) :
    runSteps ctx r (n + 1) (setRunner r c s) = raise .runnerFault (setRunner r
      { c with state := .faulted, fault := some .budget, faultStep := c.step + (n + 1), step := c.step + (n + 1)
               endCode := 0, injection := 0, recording := false, phase := 0 } s) := by
  have hsets := runSteps_sets (m := 0) (r := r) (ctx := ctx) h
  rw [Nat.zero_add] at hsets
  rw [hsets, runSteps, faultRunner_at]
  · rfl
  · exact hrec

/-- Settles O34: the SET steps use up the steps allowed one by one, and a resumed DWELL is the first of them. -/
theorem stepBudget : Obligations.StepBudget := by
  unfold Obligations.StepBudget
  intro ctx r v s c at_ hrec
  have hself : setRunner r c s = s := setRunner_self r s
  have hat : ∀ k, at_ k = stepAt s (c.step + k) c.slots.length := fun _ => stepOf_setRunner ..
  simp only [hat]
  refine ⟨?sixteen, ?fifteen, ?resumed, ?still⟩
  case sixteen =>
    intro hs hset
    have h := runSteps_sets_budget (ctx := ctx) (r := r) hrec hset
    rw [hself] at h
    rw [advanceRunner_running hs hrec, h]
  case fifteen =>
    intro m hs hset hdwell
    have h := runSteps_sets (m := 1) (ctx := ctx) (r := r) hset
    rw [hself, runSteps_dwell_at (k := m)] at h
    · rw [advanceRunner_running hs hrec, h]
      rfl
    · exact hdwell
  case resumed =>
    intro m hs hw hdwell hset
    have hle : (s.runner r).wait.toNat ≤ 1 := by rw [show (s.runner r).wait = 1 from hw]; decide
    have hzero : (waited c).wait = 0 := by rw [waited, hw]; rfl
    rw [advanceRunner_dwell_over hs hrec hdwell hle, runSteps_sets_budget (v := fun k => v (k + 1)), ← hzero]
    · simp only [Nat.add_assoc]
      rfl
    · exact hrec
    · intro k hk
      rw [← hset (k + 1) (by omega) (by omega), Nat.add_comm k 1, ← Nat.add_assoc]
      rfl
  case still =>
    intro hs
    refine advanceRunner_idle ?_
    rcases hs with hs | hs | hs <;> rw [Runner.isLive, show (s.runner r).state = _ from hs] <;> rfl

end Sys2Proof.Machine.RunnerStep
end

