-- ==== Sys2Proof/Proofs/StepRecords.lean ====
section
/-! PROOFS. The check of R114 on a step record (Table 11-9), kind by kind, and the conditions of an AWAIT (R121). -/

namespace Sys2Proof.Machine.StepRecords

variable {α β : Type} {ok ok' : Prop} {w : StepRecord} {bound : Nat} {s : State} {i : Fin 32} {f : Feedback}

/-! ### A reading that a condition decides -/

/-- The reading gives this value when the condition holds, and none otherwise. -/
def Checked (x : Option α) (ok : Prop) (a : α) : Prop := (ok → x = some a) ∧ (¬ ok → x = none)

theorem Checked.pure (a : α) : Checked (some a) True a := ⟨fun _ => rfl, fun h => absurd trivial h⟩

theorem Checked.of_ite {c : Prop} [Decidable c] (a : α) : Checked (if c then some a else none) c a :=
  ⟨fun h => if_pos h, fun h => if_neg h⟩

theorem Checked.congr {x : Option α} {a : α} (h : Checked x ok a) (hok : ok' ↔ ok) : Checked x ok' a := by
  rwa [Checked, hok]

theorem Checked.map {x : Option α} {a : α} (h : Checked x ok a) (g : α → β) : Checked (x.map g) ok (g a) :=
  ⟨fun hok => by rw [h.1 hok]; rfl, fun hok => by rw [h.2 hok]; rfl⟩

theorem Checked.bind {x : Option α} {a : α} {g : α → Option β} {b : β} (h : Checked x ok a)
    (hg : Checked (g a) ok' b) : Checked (x.bind g) (ok ∧ ok') b := by
  by_cases hok : ok
  · rw [h.1 hok]
    exact hg.congr (and_iff_right hok)
  · rw [h.2 hok]
    exact ⟨fun hand => absurd hand.1 hok, fun _ => rfl⟩

theorem checked_within (lo hi x : Int) : Checked (within lo hi x) (lo ≤ x ∧ x ≤ hi) x := .of_ite x

theorem checked_withinNat (lo hi x : Nat) : Checked (withinNat lo hi x) (lo ≤ x ∧ x ≤ hi) x := .of_ite x

theorem checked_upTo (hi x : Nat) : Checked (withinNat 0 hi x) (x ≤ hi) x :=
  (checked_withinNat 0 hi x).congr (and_iff_right (Nat.zero_le x)).symm

/-! ### The fields (Table 11-9) -/

theorem kind_eq (w : StepRecord) : w.kind = w.w0.toNat % 256 := by simp [StepRecord.kind, field]

theorem selector_eq (w : StepRecord) : w.selector = w.w0.toNat / 256 % 256 := by
  simp [StepRecord.selector, field, Nat.shiftRight_eq_div_pow]

theorem option_eq (w : StepRecord) : w.option = w.w0.toNat / 65536 % 256 := by
  simp [StepRecord.option, field, Nat.shiftRight_eq_div_pow]

theorem upper_eq (w : StepRecord) : w.upper = w.w3.toNat / 65536 := by
  have hlt := w.w3.isLt
  simp only [StepRecord.upper, hiHalf, BitVec.extractLsb'_toNat, Nat.shiftRight_eq_div_pow]
  omega

theorem lower_eq (w : StepRecord) : w.lower = w.w3.toNat % 65536 := by simp [StepRecord.lower, loHalf]

/-- R114: the slot of an AWAIT or CUT record is one of the bound sections. -/
def SlotOk (w : StepRecord) (bound : Nat) : Prop := w.selector ≤ 3 ∧ w.selector < bound

/-- R114: the alternate of an AWAIT or SYNC record is an index or NONE. -/
def AlternateOk (w : StepRecord) : Prop := w.lower ≤ 511 ∨ w.lower = 65535

/-- The alternate that the lower half of word 3 holds. -/
def alternateOf (w : StepRecord) : Option Nat := if w.lower = 65535 then none else some w.lower

theorem checked_slot : Checked (w.slot bound) (SlotOk w bound) w.selector := .of_ite _

theorem checked_alternate : Checked w.alternate (AlternateOk w) (alternateOf w) := by
  unfold StepRecord.alternate alternateOf
  by_cases h : w.lower = 65535
  · rw [if_pos h, if_pos h]
    exact (Checked.pure none).congr (iff_true_intro (.inr h))
  · rw [if_neg h, if_neg h]
    exact ((checked_upTo 511 w.lower).map some).congr (or_iff_left h)

/-- R141: the mark of a SYNC or SIGNAL record. -/
theorem checked_mark {m : Fin 8} (h : w.selector = m.val) : Checked (index? 8 w.selector) True m := by
  rw [h, index?_val]
  exact .pure m

/-! ### The kinds (R114) -/

theorem read_unknown (h : 10 < w.kind) : w.read bound = none := by
  unfold StepRecord.read
  split
  case h_12 => rfl
  all_goals omega

theorem read_finish (h : w.kind = 0) :
    Checked (w.read bound) (w.w1.toNat ≤ 255) (.finish (w.w1.setWidth 8)) := by
  have hread : w.read bound = (withinNat 0 255 w.w1.toNat).map fun c => .finish (BitVec.ofNat 8 c) := by
    rw [StepRecord.read, h]
    rfl
  rw [hread, ← BitVec.ofNat_toNat]
  exact (checked_upTo ..).map _

theorem read_set (h : w.kind = 1) :
    Checked (w.read bound) (-300000 ≤ w.w1.toInt ∧ w.w1.toInt ≤ 300000) (.set w.w1.toInt) := by
  have hread : w.read bound = (within (-300000) 300000 w.w1.toInt).map .set := by
    rw [StepRecord.read, h]
    rfl
  rw [hread]
  exact (checked_within ..).map _

theorem read_ramp (h : w.kind = 2) : Checked (w.read bound)
    ((-300000 ≤ w.w1.toInt ∧ w.w1.toInt ≤ 300000) ∧ 1 ≤ w.w2.toNat ∧ w.w2.toNat ≤ 65535)
    (.ramp w.w1.toInt w.w2.toNat) := by
  have hread : w.read bound = (within (-300000) 300000 w.w1.toInt).bind fun t =>
      (withinNat 1 65535 w.w2.toNat).map (.ramp t) := by
    rw [StepRecord.read, h]
    cases within (-300000) 300000 w.w1.toInt <;> cases withinNat 1 65535 w.w2.toNat <;> rfl
  rw [hread]
  exact (checked_within ..).bind ((checked_withinNat ..).map _)

theorem read_dwell (h : w.kind = 3) :
    Checked (w.read bound) (1 ≤ w.w2.toNat ∧ w.w2.toNat ≤ 65535) (.dwell w.w2.toNat) := by
  have hread : w.read bound = (withinNat 1 65535 w.w2.toNat).map .dwell := by
    rw [StepRecord.read, h]
    rfl
  rw [hread]
  exact (checked_withinNat ..).map _

theorem read_await (h : w.kind = 4) : w.read bound = (w.slot bound).bind fun k =>
    w.alternate.bind fun a => w.condition.map fun c => .await k c w.upper a := by
  rw [StepRecord.read, h]
  cases w.slot bound <;> cases w.condition <;> cases w.alternate <;> rfl

theorem read_await_of_condition {cond : WaitCondition} (h : w.kind = 4) (hc : Checked w.condition ok cond) :
    Checked (w.read bound) (SlotOk w bound ∧ AlternateOk w ∧ ok) (.await w.selector cond w.upper (alternateOf w)) := by
  rw [read_await h]
  exact checked_slot.bind (checked_alternate.bind (hc.map _))

theorem read_sync {m : Fin 8} (h : w.kind = 5) (hm : w.selector = m.val) :
    Checked (w.read bound) (AlternateOk w) (.sync m w.upper (alternateOf w)) := by
  have hread : w.read bound = (index? 8 w.selector).bind fun m => w.alternate.map fun a => .sync m w.upper a := by
    rw [StepRecord.read, h]
    cases index? 8 w.selector <;> cases w.alternate <;> rfl
  rw [hread]
  exact ((checked_mark hm).bind (checked_alternate.map _)).congr (iff_of_eq (true_and _)).symm

theorem read_signal {m : Fin 8} (h : w.kind = 6) (hm : w.selector = m.val) :
    Checked (w.read bound) (w.option ≤ 1) (.signal m (w.option == 1)) := by
  have hread : w.read bound = (index? 8 w.selector).bind fun m =>
      (withinNat 0 1 w.option).map fun b => .signal m (b == 1) := by
    rw [StepRecord.read, h]
    cases index? 8 w.selector <;> cases withinNat 0 1 w.option <;> rfl
  rw [hread]
  exact ((checked_mark hm).bind ((checked_upTo ..).map _)).congr (iff_of_eq (true_and _)).symm

/-- R141: there is no mark above 7. -/
theorem read_noMark (h : w.kind = 5 ∨ w.kind = 6) (hm : 7 < w.selector) : w.read bound = none := by
  rcases h with h | h <;> rw [StepRecord.read, h, index?_none.2 hm] <;> rfl

theorem read_jump (h : w.kind = 7) : Checked (w.read bound) (w.lower ≤ 511) (.jump w.lower w.upper) := by
  have hread : w.read bound = (withinNat 0 511 w.lower).map fun t => .jump t w.upper := by
    rw [StepRecord.read, h]
    rfl
  rw [hread]
  exact (checked_upTo ..).map _

theorem read_recordOff (h : w.kind = 8) (ho : w.option = 0) : w.read bound = some .recordOff := by
  rw [StepRecord.read, h, ho]
  rfl

theorem read_recordOn (h : w.kind = 8) (ho : w.option = 1) :
    Checked (w.read bound) (1 ≤ w.w2.toNat ∧ w.w2.toNat ≤ 255) (.recordOn (w.w2.setWidth 8)) := by
  have hread : w.read bound = (withinNat 1 255 w.w2.toNat).map fun d => .recordOn (BitVec.ofNat 8 d) := by
    rw [StepRecord.read, h, ho]
    rfl
  rw [hread, ← BitVec.ofNat_toNat]
  exact (checked_withinNat ..).map _

theorem read_noSwitch (h : w.kind = 8) (ho : 1 < w.option) : w.read bound = none := by
  simp only [StepRecord.read, h]
  split
  case h_3 => rfl
  all_goals omega

theorem read_mark (h : w.kind = 9) :
    Checked (w.read bound) (w.w1.toNat ≤ 65535) (.mark (w.w1.setWidth 16)) := by
  have hread : w.read bound = (withinNat 0 65535 w.w1.toNat).map fun v => .mark (BitVec.ofNat 16 v) := by
    rw [StepRecord.read, h]
    rfl
  rw [hread, ← BitVec.ofNat_toNat]
  exact (checked_upTo ..).map _

theorem read_cut (h : w.kind = 10) : Checked (w.read bound) (SlotOk w bound) (.cut w.selector) := by
  have hread : w.read bound = (w.slot bound).map .cut := by
    rw [StepRecord.read, h]
    rfl
  rw [hread]
  exact checked_slot.map _

/-! ### The conditions of an AWAIT record (R121) -/

theorem condition_status (h : w.option = 0) :
    Checked w.condition True (.status (w.w1.setWidth 16) (w.w2.setWidth 16)) := by
  have hlow : ∀ x : Word, loHalf x = x.setWidth 16 := fun x => BitVec.eq_of_toNat_eq (by simp [loHalf])
  rw [StepRecord.condition, h, ← hlow, ← hlow]
  exact .pure _

theorem condition_speedAtLeast (h : w.option = 1) : Checked w.condition
    (-3000000 ≤ w.w1.toInt ∧ w.w1.toInt ≤ 3000000) (.speedAtLeast w.w1.toInt) := by
  rw [StepRecord.condition, h]
  exact (checked_within ..).map _

theorem condition_speedAtMost (h : w.option = 2) : Checked w.condition
    (-3000000 ≤ w.w1.toInt ∧ w.w1.toInt ≤ 3000000) (.speedAtMost w.w1.toInt) := by
  rw [StepRecord.condition, h]
  exact (checked_within ..).map _

theorem condition_torqueAtLeast (h : w.option = 3) : Checked w.condition
    (-4000 ≤ w.w1.toInt ∧ w.w1.toInt ≤ 4000) (.torqueAtLeast w.w1.toInt) := by
  rw [StepRecord.condition, h]
  exact (checked_within ..).map _

theorem condition_torqueAtMost (h : w.option = 4) : Checked w.condition
    (-4000 ≤ w.w1.toInt ∧ w.w1.toInt ≤ 4000) (.torqueAtMost w.w1.toInt) := by
  rw [StepRecord.condition, h]
  exact (checked_within ..).map _

theorem condition_settled (h : w.option = 5) : Checked w.condition True .settled := by
  rw [StepRecord.condition, h]
  exact .pure _

theorem condition_none (h : 5 < w.option) : w.condition = none := by
  unfold StepRecord.condition
  split
  case h_7 => rfl
  all_goals omega

theorem read_await_noCondition (h : w.kind = 4) (hc : 5 < w.option) : w.read bound = none := by
  rw [read_await h, condition_none hc]
  cases w.slot bound <;> cases w.alternate <;> rfl

/-! ### When a condition holds (R121) -/

/-- Two words agree under a mask exactly when they agree in every bit of it. -/
theorem masked_eq_iff (a b m : BitVec 16) :
    a &&& m = b &&& m ↔ ∀ n : Fin 16, m.getLsbD n = true → a.getLsbD n = b.getLsbD n := by
  constructor
  · intro h n hn
    have hbit := congrArg (·.getLsbD n) h
    simpa only [BitVec.getLsbD_and, hn, Bool.and_true] using hbit
  · intro h
    refine BitVec.eq_of_getLsbD_eq fun n hn => ?_
    rw [BitVec.getLsbD_and, BitVec.getLsbD_and]
    cases hm : m.getLsbD n with
    | false => simp
    | true => rw [h ⟨n, hn⟩ hm]

theorem conditionHolds_status (h : s.heldRec i = some f) (care pattern : LinkWord) :
    s.conditionHolds i (.status care pattern) = true ↔
      ∀ n : Fin 16, care.getLsbD n = true → f.status.getLsbD n = pattern.getLsbD n := by
  rw [State.conditionHolds, h, ← masked_eq_iff]
  exact beq_iff_eq

/-- R121: a condition on the held record does not hold without one. -/
theorem conditionHolds_absent (h : s.heldRec i = none) {cond : WaitCondition} (hc : cond ≠ .settled) :
    s.conditionHolds i cond = false := by
  cases cond with
  | settled => exact absurd rfl hc
  | _ => rw [State.conditionHolds, h]

theorem conditionHolds_settled (hok : TripsOk s) : s.conditionHolds i .settled = true ↔
    ∃ k, (s.share.sets.get k).valid = true ∧ i ∈ (s.share.sets.get k).memberList ∧ (s.setStat k).settled = true := by
  rw [State.conditionHolds]
  constructor
  · intro h
    split at h
    · cases h
    · next k hk =>
      obtain ⟨hv, hm⟩ := ReportClose.setOf_some hk
      exact ⟨k, hv, hm, h⟩
  · rintro ⟨k, hv, hm, h⟩
    rw [ReleaseRequest.setOf_of_member hok hv hm]
    exact h

end Sys2Proof.Machine.StepRecords
end

