-- ==== Sys2Proof/Proofs/StepKinds.lean ====
section
/-! PROOFS. MARK (R129) and CUT (R130) with the hand-off of the trip that a CUT makes (R145), and every kind of step
when a runner reaches it. Settles O35. -/

namespace Sys2Proof.Machine.StepKind

open ReportClose RunnerStep StepRecords

variable {s : State} {r q : Fin 4} {ctx : CloseCtx} {n slot : Nat} {i : Fin 32} {cycle : BitVec 16}
  {cause : TripCause} {moved : List (Fin 32)} {l : List (Fin 4)}

/-! ### MARK (R129, R204) -/

/-- R204: the fields of the first header word of a MARK lie side by side. -/
theorem markHeader_eq (r : Fin 4) (v : LinkWord) : place (2 : BitVec 4) 28 ||| place (BitVec.ofNat 2 r.val) 24 |||
    place v 0 = BitVec.ofNat 32 (0x20000000 + 0x1000000 * r.val + v.toNat) := by
  have hv := v.isLt
  have hr := r.isLt
  have hlow : r.val <<< 24 + v.toNat = r.val <<< 24 ||| v.toNat := Nat.shiftLeft_add_eq_or_of_lt (by omega) _
  have hhigh : 2 <<< 28 + (r.val <<< 24 + v.toNat) = 2 <<< 28 ||| (r.val <<< 24 + v.toNat) :=
    Nat.shiftLeft_add_eq_or_of_lt (by omega) _
  apply BitVec.eq_of_toNat_eq
  have hkind : (place (2 : BitVec 4) 28).toNat = 2 <<< 28 := rfl
  have hrunner : (place (BitVec.ofNat 2 r.val) 24).toNat = r.val <<< 24 := by
    simp [place]
    omega
  have hvalue : (place v 0).toNat = v.toNat := by
    simp [place]
    omega
  rw [BitVec.toNat_or, BitVec.toNat_or, hkind, hrunner, hvalue, Nat.or_assoc, ← hlow, ← hhigh, BitVec.toNat_ofNat]
  omega

theorem halves_zero (x : LinkWord) : halves 0 x = x.setWidth 32 := by
  apply BitVec.eq_of_toNat_eq
  rw [halves, BitVec.toNat_append]
  simp
  omega

theorem runSteps_mark {v : LinkWord} (h : s.stepOf r = some (.mark v)) : runSteps ctx r (n + 1) s =
    runSteps ctx r n (setRunner r { s.runner r with step := (s.runner r).step + 1 }
      (if (s.runner r).recording then produceRecord
        [BitVec.ofNat 32 (0x20000000 + 0x1000000 * r.val + v.toNat), ctx.cycle.setWidth 32] s else s)) := by
  have hwords : ringHeader 2 r v 0 ctx.cycle =
      [BitVec.ofNat 32 (0x20000000 + 0x1000000 * r.val + v.toNat), ctx.cycle.setWidth 32] := by
    rw [ringHeader, markHeader_eq, halves_zero]
  rw [runSteps_of_step h, reachStep, goOn, setStep, hwords, produceIf_runner]
  rfl

/-! ### The hand-off of a trip (R145) -/

/-- R145: a runner that binds none of the sections takes no hand-off. -/
theorem handOffTo_unbound (h : ∀ i ∈ moved, i ∉ (s.runner r).slots) : handOffTo cycle moved r s = s := by
  have hhits : moved.filter (fun i => decide (i ∈ (s.runner r).slots)) = [] := by simpa using h
  unfold handOffTo
  dsimp only
  rw [hhits]
  split <;> rfl

theorem handOffTo_slots : ((handOffTo cycle moved r s).runner q).slots = (s.runner q).slots := by
  rcases runners_closed.toClosedRun.handOffTo cycle moved r q (s := s) with h | ⟨-, how, h⟩
  · rw [h]
  · rw [h]
    cases how <;> rfl

/-- R145: only the runner that binds the sections takes the hand-off. -/
theorem forEach_handOffTo_of_bound (hl : l.Nodup) (h : ∀ q, q ≠ r → ∀ i ∈ moved, i ∉ (s.runner q).slots) :
    forEach l (handOffTo cycle moved) s = if r ∈ l then handOffTo cycle moved r s else s := by
  induction l generalizing s with
  | nil => rfl
  | cons q l ih =>
    obtain ⟨hq, hl⟩ := List.nodup_cons.1 hl
    show forEach l (handOffTo cycle moved) (handOffTo cycle moved q s) = _
    by_cases e : q = r
    · subst e
      rw [ih hl (by simpa only [handOffTo_slots] using h), if_neg hq, if_pos List.mem_cons_self]
    · rw [handOffTo_unbound (h q e), ih hl h]
      simp [Ne.symm e]

theorem handOff_of_bound (h : ∀ q, q ≠ r → ∀ i ∈ moved, i ∉ (s.runner q).slots) :
    handOff cycle moved s = handOffTo cycle moved r s :=
  (forEach_handOffTo_of_bound (List.nodup_finRange 4) h).trans (if_pos (List.mem_finRange r))

section
variable (hlive : (s.runner r).isLive = true) (hrec : (s.runner r).recording = false) (hi : i ∈ (s.runner r).slots)
include hlive hrec hi

/-- R145: the runner of the section faults with TRIPPED, unless the section's cutoff action is IGNORE. -/
theorem handOffTo_bound : handOffTo cycle [i] r s =
    if (s.settings i).cutoff = .ignore then s else leaveRunner cycle r (.fault .tripped (s.runner r).step) s := by
  have hhits : [i].filter (fun i => decide (i ∈ (s.runner r).slots)) = [i] := by simp [hi]
  unfold handOffTo
  dsimp only
  rw [if_pos hlive, hhits, hrec]
  by_cases hc : (s.settings i).cutoff = .ignore <;> simp [hc, forEach, produceIf]

end

/-! ### CUT of a CLEAR section (R130, R144, R155) -/

/-- R90: a trip of a section in no valid set hands that section over, from a state with the settings and runners as
they were. -/
theorem tripAction_handOff (h : Alone i s) : ∃ u,
    SameExcept [.trips, .rewriter, .banks, .share, .events] s u ∧
      tripAction cycle cause i s = setTripLine (handOff cycle [i] u) := by
  have hmoved : s.movedBy i = [i] := movedBy_of_no_set h.setOf
  have hlatched : SameExcept [.trips, .rewriter, .banks, .share, .events] s
      (forEach (s.peersOf i) peerTrip (latchTrip cause i s)) :=
    (latchTrip_frame ..).mono.trans (.forEach (fun _ _ => (peerTrip_frame _).mono) _)
  have hcut := hlatched.trans (.forEach (fun i _ => (cutBack_frame i).mono) [i])
  exact ⟨_, (hcut.step (haltSetOf_frame i)).step (raise_frame .trip), by rw [tripAction, hmoved]⟩

/-- What a CUT of a CLEAR section in no valid set needs of the runner that takes it. -/
structure CutsAlone (i : Fin 32) (r : Fin 4) (s : State) : Prop where
  running : (s.runner r).state = .running
  unrecorded : (s.runner r).recording = false
  bound : i ∈ (s.runner r).slots
  clear : s.tripped i = false
  alone : Alone i s
  others : ∀ q, q ≠ r → i ∉ (s.runner q).slots

/-- R130, R143, R145: the runners and the fault event after the trip, by the section's cutoff action. -/
theorem CutsAlone.tripAction_runners (h : CutsAlone i r s) :
    if (s.settings i).cutoff = .ignore then (tripAction cycle cause i s).runners = s.runners
    else (tripAction cycle cause i s).flag .runnerFault = true ∧ (tripAction cycle cause i s).runner r =
      { s.runner r with state := .faulted, fault := some .tripped, faultStep := (s.runner r).step, endCode := 0
                        injection := 0, recording := false, phase := 0 } := by
  obtain ⟨u, hu, htrip⟩ := tripAction_handOff (cycle := cycle) (cause := cause) h.alone
  have hrunners : u.runners = s.runners := hu.same .runners (by decide)
  have hrunner : ∀ q, u.runner q = s.runner q := runner_of_runners hrunners
  have hsettings : u.settings i = s.settings i := settings_of_frame hu (by decide) i
  have hlive : (u.runner r).isLive = true := by rw [hrunner, Runner.isLive, h.running]; rfl
  have hrec : (u.runner r).recording = false := by rw [hrunner, h.unrecorded]
  have hhand : handOff cycle [i] u = handOffTo cycle [i] r u := handOff_of_bound fun q hq j hj => by
    rw [List.mem_singleton.1 hj, hrunner]
    exact h.others q hq
  rw [htrip, hhand, handOffTo_bound hlive hrec (by rw [hrunner]; exact h.bound), hsettings]
  split
  · exact hrunners
  · refine ⟨setBit16_self _ (Fin.isLt _), ?_⟩
    show (leaveRunner cycle r (.fault .tripped (u.runner r).step) u).runner r = _
    rw [leaveRunner_runner, if_pos rfl, hrunner]
    rfl

/-! ### CUT when reached -/

theorem cutStep_of_slot (h : (s.runner r).slots[slot]? = some i) : cutStep ctx r slot s =
    (tripSection ctx.cycle .program i s,
      if ((tripSection ctx.cycle .program i s).runner r).isLive then .next else .left) := by
  rw [cutStep, h]

section
variable (hop : s.stepOf r = some (.cut slot)) (hslot : (s.runner r).slots[slot]? = some i)
include hop hslot

/-- R130: a CUT reaches its section like any trip, and the runner goes on while it runs. -/
theorem runSteps_cut {u : State} (hu : tripSection ctx.cycle .program i s = u) : runSteps ctx r (n + 1) s =
    if (u.runner r).isLive then runSteps ctx r n (setRunner r { u.runner r with step := (u.runner r).step + 1 } u)
    else u := by
  rw [runSteps_of_step hop, reachStep, cutStep_of_slot hslot, hu]
  split <;> rfl

/-- R91, R130: a CUT of a TRIPPED section enters PROGRAM among its later causes. -/
theorem runSteps_cut_tripped {x : TripRecord} (hrun : (s.runner r).state = .running) (ht : s.tripped i = true)
    (hx : (s.tp i).record = some x) : runSteps ctx r (n + 1) s =
      runSteps ctx r n (setRunner r { s.runner r with step := (s.runner r).step + 1 }
        (setTp i
          { latch := true
            record := some { x with later := if x.cause = .program then x.later else x.later ||| 0x0100 } } s)) := by
  have hlater : x.addLater .program =
      { x with later := if x.cause = .program then x.later else x.later ||| 0x0100 } := by
    by_cases hc : x.cause = .program
    · rw [TripRecord.addLater, if_pos hc.symm, if_pos hc]
    · rw [TripRecord.addLater, if_neg (Ne.symm hc), if_neg hc]
      rfl
  have hlatch : (s.tp i).latch = true := ht
  have htrip : tripSection ctx.cycle .program i s = setTp i
      { latch := true
        record := some { x with later := if x.cause = .program then x.later else x.later ||| 0x0100 } } s := by
    rw [tripSection_later _ _ _ ht, addLaterCause, hx, Option.map_some, hlater, ← hlatch]
  rw [runSteps_cut hop hslot htrip, if_pos]
  · rfl
  · show (s.runner r).isLive = true
    rw [Runner.isLive, hrun]
    rfl

/-- R130, R144, R155: a CUT of a CLEAR section in no valid set. -/
theorem runSteps_cut_clear (h : CutsAlone i r s) :
    ∃ u x, u.tripped i = true ∧ (u.tp i).record = some x ∧ x.cause = .program ∧ x.later = 0 ∧
      u.flag .trip = true ∧ (∀ j, j ≠ i → u.tp j = s.tp j) ∧
      if (s.settings i).cutoff = .ignore then
        runSteps ctx r (n + 1) s =
          runSteps ctx r n (setRunner r { s.runner r with step := (s.runner r).step + 1 } u) ∧ u.runners = s.runners
      else
        runSteps ctx r (n + 1) s = u ∧ u.flag .runnerFault = true ∧
        u.runner r = { s.runner r with state := .faulted, fault := some .tripped, faultStep := (s.runner r).step
                                       endCode := 0, injection := 0, recording := false, phase := 0 } := by
  have htrip : tripSection ctx.cycle .program i s = tripAction ctx.cycle .program i s := if_neg (by simp [h.clear])
  have hrunners := h.tripAction_runners (cycle := ctx.cycle) (cause := .program)
  have hrun := runSteps_cut (n := n) hop hslot htrip
  have hpeers : s.peersOf i = [] := by rw [State.peersOf, h.alone.setOf]
  refine ⟨tripAction ctx.cycle .program i s, _, tripAction_tripped_self .., congrArg (·.record) (tripAction_own ..),
    rfl, rfl, tripAction_flag .., fun j hj => tripAction_other _ _ hj (by simp [hpeers]), ?_⟩
  split at hrunners
  · next hc =>
    have hrunner := runner_of_runners hrunners r
    have hlive : (s.runner r).isLive = true := by rw [Runner.isLive, h.running]; rfl
    rw [hrunner, if_pos hlive] at hrun
    rw [if_pos hc]
    exact ⟨hrun, hrunners⟩
  · next hc =>
    obtain ⟨hflag, hrunner⟩ := hrunners
    have hover : ¬ ((tripAction ctx.cycle .program i s).runner r).isLive = true := by
      rw [hrunner]
      exact Bool.false_ne_true
    rw [if_neg hover] at hrun
    rw [if_neg hc]
    exact ⟨hrun, hflag, hrunner⟩

end

/-! ### Every kind of step -/

/-- Settles O35: each kind when reached, the reading of each record, and each condition. -/
theorem stepKinds : Obligations.StepKinds := by
  unfold Obligations.StepKinds
  refine ⟨?reached, ?table, fun r k s hk => stepOf_program hk, ?conditions⟩
  case reached =>
    intro ctx r n s c onward faulted
    refine ⟨fun v h => runSteps_set h, fun m on h => ?signal, fun t h => runSteps_plainJump h, fun t k h hk _ => ?jump,
      fun d h => runSteps_recordOn h, fun h => runSteps_recordOff h, fun v h => runSteps_mark h,
      fun target k h => runSteps_ramp h, fun k h => runSteps_dwell h, fun slot cond k alt i h hi => ?await,
      fun m k alt h => runSteps_sync h, fun code h hrec => runSteps_finish h hrec,
      fun h hrec => (runSteps_bad h).trans (faultRunner_unrecorded hrec ..),
      fun slot i x h hi hrun ht hx => runSteps_cut_tripped h hi hrun ht hx, stepOf_end, ?cut⟩
    case signal =>
      exact ⟨_, runSteps_signal h, setSyncMark_frame .., fun _ => rfl, fun j => setSyncMark_syncMark m j on s⟩
    case jump =>
      have hcount : k ≠ 0 := by omega
      have hloaded : (BitVec.ofNat 16 k).toNat = k := by rw [BitVec.toNat_ofNat]; omega
      have hless : 2 ≤ k → BitVec.ofNat 16 k - 1 = BitVec.ofNat 16 (k - 1) := fun htwo => by bv_omega
      refine ⟨fun hl hone => ?_, fun hl htwo => ?_, fun l hl howner hone => ?_, fun l hl howner htwo => ?_,
        fun l hl howner hrec => ?_⟩
      · rw [runSteps_jump_last h hcount (.inl ⟨hl, rfl⟩) (hloaded.trans hone), ← hl]
      · rw [runSteps_jump_taken h hcount (.inl ⟨hl, rfl⟩) (hloaded.symm ▸ htwo), hless htwo]
      · rw [runSteps_jump_last h hcount (.inr ⟨l, hl, howner, rfl⟩) (by rw [hone]; rfl)]
      · rw [runSteps_jump_taken h hcount (.inr ⟨l, hl, howner, rfl⟩) htwo, ← howner]
      · exact (runSteps_jump_nesting h hcount hl howner).trans (faultRunner_unrecorded hrec ..)
    case await =>
      have hcond : s.slotCondition r slot cond = s.conditionHolds i cond := by rw [State.slotCondition, hi]
      exact hcond ▸ runSteps_await h
    case cut =>
      intro slot i h hi hrun hrec hclear halone hothers
      exact runSteps_cut_clear h hi ⟨hrun, hrec, List.mem_of_getElem? hi, hclear, halone, hothers⟩
  case table =>
    intro w bound kind sel opt upper lower alt altOk slotOk speed torque inject closes holds
    have hkind : kind = w.kind := (kind_eq w).symm
    have hsel : sel = w.selector := (selector_eq w).symm
    have hopt : opt = w.option := (option_eq w).symm
    have hupper : upper = w.upper := (upper_eq w).symm
    have hlower : lower = w.lower := (lower_eq w).symm
    clear_value kind sel opt upper lower
    subst hkind hsel hopt hupper hlower
    refine ⟨read_finish, read_set, read_ramp, read_dwell, fun h => ?await,
      fun h => ⟨fun m hm => read_sync h hm, read_noMark (.inl h)⟩,
      fun h => ⟨fun m hm => read_signal h hm, read_noMark (.inr h)⟩, read_jump,
      fun h => ⟨read_recordOff h, read_recordOn h, read_noSwitch h⟩, read_mark, read_cut, read_unknown⟩
    case await =>
      have hplain : (slotOk ∧ altOk) ↔ SlotOk w bound ∧ AlternateOk w ∧ True := by rw [and_true]; rfl
      exact ⟨fun ho => (read_await_of_condition h (condition_status ho)).congr hplain,
        fun ho => read_await_of_condition h (condition_speedAtLeast ho),
        fun ho => read_await_of_condition h (condition_speedAtMost ho),
        fun ho => read_await_of_condition h (condition_torqueAtLeast ho),
        fun ho => read_await_of_condition h (condition_torqueAtMost ho),
        fun ho => (read_await_of_condition h (condition_settled ho)).congr hplain, read_await_noCondition h⟩
  case conditions =>
    refine fun i s => ⟨fun f hf => ⟨conditionHolds_status hf, fun v => ?_⟩, fun h cond => conditionHolds_absent h,
      conditionHolds_settled⟩
    simp [State.conditionHolds, hf]

end Sys2Proof.Machine.StepKind
end

