-- ==== Sys2Proof/Proofs/RunnerRequests.lean ====
section
/-! PROOFS. The requests of program memory and of the runners (R113, R135, R136, R142, R146, R148): the refusals in
their order and what an accepted request writes. Settles O45, O47 and O48. -/

namespace Sys2Proof.Machine.RunnerRequest

open RunnerStep

variable {s t : State} {tag kind : BitVec 8} {record runner step mark : BitVec 16} {r : Fin 4} {k : Fin 512}
  {m : Fin 8} {is : List (Fin 32)} {ws : List Word} {w : Word} {cycle : BitVec 16} {code : AnswerCode}
  {op : State → State × Reply} {x : Reply}

/-! ### A request that is served (R166) -/

/-- R166: what a served request does, and the answer it leaves. -/
theorem next_serve (hs : s.canServe) (h : op s = (t, x)) :
    (Host.Outcome.next (serve tag kind op s) : Host.Outcome State Fault Refusal) =
      .next (t.answered (SetWrite.answerOf tag kind x)) := by
  rw [SetWrite.serve_of_canServe hs, h]

/-- R166: a refused request changes nothing but the answer slot. -/
theorem next_refused (hs : s.canServe) (h : op s = refuse code s) :
    (Host.Outcome.next (serve tag kind op s) : Host.Outcome State Fault Refusal) =
      .next (s.answered (plainAnswer tag kind code)) :=
  next_serve hs h

/-! ### A WRITE of a whole step record (R113, R171, R172) -/

theorem anyLive_iff : s.anyLive = true ↔ ∃ r, (s.runner r).isLive = true := by
  simp [State.anyLive, runnerIndexes]

/-- R172: PROGRAM is protected by its flag, and while the key is OFF. -/
theorem writeProtected_program :
    s.writeProtected 3 0 4 = true ↔ s.service.prot.program = true ∨ s.control.key.filtered = false := by
  simp [State.writeProtected, State.groupProtected, State.keyOn, runTouches]

section
variable (hr : record.toNat = k.val) (a b c d : Word)
include hr

theorem writeRefusal_program : s.writeRefusal 3 record 0 4 =
    if s.writeProtected 3 0 4 then some .protectedGroup else none := by
  have hlen : writableLength 3 = some 4 := rfl
  have hrec : regionRecords 3 = some 512 := rfl
  have hin : ¬ 512 ≤ record.toNat := by omega
  unfold State.writeRefusal
  rw [hlen, hrec]
  dsimp only
  rw [if_neg hin, if_neg (by decide), if_neg (by decide)]
  rfl

theorem writeRequest_program_protected (h : s.writeProtected 3 0 4 = true) :
    writeRequest cycle 3 record 0 [a, b, c, d] s = refuse .protectedGroup s := by
  have hrefusal : s.writeRefusal 3 record 0 [a, b, c, d].length = _ := writeRefusal_program hr
  rw [writeRequest, guardWrite, hrefusal, if_pos h]

/-- R113: past the common checks the words are stored whole, unless a runner is RUNNING or WAITING. -/
theorem writeRequest_program (h : ¬ s.writeProtected 3 0 4 = true) :
    writeRequest cycle 3 record 0 [a, b, c, d] s =
      if s.anyLive then refuse .busy s
      else (s.setProgram (s.program.set k ⟨a, b, c, d⟩), writeReply .ok [a, b, c, d] 0 4) := by
  have hrefusal : s.writeRefusal 3 record 0 [a, b, c, d].length = _ := writeRefusal_program hr
  have howner : writeRequest cycle 3 record 0 [a, b, c, d] s = writeProgram k 0 [a, b, c, d] s := by
    rw [writeRequest, guardWrite, hrefusal, if_neg h, hr]
    simp
  exact howner

end

/-- Settles O45: the common checks of a WRITE, then the owner's check of the runners. -/
theorem programWrite : Obligations.ProgramWrite := by
  unfold Obligations.ProgramWrite
  intro tag record k a b c d s hs hr
  have hopen : s.service.prot.program = false → s.control.key.filtered = true → ¬ s.writeProtected 3 0 4 = true := by
    intro hprog hkey
    rw [writeProtected_program, hprog, hkey]
    decide
  refine ⟨fun h => ?guarded, fun hprog hkey hlive => ?busy, fun hprog hkey hlive => ?stored⟩
  case guarded =>
    exact next_refused hs (writeRequest_program_protected hr a b c d (writeProtected_program.2 h))
  case busy =>
    have hwrite := writeRequest_program (cycle := s.link.lastCycle) hr a b c d (hopen hprog hkey)
    rw [if_pos (anyLive_iff.2 hlive)] at hwrite
    exact next_refused hs hwrite
  case stored =>
    have hnone : ¬ s.anyLive = true := by
      rw [anyLive_iff]
      rintro ⟨r, hr⟩
      rw [hlive r] at hr
      cases hr
    have hwrite := writeRequest_program (cycle := s.link.lastCycle) hr a b c d (hopen hprog hkey)
    rw [if_neg hnone] at hwrite
    exact next_serve hs hwrite

/-! ### START (R135, R136) -/

/-- The words of a section list. -/
def listWords (is : List (Fin 32)) : List Word := is.map fun i => BitVec.ofNat 32 i.val

theorem length_listWords (is : List (Fin 32)) : (listWords is).length = is.length := List.length_map ..

/-- R201: the section list is read back from its words. -/
theorem sectionList_listWords (is : List (Fin 32)) : sectionList (listWords is) = some is := by
  have hword : ∀ i : Fin 32, index? 32 (BitVec.ofNat 32 i.val).toNat = some i := fun i => by
    rw [index?_some, BitVec.toNat_ofNat]
    omega
  induction is with
  | nil => rfl
  | cons i is ih =>
    rw [sectionList, listWords] at ih ⊢
    rw [List.map_cons, List.mapM_cons, hword, ih]
    rfl

theorem boundRunner_isSome {i : Fin 32} : (s.boundRunner i).isSome = true ↔ ∃ q, i ∈ (s.runner q).slots := by
  simp [State.boundRunner, runnerIndexes]

theorem startRequest_noRunner (h : 4 ≤ runner.toNat) : startRequest runner step ws s = refuse .badValue s := by
  rw [startRequest, index?_none.2 h]

section
variable (hr : runner.toNat = r.val)
include hr

theorem startRequest_mode (h : s.control.mode ≠ .engaged) : startRequest runner step ws s = refuse .mode s := by
  rw [startRequest, index?_some.2 hr.symm]
  simp [State.engaged, h]

variable (he : s.control.mode = .engaged)
include he

theorem startRequest_busy (h : (s.runner r).state ≠ .idle) : startRequest runner step ws s = refuse .busy s := by
  rw [startRequest, index?_some.2 hr.symm]
  simp [State.engaged, he, h]

variable (hidle : (s.runner r).state = .idle)
include hidle

/-- R135 checks 4 to 7, each over the whole list, and R136. -/
theorem startRequest_of_idle : startRequest runner step (listWords is) s =
    if 511 < step.toNat ∨ is.length = 0 ∨ 4 < is.length then refuse .badValue s
    else if ¬ is.Nodup then refuse .badValue s
    else if is.any fun i => !(s.settings i).valid then refuse .noEntry s
    else if is.any fun i => (s.settings i).mode == .pass || (s.boundRunner i).isSome then refuse .conflict s
    else if is.any s.tripped then refuse .tripped s
    else (setRunner r (Runner.started is step.toNat) s, Reply.only .ok) := by
  have hengaged : ¬ (!s.engaged) = true := by simp [State.engaged, he]
  rw [startRequest, index?_some.2 hr.symm]
  dsimp only
  rw [if_neg hengaged, if_neg (not_not.2 hidle), length_listWords, sectionList_listWords]

theorem startRequest_badValue (h : 511 < step.toNat ∨ is = [] ∨ 4 < is.length ∨ ¬ is.Nodup) :
    startRequest runner step (listWords is) s = refuse .badValue s := by
  rw [startRequest_of_idle hr he hidle]
  split
  · rfl
  · next hbounds =>
    have hdup : ¬ is.Nodup := by
      rw [← List.length_eq_zero_iff] at h
      tauto
    rw [if_pos hdup]

theorem startRequest_checked (hstep : step.toNat ≤ 511) (hne : is ≠ []) (hlen : is.length ≤ 4) (hnodup : is.Nodup) :
    startRequest runner step (listWords is) s =
      if is.any fun i => !(s.settings i).valid then refuse .noEntry s
      else if is.any fun i => (s.settings i).mode == .pass || (s.boundRunner i).isSome then refuse .conflict s
      else if is.any s.tripped then refuse .tripped s
      else (setRunner r (Runner.started is step.toNat) s, Reply.only .ok) := by
  have hpos := List.length_pos_of_ne_nil hne
  rw [startRequest_of_idle hr he hidle, if_neg (by omega), if_neg (not_not.2 hnodup)]

end

theorem blockData_of_length (h : ws.length ≤ 8) : blockData ws = ws := List.take_of_length_le h

/-- Settles O47: the refusals of R135 in their order, and the started context of R136. -/
theorem start : Obligations.Start := by
  unfold Obligations.Start
  intro tag runner step is s hs hlen ws c
  have hexec : exec c s = .next (serve tag 5 (startRequest runner step (listWords is)) s) := by
    show Host.Outcome.next (serve tag 5 (startRequest runner step (blockData (listWords is))) s) = _
    rw [blockData_of_length (by rwa [length_listWords])]
  rw [hexec]
  refine ⟨fun h => next_refused hs (startRequest_noRunner h), fun r hr => ⟨?mode, ?busy, ?badValue, ?checked⟩⟩
  case mode => exact fun h => next_refused hs (startRequest_mode hr h)
  case busy => exact fun he h => next_refused hs (startRequest_busy hr he h)
  case badValue => exact fun he hidle h => next_refused hs (startRequest_badValue hr he hidle h)
  case checked =>
    intro he hidle hstep hne hlen hnodup
    have hreq := startRequest_checked hr he hidle hstep hne hlen hnodup
    have hvalid (h : ∀ i ∈ is, (s.settings i).valid = true) : ¬ (is.any fun i => !(s.settings i).valid) = true := by
      simpa using h
    have hfree (h : ∀ i ∈ is, (s.settings i).mode = .active ∧ ∀ q, i ∉ (s.runner q).slots) :
        ¬ (is.any fun i => (s.settings i).mode == .pass || (s.boundRunner i).isSome) = true := by
      simp only [List.any_eq_true, Bool.or_eq_true, beq_iff_eq, boundRunner_isSome]
      rintro ⟨i, hi, hpass | ⟨q, hq⟩⟩
      · rw [(h i hi).1] at hpass
        cases hpass
      · exact (h i hi).2 q hq
    refine ⟨?noEntry, ?conflict, ?tripped, ?started⟩
    case noEntry =>
      rintro ⟨i, hi, h⟩
      rw [if_pos (List.any_eq_true.2 ⟨i, hi, by rw [h]; rfl⟩)] at hreq
      exact next_refused hs hreq
    case conflict =>
      rintro hv ⟨i, hi, h⟩
      have hany : (is.any fun i => (s.settings i).mode == .pass || (s.boundRunner i).isSome) = true := by
        simp only [List.any_eq_true, Bool.or_eq_true, beq_iff_eq, boundRunner_isSome]
        exact ⟨i, hi, h⟩
      rw [if_neg (hvalid hv), if_pos hany] at hreq
      exact next_refused hs hreq
    case tripped =>
      rintro hok ⟨i, hi, h⟩
      rw [if_neg (hvalid fun i hi => (hok i hi).1), if_neg (hfree fun i hi => (hok i hi).2),
        if_pos (List.any_eq_true.2 ⟨i, hi, h⟩)] at hreq
      exact next_refused hs hreq
    case started =>
      intro hok
      have hclear : ¬ is.any s.tripped = true := by
        rw [List.any_eq_true]
        rintro ⟨i, hi, h⟩
        obtain ⟨-, -, -, hclear⟩ := hok i hi
        rw [hclear] at h
        cases h
      have hfree := hfree fun i hi =>
        let ⟨_, hactive, hunbound, _⟩ := hok i hi
        ⟨hactive, hunbound⟩
      rw [if_neg (hvalid fun i hi => (hok i hi).1), if_neg hfree, if_neg hclear] at hreq
      exact next_serve hs hreq

/-! ### STOP and CLOSE (R146, R148) -/

theorem stopRequest_noRunner (h : 4 ≤ runner.toNat) : stopRequest cycle runner s = refuse .badValue s := by
  rw [stopRequest, index?_none.2 h]

theorem closeRequest_noRunner (h : 4 ≤ runner.toNat) : closeRequest runner s = refuse .badValue s := by
  rw [closeRequest, index?_none.2 h]

section
variable (hr : runner.toNat = r.val)
include hr

theorem stopRequest_of_runner : stopRequest cycle runner s =
    if (s.runner r).state = .idle then refuse .idle s
    else if (s.runner r).isLive then (leaveRunner cycle r (.outcome .stopped 0) s, Reply.only .ok)
    else (s, Reply.only .ok) := by
  rw [stopRequest, index?_some.2 hr.symm]

theorem closeRequest_of_runner : closeRequest runner s =
    if (s.runner r).state = .idle then refuse .idle s
    else if (s.runner r).isLive then refuse .busy s
    else (setRunner r Runner.afterReset s, Reply.only .ok) := by
  rw [closeRequest, index?_some.2 hr.symm]

end

/-- R134: a RUNNING or WAITING runner. -/
theorem isLive_of_state (h : (s.runner r).state = .running ∨ (s.runner r).state = .waiting) :
    (s.runner r).state ≠ .idle ∧ (s.runner r).isLive = true := by
  rcases h with h | h <;> simp [Runner.isLive, h]

/-- R134: a DONE or FAULTED runner. -/
theorem not_isLive_of_state (h : (s.runner r).state = .done ∨ (s.runner r).state = .faulted) :
    (s.runner r).state ≠ .idle ∧ ¬ (s.runner r).isLive = true := by
  rcases h with h | h <;> simp [Runner.isLive, h]

/-! ### SIGNAL (R142) -/

theorem signalRequest_noMark (h : 7 < mark.toNat) : signalRequest mark ws s = refuse .badValue s := by
  rw [signalRequest, index?_none.2 h]

theorem signalRequest_noAction (h : actionOf ws = none) : signalRequest mark ws s = refuse .badValue s := by
  rw [signalRequest, h]
  cases index? 8 mark.toNat <;> rfl

theorem signalRequest_set {b : Bool} (hm : mark.toNat = m.val) (h : actionOf ws = some b) :
    signalRequest mark ws s = (setSyncMark m b s, Reply.only .ok) := by
  rw [signalRequest, index?_some.2 hm.symm, h]

theorem actionOf_large (h : 1 < w.toNat) : actionOf [w] = none := by
  have h0 : w ≠ 0 := by rintro rfl; simp at h
  have h1 : w ≠ 1 := by rintro rfl; simp at h
  exact (if_neg h0).trans (if_neg h1)

theorem actionOf_small (h : w.toNat ≤ 1) : actionOf [w] = some (decide (w.toNat = 1)) := by
  have hw : w = 0 ∨ w = 1 := by bv_omega
  rcases hw with rfl | rfl <;> rfl

/-- Settles O48: the two requests by the runner's state, and SIGNAL by its mark and action. -/
theorem stopCloseAndSignal : Obligations.StopCloseAndSignal := by
  unfold Obligations.StopCloseAndSignal
  refine ⟨fun tag runner s hs => ⟨fun h => ⟨?_, ?_⟩, fun r hr => ?runner⟩, fun tag mark w s hs => ?signal⟩
  · exact next_refused hs (stopRequest_noRunner h)
  · exact next_refused hs (closeRequest_noRunner h)
  case runner =>
    have hstop := stopRequest_of_runner (s := s) (cycle := s.link.lastCycle) hr
    have hclose := closeRequest_of_runner (s := s) hr
    refine ⟨fun h => ?idle, fun h => ?live, fun h => ?ended⟩
    case idle =>
      rw [if_pos h] at hstop hclose
      exact ⟨next_refused hs hstop, next_refused hs hclose⟩
    case live =>
      obtain ⟨hidle, hlive⟩ := isLive_of_state h
      rw [if_neg hidle, if_pos hlive] at hstop hclose
      refine ⟨next_refused hs hclose, fun hrec => ?_⟩
      rw [leaveRunner_unrecorded hrec] at hstop
      exact next_serve hs hstop
    case ended =>
      obtain ⟨hidle, hlive⟩ := not_isLive_of_state h
      rw [if_neg hidle, if_neg hlive] at hstop hclose
      exact ⟨next_serve hs hstop, next_serve hs hclose⟩
  case signal =>
    refine ⟨?_, next_refused hs (signalRequest_noAction rfl), fun m hm hw => ?_⟩
    · rintro (hm | hw)
      · exact next_refused hs (signalRequest_noMark hm)
      · exact next_refused hs (signalRequest_noAction (actionOf_large hw))
    · exact ⟨_, next_serve hs (signalRequest_set hm (actionOf_small hw)), setSyncMark_frame .., fun _ => rfl,
        fun n => setSyncMark_syncMark m n _ s⟩

end Sys2Proof.Machine.RunnerRequest
end

