-- ==== Sys2Proof/Proofs/RunnerRecords.lean ====
section
/-! PROOFS. The SAMPLE, TRIP and END records of a recording runner (R145, R153 to R155, R204): what the words of a ring
record hold, what the ring holds after a record, and when each record is produced. Settles O36. -/

namespace Sys2Proof.Machine.RunnerRecords

open ReportClose RunnerStep StepKind RunnerRequest

variable {s t u : State} {r : Fin 4} {c : Runner} {ctx : CloseCtx} {n k : Nat} {i : Fin 32} {is : List (Fin 32)}
  {ws : List Word} {kind : BitVec 4} {a b cycle : BitVec 16} {how : Leaving} {cause : TripCause}

/-! ### The words of a ring record (R204) -/

/-- R204: the first header word of a ring record: kind, runner and the sixteen bits of the kind. -/
def headerWord (kind : BitVec 4) (r : Fin 4) (a : BitVec 16) : Word :=
  place kind 28 ||| place (BitVec.ofNat 2 r.val) 24 ||| place a 0

theorem ringHeader_words : ringHeader kind r a b cycle = [headerWord kind r a, halves b cycle] := rfl

/-- The fields of the first header word lie side by side. -/
theorem headerWord_toNat :
    (headerWord kind r a).toNat = 0x10000000 * kind.toNat + 0x1000000 * r.val + a.toNat := by
  have ha := a.isLt
  have hr := r.isLt
  have hlow : r.val <<< 24 + a.toNat = r.val <<< 24 ||| a.toNat := Nat.shiftLeft_add_eq_or_of_lt (by omega) _
  have hhigh : kind.toNat <<< 28 + (r.val <<< 24 + a.toNat) = kind.toNat <<< 28 ||| (r.val <<< 24 + a.toNat) :=
    Nat.shiftLeft_add_eq_or_of_lt (by omega) _
  have hkind : (place kind 28).toNat = kind.toNat <<< 28 := by
    simp [place]
    omega
  have hrunner : (place (BitVec.ofNat 2 r.val) 24).toNat = r.val <<< 24 := by
    simp [place]
    omega
  have hvalue : (place a 0).toNat = a.toNat := by
    simp [place]
    omega
  rw [headerWord, BitVec.toNat_or, BitVec.toNat_or, hkind, hrunner, hvalue, Nat.or_assoc, ← hlow, ← hhigh]
  omega

theorem headerWord_getLsbD (hn : n < 16) : (headerWord kind r a).getLsbD n = a.getLsbD n := by
  rw [BitVec.getLsbD, BitVec.getLsbD, headerWord_toNat]
  have hsplit : 0x10000000 * kind.toNat + 0x1000000 * r.val + a.toNat =
      2 ^ 16 * (0x1000 * kind.toNat + 0x100 * r.val) + a.toNat := by omega
  rw [hsplit, Nat.testBit_two_pow_mul_add _ a.isLt, if_pos hn]

theorem halves_toNat : (halves a b).toNat = 65536 * a.toNat + b.toNat := by
  rw [halves, BitVec.toNat_append, ← Nat.shiftLeft_add_eq_or_of_lt b.isLt]
  omega

theorem ringHeader_eq : ringHeader kind r a b cycle =
    [BitVec.ofNat 32 (0x10000000 * kind.toNat + 0x1000000 * r.val + a.toNat),
      BitVec.ofNat 32 (65536 * b.toNat + cycle.toNat)] := by
  rw [ringHeader_words, ← headerWord_toNat, ← halves_toNat, BitVec.ofNat_toNat, BitVec.ofNat_toNat,
    BitVec.setWidth_eq, BitVec.setWidth_eq]

/-! ### The ring after a record (R151, R157) -/

theorem ringWords_length (ws : List Word) : (ringWords ws).length = ws.length := by
  cases ws <;> simp [ringWords]

/-- R157: a record that fits is stored whole, after what the ring held. -/
theorem produceRecord_words (h : s.ring.words.length + ws.length ≤ 8192) :
    (produceRecord ws s).ring.words = s.ring.words ++ ringWords ws := by
  rw [produceRecord, if_pos (by simp only [Ring.free, Ring.used, ringSize]; omega)]
  rfl

/-- R151: the words and first-word indications of a record of header words alone. -/
theorem ringWords_ringHeader :
    (ringWords (ringHeader kind r a b cycle)).map (fun x => (x.word.toNat, x.first)) =
      [(0x10000000 * kind.toNat + 0x1000000 * r.val + a.toNat, true), (65536 * b.toNat + cycle.toNat, false)] := by
  rw [← headerWord_toNat, ← halves_toNat]
  rfl

/-! ### The END record (R143, R155) -/

/-- R143, R155: a recording runner that leaves RUNNING or WAITING. -/
theorem leaveRunner_recorded (h : (s.runner r).recording = true) : leaveRunner cycle r how s =
    raise how.event (setRunner r ((s.runner r).left how)
      (produceRecord (endRecord r (s.runner r) how cycle) s)) := by
  rw [leaveRunner, h]
  rfl

theorem leaveRunner_ring_words (h : (s.runner r).recording = true) (hroom : s.ring.words.length + 2 ≤ 8192) :
    (leaveRunner cycle r how s).ring.words = s.ring.words ++ ringWords (endRecord r (s.runner r) how cycle) := by
  rw [leaveRunner_recorded h]
  exact produceRecord_words hroom

/-- A step index, a slot count and a cause code fit their sixteen bits. -/
theorem toNat_ofNat_small (h : n ≤ 512) : (BitVec.ofNat 16 n).toNat = n := by
  rw [BitVec.toNat_ofNat]
  omega

/-- R155: the END record of a STOP. -/
theorem endRecord_stopped (h : c.step ≤ 512) : endRecord r c (.outcome .stopped 0) cycle =
    [BitVec.ofNat 32 (0x40000002 + 0x1000000 * r.val), BitVec.ofNat 32 (65536 * c.step + cycle.toNat)] := by
  rw [endRecord, ringHeader_eq]
  show [BitVec.ofNat 32 (0x40000000 + 0x1000000 * r.val + 2),
    BitVec.ofNat 32 (65536 * (BitVec.ofNat 16 c.step).toNat + cycle.toNat)] = _
  rw [toNat_ofNat_small h, Nat.add_right_comm]

/-- R155: the END record of the fault that a hand-off brings. -/
theorem endRecord_tripped (h : c.step ≤ 512) :
    (ringWords (endRecord r c (.fault .tripped c.step) cycle)).map (fun x => (x.word.toNat, x.first)) =
      [(0x4000000C + 0x1000000 * r.val, true), (65536 * c.step + cycle.toNat, false)] := by
  have hcode : ((0 : BitVec 8) ++ BitVec.ofNat 8 12).toNat = 12 := rfl
  rw [endRecord, ringWords_ringHeader]
  show [(0x40000000 + 0x1000000 * r.val + ((0 : BitVec 8) ++ BitVec.ofNat 8 12).toNat, true),
    (65536 * (BitVec.ofNat 16 c.step).toNat + cycle.toNat, false)] = _
  rw [hcode, toNat_ofNat_small h, Nat.add_right_comm]

/-! ### The SAMPLE record (R153, R204) -/

/-- R204: a flag stands in a SAMPLE header exactly for a slot that has what the flag tells. -/
theorem sampleFlags_getLsbD (hn : n < 16) : (sampleFlags ctx s k is).getLsbD n = true ↔
    ∃ j i, is[j]? = some i ∧ ((n = 8 + (k + j) ∧ (s.heldRec i).isSome = true) ∨
      (n = 12 + (k + j) ∧ (s.sampledRw ctx i).lastOut.isSome = true)) := by
  have hbit : ∀ (p : Bool) (m : Nat), (if p then (1 : BitVec 16) <<< m else 0).getLsbD n = true ↔
      n = m ∧ p = true := by
    intro p m
    cases p with
    | false => simp
    | true =>
      simp [hn]
      omega
  induction is generalizing k with
  | nil => simp [sampleFlags]
  | cons i is ih =>
    have hnext : ∀ j, k + 1 + j = k + (j + 1) := fun j => by omega
    have hrest := ih (k := k + 1)
    simp only [hnext] at hrest
    rw [sampleFlags, BitVec.getLsbD_or, BitVec.getLsbD_or, Bool.or_eq_true, Bool.or_eq_true]
    refine (or_congr (or_congr (hbit ..) (hbit ..)) hrest).trans ⟨?_, ?_⟩
    · rintro (h | ⟨j, h⟩)
      · exact ⟨0, i, rfl, h⟩
      · exact ⟨j + 1, h⟩
    · rintro ⟨j | j, i', hi', h⟩
      · cases hi'
        exact .inl h
      · exact .inr ⟨j, i', hi', h⟩

/-- R204: the flags of at most four slots leave the low byte of the header alone. -/
theorem sampleFlags_low : (sampleFlags ctx s k is).toNat % 256 = 0 := by
  refine Nat.eq_of_testBit_eq fun n => ?_
  rw [Nat.testBit_mod_two_pow _ 8, Nat.zero_testBit, Bool.and_eq_false_iff, decide_eq_false_iff_not]
  by_cases hn : n < 8
  · refine .inr (Bool.eq_false_iff.2 fun h => ?_)
    obtain ⟨j, i, -, ⟨h, -⟩ | ⟨h, -⟩⟩ := (sampleFlags_getLsbD (by omega)).1 h <;> omega
  · exact .inl hn

/-- R204: the sixteen low bits of a SAMPLE header. -/
def sampleBits (ctx : CloseCtx) (s : State) (is : List (Fin 32)) : BitVec 16 :=
  BitVec.ofNat 16 is.length ||| sampleFlags ctx s 0 is

theorem sampleRecord_eq (ctx : CloseCtx) (s : State) (r : Fin 4) : sampleRecord ctx s r =
    [headerWord 1 r (sampleBits ctx s (s.runner r).slots), halves 0 (s.sampleCycle (s.runner r).slots)] ++
      (s.runner r).slots.flatMap (samplePayload ctx s) := rfl

section
variable (hlen : is.length ≤ 4)
include hlen

theorem sampleBits_count : (sampleBits ctx s is).toNat % 256 = is.length := by
  have hcount : (BitVec.ofNat 16 is.length).toNat = is.length := toNat_ofNat_small (by omega)
  rw [sampleBits, BitVec.toNat_or, Nat.or_mod_two_pow (n := 8), hcount, sampleFlags_low, Nat.or_zero]
  omega

/-- R204: kind, runner, eight zero bits and the slot count of a SAMPLE header. -/
theorem sampleHeader_fields :
    (headerWord 1 r (sampleBits ctx s is)).toNat / 0x1000000 = 16 + r.val ∧
    (headerWord 1 r (sampleBits ctx s is)).toNat / 65536 % 256 = 0 ∧
    (headerWord 1 r (sampleBits ctx s is)).toNat % 256 = is.length := by
  have hfields : (headerWord 1 r (sampleBits ctx s is)).toNat =
      0x10000000 + 0x1000000 * r.val + (sampleBits ctx s is).toNat := headerWord_toNat
  have hcount := sampleBits_count (ctx := ctx) (s := s) hlen
  have hbits := (sampleBits ctx s is).isLt
  omega

/-- The slot count leaves the flags of a SAMPLE header alone. -/
theorem sampleBits_getLsbD (hlow : 8 ≤ n) : (sampleBits ctx s is).getLsbD n = (sampleFlags ctx s 0 is).getLsbD n := by
  have hcount : is.length.testBit n = false :=
    Nat.testBit_lt_two_pow (lt_of_lt_of_le (by omega) (Nat.pow_le_pow_right two_pos hlow))
  rw [sampleBits, BitVec.getLsbD_or, BitVec.getLsbD_ofNat, hcount, Bool.and_false, Bool.false_or]

/-- R204: bit 8 + s: the section in slot s has a held feedback record. -/
theorem sampleBits_feedback (hk : k < 4) : (sampleBits ctx s is).getLsbD (8 + k) =
    (match is[k]? with | some i => (s.heldRec i).isSome | none => false) := by
  rw [Bool.eq_iff_iff, sampleBits_getLsbD hlen (by omega), sampleFlags_getLsbD (by omega)]
  constructor
  · rintro ⟨j, i, hi, ⟨hj, h⟩ | ⟨hj, -⟩⟩
    · obtain rfl : j = k := by omega
      rw [hi]
      exact h
    · omega
  · intro h
    split at h
    · next i hi => exact ⟨k, i, hi, .inl ⟨by omega, h⟩⟩
    · cases h

/-- R204: bit 12 + s: the section in slot s has a last output. -/
theorem sampleBits_output (hk : k < 4) : (sampleBits ctx s is).getLsbD (12 + k) =
    (match is[k]? with | some i => (s.sampledRw ctx i).lastOut.isSome | none => false) := by
  rw [Bool.eq_iff_iff, sampleBits_getLsbD hlen (by omega), sampleFlags_getLsbD (by omega)]
  constructor
  · rintro ⟨j, i, hi, ⟨hj, -⟩ | ⟨hj, h⟩⟩
    · have hj' := (List.getElem?_eq_some_iff.1 hi).1
      omega
    · obtain rfl : j = k := by omega
      rw [hi]
      exact h
  · intro h
    split at h
    · next i hi => exact ⟨k, i, hi, .inr ⟨by omega, h⟩⟩
    · cases h

end

/-- R153: the cycle number of a SAMPLE, where the held records agree on it. -/
theorem sampleCycle_of_held {f : Feedback} (hi : i ∈ is) (hf : s.heldRec i = some f)
    (hall : ∀ j ∈ is, ∀ g, s.heldRec j = some g → g.cycle = f.cycle) : s.sampleCycle is = f.cycle := by
  unfold State.sampleCycle
  split
  · next g hg =>
    obtain ⟨j, hj, hg⟩ := List.exists_of_findSome?_eq_some hg
    exact hall j hj g hg
  · next hnone =>
    rw [List.findSome?_eq_none_iff.1 hnone i hi] at hf
    cases hf

theorem sampleCycle_of_none (h : ∀ i ∈ is, s.heldRec i = none) : s.sampleCycle is = 0 := by
  rw [State.sampleCycle, List.findSome?_eq_none_iff.2 h]

/-! ### The advance of a recording runner in a DWELL (R138, R154) -/

/-- R154: before the phase reaches d an advance counts it and produces nothing. -/
theorem takeSample_phase (hrec : (s.runner r).recording = true)
    (hphase : (s.runner r).phase + 1 ≠ (s.runner r).decimation) :
    takeSample ctx r s = setRunner r { s.runner r with phase := (s.runner r).phase + 1 } s := by
  unfold takeSample
  dsimp only
  rw [if_pos hrec, if_neg hphase]

/-- R154: the phase that reaches d starts again, with a SAMPLE. -/
theorem takeSample_due (hrec : (s.runner r).recording = true)
    (hphase : (s.runner r).phase + 1 = (s.runner r).decimation) :
    takeSample ctx r s = setRunner r { s.runner r with phase := 0 } (produceRecord (sampleRecord ctx s r) s) := by
  unfold takeSample
  dsimp only
  rw [if_pos hrec, if_pos hphase]

theorem produceRecord_program (ws : List Word) (s : State) : (produceRecord ws s).program = s.program :=
  (produceRecord_frame ws).same .program (by decide)

theorem stepAt_of_program (h : t.program = s.program) : stepAt t n k = stepAt s n k := by
  rw [stepAt, h]
  rfl

/-- R120: what the start of an advance leaves, the DWELL of a waiting runner counts down. -/
theorem advanceRunner_dwell_after (hsample : takeSample ctx r s = setRunner r c u)
    (hs : (s.runner r).state = .waiting) (hstate : c.state = .waiting)
    (hop : stepAt u c.step c.slots.length = some (.dwell n)) (hw : 2 ≤ c.wait.toNat) :
    advanceRunner ctx r s = setRunner r (waited c) u := by
  have hresume : advanceRunner ctx r s = resumeRunner ctx r (setRunner r { c with state := .running } u) := by
    rw [advanceRunner, hs, hsample]
    exact congrArg (resumeRunner ctx r) (setRunnerState_setRunner ..)
  rw [hresume, resumeRunner_of_step ((stepOf_setRunner r { c with state := .running } u).trans hop), resumeStep_dwell,
    if_neg (by dsimp only; omega), goOn_hold]
  simp only [waited, ← hstate]

/-! ### The TRIP record (R145, R155) -/

/-- R145, R155: the hand-off of one section to the recording runner that binds it. -/
theorem handOffTo_recorded (hlive : (s.runner r).isLive = true) (hrec : (s.runner r).recording = true)
    (hi : i ∈ (s.runner r).slots) : handOffTo cycle [i] r s =
      if (s.settings i).cutoff = .ignore then produceRecord (tripRecordWords r (s.runner r) s cycle i) s
      else leaveRunner cycle r (.fault .tripped (s.runner r).step)
        (produceRecord (tripRecordWords r (s.runner r) s cycle i) s) := by
  have hhits : [i].filter (fun i => decide (i ∈ (s.runner r).slots)) = [i] := by simp [hi]
  unfold handOffTo
  dsimp only
  rw [if_pos hlive, hhits, hrec]
  by_cases hc : (s.settings i).cutoff = .ignore <;> simp [hc, forEach, produceIf]

/-- R155, R204: the slot, the index and the first cause in a TRIP record. -/
theorem tripRecord_words {j : Nat} {x : TripRecord} (hnodup : c.slots.Nodup) (hlen : c.slots.length ≤ 4)
    (hj : c.slots[j]? = some i) (hx : (s.tp i).record = some x) :
    (ringWords (tripRecordWords r c s cycle i)).map (fun x => (x.word.toNat, x.first)) =
      [(0x30000000 + 0x1000000 * r.val + 256 * i.val + j, true), (65536 * x.cause.code + cycle.toNat, false)] := by
  obtain ⟨hlt, hget⟩ := List.getElem?_eq_some_iff.1 hj
  have hslot : c.slots.idxOf i = j := by rw [← hget, hnodup.idxOf_getElem]
  have hplace : (BitVec.ofNat 16 (c.slots.idxOf i + 256 * i.val)).toNat = j + 256 * i.val := by
    rw [hslot, BitVec.toNat_ofNat]
    omega
  have hcause : (BitVec.ofNat 16 x.cause.code).toNat = x.cause.code :=
    toNat_ofNat_small (by cases x.cause <;> decide)
  rw [tripRecordWords, hx, ringWords_ringHeader, hplace]
  show [(0x30000000 + 0x1000000 * r.val + (j + 256 * i.val), true),
    (65536 * (BitVec.ofNat 16 x.cause.code).toNat + cycle.toNat, false)] = _
  rw [hcause, Nat.add_comm j, ← Nat.add_assoc]

/-- What the hand-off of a trip adds to the ring, by the section's cutoff action. -/
theorem handOffTo_ring {j : Nat} {x : TripRecord} (hlive : (s.runner r).isLive = true)
    (hrec : (s.runner r).recording = true) (hnodup : (s.runner r).slots.Nodup)
    (hlen : (s.runner r).slots.length ≤ 4) (hstep : (s.runner r).step ≤ 512)
    (hj : (s.runner r).slots[j]? = some i) (hx : (s.tp i).record = some x)
    (hroom : s.ring.words.length + 4 ≤ 8192) :
    ((handOffTo cycle [i] r s).ring.words.drop s.ring.words.length).map (fun x => (x.word.toNat, x.first)) =
      [(0x30000000 + 0x1000000 * r.val + 256 * i.val + j, true), (65536 * x.cause.code + cycle.toNat, false)] ++
      (if (s.settings i).cutoff = .ignore then [] else
        [(0x4000000C + 0x1000000 * r.val, true), (65536 * (s.runner r).step + cycle.toNat, false)]) := by
  have hroom2 : s.ring.words.length + (tripRecordWords r (s.runner r) s cycle i).length ≤ 8192 := by
    show _ + 2 ≤ _
    omega
  have hwords := produceRecord_words hroom2
  have hrunner := runner_of_runners
    ((produceRecord_frame (s := s) (tripRecordWords r (s.runner r) s cycle i)).same .runners (by decide)) r
  rw [handOffTo_recorded hlive hrec (List.mem_of_getElem? hj)]
  generalize produceRecord (tripRecordWords r (s.runner r) s cycle i) s = v at *
  have hgrown : v.ring.words.length = s.ring.words.length + 2 := by
    rw [hwords, List.length_append, ringWords_length]
    rfl
  split
  · rw [hwords, List.drop_left, tripRecord_words hnodup hlen hj hx, List.append_nil]
  · rw [leaveRunner_ring_words (hrunner ▸ hrec) (by omega), hrunner, hwords, List.append_assoc, List.drop_left,
      List.map_append, tripRecord_words hnodup hlen hj hx, endRecord_tripped hstep]

/-! ### The two requests -/

/-- R166: an answer leaves the ring alone. -/
theorem answered_ring (x : Answer) : (s.answered x).ring = s.ring := rfl

theorem exec_stop_recorded {tag : BitVec 8} {runner : BitVec 16} (hs : s.canServe) (hr : runner.toNat = r.val)
    (hlive : (s.runner r).isLive = true) (hrec : (s.runner r).recording = true) (hstep : (s.runner r).step ≤ 512) :
    exec (.stop tag runner) s = .next (State.answered
      (raise .runnerEnd (setRunner r ((s.runner r).left (.outcome .stopped 0))
        (produceRecord [BitVec.ofNat 32 (0x40000002 + 0x1000000 * r.val),
          BitVec.ofNat 32 (65536 * (s.runner r).step + s.link.lastCycle.toNat)] s)))
      (plainAnswer tag 6 .ok)) := by
  have hidle : (s.runner r).state ≠ .idle := fun h => by
    rw [Runner.isLive, h] at hlive
    cases hlive
  have hstop := stopRequest_of_runner (s := s) (cycle := s.link.lastCycle) hr
  rw [if_neg hidle, if_pos hlive, leaveRunner_recorded hrec, endRecord_stopped hstep] at hstop
  exact next_serve hs hstop

/-- R98: a TRIP of a CLEAR section that is valid is a trip action with cause MANUAL. -/
theorem exec_trip_clear {tag : BitVec 8} {sect : BitVec 16} (hs : s.canServe) (hi : sect.toNat = i.val)
    (hmode : s.control.mode = .engaged) (hv : (s.settings i).valid = true) (hclear : s.tripped i = false) :
    exec (.trip tag sect) s =
      .next ((tripAction s.link.lastCycle .manual i s).answered (plainAnswer tag 9 .ok)) := by
  have hreq : tripRequest s.link.lastCycle sect s =
      (tripAction s.link.lastCycle .manual i s, Reply.only .ok) := by
    have hengaged : s.engaged = true := by simp [State.engaged, hmode]
    rw [tripRequest, index?_some.2 hi.symm]
    simp [hv, hengaged, tripSection, hclear]
  exact next_serve hs hreq

/-- R90, R145, R155: what the trip action of a section in no valid set adds to the ring, when a recording runner binds
the section. -/
theorem tripAction_ring {j : Nat} (hok : RunnersOk s) (ha : Alone i s) (hlive : (s.runner r).isLive = true)
    (hrec : (s.runner r).recording = true) (hj : (s.runner r).slots[j]? = some i)
    (hroom : s.ring.words.length + 4 ≤ 8192) :
    ((tripAction cycle cause i s).ring.words.drop s.ring.words.length).map (fun x => (x.word.toNat, x.first)) =
      [(0x30000000 + 0x1000000 * r.val + 256 * i.val + j, true), (65536 * cause.code + cycle.toNat, false)] ++
      (if (s.settings i).cutoff = .ignore then [] else
        [(0x4000000C + 0x1000000 * r.val, true), (65536 * (s.runner r).step + cycle.toNat, false)]) := by
  obtain ⟨-, -, -, hshape, -, hbound⟩ := hok
  obtain ⟨hlen, hnodup, hstep⟩ := hshape r
  obtain ⟨u, hu, htrip⟩ := tripAction_handOff (cycle := cycle) (cause := cause) ha
  have hrunner : ∀ q, u.runner q = s.runner q := runner_of_runners (hu.same .runners (by decide))
  have hring : u.ring = s.ring := hu.same .ring (by decide)
  have hhand : handOff cycle [i] u = handOffTo cycle [i] r u := handOff_of_bound fun q hq k hk hmem => by
    rw [List.mem_singleton.1 hk, hrunner] at hmem
    exact hq (hbound q r i hmem (List.mem_of_getElem? hj))
  obtain ⟨x, hx, rfl⟩ : ∃ x, (u.tp i).record = some x ∧ x.cause = cause := by
    have htp : (tripAction cycle cause i s).tp i = u.tp i := by
      rw [htrip, setTripLine_tp]
      exact tp_of_trips ((handOff_frame ..).same .trips (by decide)) i
    exact ⟨_, by rw [← htp, tripAction_own], rfl⟩
  have hadds := handOffTo_ring (s := u) (r := r) (i := i) (j := j) (cycle := cycle) (x := x)
  rw [hring, hrunner, settings_of_frame hu (by decide) i] at hadds
  rw [htrip, hhand]
  exact hadds hlive hrec hnodup hlen hstep hj hx hroom

/-! ### O36 -/

/-- Settles O36: the advance after the SAMPLE, the leaving of a STOP, and the hand-off of a TRIP. -/
theorem runnerRecords : Obligations.RunnerRecords := by
  unfold Obligations.RunnerRecords
  refine ⟨?sample, ?stop, ?trip⟩
  case sample =>
    intro ctx r m s c rw' payload hs hrec hop hw hlen
    have hrw : rw' = s.sampledRw ctx := by
      funext i
      simp only [rw', State.sampledRw, State.committedRw, commitOne]
      cases s.rewriter.treated.get i with
      | none => rfl
      | some x =>
        obtain ⟨trim, _, _⟩ := x
        cases trim <;> rfl
    have hpayload : payload = samplePayload ctx s := by
      funext i
      show [_, _, _, _] = _
      rw [hrw]
      rfl
    clear_value payload rw'
    subst hrw hpayload
    obtain ⟨hkind, hzero, hcount⟩ := sampleHeader_fields (r := r) (ctx := ctx) (s := s) hlen
    refine ⟨fun hphase => ?_, fun hphase => ⟨headerWord 1 r (sampleBits ctx s c.slots),
      halves 0 (s.sampleCycle c.slots), ?_, hkind, hzero, hcount, fun k hk => ?_, fun k hk => ?_, ?_, ?_⟩⟩
    · exact advanceRunner_dwell_after (takeSample_phase hrec hphase) hs hs hop hw
    · have hsample := takeSample_due (ctx := ctx) hrec hphase
      rw [sampleRecord_eq] at hsample
      exact advanceRunner_dwell_after hsample hs hs ((stepAt_of_program (produceRecord_program ..)).trans hop) hw
    · exact (headerWord_getLsbD (by omega)).trans (sampleBits_feedback hlen hk)
    · exact (headerWord_getLsbD (by omega)).trans (sampleBits_output hlen hk)
    · intro i f hi hf hall
      rw [sampleCycle_of_held hi hf hall, halves_zero]
    · intro hnone
      rw [sampleCycle_of_none hnone]
      rfl
  case stop =>
    intro tag runner r s hs hr hlive hrec hstep
    exact exec_stop_recorded hs hr hlive hrec hstep
  case trip =>
    intro tag sect r j i s hs hok hi hmode hv hclear ha hlive hrec hj hroom
    have hadds := tripAction_ring (cycle := s.link.lastCycle) (cause := .manual) hok ha hlive hrec hj hroom
    have hcode : TripCause.manual.code = 7 := rfl
    rw [hcode] at hadds
    exact ⟨_, exec_trip_clear hs hi hmode hv hclear, by rwa [answered_ring]⟩

end Sys2Proof.Machine.RunnerRecords
end

