-- ==== Sys2Proof/Proofs/CaptureRing.lean ====
section
/-! PROOFS. The capture ring (R151, R157 to R160): what a produced record leaves when it fits and when it does not, and
what the two ways of reading the ring answer and free. Settles O39. -/

namespace Sys2Proof.Machine.CaptureRing

open RunnerRequest

variable {s t : State} {tag region count : BitVec 8} {record offset : BitVec 16} {ws : List Word} {n : Nat} {x : Reply}

/-! ### A produced record (R151, R157) -/

/-- R151: the first word of a record, at position 0, and no later one carries the first-word indication. -/
theorem ringWords_eq_mapIdx (ws : List Word) :
    ringWords ws = ws.mapIdx fun k w => { word := w, first := k == 0 } := by
  cases ws with
  | nil => rfl
  | cons w ws =>
    have hlater : (ws.mapIdx fun k v => ({ word := v, first := k + 1 == 0 } : RingWord)) =
        ws.map fun v => { word := v, first := false } :=
      List.ext_getElem (by simp) fun k _ _ => by simp
    rw [List.mapIdx_cons, hlater]
    rfl

theorem produceRecord_of_fits (h : s.ring.words.length + ws.length ≤ 8192) :
    produceRecord ws s = s.setRing { s.ring with
      words := s.ring.words ++ ringWords ws
      writePos := s.ring.writePos + BitVec.ofNat 13 ws.length } :=
  if_pos (by simp only [Ring.free, Ring.used, ringSize]; omega)

theorem produceRecord_of_not_fits (hring : s.ring.words.length ≤ 8192)
    (h : 8192 < s.ring.words.length + ws.length) :
    produceRecord ws s = raise .ringDrop (s.setRing { s.ring with drops := satInc s.ring.drops }) :=
  if_neg (by simp only [Ring.free, Ring.used, ringSize]; omega)

/-- A saturating counter stays at its largest value and otherwise counts one more. -/
theorem satInc_eq_ofNat_min {w : Nat} (c : BitVec w) : satInc c = BitVec.ofNat w (min (2 ^ w - 1) (c.toNat + 1)) := by
  have hlt := c.isLt
  unfold satInc
  split
  · next h =>
    rw [h, BitVec.toNat_allOnes, Nat.min_eq_left (Nat.le_succ _)]
    exact BitVec.eq_of_toNat_eq (by simp)
  · next h =>
    have hmax : c.toNat ≠ 2 ^ w - 1 := fun e => h (BitVec.eq_of_toNat_eq (by rw [e, BitVec.toNat_allOnes]))
    rw [Nat.min_eq_right (by omega)]
    exact BitVec.eq_of_toNat_eq (by simp)

theorem setBit16_getLsbD (f : BitVec 16) (m : Nat) {n : Nat} (hn : n < 16) :
    (setBit16 f m).getLsbD n = (f.getLsbD n || decide (n = m)) := by
  by_cases h : n = m
  · subst h
    simp [setBit16_self f hn]
  · simp [setBit16, h]
    omega

/-- Table 10-2 numbers the events in the order in which they stand. -/
theorem ofNat_number (e : Event) : Event.ofNat e.number.val = e := by cases e <;> rfl

/-- Table 10-2: no two events share a flag. -/
theorem number_val_inj {e d : Event} : e.number.val = d.number.val ↔ e = d :=
  ⟨fun h => by rw [← ofNat_number e, h, ofNat_number], fun h => h ▸ rfl⟩

/-- R192: raising an event sets its own flag and no other. -/
theorem raise_flag (d e : Event) (s : State) : (raise d s).flag e = (s.flag e || decide (e = d)) := by
  have hset : (raise d s).flag e = (s.flag e || decide (e.number.val = d.number.val)) :=
    setBit16_getLsbD _ _ e.number.isLt
  simpa only [number_val_inj] using hset

/-! ### The two ways of reading the ring (R158 to R160) -/

/-- R158: the words freed are those returned: as many as asked and as there are. -/
theorem streamRead_eq (n : Nat) (s : State) : streamRead n s =
    (s.setRing { s.ring with
        words := s.ring.words.drop n
        readPos := s.ring.readPos + BitVec.ofNat 13 (min n s.ring.words.length) },
      { code := .ok, data := (s.ring.words.take n).map (·.word)
        firstHeader := (s.ring.words.take n).findIdx? (·.first) }) := by
  have hdrop : s.ring.words.drop (min n s.ring.words.length) = s.ring.words.drop n := by
    rcases Nat.le_total n s.ring.words.length with h | h
    · rw [Nat.min_eq_left h]
    · rw [Nat.min_eq_right h, List.drop_of_length_le h, List.drop_length]
  simp only [streamRead, freeWords]
  rw [List.length_take, hdrop]
  rfl

theorem peekRead_eq (offset n : Nat) (s : State) : peekRead offset n s =
    (s, { code := .ok, data := ((s.ring.words.map (·.word)).drop offset).take n
          firstHeader := ((s.ring.words.drop offset).take n).findIdx? (·.first) }) := by
  simp only [peekRead]
  rw [List.map_take, List.map_drop]
  rfl

/-- R158: record 0 of the RING region is the stream. -/
theorem readRequest_stream (offset : BitVec 16) : readRequest 6 0 offset n s = streamRead n s := rfl

/-- R160: record 0 of the PEEK region is the ring's unread words. -/
theorem readRequest_peek : readRequest 7 0 offset n s = peekRead offset.toNat n s := rfl

/-- R166, R170: a READ of at most eight words that is served. -/
theorem exec_read (hs : s.canServe) (hc : count.toNat ≤ 8)
    (h : readRequest region record offset count.toNat s = (t, x)) :
    exec (.read tag region record offset count) s = .next (t.answered (SetWrite.answerOf tag 1 x)) :=
  next_serve (op := readRequest region record offset (min maxData count.toNat)) hs
    (by rwa [maxData, Nat.min_eq_right hc])

theorem exec_ringStreamRead (hs : s.canServe) (hc : count.toNat ≤ 8) :
    exec (.ringStreamRead tag count) s = .next (State.answered
      (s.setRing { s.ring with
        words := s.ring.words.drop count.toNat
        readPos := s.ring.readPos + BitVec.ofNat 13 (min count.toNat s.ring.words.length) })
      { tag := tag, kind := 1, code := .ok, data := (s.ring.words.take count.toNat).map (·.word)
        firstHeader := (s.ring.words.take count.toNat).findIdx? (·.first) }) :=
  exec_read (region := 6) (record := 0) (offset := 0) hs hc ((readRequest_stream 0).trans (streamRead_eq _ s))

theorem exec_read_peek (hs : s.canServe) (hc : count.toNat ≤ 8) :
    exec (.read tag 7 0 offset count) s = .next (s.answered
      { tag := tag, kind := 1, code := .ok
        data := ((s.ring.words.map (·.word)).drop offset.toNat).take count.toNat
        firstHeader := ((s.ring.words.drop offset.toNat).take count.toNat).findIdx? (·.first) }) :=
  exec_read hs hc (readRequest_peek.trans (peekRead_eq _ _ s))

/-- Settles O39: a record by whether it fits the free count, then the stream read and the peek. -/
theorem ringRecordsAndReads : Obligations.RingRecordsAndReads := by
  refine ⟨fun ws s => ⟨fun hfits => ?fits, fun hring hover => ⟨produceRecord_frame ws, ?_⟩⟩,
    fun tag count s hs hc => exec_ringStreamRead hs hc, fun tag offset count s hs hc => exec_read_peek hs hc⟩
  case fits =>
    rw [produceRecord_of_fits hfits, ringWords_eq_mapIdx]
    rfl
  rw [produceRecord_of_not_fits hring hover]
  refine ⟨?drops, fun e => raise_flag ..⟩
  case drops =>
    show { s.ring with drops := satInc s.ring.drops } = _
    rw [satInc_eq_ofNat_min]
    rfl

end Sys2Proof.Machine.CaptureRing
end

