-- ==== Sys2Proof/Proofs/ServiceRequests.lean ====
section
/-! PROOFS. The service unit's answers to the requests that it does not execute (R166, R169, R171, R183), and PROTECT
(R168, R176). Settles O37 and O51. -/

namespace Sys2Proof.Machine.ServiceRequests

open RunnerRequest

variable {s : State} {c : Instr} {tag kind region : BitVec 8} {record offset group : BitVec 16} {cycle : BitVec 16}
  {ws data : List Word} {w : Word} {op : State → State × Reply}

/-! ### Requests that are not executed (R166, R183) -/

/-- R166: every request command hands its operation to the service unit. -/
theorem exec_of_isRequest (h : isRequest c = true) (s : State) :
    ∃ tag kind op, exec c s = .next (serve tag kind op s) := by
  cases c <;> cases h <;> exact ⟨_, _, _, rfl⟩

theorem serve_of_relayed (h : s.control.mode = .relayed) : serve tag kind op s = s :=
  if_neg (by simp [State.inline, h])

theorem serve_of_slot_full (hm : s.control.mode ≠ .relayed) (hslot : s.service.slot ≠ none) :
    serve tag kind op s = raise .serviceOverrun s := by
  obtain ⟨a, ha⟩ := Option.ne_none_iff_exists'.1 hslot
  have hinline : s.inline = true := by simp [State.inline, hm]
  rw [serve, if_pos hinline, ha]

/-! ### Regions that are not writable (R171) -/

theorem writableLength_none (h1 : region ≠ 1) (h2 : region ≠ 2) (h3 : region ≠ 3) (h8 : region ≠ 8)
    (h9 : region ≠ 9) : writableLength region = none := by
  rw [writableLength, if_neg h1, if_neg h2, if_neg h3, if_neg h8, if_neg h9]

theorem writeRequest_of_not_writable (h : writableLength region = none) :
    writeRequest cycle region record offset data s = refuse .badRequest s := by
  rw [writeRequest, guardWrite, State.writeRefusal, h]

/-- Settles O37: the two ways in which the service unit turns a request away, and the region codes without a record
length. -/
theorem requestsTurnedAway : Obligations.RequestsTurnedAway := by
  refine ⟨fun c s hc => ?turned, fun tag region record offset data s hs h1 h2 h3 h8 h9 => ?region,
    fun tag record offset data s => ⟨rfl, rfl, rfl, rfl, rfl⟩, fun tag kind s hs _ => next_refused hs rfl⟩
  case turned =>
    obtain ⟨tag, kind, op, hexec⟩ := exec_of_isRequest hc s
    exact ⟨fun hm => by rw [hexec, serve_of_relayed hm], fun hm hslot => by rw [hexec, serve_of_slot_full hm hslot]⟩
  case region =>
    exact next_refused hs (writeRequest_of_not_writable (writableLength_none h1 h2 h3 h8 h9))

/-! ### PROTECT (R176) -/

theorem protectRequest_noAction (h : actionOf ws = none) : protectRequest group ws s = refuse .badValue s := by
  rw [protectRequest, h]

theorem protectRequest_of_action {b : Bool} (h : actionOf ws = some b) : protectRequest group ws s =
    if 3 < group.toNat then refuse .badValue s
    else if !b ∧ !s.keyOn then refuse .keyOff s
    else (s.setService { s.service with prot := s.service.prot.put group.toNat b }, Reply.only .ok) := by
  rw [protectRequest, h]

/-- A group above 3 is refused whatever the action. -/
theorem protectRequest_noGroup (h : 3 < group.toNat) : protectRequest group ws s = refuse .badValue s := by
  cases ha : actionOf ws with
  | none => exact protectRequest_noAction ha
  | some b => rw [protectRequest_of_action ha, if_pos h]

theorem protectRequest_accepted {b : Bool} (hg : group.toNat ≤ 3) (h : actionOf ws = some b)
    (hkey : ¬ (!b ∧ !s.keyOn)) : protectRequest group ws s =
      (s.setService { s.service with prot := s.service.prot.put group.toNat b }, Reply.only .ok) := by
  rw [protectRequest_of_action h, if_neg (by omega), if_neg hkey]

/-- R176: the flag of the named group takes the value, and the other three stand. -/
theorem put_eq {g : Nat} (h : g ≤ 3) (p : Protection) (b : Bool) : p.put g b =
    { tuning := if g = 0 then b else p.tuning
      limits := if g = 1 then b else p.limits
      sets := if g = 2 then b else p.sets
      program := if g = 3 then b else p.program } :=
  match g, h with
  | 0, _ | 1, _ | 2, _ | 3, _ => rfl

/-- R168: the action of a PROTECT is its data word 0. -/
theorem actionOf_blockData_cons (w : Word) (rest : List Word) :
    actionOf (blockData (w :: rest)) = actionOf [w] := rfl

/-- Settles O51: the checks of the action, the group and the key, then the flag of the group. -/
theorem protect : Obligations.Protect := by
  intro tag group w rest s hs
  refine ⟨?value, next_refused hs (protectRequest_noAction rfl), fun hg hw hkey => ?keyOff, fun hg hw => ?accepted⟩
  case value =>
    rintro (hg | hw)
    · exact next_refused hs (protectRequest_noGroup hg)
    · exact next_refused hs (protectRequest_noAction ((actionOf_blockData_cons w rest).trans (actionOf_large hw)))
  case keyOff =>
    have haction := (actionOf_blockData_cons w rest).trans (actionOf_small (by omega))
    refine next_refused hs ((protectRequest_of_action haction).trans ?_)
    rw [if_neg (by omega), if_pos (by simp [hw, State.keyOn, hkey])]
  case accepted =>
    have haction := (actionOf_blockData_cons w rest).trans (actionOf_small (by omega))
    have hkey : ¬ ((!decide (w.toNat = 1)) = true ∧ (!s.keyOn) = true) := by
      rcases hw with hw | ⟨-, hkey⟩ <;> simp [State.keyOn, *]
    have hput := protectRequest_accepted hg haction hkey
    rw [put_eq hg] at hput
    exact next_serve hs hput

end Sys2Proof.Machine.ServiceRequests
end

