-- ==== Sys2Proof/Proofs/ServiceBlocks.lean ====
section
/-! PROOFS. The service block and the answer block (R168, R200, R201, Tables 11-3 to 11-5), and the setting words of a
section record (R203, Table 11-7): what is written into them is read back, and the number that each word holds. Settles
O54. -/

namespace Sys2Proof.Machine.ServiceBlocks

open SetWrite

variable {n : Nat} {q : Request} {a : Answer}

/-! ### Bytes and halves (R197) -/

theorem hiByte_append (a b : BitVec 8) : hiByte (a ++ b) = a := BitVec.extractLsb'_append_eq_left

theorem loByte_append (a b : BitVec 8) : loByte (a ++ b) = b := BitVec.extractLsb'_append_eq_right

theorem append_bytes_toNat (a b : BitVec 8) : (a ++ b).toNat = 256 * a.toNat + b.toNat := by
  rw [BitVec.toNat_append, ← Nat.shiftLeft_add_eq_or_of_lt b.isLt, Nat.shiftLeft_eq, Nat.mul_comm]

theorem hiHalf_toNat (w : Word) : (hiHalf w).toNat = w.toNat / 65536 := by
  have hw := w.isLt
  rw [hiHalf, BitVec.extractLsb'_toNat, Nat.shiftRight_eq_div_pow]
  omega

theorem loHalf_toNat (w : Word) : (loHalf w).toNat = w.toNat % 65536 := BitVec.extractLsb'_toNat ..

theorem halves_hiHalf_loHalf (w : Word) : halves (hiHalf w) (loHalf w) = w := by
  apply BitVec.eq_of_toNat_eq
  rw [RunnerRecords.halves_toNat, hiHalf_toNat, loHalf_toNat]
  omega

/-! ### The data words of a block (Tables 11-3, 11-4) -/

theorem recordWordsOf_flatMap_linkPair (ws : List Word) : recordWordsOf (ws.flatMap linkPair) = ws := by
  induction ws with
  | nil => rfl
  | cons w ws ih =>
    show halves (hiHalf w) (loHalf w) :: recordWordsOf (ws.flatMap linkPair) = _
    rw [halves_hiHalf_loHalf, ih]

theorem length_flatMap_linkPair (ws : List Word) : (ws.flatMap linkPair).length = 2 * ws.length := by
  simp [List.length_flatMap, linkPair, Nat.mul_comm]

theorem flatMap_linkPair_toNat (ws : List Word) :
    (ws.flatMap linkPair).map (·.toNat) = ws.flatMap fun w => [w.toNat / 65536, w.toNat % 65536] := by
  simp [List.map_flatMap, linkPair, hiHalf_toNat, loHalf_toNat]

/-- R168: a count of at most eight fits its byte. -/
theorem countByte_toNat (h : n ≤ 8) : (BitVec.ofNat 8 n).toNat = n := Nat.mod_eq_of_lt (by omega)

/-! ### The service block (R200, Table 11-3) -/

theorem ofBlock_block (q : Request) : Request.ofBlock q.block = q := by
  have htag : hiByte (q.tag ++ q.kind) = q.tag := hiByte_append ..
  have hkind : loByte (q.tag ++ q.kind) = q.kind := loByte_append ..
  have hregion : hiByte (q.region ++ BitVec.ofNat 8 q.data.length) = q.region := hiByte_append ..
  have hdata := recordWordsOf_flatMap_linkPair q.data
  exact Request.mk.injEq .. ▸ ⟨htag, hkind, hregion, rfl, rfl, hdata⟩

theorem length_block (q : Request) : q.block.length = 4 + 2 * q.data.length := by
  rw [Request.block, List.length_append, length_flatMap_linkPair]
  rfl

theorem block_count (h : q.data.length ≤ 8) : (loByte (q.block.getD 1 0)).toNat = q.data.length := by
  have hbyte : loByte (q.block.getD 1 0) = BitVec.ofNat 8 q.data.length := loByte_append q.region _
  rw [hbyte, countByte_toNat h]

theorem block_toNat (h : q.data.length ≤ 8) : q.block.map (·.toNat) =
    [256 * q.tag.toNat + q.kind.toNat, 256 * q.region.toNat + q.data.length, q.record.toNat, q.offset.toNat] ++
      q.data.flatMap fun w => [w.toNat / 65536, w.toNat % 65536] := by
  rw [Request.block, List.map_append, flatMap_linkPair_toNat]
  simp only [List.map_cons, List.map_nil, append_bytes_toNat, countByte_toNat h]

/-! ### The answer block (R201, R205, Tables 11-4 and 11-5) -/

theorem answerBlock_eq (a : Answer) : a.block =
    [a.tag ++ a.kind, a.code.code ++ BitVec.ofNat 8 a.data.length] ++
      (if a.kind = 1 then [a.firstHeader.elim 0xFFFF (BitVec.ofNat 16)] else []) ++ a.data.flatMap linkPair := by
  obtain ⟨_, _, _, _, first⟩ := a
  cases first <;> rfl

/-- R205: a first-header position from 0 to 7 stands in its word as it is. -/
theorem firstHeader_toNat {k : Option Nat} (h : ∀ n, k = some n → n ≤ 7) :
    (k.elim 0xFFFF (BitVec.ofNat 16) : LinkWord).toNat = k.getD 0xFFFF := by
  cases k with
  | none => rfl
  | some n => exact Nat.mod_eq_of_lt (by have := h n rfl; omega)

theorem length_answerBlock (a : Answer) :
    a.block.length = 2 + 2 * a.data.length + if a.kind = 1 then 1 else 0 := by
  rw [answerBlock_eq, List.length_append, List.length_append, length_flatMap_linkPair, apply_ite List.length]
  show 2 + _ + _ = _
  rw [Nat.add_right_comm]
  rfl

/-- Table 11-4: the result words, the first-header word of an answer to READ, and the data words. -/
theorem answerBlock_toNat (hlen : a.data.length ≤ 8) (hfirst : ∀ n, a.firstHeader = some n → n ≤ 7) :
    a.block.map (·.toNat) =
      [256 * a.tag.toNat + a.kind.toNat, 256 * a.code.code.toNat + a.data.length] ++
        (if a.kind = 1 then [a.firstHeader.getD 0xFFFF] else []) ++
        a.data.flatMap fun w => [w.toNat / 65536, w.toNat % 65536] := by
  rw [answerBlock_eq, List.map_append, List.map_append, flatMap_linkPair_toNat, apply_ite (List.map _)]
  simp only [List.map_cons, List.map_nil, append_bytes_toNat, countByte_toNat hlen, firstHeader_toNat hfirst]

/-! ### The setting words of a section record (R203, Table 11-7) -/

theorem sectionMode_ofCode_code (m : SectionMode) : SectionMode.ofCode m.code = m := by cases m <;> rfl
theorem overrideFn_ofCode_code (f : OverrideFn) : OverrideFn.ofCode f.code = f := by cases f <;> rfl
theorem cutoff_ofCode_code (c : Cutoff) : Cutoff.ofCode c.code = c := by cases c <;> rfl

theorem flagAt_getLsbD (b : Bool) (h : n < 32) : (flagAt b n).getLsbD n = b := by
  cases b <;> simp [flagAt, h]

/-- A field that ends at or below a bit leaves that bit clear. -/
theorem place_getLsbD_of_ge {len lo : Nat} (x : BitVec len) (h : lo + len ≤ n) : (place x lo).getLsbD n = false := by
  have hx : x.getLsbD (n - lo) = false := BitVec.getLsbD_of_ge _ _ (by omega)
  simp [place, hx]

/-- R203: what is written into the setting words of a section record is read back from them. -/
theorem section_ofWords_words (r : SectionSettings) : SectionSettings.ofWords r.words = r := by
  have hvalid : (flagAt r.valid 31 ||| place r.node 0).getLsbD 31 = r.valid := by
    rw [BitVec.getLsbD_or, flagAt_getLsbD _ (by decide), place_getLsbD_of_ge _ (by decide), Bool.or_false]
  have hresponse : (place r.torqueCap 0 ||| place r.cutoff.code 16 ||| flagAt r.breakResponse 24).getLsbD 24 =
      r.breakResponse := by
    rw [BitVec.getLsbD_or, BitVec.getLsbD_or, flagAt_getLsbD _ (by decide), place_getLsbD_of_ge _ (by decide),
      place_getLsbD_of_ge _ (by decide), Bool.false_or, Bool.false_or]
  rw [SectionSettings.ofWords, SectionSettings.words]
  simp only [List.getD_cons_zero, List.getD_cons_succ, hvalid, hresponse]
  simp [field_or, field_flagAt, field_place_self, field_place_disjoint, hiHalf_halves, loHalf_halves,
    sectionMode_ofCode_code, overrideFn_ofCode_code, cutoff_ofCode_code]

/-- Settles O54: each block and record read back field by field, and the answer codes of Table 11-5. -/
theorem blocksAndRecordsRoundTrip : Obligations.BlocksAndRecordsRoundTrip := by
  refine ⟨fun q h => ⟨ofBlock_block q, length_block q, block_count h⟩,
    fun r => ⟨rfl, section_ofWords_words r⟩, fun r => ⟨rfl, ofWords_words r⟩, fun q h => block_toNat h,
    fun a hlen hfirst => ⟨?_, length_answerBlock a⟩⟩
  refine (answerBlock_toNat hlen hfirst).trans ?_
  obtain ⟨_, _, code, _, first⟩ := a
  cases first <;> cases code <;> rfl

end Sys2Proof.Machine.ServiceBlocks
end

