-- ==== Sys2Proof/Proofs/WordValues.lean ====
section
/-! PROOFS. The number that a record word holds whose fields lie side by side (R203), and the numbers of the codes and
counts that Tables 11-7 to 11-13 put into fields. -/

namespace Sys2Proof.Machine.WordValues

variable {len lo hi lo' hi' n v v' : Nat} {w u : Word}

/-! ### Fields side by side -/

/-- A word that holds the number `v` in bits `lo` to `hi - 1`, its other bits clear. -/
structure Spans (w : Word) (lo hi v : Nat) : Prop where
  order : lo ≤ hi
  toNat : w.toNat = v
  lower : 2 ^ lo ∣ v
  upper : v < 2 ^ hi

theorem Spans.toNat_eq (h : Spans w lo hi v) (hv : v = v' := by omega) : w.toNat = v' := h.toNat.trans hv

/-- R203: a field alone in a word. -/
theorem Spans.place (x : BitVec len) (lo : Nat) (h : lo + len ≤ 32 := by decide) :
    Spans (place x lo) lo (lo + len) (2 ^ lo * x.toNat) := by
  have hlt : 2 ^ lo * x.toNat < 2 ^ (lo + len) := by
    rw [Nat.pow_add]
    exact Nat.mul_lt_mul_of_pos_left x.isLt (Nat.two_pow_pos lo)
  have hword : 2 ^ (lo + len) ≤ 2 ^ 32 := Nat.pow_le_pow_right (by decide) h
  have hlen : x.toNat < 2 ^ 32 := x.isLt.trans_le (Nat.pow_le_pow_right (by decide) (by omega))
  refine ⟨Nat.le_add_right .., ?_, Nat.dvd_mul_right .., hlt⟩
  rw [Machine.place, BitVec.toNat_shiftLeft, BitVec.toNat_setWidth, Nat.mod_eq_of_lt hlen, Nat.shiftLeft_eq,
    Nat.mul_comm, Nat.mod_eq_of_lt (hlt.trans_le hword)]

theorem flagAt_eq_place (b : Bool) (n : Nat) : flagAt b n = Machine.place (BitVec.ofBool b) n := by
  cases b <;> simp [flagAt, Machine.place]

theorem Spans.flag (b : Bool) (n : Nat) (h : n < 32 := by decide) : Spans (flagAt b n) n (n + 1) (2 ^ n * b.toNat) := by
  rw [flagAt_eq_place, ← BitVec.toNat_ofBool]
  exact .place _ _ h

/-- Fields that do not overlap add up. -/
theorem Spans.or (h : Spans w lo hi v) (k : Spans u lo' hi' v') (hle : hi ≤ lo' := by decide) :
    Spans (w ||| u) lo hi' (v + v') := by
  have hlow := h.order
  have hhigh := k.order
  have hor : v ||| v' = v + v' := by
    obtain ⟨a, rfl⟩ := k.lower
    have hlt : v < 2 ^ lo' := h.upper.trans_le (Nat.pow_le_pow_right (by decide) hle)
    rw [Nat.or_comm, ← Nat.two_pow_add_eq_or_of_lt hlt, Nat.add_comm]
  refine ⟨by omega, ?_, Nat.dvd_add h.lower ((Nat.pow_dvd_pow 2 (hlow.trans hle)).trans k.lower), ?_⟩
  · rw [BitVec.toNat_or, h.toNat, k.toNat, hor]
  · rw [← hor]
    exact Nat.or_lt_two_pow (h.upper.trans_le (Nat.pow_le_pow_right (by decide) (hle.trans hhigh))) k.upper

/-- The fields of a word may be written in either order. -/
theorem Spans.comm (h : Spans (w ||| u) lo hi v) : Spans (u ||| w) lo hi v := BitVec.or_comm w u ▸ h

/-- Four bits put below a word that is moved up. -/
theorem Spans.shift_or_nibble (h : Spans w 0 n v) (x : BitVec 4) (hn : n + 4 ≤ 32) :
    Spans ((w <<< 4) ||| Machine.place x 0) 0 (n + 4) (x.toNat + 16 * v) := by
  have hlt := h.upper
  have hsize : 2 ^ (n + 4) ≤ 2 ^ 32 := Nat.pow_le_pow_right (by decide) hn
  have hpow : 2 ^ (n + 4) = 16 * 2 ^ n := Nat.pow_add' ..
  have hshift : Spans (w <<< 4) 4 (n + 4) (16 * v) := by
    refine ⟨by omega, ?_, ⟨v, rfl⟩, by omega⟩
    rw [BitVec.toNat_shiftLeft, h.toNat, Nat.shiftLeft_eq, Nat.mod_eq_of_lt (by omega), Nat.mul_comm]
  have hnibble : Spans (Machine.place x 0) 0 4 x.toNat := by simpa using Spans.place x 0
  exact (hnibble.or hshift).comm

/-- Table 11-13: nibbles stored lowest first hold the number whose base 16 digits they are. -/
theorem spans_nibbles (cs : List (BitVec 4)) (h : 4 * cs.length ≤ 32) :
    Spans (cs.foldr (fun c acc => (acc <<< 4) ||| Machine.place c 0) 0) 0 (4 * cs.length)
      (Nat.ofDigits 16 (cs.map (·.toNat))) := by
  induction cs with
  | nil => exact ⟨le_rfl, rfl, one_dvd _, Nat.one_pos⟩
  | cons c cs ih =>
    rw [List.length_cons] at h
    have hrest := (ih (by omega)).shift_or_nibble c (by omega)
    rwa [List.map_cons, Nat.ofDigits_cons, List.foldr_cons, List.length_cons, Nat.mul_add]

/-- A number from its base 16 digits, as a sum over their places. -/
theorem ofDigits_finRange (f : Fin n → Nat) :
    Nat.ofDigits 16 ((List.finRange n).map f) = ((List.finRange n).map fun k => f k * 16 ^ k.val).sum := by
  rw [Nat.ofDigits_eq_sum_mapIdx]
  congr 1
  exact List.ext_getElem (by simp) fun k _ _ => by simp

/-! ### Flags, counts and indexes as numbers -/

/-- A flag of weight `k`. -/
theorem ite_eq_mul_toNat (b : Bool) (k : Nat) : (if b then k else 0) = k * b.toNat := by cases b <;> simp

/-- A count put into a field of `len` bits, its higher bits discarded. -/
theorem Spans.count (len k lo : Nat) (h : lo + len ≤ 32 := by decide) :
    Spans (Machine.place (BitVec.ofNat len k) lo) lo (lo + len) (2 ^ lo * (k % 2 ^ len)) := by
  rw [← BitVec.toNat_ofNat]
  exact .place _ _ h

theorem ofNat_fin_toNat (i : Fin n) (h : n ≤ 2 ^ len := by decide) : (BitVec.ofNat len i.val).toNat = i.val :=
  Nat.mod_eq_of_lt (i.isLt.trans_le h)

/-- A section index put into a field of eight bits. -/
theorem Spans.index (i : Fin 32) (lo : Nat) (h : lo + 8 ≤ 32 := by decide) :
    Spans (Machine.place (BitVec.ofNat 8 i.val) lo) lo (lo + 8) (2 ^ lo * i.val) := by
  have hfield := Spans.place (BitVec.ofNat 8 i.val) lo h
  rwa [ofNat_fin_toNat] at hfield

theorem toList_eq_map_get {α : Type} (t : Table α n) : t.toList = (List.finRange n).map t.get :=
  List.ext_getElem (by simp [t.size_eq]) fun k _ _ => by simp [Table.get_eq]

end Sys2Proof.Machine.WordValues
end

