-- ==== Sys2Proof/Proofs/RegionRecords.lean ====
section
/-! PROOFS. READ of a record (R170), and the words of the records of every region (R161, R203, R205, Tables 11-7 to
11-13). Settles O38. -/

namespace Sys2Proof.Machine.RegionRecords

open RunnerRequest RunnerRecords WordValues

variable {s : State} {tag region count : BitVec 8} {record offset : BitVec 16} {n bound : Nat} {i : Fin 32}

/-! ### READ (R170) -/

theorem regionRecords_none (h : region = 0 ∨ 9 < region.toNat) : regionRecords region = none := by
  rcases h with rfl | h
  · rfl
  · have hne : ∀ b : BitVec 8, b.toNat ≤ 9 → region ≠ b := by
      rintro b hb rfl
      omega
    simp [regionRecords, hne]

theorem readRequest_noRegion (h : regionRecords region = none) :
    readRequest region record offset n s = refuse .badRequest s := by
  rw [readRequest, h]

theorem readRequest_noRecord {k : Nat} (h : regionRecords region = some k) (hr : k ≤ record.toNat) :
    readRequest region record offset n s = refuse .badValue s := by
  rw [readRequest, h]
  exact if_pos hr

/-- R170: of a record other than the stream and the peek, the words from the offset on. -/
theorem readRequest_record {k : Nat} (h : regionRecords region = some k) (hr : record.toNat < k)
    (hring : ¬ ((region = 6 ∨ region = 7) ∧ record = 0)) : readRequest region record offset n s =
      (s, { code := .ok, data := ((s.recordWords region record.toNat).drop offset.toNat).take n
            firstHeader := none }) := by
  have hstream : ¬ (region = 6 ∧ record = 0) := fun h => hring ⟨.inl h.1, h.2⟩
  have hpeek : ¬ (region = 7 ∧ record = 0) := fun h => hring ⟨.inr h.1, h.2⟩
  rw [readRequest, h]
  exact (if_neg (by omega)).trans ((if_neg hstream).trans (if_neg hpeek))

/-! ### The records of the regions (R205) -/

theorem atIndex_val (i : Fin n) (f : Fin n → List Word) : atIndex i.val f = f i := by
  rw [atIndex, index?_val]

theorem recordWords_section (i : Fin 32) (s : State) : s.recordWords 1 i.val = s.sectionWords i := atIndex_val i _
theorem recordWords_set (k : Fin 8) (s : State) : s.recordWords 2 k.val = s.setWords k := atIndex_val k _
theorem recordWords_program (k : Fin 512) (s : State) : s.recordWords 3 k.val = (s.program.get k).words :=
  atIndex_val k fun k : Fin 512 => (s.program.get k).words
theorem recordWords_runner (r : Fin 4) (s : State) : s.recordWords 4 r.val = s.runnerWords r := atIndex_val r _
theorem recordWords_trip (i : Fin 32) (s : State) : s.recordWords 5 i.val = s.tripWords i := atIndex_val i _

/-! ### BRIDGE (Table 11-13) -/

theorem mode_code_toNat (m : Mode) :
    m.code.toNat = match m with | .relayed => 0 | .standby => 1 | .engaged => 2 := by cases m <;> rfl

/-- Table 11-13: the six words of the BRIDGE record. -/
theorem bridgeWords_toNat (s : State) : s.bridgeWords.map (·.toNat) =
    [ (match s.control.mode with | .relayed => 0 | .standby => 1 | .engaged => 2) +
        (if s.control.key.filtered then 16 else 0),
      s.control.strap.toNat, s.link.timeout.toNat, s.link.period.toNat, s.link.lastCycle.toNat,
      (if s.service.prot.tuning then 1 else 0) + (if s.service.prot.limits then 2 else 0) +
        (if s.service.prot.sets then 4 else 0) + (if s.service.prot.program then 8 else 0) ] := by
  simp only [State.bridgeWords, List.map_cons, List.map_nil, List.cons.injEq, true_and, and_true, ← mode_code_toNat,
    ite_eq_mul_toNat, State.keyOn]
  exact ⟨((Spans.place _ 0).or (.flag _ 4)).toNat_eq, (Spans.place _ 0).toNat_eq, (Spans.place _ 0).toNat_eq,
    (Spans.place _ 0).toNat_eq, ((((Spans.flag _ 0).or (.flag _ 1)).or (.flag _ 2)).or (.flag _ 3)).toNat_eq⟩

/-! ### SECTION (Table 11-7) -/

theorem sectionMode_code_toNat (m : SectionMode) : m.code.toNat = match m with | .pass => 0 | .active => 1 := by
  cases m <;> rfl

theorem overrideFn_code_toNat (f : OverrideFn) :
    f.code.toNat = match f with | .replace => 0 | .and => 1 | .or => 2 | .xor => 3 := by cases f <;> rfl

theorem cutoff_code_toNat (c : Cutoff) :
    c.code.toNat = match c with | .hold => 0 | .strip => 1 | .stop => 2 | .ignore => 3 := by cases c <;> rfl

/-- Table 11-7, words 0 to 12. -/
theorem settingWords_toNat (c : SectionSettings) : c.words.map (·.toNat) =
    [ 0x80000000 * c.valid.toNat + c.node.toNat,
      (match c.mode with | .pass => 0 | .active => 1) +
        256 * (match c.overrideFn with | .replace => 0 | .and => 1 | .or => 2 | .xor => 3),
      c.draw.toNat, c.trimLimit.toNat, c.slewLimit.toNat, 65536 * c.overrideMask.toNat + c.overrideValue.toNat,
      c.vMin.toNat, c.vMax.toNat,
      c.torqueCap.toNat + 65536 * (match c.cutoff with | .hold => 0 | .strip => 1 | .stop => 2 | .ignore => 3) +
        0x1000000 * c.breakResponse.toNat,
      65536 * c.stopMask.toNat + c.stopValue.toNat, c.devLimit.toNat, c.devPersist.toNat + 256 * c.fbLimit.toNat,
      65536 * c.faultCare.toNat + c.faultValue.toNat ] := by
  simp only [SectionSettings.words, List.map_cons, List.map_nil, List.cons.injEq, true_and, and_true, halves_toNat,
    ← sectionMode_code_toNat, ← overrideFn_code_toNat, ← cutoff_code_toNat]
  exact ⟨((Spans.place _ 0).or (.flag _ 31)).comm.toNat_eq, ((Spans.place _ 0).or (.place _ 8)).toNat_eq,
    (((Spans.place _ 0).or (.place _ 16)).or (.flag _ 24)).toNat_eq, ((Spans.place _ 0).or (.place _ 8)).toNat_eq⟩

/-- R6, R116: a bound section is read from the one context that lists it. -/
theorem boundRunner_of_mem {r : Fin 4} (hok : RunnersOk s) (hr : i ∈ (s.runner r).slots) :
    s.boundRunner i = some r := by
  obtain ⟨-, -, -, -, -, hone⟩ := hok
  obtain ⟨q, hq⟩ := Option.isSome_iff_exists.1 (boundRunner_isSome.2 ⟨r, hr⟩)
  have hmem : i ∈ (s.runner q).slots := by simpa using List.find?_some hq
  rw [hq, hone q r i hmem hr]

theorem boundRunner_of_forall_not_mem (h : ∀ r, i ∉ (s.runner r).slots) : s.boundRunner i = none := by
  rw [← Option.not_isSome_iff_eq_none, boundRunner_isSome]
  exact fun ⟨r, hr⟩ => h r hr

theorem inject_of_mem {r : Fin 4} (hok : RunnersOk s) (hr : i ∈ (s.runner r).slots) :
    s.inject i = (s.runner r).injection := by
  rw [State.inject, boundRunner_of_mem hok hr]

theorem inject_of_forall_not_mem (h : ∀ r, i ∉ (s.runner r).slots) : s.inject i = 0 := by
  rw [State.inject, boundRunner_of_forall_not_mem h]

/-- Table 11-7, word 13: the field of the bound runner. -/
def boundField (s : State) (i : Fin 32) : BitVec 4 :=
  (s.boundRunner i).elim 0xF fun r => BitVec.ofNat 4 r.val

theorem boundField_toNat (hok : RunnersOk s)
    (h : (∃ r, i ∈ (s.runner r).slots ∧ bound = r.val) ∨ ((∀ r, i ∉ (s.runner r).slots) ∧ bound = 15)) :
    (boundField s i).toNat = bound := by
  rcases h with ⟨r, hr, rfl⟩ | ⟨hnone, rfl⟩
  · rw [boundField, boundRunner_of_mem hok hr]
    exact ofNat_fin_toNat r
  · rw [boundField, boundRunner_of_forall_not_mem hnone]
    rfl

theorem sectionStatusWords_eq (s : State) (i : Fin 32) : s.sectionStatusWords i =
    [ flagAt (s.tripped i) 0 ||| flagAt (s.rw i).lastOut.isSome 1 ||| place (boundField s i) 4,
      place (s.counts i).missing 0 ||| place (s.counts i).deviation 8 ||| place (s.sh i).imbalance 16,
      (s.rw i).trim, (s.sh i).trim, s.inject i, (s.rw i).lastIn.speed,
      halves (s.rw i).lastIn.command (s.rw i).lastIn.torque, ((s.rw i).lastOut.getD ⟨0, 0, 0⟩).speed,
      halves ((s.rw i).lastOut.getD ⟨0, 0, 0⟩).command ((s.rw i).lastOut.getD ⟨0, 0, 0⟩).torque ] := by
  rw [State.sectionStatusWords, boundField]
  cases s.boundRunner i <;> rfl

theorem lastOut_getD (x : Option RefFields) : x.getD ⟨0, 0, 0⟩ =
    match x with | some o => o | none => { speed := 0, command := 0, torque := 0 } := by cases x <;> rfl

/-- Table 11-7, words 13 to 21. -/
theorem sectionStatusWords_toNat (hok : RunnersOk s)
    (hb : (∃ r, i ∈ (s.runner r).slots ∧ bound = r.val) ∨ ((∀ r, i ∉ (s.runner r).slots) ∧ bound = 15)) :
    let x := s.rw i
    let out : RefFields := match x.lastOut with | some o => o | none => { speed := 0, command := 0, torque := 0 }
    (s.sectionStatusWords i).map (·.toNat) =
      [ (s.tripped i).toNat + 2 * x.lastOut.isSome.toNat + 16 * bound,
        (s.counts i).missing.toNat + 256 * (s.counts i).deviation.toNat + 65536 * (s.sh i).imbalance.toNat,
        x.trim.toNat, (s.sh i).trim.toNat, (s.inject i).toNat, x.lastIn.speed.toNat,
        65536 * x.lastIn.command.toNat + x.lastIn.torque.toNat, out.speed.toNat,
        65536 * out.command.toNat + out.torque.toNat ] := by
  intro x out
  have hbound := boundField_toNat hok hb
  simp only [sectionStatusWords_eq, List.map_cons, List.map_nil, List.cons.injEq, and_true, halves_toNat, lastOut_getD,
    x, out]
  exact ⟨(((Spans.flag _ 0).or (.flag _ 1)).or (.place _ 4)).toNat_eq,
    (((Spans.place _ 0).or (.place _ 8)).or (.place _ 16)).toNat_eq⟩

/-! ### SET (Table 11-8) -/

theorem setState_code_toNat (x : SetState) :
    x.code.toNat = match x with | .inactive => 0 | .sharing => 1 | .degraded => 2 | .halted => 3 := by
  cases x <;> rfl

theorem absentCoded_toNat (x : Option Word) :
    (absentCoded x).toNat = match x with | some e => e.toNat | none => 0x80000000 := by cases x <;> rfl

/-- Table 11-8, words 0 to 8. -/
theorem setSettingWords_toNat (c : SetSettings) : c.words.map (·.toNat) =
    [ 0x80000000 * c.valid.toNat + c.memberCount.toNat,
      (c.members.get 0).val + 256 * (c.members.get 1).val + 65536 * (c.members.get 2).val +
        0x1000000 * (c.members.get 3).val,
      (c.members.get 4).val + 256 * (c.members.get 5).val,
      65536 * (c.bias.get 0).toNat + (c.bias.get 1).toNat, 65536 * (c.bias.get 2).toNat + (c.bias.get 3).toNat,
      65536 * (c.bias.get 4).toNat + (c.bias.get 5).toNat, c.gain.toNat + 65536 * c.deadband.toNat,
      c.imbThreshold.toNat + 65536 * c.imbPersist.toNat, c.shareLimit.toNat ] := by
  simp only [SetSettings.words, List.map_cons, List.map_nil, List.cons.injEq, true_and, and_true, halves_toNat]
  exact ⟨((Spans.place _ 0).or (.flag _ 31)).comm.toNat_eq,
    ((((Spans.index _ 0).or (.index _ 8)).or (.index _ 16)).or (.index _ 24)).toNat_eq,
    ((Spans.index _ 0).or (.index _ 8)).toNat_eq, ((Spans.place _ 0).or (.place _ 16)).toNat_eq,
    ((Spans.place _ 0).or (.place _ 16)).toNat_eq⟩

/-- Table 11-8, words 9 to 16. -/
theorem setStatusWords_toNat (k : Fin 8) (s : State) : (s.setStatusWords k).map (·.toNat) =
    [ (match (s.setStat k).state with | .inactive => 0 | .sharing => 1 | .degraded => 2 | .halted => 3) +
        16 * (s.setStat k).settled.toNat + 256 * ((s.setStat k).contributing % 8), (s.setStat k).lastRef.toNat ] ++
      (List.finRange 6).map fun p => match (s.setStat k).lastErr.get p with
        | some e => e.toNat
        | none => 0x80000000 := by
  have hstate : (place (s.setStat k).state.code 0 ||| flagAt (s.setStat k).settled 4 |||
      place (BitVec.ofNat 3 (s.setStat k).contributing) 8).toNat = (s.setStat k).state.code.toNat +
        16 * (s.setStat k).settled.toNat + 256 * ((s.setStat k).contributing % 8) :=
    (((Spans.place _ 0).or (.flag _ 4)).or (.count 3 _ 8)).toNat_eq
  simp only [State.setStatusWords, List.map_append, List.map_cons, List.map_nil, List.map_map, hstate,
    setState_code_toNat, toList_eq_map_get, ← absentCoded_toNat]
  rfl

/-! ### RUNNER (Table 11-10) -/

theorem runnerState_code_toNat (x : RunnerState) : x.code =
    match x with | .idle => 0 | .running => 1 | .waiting => 2 | .done => 3 | .faulted => 4 := by cases x <;> rfl

/-- Table 11-11: the outcomes and the fault causes. -/
theorem resultCode_eq (c : Runner) : c.resultCode =
    match c.outcome, c.fault with
    | some .ended, _ => 1
    | some .stopped, _ => 2
    | some .disengaged, _ => 3
    | none, some .badStep => 8
    | none, some .budget => 9
    | none, some .nesting => 10
    | none, some .timeout => 11
    | none, some .tripped => 12
    | none, none => 0 := by
  rw [Runner.resultCode]
  cases c.outcome with
  | some o => cases o <;> rfl
  | none =>
    cases c.fault with
    | none => rfl
    | some f => cases f <;> rfl

theorem code_lt_eight (x : RunnerState) : x.code < 8 := by cases x <;> decide

theorem resultCode_lt_sixteen (c : Runner) : c.resultCode < 16 := by
  have houtcome : ∀ o : RunnerOutcome, o.code < 16 := fun o => by cases o <;> decide
  have hfault : ∀ f : RunnerFault, f.code < 16 := fun f => by cases f <;> decide
  rw [Runner.resultCode]
  split
  · exact houtcome _
  · exact hfault _
  · decide

/-- Table 11-10, word 3: an idle loop counter reads as 0. -/
def loopWord (l : Option LoopCounter) : Word :=
  l.elim 0 fun l => flagAt true 31 ||| place (BitVec.ofNat 9 l.owner) 16 ||| place l.remaining 0

theorem loopWord_toNat (l : Option LoopCounter) : (loopWord l).toNat =
    match l with | none => 0 | some l => 0x80000000 + 65536 * (l.owner % 512) + l.remaining.toNat := by
  cases l with
  | none => rfl
  | some l =>
    show (_ ||| _ ||| _ : Word).toNat = 0x80000000 + 65536 * (l.owner % 512) + l.remaining.toNat
    exact ((Spans.place _ 0).or ((Spans.count 9 _ 16).or (.flag true 31)).comm).comm.toNat_eq
      (by rw [Bool.toNat_true]; omega)

theorem slotByte_toNat (c : Runner) (k : Nat) : (c.slotByte k).toNat =
    match c.slots[k]? with | some i => i.val | none => 255 := by
  rw [Runner.slotByte]
  cases c.slots[k]? with
  | none => rfl
  | some i => exact ofNat_fin_toNat i

theorem runnerWords_eq (r : Fin 4) (s : State) : s.runnerWords r =
    [ place (BitVec.ofNat 3 (s.runner r).state.code) 0 ||| place (BitVec.ofNat 4 (s.runner r).resultCode) 8 |||
        place (s.runner r).endCode 16 ||| flagAt (s.runner r).recording 24,
      halves (BitVec.ofNat 16 (s.runner r).faultStep) (BitVec.ofNat 16 (s.runner r).step), (s.runner r).injection,
      loopWord (s.runner r).loop, halves (s.runner r).rampProgress (s.runner r).wait, (s.runner r).rampOrigin,
      place (s.runner r).decimation 0 ||| place (s.runner r).phase 8 |||
        place (BitVec.ofNat 3 (s.runner r).slots.length) 16,
      place ((s.runner r).slotByte 0) 0 ||| place ((s.runner r).slotByte 1) 8 |||
        place ((s.runner r).slotByte 2) 16 ||| place ((s.runner r).slotByte 3) 24,
      place s.runners.marks 0 ] := by
  rw [State.runnerWords, loopWord]
  cases (s.runner r).loop <;> rfl

/-- Table 11-10: the nine words of a runner record. -/
theorem runnerWords_toNat (r : Fin 4) (s : State) :
    let c := s.runner r
    let slot := fun k : Nat => match c.slots[k]? with | some i => i.val | none => 255
    (s.runnerWords r).map (·.toNat) =
      [ (match c.state with | .idle => 0 | .running => 1 | .waiting => 2 | .done => 3 | .faulted => 4) +
          256 * (match c.outcome, c.fault with
            | some .ended, _ => 1
            | some .stopped, _ => 2
            | some .disengaged, _ => 3
            | none, some .badStep => 8
            | none, some .budget => 9
            | none, some .nesting => 10
            | none, some .timeout => 11
            | none, some .tripped => 12
            | none, none => 0) +
          65536 * c.endCode.toNat + 0x1000000 * c.recording.toNat,
        c.step % 65536 + 65536 * (c.faultStep % 65536), c.injection.toNat,
        (match c.loop with | none => 0 | some l => 0x80000000 + 65536 * (l.owner % 512) + l.remaining.toNat),
        c.wait.toNat + 65536 * c.rampProgress.toNat, c.rampOrigin.toNat,
        c.decimation.toNat + 256 * c.phase.toNat + 65536 * (c.slots.length % 8),
        slot 0 + 256 * slot 1 + 65536 * slot 2 + 0x1000000 * slot 3, s.runners.marks.toNat ] := by
  intro c slot
  have hcode := code_lt_eight (s.runner r).state
  have hresult := resultCode_lt_sixteen (s.runner r)
  simp only [runnerWords_eq, List.map_cons, List.map_nil, List.cons.injEq, true_and, and_true, halves_toNat,
    loopWord_toNat, BitVec.toNat_ofNat, ← runnerState_code_toNat, ← resultCode_eq, c, slot, ← slotByte_toNat]
  exact ⟨((((Spans.count 3 _ 0).or (.count 4 _ 8)).or (.place _ 16)).or (.flag _ 24)).toNat_eq, Nat.add_comm ..,
    Nat.add_comm .., (((Spans.place _ 0).or (.place _ 8)).or (.count 3 _ 16)).toNat_eq,
    ((((Spans.place _ 0).or (.place _ 8)).or (.place _ 16)).or (.place _ 24)).toNat_eq, (Spans.place _ 0).toNat_eq⟩

/-! ### TRIP (Table 11-12) -/

theorem tripCause_code_lt_sixteen (c : TripCause) : c.code < 16 := by cases c <;> decide

theorem tripCause_code_eq (c : TripCause) : c.code = match c with
    | .brk => 1
    | .link => 2
    | .drive => 3
    | .deviation => 4
    | .feedback => 5
    | .imbalance => 6
    | .manual => 7
    | .program => 8
    | .peer => 9 := by cases c <;> rfl

/-- Table 11-12: with no trip record and no trip every word reads as 0. -/
theorem tripWords_none (h : (s.tp i).record = none) (hlatch : s.tripped i = false) : s.tripWords i = [0, 0, 0, 0] := by
  have hflag : flagAt (s.tp i).latch 0 = 0 := if_neg (by rw [← State.tripped, hlatch]; decide)
  rw [State.tripWords, h]
  exact congrArg (· :: [0, 0, 0]) hflag

theorem tripWords_some {x : TripRecord} (h : (s.tp i).record = some x) : s.tripWords i =
    [ flagAt (s.tripped i) 0 ||| flagAt true 1 ||| place (BitVec.ofNat 4 x.cause.code) 8,
      place x.cycle 0 ||| flagAt x.speed.isSome 16, x.speed.getD 0, place x.later 0 ] := by
  rw [State.tripWords, h]
  rfl

theorem speed_getD_toNat (x : Option Word) : (x.getD 0).toNat = match x with | some v => v.toNat | none => 0 := by
  cases x <;> rfl

/-- Table 11-12: the four words of a present trip record. -/
theorem tripWords_toNat {x : TripRecord} (h : (s.tp i).record = some x) : (s.tripWords i).map (·.toNat) =
    [ (s.tripped i).toNat + 2 + 256 * (match x.cause with
        | .brk => 1
        | .link => 2
        | .drive => 3
        | .deviation => 4
        | .feedback => 5
        | .imbalance => 6
        | .manual => 7
        | .program => 8
        | .peer => 9),
      x.cycle.toNat + 65536 * x.speed.isSome.toNat, (match x.speed with | some v => v.toNat | none => 0),
      x.later.toNat ] := by
  have hcode := tripCause_code_lt_sixteen x.cause
  simp only [tripWords_some h, List.map_cons, List.map_nil, List.cons.injEq, true_and, and_true, speed_getD_toNat,
    ← tripCause_code_eq]
  exact ⟨(((Spans.flag _ 0).or (.flag true 1)).or (.count 4 _ 8)).toNat_eq (by rw [Bool.toNat_true]; omega),
    ((Spans.place _ 0).or (.flag _ 16)).toNat_eq, (Spans.place _ 0).toNat_eq⟩

/-! ### The ring status (R161) -/

theorem statusWords_eq (g : Ring) : g.statusWords =
    [ natWord g.words.length, natWord (8192 - g.words.length), place g.drops 0,
      (g.words.findIdx? (·.first)).elim 0xFFFFFFFF natWord ] := by
  rw [Ring.statusWords, firstHeader]
  cases g.words.findIdx? (·.first) <;> rfl

/-- A count or an offset of the ring stands in its word as it is. -/
theorem natWord_toNat (h : n ≤ 8192) : (natWord n).toNat = n := Nat.mod_eq_of_lt (by omega)

theorem firstHeader_toNat {ws : List RingWord} (h : ws.length ≤ 8192) :
    ((ws.findIdx? (·.first)).elim 0xFFFFFFFF natWord).toNat =
      match ws.findIdx? (·.first) with | some k => k | none => 0xFFFFFFFF := by
  cases hfirst : ws.findIdx? (·.first) with
  | none => rfl
  | some k =>
    have hk := (List.findIdx?_eq_some_iff_getElem.1 hfirst).1
    exact natWord_toNat (by omega)

/-- R161: the used, free and drop counts, and the offset of the first record. -/
theorem statusWords_toNat {g : Ring} (h : g.words.length ≤ 8192) : g.statusWords.map (·.toNat) =
    [ g.words.length, 8192 - g.words.length, g.drops.toNat,
      (match g.words.findIdx? (·.first) with | some k => k | none => 0xFFFFFFFF) ] := by
  simp only [statusWords_eq, List.map_cons, List.map_nil, List.cons.injEq, and_true]
  exact ⟨natWord_toNat h, natWord_toNat (Nat.sub_le ..), (Spans.place _ 0).toNat_eq, firstHeader_toNat h⟩

/-! ### EVENTS (Table 11-13) -/

theorem stuck_code_toNat (x : StuckRecord) :
    x.code.toNat = match x with | .none => 0 | .portC => 1 | .portD => 2 | .both => 3 := by cases x <;> rfl

/-- Table 11-13: eight classes, the class of the lowest event in the lowest four bits. -/
theorem classWord_toNat {u : EventUnit} {base : Nat} {c : Fin 8 → BitVec 4}
    (h : (u.classes.toList.drop base).take 8 = (List.finRange 8).map c) :
    (u.classWord base).toNat = ((List.finRange 8).map fun n => (c n).toNat * 16 ^ n.val).sum := by
  have hspan := (spans_nibbles ((List.finRange 8).map c) (by simp)).toNat
  rw [List.map_map, ofDigits_finRange] at hspan
  rw [EventUnit.classWord, h, hspan]
  rfl

theorem lowClasses (t : Table (BitVec 4) 16) :
    (t.toList.drop 0).take 8 = (List.finRange 8).map fun n => t.get (Fin.castAdd 8 n) :=
  List.ext_getElem (by simp [t.size_eq]) fun k _ _ => by simp [Table.get_eq]

theorem highClasses (t : Table (BitVec 4) 16) :
    (t.toList.drop 8).take 8 = (List.finRange 8).map fun n => t.get (Fin.natAdd 8 n) :=
  List.ext_getElem (by simp [t.size_eq]) fun k _ _ => by simp [Table.get_eq, Nat.add_comm]

/-- Table 11-13: the five words of the EVENTS record. -/
theorem eventWords_toNat (s : State) : s.eventWords.map (·.toNat) =
    [ s.events.flags.toNat, s.events.masks.toNat,
      ((List.finRange 8).map fun n => (s.events.classes.get (Fin.castAdd 8 n)).toNat * 16 ^ n.val).sum,
      ((List.finRange 8).map fun n => (s.events.classes.get (Fin.natAdd 8 n)).toNat * 16 ^ n.val).sum,
      (match s.link.stuck with | .none => 0 | .portC => 1 | .portD => 2 | .both => 3) ] := by
  simp only [State.eventWords, List.map_cons, List.map_nil, List.cons.injEq, true_and, and_true,
    classWord_toNat (lowClasses _), classWord_toNat (highClasses _), ← stuck_code_toNat]
  exact ⟨(Spans.place _ 0).toNat_eq, (Spans.place _ 0).toNat_eq, (Spans.place _ 0).toNat_eq⟩

/-- Settles O38: the refusals of READ and the words it returns, then the words of each region's records. -/
theorem readRecord : Obligations.ReadRecord := by
  refine ⟨fun tag region record offset count s hs => ⟨fun h => ?_, fun n hn hr => ?_, fun n hn hr hring hc => ?_⟩,
    bridgeWords_toNat,
    fun i bound s hok hb => ⟨?sectionWords, fun r hr => inject_of_mem hok hr, inject_of_forall_not_mem⟩,
    fun k s => ?setWords, recordWords_program, fun r s => ?runnerWords,
    fun i s => ⟨fun h hlatch => ?noTrip, fun x h => ?trip⟩, fun s hok region hregion => ?ring, eventWords_toNat⟩
  · exact next_refused hs (readRequest_noRegion (regionRecords_none h))
  · exact next_refused hs (readRequest_noRecord hn hr)
  · exact CaptureRing.exec_read hs hc (readRequest_record hn hr hring)
  case sectionWords =>
    rw [recordWords_section, State.sectionWords, List.map_append]
    exact congrArg₂ (· ++ ·) (settingWords_toNat _) (sectionStatusWords_toNat hok hb)
  case setWords =>
    rw [recordWords_set, State.setWords, List.map_append]
    have hwords := congrArg₂ (· ++ ·) (setSettingWords_toNat (s.share.sets.get k)) (setStatusWords_toNat k s)
    exact hwords.trans (List.append_assoc ..).symm
  case runnerWords =>
    rw [recordWords_runner]
    exact runnerWords_toNat r s
  case noTrip =>
    rw [recordWords_trip, tripWords_none h hlatch]
    rfl
  case trip =>
    rw [recordWords_trip]
    exact tripWords_toNat h
  case ring =>
    obtain ⟨hlen, -⟩ := hok
    rcases hregion with rfl | rfl
    · exact statusWords_toNat hlen
    · exact statusWords_toNat hlen

end Sys2Proof.Machine.RegionRecords
end
